-- ==== Sys2Proof/Word.lean ====
section
/-! DEFINITION. The word types of CORE (00_scope.md R9): every register and every RAM word is 64 bits. -/

namespace Sys2Proof

/-- One 64-bit word: a register, a RAM word, a delay-line word (R9). As an integer it is the unsigned `u64` of R18. -/
abbrev Word := BitVec 64

/-- A word read as an IEEE 754 binary64 value (R9, R12): the bit pattern itself, the sign in bit 63 (R102). -/
abbrev F64 := BitVec 64

end Sys2Proof
end

