-- ==== Sys2Proof/Config.lean ====
section
/-! DEFINITION. What an implementation of CORE fixes (00_scope.md R8, R14) and the free values of the model. -/

namespace Sys2Proof

/-- The capacities of R8, "parameters as arguments" of the model. They are carried by the state and changed by no step
(assumption 9). -/
structure Params where
  /-- MAX_TAB: largest VCO_TSIZE and MOD_TSIZE. -/
  maxTab : Nat
  /-- MAX_FIR: largest LPF_LEN, ELG_LF_LEN, RRC_LEN. -/
  maxFir : Nat
  /-- MAX_DELAY: largest ELG_SYMLEN, ELG_MF_LEN, ELG_DELAY, COMP_DELAY. -/
  maxDelay : Nat
  /-- MAX_SPS: largest SPS. -/
  maxSps : Nat
  /-- MIN_FFT: smallest FFT_LEN. -/
  minFft : Nat
  /-- MAX_FFT: largest FFT_LEN. -/
  maxFft : Nat
  /-- MAX_SAMPLE_LEN: largest SAMPLE_LEN. -/
  maxSampleLen : Nat
  /-- MAX_SINC_ADJ: largest SINC_NA. -/
  maxSincAdj : Nat
  /-- MAX_SINC_LUT: largest SINC_LUTLEN. -/
  maxSincLut : Nat
  /-- MAX_ORDERS: largest NUM_ORDERS. -/
  maxOrders : Nat
  /-- MAX_ORDER_ADJ: largest ORDER_ADJ. -/
  maxOrderAdj : Nat
deriving DecidableEq, Repr

/-- The defaults of R8. -/
def Params.defaults : Params where
  maxTab := 4096
  maxFir := 256
  maxDelay := 1024
  maxSps := 256
  minFft := 4
  maxFft := 4096
  maxSampleLen := 8192
  maxSincAdj := 32
  maxSincLut := 4096
  maxOrders := 64
  maxOrderAdj := 16

namespace Config

/-- `Num.sin` of R14: a total function on binary64 values under no law. It has no body, so no proof can know a value of
it (assumption 6). -/
opaque numSin : F64 → F64

/-- `Num.log10` of R14 (assumption 6). -/
opaque numLog10 : F64 → F64

/-- `Num.pow10` of R14, 10 to the power of its argument (assumption 6). -/
opaque numPow10 : F64 → F64

/-- `Num.atan2(y, x)` of R14 (assumption 6). -/
opaque numAtan2 : F64 → F64 → F64

/-- FREE VALUE. The index into SINC_LUT of one tap of `SINC_AT(x)` (R279) at a position `x` that overflowed (`f64(k) × rho` of
R280): the spec states none, since R17 applies `floor` to finite values only. Read at the state's counter `freeNext` and the
number of the tap (assumption 7). -/
opaque freeSincIndex : Nat → Nat → Nat

/-- FREE VALUE. `floor(v)` of a value that is not finite, which R12 leaves undefined and no reachable state asks for
(assumption 8). -/
opaque floorNonFinite : F64 → Int

end Config
end Sys2Proof
end

