-- ==== Sys2Proof/Machine/Float.lean ====
section
/-! DEFINITION. IEEE 754 binary64 arithmetic (00_scope.md R12, R13, R17): round to nearest even, subnormals kept, the produced
NaN canonical, no flags. Every operation computes its exact result on integers and rounds once. The operations are irreducible, so
that no proof about the machine unfolds one by accident; the kernel evaluates them all the same. -/

namespace Sys2Proof.Fp

/-- +0.0. -/
def zero : F64 := 0x0000000000000000#64
/-- 0.08, the binary64 nearest (R10, R272). -/
def c008 : F64 := 0x3FB47AE147AE147B#64
/-- 0.25. -/
def quarter : F64 := 0x3FD0000000000000#64
/-- 0.42, the binary64 nearest (R10, R272). -/
def c042 : F64 := 0x3FDAE147AE147AE1#64
/-- 0.46, the binary64 nearest (R10, R272). -/
def c046 : F64 := 0x3FDD70A3D70A3D71#64
/-- 0.5. -/
def half : F64 := 0x3FE0000000000000#64
/-- 0.54, the binary64 nearest (R10, R272). -/
def c054 : F64 := 0x3FE147AE147AE148#64
/-- 1.0. -/
def one : F64 := 0x3FF0000000000000#64
/-- -1.0. -/
def negOne : F64 := 0xBFF0000000000000#64
/-- 2.0. -/
def two : F64 := 0x4000000000000000#64
/-- 3.0. -/
def three : F64 := 0x4008000000000000#64
/-- PI, the constant of R14. -/
def pi : F64 := 0x400921FB54442D18#64
/-- 60.0. -/
def sixty : F64 := 0x404E000000000000#64
/-- The canonical quiet NaN that `+ - × / sqrt` produce (R17). -/
def nan : F64 := 0x7FF8000000000000#64

/-- The sign bit. -/
def sign (v : F64) : Bool := v.msb
/-- The biased exponent field, bits 62:52. -/
def expField (v : F64) : Nat := (v.toNat >>> 52) % 2048
/-- The fraction field, bits 51:0. -/
def frac (v : F64) : Nat := v.toNat % 4503599627370496

def isNaN (v : F64) : Bool := expField v == 2047 && frac v != 0
def isInf (v : F64) : Bool := expField v == 2047 && frac v == 0
/-- `isfinite(v)` of R12: neither an infinity nor a NaN. -/
def isFinite (v : F64) : Bool := expField v != 2047
def isZero (v : F64) : Bool := expField v == 0 && frac v == 0

/-- The integer significand of a finite value. -/
def mant (v : F64) : Nat := if expField v = 0 then frac v else frac v + 4503599627370496
/-- The exponent of the significand's unit: a finite value is ± `mant` × 2 ^ `expo`. -/
def expo (v : F64) : Int := (if expField v = 0 then 1 else (expField v : Int)) - 1075
/-- The signed significand. -/
def smant (v : F64) : Int := if sign v then -(mant v : Int) else (mant v : Int)

/-- The pattern with the given sign and magnitude bits. -/
def signed (neg : Bool) (bits : Nat) : F64 := BitVec.ofNat 64 (if neg then bits + 9223372036854775808 else bits)
/-- ± 0. -/
def zeroOf (neg : Bool) : F64 := signed neg 0
/-- ± infinity. -/
def infOf (neg : Bool) : F64 := signed neg 9218868437227405312

/-- `m / 2 ^ d` rounded to the nearest integer, a tie to the even one. -/
def shiftRne (m d : Nat) : Nat :=
  if d = 0 then m
  else
    let q := m >>> d
    let r := m % (1 <<< d)
    let h := 1 <<< (d - 1)
    if r > h ∨ (r = h ∧ q % 2 = 1) then q + 1 else q

/-- The binary64 nearest to ± m × 2 ^ e, a tie to the even one (R12, R17): overflow gives an infinity, and a result below the
normal range is a subnormal or a zero of the sign given. -/
@[irreducible] def round (neg : Bool) (m : Nat) (e : Int) : F64 :=
  if m = 0 then zeroOf neg
  else
    let q : Int := max (e + (m.log2 : Int) - 52) (-1074)
    let r : Nat := if q ≤ e then m <<< (e - q).toNat else shiftRne m (q - e).toNat
    let bits : Nat := (q + 1074).toNat * 4503599627370496 + r
    if bits ≥ 9218868437227405312 then infOf neg else signed neg bits

/-- `-v`: the sign flipped, every other bit kept, also of a NaN (R17). -/
def neg (v : F64) : F64 := v ^^^ 0x8000000000000000#64
/-- `|v|`: the sign bit cleared (R12). -/
def abs (v : F64) : F64 := v &&& 0x7FFFFFFFFFFFFFFF#64

/-- Binary64 addition. An exact sum of zero is -0.0 only for (-0.0) + (-0.0). -/
@[irreducible] def add (a b : F64) : F64 :=
  if isNaN a || isNaN b then nan
  else if isInf a then (if isInf b && sign a != sign b then nan else a)
  else if isInf b then b
  else
    let e := min (expo a) (expo b)
    let s : Int := smant a * ((1 <<< (expo a - e).toNat : Nat) : Int) + smant b * ((1 <<< (expo b - e).toNat : Nat) : Int)
    if s = 0 then zeroOf (sign a && sign b) else round (decide (s < 0)) s.natAbs e

/-- Binary64 subtraction. -/
@[irreducible] def sub (a b : F64) : F64 := add a (neg b)

/-- Binary64 multiplication. -/
@[irreducible] def mul (a b : F64) : F64 :=
  if isNaN a || isNaN b then nan
  else if isInf a || isInf b then
    (if isZero a || isZero b then nan else infOf (sign a != sign b))
  else round (sign a != sign b) (mant a * mant b) (expo a + expo b)

/-- Binary64 division: the quotient to at least 67 bits and a sticky bit, rounded once. -/
@[irreducible] def div (a b : F64) : F64 :=
  if isNaN a || isNaN b then nan
  else if isInf a then (if isInf b then nan else infOf (sign a != sign b))
  else if isInf b then zeroOf (sign a != sign b)
  else if isZero b then (if isZero a then nan else infOf (sign a != sign b))
  else
    let n := mant a <<< 120
    let q := n / mant b
    let st := if n % mant b = 0 then 0 else 1
    round (sign a != sign b) (2 * q + st) (expo a - expo b - 121)

/-- The integer square root below `2 ^ k`, one bit at a time from bit `k - 1`, added to `r`. -/
def isqrtBits (n : Nat) : Nat → Nat → Nat
  | 0, r => r
  | k + 1, r =>
    let c := r + 1 <<< k
    if c * c ≤ n then isqrtBits n k c else isqrtBits n k r

/-- Binary64 square root: the root to at least 65 bits and a sticky bit, rounded once. -/
@[irreducible] def sqrt (v : F64) : F64 :=
  if isNaN v then nan
  else if isZero v then v
  else if sign v then nan
  else if isInf v then v
  else
    let k : Nat := if (expo v) % 2 = 0 then 130 else 131
    let n := mant v <<< k
    let r := isqrtBits n 93 0
    let st := if r * r = n then 0 else 1
    round false (2 * r + st) ((expo v - (k : Int)) / 2 - 1)

/-- The order of the values that are no NaN: -0.0 and +0.0 have one key. -/
def key (v : F64) : Int :=
  if sign v then -((v.toNat : Int) - 9223372036854775808) else (v.toNat : Int)

/-- `a < b` of R12: false when either is a NaN. -/
def lt (a b : F64) : Bool := !isNaN a && !isNaN b && decide (key a < key b)
/-- `a <= b` of R12. -/
def le (a b : F64) : Bool := !isNaN a && !isNaN b && decide (key a ≤ key b)
/-- `a = b` of R12: `-0.0 == +0.0`. -/
def eq (a b : F64) : Bool := !isNaN a && !isNaN b && decide (key a = key b)

/-- `a != b`, true when either is a NaN: IEEE 754's reading of R12, against its words "every comparison with a NaN is false".
DESIGN CHOICE (assumption 21). -/
def ne (a b : F64) : Bool := !eq a b

/-- `f64(n)` of R12 for an integer: the nearest binary64. -/
@[irreducible] def ofInt (n : Int) : F64 := round (decide (n < 0)) n.natAbs 0
/-- `f64(n)` of R12 for an unsigned integer. -/
@[irreducible] def ofNat (n : Nat) : F64 := round false n 0

/-- `floor(v)` of R12, an unbounded integer, of a finite value. R17 applies it to finite values only; of any other value the
result is an opaque constant (assumption 8). -/
@[irreducible] def floor (v : F64) : Int :=
  if isFinite v then
    (if 0 ≤ expo v then smant v * ((1 <<< (expo v).toNat : Nat) : Int)
     else smant v / ((1 <<< (-expo v).toNat : Nat) : Int))
  else Config.floorNonFinite v

/-- The binary64 nearest to the decimal ± n × 10 ^ e (R10, R138): a decimal with a fraction is divided out to at least 67 bits and
a sticky bit, and rounded once. -/
@[irreducible] def ofDecimal (neg : Bool) (n : Nat) (e : Int) : F64 :=
  if 0 ≤ e then round neg (n * 10 ^ e.toNat) 0
  else
    let p := 10 ^ (-e).toNat
    let s := p.log2 + 68
    let q := (n <<< s) / p
    let st := if (n <<< s) % p = 0 then 0 else 1
    round neg (2 * q + st) (-(s : Int) - 1)

/-- The decimal ± n × 10 ^ e is a binary64 value (R138: "must be exact in binary64"): its nearest binary64 is equal to it. -/
def isExactDecimal (neg : Bool) (n : Nat) (e : Int) : Bool :=
  let v := ofDecimal neg n e
  isFinite v && n * 10 ^ e.toNat * 2 ^ (-expo v).toNat == mant v * 2 ^ (expo v).toNat * 10 ^ (-e).toNat

/-- `sgn(v)` of R13. -/
def sgn (v : F64) : F64 := if lt v zero then negOne else one
/-- `max(a, b)` of R13: `a` when `a > b`, else `b`. -/
def max2 (a b : F64) : F64 := if lt b a then a else b

end Sys2Proof.Fp
end

