-- ==== Sys2Proof/Syntax.lean ====
section
/-! DEFINITION. The syntax of CORE: its nineteen commands (30_encoding.md R133), its registers (20_memory.md R101), the
RAM names (10_state.md R56), the bus transactions (R139) and the assembler statements (R137, R138). -/

namespace Sys2Proof

/-- The nineteen commands of R133, one constructor per row of the opcode table. No command has an operand field (R130):
operands are DIN0, DIN1 and latched configuration. -/
inductive Instr where
  /-- NOP (R314). -/
  | nop
  /-- CL_INIT (R168). -/
  | clInit
  /-- CL_STEP (R169). -/
  | clStep
  /-- ELG_STEP (R210). -/
  | elgStep
  /-- MAP_INIT (R237). -/
  | mapInit
  /-- MAP_ENC (R238). -/
  | mapEnc
  /-- MAP_DEC (R239). -/
  | mapDec
  /-- DEMAP_ACC (R240). -/
  | demapAcc
  /-- MOD_SYM (R241). -/
  | modSym
  /-- OA_INIT (R274). -/
  | oaInit
  /-- OA_PUSH (R275). -/
  | oaPush
  /-- OA_FLUSH (R276). -/
  | oaFlush
  /-- OA_FRAME (R286). -/
  | oaFrame
  /-- OA_FINAL (R287). -/
  | oaFinal
  /-- FFT (R311). -/
  | fft
  /-- WINGEN (R312). -/
  | wingen
  /-- SINC_RS (R313). -/
  | sincRs
  /-- CLR_ERR (R315). -/
  | clrErr
  /-- SOFT_RESET (R316). -/
  | softReset
deriving DecidableEq, Repr

/-- Every command, in the order of R133. -/
def Instr.all : List Instr :=
  [.nop, .clInit, .clStep, .elgStep, .mapInit, .mapEnc, .mapDec, .demapAcc, .modSym, .oaInit, .oaPush, .oaFlush,
   .oaFrame, .oaFinal, .fft, .wingen, .sincRs, .clrErr, .softReset]

/-- The observability registers of R39. -/
inductive ObsReg where
  | clPhase | clFb | clLf | elgTrigCnt | elgGoodCnt | elgSamples | elgTrigLat | mapTxPrev | mapRxPrev | modPhase
  | demapTick | oaFill | oaFrameCount | oaIcg | oaPhaseGain
deriving DecidableEq, Repr

/-- The CL and ELG configuration registers of R40. -/
inductive ClReg where
  | vcoTsize | carInc | vcoModidx | lpfLen | loopAlpha | fbMode | elgSymlen | elgMfLen | elgDelay | elgLfLen | elgThresh
  | compDelay | acqLimit
deriving DecidableEq, Repr

/-- The MAP configuration registers of R41. -/
inductive MapReg where
  | modMode | diffEn | sps | rrcEn | rrcLen | qamThresh | modTsize | modInc
deriving DecidableEq, Repr

/-- The OA configuration registers of R42. -/
inductive OaReg where
  | sampleLen | overlap | fftLen | sincNa | sincLutlen | winType | winCoef | fof | sampleRate | logMode | avgMode | cohType
  | dbScale | baseOrder | numOrders | orderAdj | numSum | logFloor
deriving DecidableEq, Repr

/-- The registers of the register window, R101. -/
inductive Reg where
  | id | cmd | status | irqStatus | irqEnable | din0 | din1 | dout0 | dout1 | dout2 | dout3 | ramSel | ramAddr | ramData
  | obs (r : ObsReg)
  | cl (r : ClReg)
  | map (r : MapReg)
  | oa (r : OaReg)
deriving DecidableEq, Repr

/-- The internal RAMs of R56, in the order of their ids 0 to 19. -/
inductive RamId where
  | lpfCoef | elgLfCoef | rrcCoef | vtab | mtab | modOut | sincLut | win | fftTw | bitrev | frameBuf | speedBuf | rsRe | rsIm
  | mag | orders | avgRe | avgIm | avgSpec | avgPhase
deriving DecidableEq, Repr

/-- The direction of a bus transaction (R139). -/
inductive Dir where
  /-- R: a host read. -/
  | read
  /-- W: a host write. -/
  | write
deriving DecidableEq, Repr

/-- One bus transaction of the host (R139): direction, 12-bit byte offset and data. `bits` is the width of the access, so
that the accesses R103 forbids can be written down; `data` is used by a write only. -/
structure Access where
  dir : Dir
  offset : BitVec 12
  bits : Nat
  data : Word
deriving DecidableEq, Repr

/-- What the host's queue holds: a bus transaction, the WAIT loop of R138 (read STATUS until BUSY = 0), CHKERR of R138 (read
STATUS and test it), or a power-on reset of the platform (R380, R381). -/
inductive HostOp where
  | bus (a : Access)
  | wait
  | chkerr
  | powerOn
deriving DecidableEq, Repr

/-- A decimal as a program writes it (R138): its sign, its digits read as one integer, and the power of ten that scales them.
`-2.5` is ⟨true, 25, -1⟩. -/
structure Decimal where
  neg : Bool
  digits : Nat
  exp : Int
deriving DecidableEq, Repr

/-- A value of LDRAM (R138): a hexadecimal pattern, or a decimal. -/
inductive Value where
  | hex (w : Word)
  | decimal (d : Decimal)
deriving DecidableEq, Repr

/-- The statements of the assembler, R137 and R138. -/
inductive Stmt where
  | wr (r : Reg) (v : Word)
  | rd (r : Reg)
  | cmd (i : Instr)
  | wrf (r : Reg) (d : Decimal)
  | wru (r : Reg) (n : Nat)
  | wait
  | exec (i : Instr)
  | ldram (ram : RamId) (addr : Nat) (vs : List Value)
  | rdram (ram : RamId) (addr n : Nat)
  | chkerr
deriving DecidableEq, Repr

end Sys2Proof
end

