-- ==== Sys2Proof/WellFormed.lean ====
section
/-! DEFINITION. The checks on what CORE is given: a command, its word's reserved bits, a bus access, an assembler statement
and the capacities. -/

namespace Sys2Proof

/-- A command is well formed. No command has an operand field (30_encoding.md R130), so every one is. -/
def Instr.wf : Instr → Bool
  | .nop | .clInit | .clStep | .elgStep | .mapInit | .mapEnc | .mapDec | .demapAcc | .modSym | .oaInit | .oaPush | .oaFlush
  | .oaFrame | .oaFinal | .fft | .wingen | .sincRs | .clrErr | .softReset => true

/-- A command word's reserved bits 63:8 are zero (R130). -/
def reservedZero (w : Word) : Bool := w >>> 8 == 0

/-- A legal access is 64 bits wide at an offset that is a multiple of 8 (20_memory.md R103). -/
def Access.legal (a : Access) : Bool := a.bits == 64 && a.offset.toNat % 8 == 0

/-- A decimal is exact in binary64 (R138). -/
def Decimal.exact (d : Decimal) : Bool := Fp.isExactDecimal d.neg d.digits d.exp

/-- A statement of the assembler is well formed (R137, R138): WRF's decimal is exact in binary64, WRU's integer and an LDRAM or
RDRAM address fit in 64 bits, and LDRAM lists at least one value ("v0, ..., vk"). -/
def Stmt.wf : Stmt → Bool
  | .wr _ _ | .rd _ | .cmd _ | .wait | .exec _ | .chkerr => true
  | .wrf _ d => d.exact
  | .wru _ n => decide (n < 18446744073709551616)
  | .ldram _ addr vs => decide (addr < 18446744073709551616) && !vs.isEmpty
  | .rdram _ addr _ => decide (addr < 18446744073709551616)

/-- `n` is a power of two: the test of R270 and R8. -/
def isPow2 (n : Nat) : Bool := n != 0 && 1 <<< n.log2 == n

/-- The constraints of R8 on the capacities. -/
def Params.wf (p : Params) : Bool :=
  p.maxTab % 4 == 0 && decide (4 ≤ p.maxTab) && isPow2 p.minFft && isPow2 p.maxFft && decide (4 ≤ p.minFft)
    && decide (p.minFft ≤ p.maxFft) && decide (1 ≤ p.maxFir) && decide (1 ≤ p.maxDelay) && decide (1 ≤ p.maxSps)
    && decide (1 ≤ p.maxSampleLen) && decide (1 ≤ p.maxSincAdj) && decide (1 ≤ p.maxSincLut) && decide (1 ≤ p.maxOrders)
    && decide (1 ≤ p.maxOrderAdj)

end Sys2Proof
end

