-- ==== Sys2Proof/Decode.lean ====
section
/-! DEFINITION. The decoder of command words (30_encoding.md R130 to R136), total and rejecting by name, the encoder, and the
offsets of the register window (20_memory.md R101). -/

namespace Sys2Proof

/-- Why a CMD word is illegal (R134). Both raise ILLEGAL_CMD at the issue (R131). -/
inductive Reject where
  /-- Some bit of the reserved field 63:8 is not zero (R130). -/
  | reservedBits (w : Word)
  /-- The opcode is not in the table of R133. -/
  | unassigned (op : BitVec 8)
deriving DecidableEq, Repr

/-- The opcode map of R133, read from the low byte of the word. -/
def decodeOpcode (op : BitVec 8) : Except Reject Instr :=
  match op with
  | 0x00#8 => .ok .nop
  | 0x01#8 => .ok .clInit
  | 0x02#8 => .ok .clStep
  | 0x03#8 => .ok .elgStep
  | 0x10#8 => .ok .mapInit
  | 0x11#8 => .ok .mapEnc
  | 0x12#8 => .ok .mapDec
  | 0x13#8 => .ok .demapAcc
  | 0x14#8 => .ok .modSym
  | 0x20#8 => .ok .oaInit
  | 0x21#8 => .ok .oaPush
  | 0x22#8 => .ok .oaFlush
  | 0x23#8 => .ok .oaFrame
  | 0x24#8 => .ok .oaFinal
  | 0x30#8 => .ok .fft
  | 0x31#8 => .ok .wingen
  | 0x32#8 => .ok .sincRs
  | 0xF0#8 => .ok .clrErr
  | 0xFF#8 => .ok .softReset
  | n => .error (.unassigned n)

/-- The decoder: every 64-bit word decodes to one of the nineteen commands or to "illegal" (R136), reading nothing but the
word. -/
def decode (w : Word) : Except Reject Instr :=
  if reservedZero w then decodeOpcode (w.setWidth 8) else .error (.reservedBits w)

/-- The opcode column of R133. -/
def opcode : Instr → BitVec 8
  | .nop => 0x00#8
  | .clInit => 0x01#8
  | .clStep => 0x02#8
  | .elgStep => 0x03#8
  | .mapInit => 0x10#8
  | .mapEnc => 0x11#8
  | .mapDec => 0x12#8
  | .demapAcc => 0x13#8
  | .modSym => 0x14#8
  | .oaInit => 0x20#8
  | .oaPush => 0x21#8
  | .oaFlush => 0x22#8
  | .oaFrame => 0x23#8
  | .oaFinal => 0x24#8
  | .fft => 0x30#8
  | .wingen => 0x31#8
  | .sincRs => 0x32#8
  | .clrErr => 0xF0#8
  | .softReset => 0xFF#8

/-- The encoder: a command word is `zext_64(opcode)` (R133). -/
def encode (i : Instr) : Word := (opcode i).setWidth 64

/-- The command word whose low `nbits` bits are those of `w`, the bits above zero; a command is one 64-bit word (R135). -/
def tableWord (nbits w : Nat) : Nat := w % (1 <<< nbits)

/-- The command the decoder reads from a word of the opcode table. -/
def decodeTableWord (nbits w : Nat) : Option Instr :=
  if tableWord nbits w < 18446744073709551616 then
    match decode (BitVec.ofNat 64 (tableWord nbits w)) with
    | .ok i => some i
    | .error _ => none
  else none

/-- The offset column of R39. -/
def ObsReg.offset : ObsReg → BitVec 12
  | .clPhase => 0x080#12
  | .clFb => 0x088#12
  | .clLf => 0x090#12
  | .elgTrigCnt => 0x098#12
  | .elgGoodCnt => 0x0A0#12
  | .elgSamples => 0x0A8#12
  | .elgTrigLat => 0x0B0#12
  | .mapTxPrev => 0x0B8#12
  | .mapRxPrev => 0x0C0#12
  | .modPhase => 0x0C8#12
  | .demapTick => 0x0D0#12
  | .oaFill => 0x0D8#12
  | .oaFrameCount => 0x0E0#12
  | .oaIcg => 0x0E8#12
  | .oaPhaseGain => 0x0F0#12

/-- The offset column of R40. -/
def ClReg.offset : ClReg → BitVec 12
  | .vcoTsize => 0x100#12
  | .carInc => 0x108#12
  | .vcoModidx => 0x110#12
  | .lpfLen => 0x118#12
  | .loopAlpha => 0x120#12
  | .fbMode => 0x128#12
  | .elgSymlen => 0x130#12
  | .elgMfLen => 0x138#12
  | .elgDelay => 0x140#12
  | .elgLfLen => 0x148#12
  | .elgThresh => 0x150#12
  | .compDelay => 0x158#12
  | .acqLimit => 0x160#12

/-- The offset column of R41. -/
def MapReg.offset : MapReg → BitVec 12
  | .modMode => 0x200#12
  | .diffEn => 0x208#12
  | .sps => 0x210#12
  | .rrcEn => 0x218#12
  | .rrcLen => 0x220#12
  | .qamThresh => 0x228#12
  | .modTsize => 0x230#12
  | .modInc => 0x238#12

/-- The offset column of R42. -/
def OaReg.offset : OaReg → BitVec 12
  | .sampleLen => 0x300#12
  | .overlap => 0x308#12
  | .fftLen => 0x310#12
  | .sincNa => 0x318#12
  | .sincLutlen => 0x320#12
  | .winType => 0x328#12
  | .winCoef => 0x330#12
  | .fof => 0x338#12
  | .sampleRate => 0x340#12
  | .logMode => 0x348#12
  | .avgMode => 0x350#12
  | .cohType => 0x358#12
  | .dbScale => 0x360#12
  | .baseOrder => 0x368#12
  | .numOrders => 0x370#12
  | .orderAdj => 0x378#12
  | .numSum => 0x380#12
  | .logFloor => 0x388#12

/-- The byte offset of a register in the window (R101, and R31 to R42). -/
def Reg.offset : Reg → BitVec 12
  | .id => 0x000#12
  | .cmd => 0x008#12
  | .status => 0x010#12
  | .irqStatus => 0x018#12
  | .irqEnable => 0x020#12
  | .din0 => 0x028#12
  | .din1 => 0x030#12
  | .dout0 => 0x038#12
  | .dout1 => 0x040#12
  | .dout2 => 0x048#12
  | .dout3 => 0x050#12
  | .ramSel => 0x058#12
  | .ramAddr => 0x060#12
  | .ramData => 0x068#12
  | .obs r => r.offset
  | .cl r => r.offset
  | .map r => r.offset
  | .oa r => r.offset

/-- Every observability register of R39. -/
def ObsReg.all : List ObsReg :=
  [.clPhase, .clFb, .clLf, .elgTrigCnt, .elgGoodCnt, .elgSamples, .elgTrigLat, .mapTxPrev, .mapRxPrev, .modPhase,
   .demapTick, .oaFill, .oaFrameCount, .oaIcg, .oaPhaseGain]

/-- Every CL or ELG configuration register of R40. -/
def ClReg.all : List ClReg :=
  [.vcoTsize, .carInc, .vcoModidx, .lpfLen, .loopAlpha, .fbMode, .elgSymlen, .elgMfLen, .elgDelay, .elgLfLen, .elgThresh,
   .compDelay, .acqLimit]

/-- Every MAP configuration register of R41. -/
def MapReg.all : List MapReg := [.modMode, .diffEn, .sps, .rrcEn, .rrcLen, .qamThresh, .modTsize, .modInc]

/-- Every OA configuration register of R42. -/
def OaReg.all : List OaReg :=
  [.sampleLen, .overlap, .fftLen, .sincNa, .sincLutlen, .winType, .winCoef, .fof, .sampleRate, .logMode, .avgMode,
   .cohType, .dbScale, .baseOrder, .numOrders, .orderAdj, .numSum, .logFloor]

/-- The control registers, offsets 0x000 to 0x068 of R101. -/
def Reg.control : List Reg :=
  [.id, .cmd, .status, .irqStatus, .irqEnable, .din0, .din1, .dout0, .dout1, .dout2, .dout3, .ramSel, .ramAddr, .ramData]

/-- Every register of R101. -/
def Reg.all : List Reg :=
  List.flatten [Reg.control, ObsReg.all.map Reg.obs, ClReg.all.map Reg.cl, MapReg.all.map Reg.map, OaReg.all.map Reg.oa]

/-- The register at an offset, or none where the window is unmapped (R43, R101, R104). -/
def Reg.ofOffset (o : BitVec 12) : Option Reg := Reg.all.find? (fun r => r.offset == o)

/-- The id column of R56. -/
def RamId.id : RamId → Nat
  | .lpfCoef => 0
  | .elgLfCoef => 1
  | .rrcCoef => 2
  | .vtab => 3
  | .mtab => 4
  | .modOut => 5
  | .sincLut => 6
  | .win => 7
  | .fftTw => 8
  | .bitrev => 9
  | .frameBuf => 10
  | .speedBuf => 11
  | .rsRe => 12
  | .rsIm => 13
  | .mag => 14
  | .orders => 15
  | .avgRe => 16
  | .avgIm => 17
  | .avgSpec => 18
  | .avgPhase => 19

/-- Every RAM of R56. -/
def RamId.all : List RamId :=
  [.lpfCoef, .elgLfCoef, .rrcCoef, .vtab, .mtab, .modOut, .sincLut, .win, .fftTw, .bitrev, .frameBuf, .speedBuf, .rsRe, .rsIm,
   .mag, .orders, .avgRe, .avgIm, .avgSpec, .avgPhase]

/-- The RAM that RAM_SEL selects: ids 20 to 255 select none (R56). -/
def RamId.ofSel (sel : BitVec 8) : Option RamId := RamId.all.find? (fun r => r.id == sel.toNat)

end Sys2Proof
end

