-- ==== Sys2Proof/Machine/State.lean ====
section
/-! DEFINITION. The state of one CORE instance (10_state.md R30 to R62), its faults and refusals, and the state after
power-on reset. -/

namespace Sys2Proof.Machine

/-- The model faults of R344. Both are safe: the run stops, the spec gives the access no value. -/
inductive Fault where
  /-- BUS_ERROR: a host access of a width other than 64 bits or at an offset that is not a multiple of 8 (R103). Raised by
  `hostMove`. Safe. -/
  | busError
  /-- UNWRITTEN: a command or a host RAM_DATA read reads a RAM or delay-line word never written since power-on (R62). Raised
  by `Memory.read`. Safe. -/
  | unwritten
deriving DecidableEq, Repr

/-- Why a step has no meaning. "No command is refused" (R344), so no meaning answers with one. -/
inductive Refusal where
  /-- A command that has no meaning yet, by its mnemonic; raised by `exec`'s arms alone. Safe. -/
  | notModelled (mnemonic : String)
deriving DecidableEq, Repr

/-- The delay lines of R50, R51 and R53 and the magnitude row `st.lin` of R54: word stores with no host view (R57). -/
inductive Line where
  | lpf1 | lpf2 | cdI | cdQ | mf | eg | elf | txi | txq | rxi | rxq | lin
deriving DecidableEq, Repr

/-- Every delay line. -/
def Line.all : List Line := [.lpf1, .lpf2, .cdI, .cdQ, .mf, .eg, .elf, .txi, .txq, .rxi, .rxq, .lin]

/-- One word store of CORE: a RAM of R56 or a delay line. -/
inductive Bank where
  | ram (r : RamId)
  | line (l : Line)
deriving DecidableEq, Repr

/-- The place of a delay line among the delay lines. -/
def Line.pos : Line → Nat
  | .lpf1 => 0
  | .lpf2 => 1
  | .cdI => 2
  | .cdQ => 3
  | .mf => 4
  | .eg => 5
  | .elf => 6
  | .txi => 7
  | .txq => 8
  | .rxi => 9
  | .rxq => 10
  | .lin => 11

/-- The place of a bank in the memory: the RAMs by their ids, then the delay lines. -/
def Bank.pos : Bank → Fin 32
  | .ram r => ⟨r.id, by cases r <;> decide⟩
  | .line l => ⟨20 + l.pos, by cases l <;> decide⟩

/-- The contents of one bank: (word index, word) pairs, the indices strictly rising. An index that is not listed is a word
never written since power-on (R62), so the list carries R62's mark of every word (assumption 2). -/
abbrev Cells := List (Nat × Word)

/-- The memory: one list of cells per bank, at the bank's place. -/
structure Memory where
  banks : Vector Cells 32
deriving DecidableEq, Repr

/-- The memory in which no word has been written (R60: every RAM and delay line unspecified). -/
def Memory.empty : Memory := ⟨Vector.replicate 32 []⟩

/-- The values of the CL and ELG configuration registers (R40), or of their latched copy (R52). -/
structure ClConfig where
  vcoTsize : Word
  carInc : F64
  vcoModidx : F64
  lpfLen : Word
  loopAlpha : F64
  fbMode : Word
  elgSymlen : Word
  elgMfLen : Word
  elgDelay : Word
  elgLfLen : Word
  elgThresh : F64
  compDelay : Word
  acqLimit : Word
deriving DecidableEq, Repr

/-- The values of the MAP configuration registers (R41), or of their latched copy (R52). -/
structure MapConfig where
  modMode : Word
  diffEn : Word
  sps : Word
  rrcEn : Word
  rrcLen : Word
  qamThresh : F64
  modTsize : Word
  modInc : F64
deriving DecidableEq, Repr

/-- The values of the OA configuration registers (R42), or of their latched copy (R52). -/
structure OaConfig where
  sampleLen : Word
  overlap : Word
  fftLen : Word
  sincNa : Word
  sincLutlen : Word
  winType : Word
  winCoef : F64
  fof : F64
  sampleRate : F64
  logMode : Word
  avgMode : Word
  cohType : Word
  dbScale : F64
  baseOrder : Word
  numOrders : Word
  orderAdj : Word
  numSum : Word
  logFloor : F64
deriving DecidableEq, Repr

/-- Every CL and ELG register 0 (R40, R60). -/
def ClConfig.zero : ClConfig := ⟨0, 0, 0, 0, 0, 0, 0, 0, 0, 0, 0, 0, 0⟩

/-- Every MAP register 0 (R41, R60). -/
def MapConfig.zero : MapConfig := ⟨0, 0, 0, 0, 0, 0, 0, 0⟩

/-- Every OA register 0 (R42, R60). -/
def OaConfig.zero : OaConfig := ⟨0, 0, 0, 0, 0, 0, 0, 0, 0, 0, 0, 0, 0, 0, 0, 0, 0, 0⟩

/-- The scalars of the CL unit (R50); its arrays are the lines lpf1, lpf2, cdI, cdQ and the RAM vtab. -/
structure ClUnit where
  /-- `st.cl_phase`, the VCO phase in table units (90_conflicts.md C1). -/
  phase : F64
  /-- `st.cl_fb`, the loop feedback sample. -/
  fb : F64
  /-- `st.cl_lf`, the one-pole loop-filter accumulator. -/
  lf : F64
  lpf1Idx : Nat
  lpf2Idx : Nat
  cdIdx : Nat
deriving DecidableEq, Repr

/-- `st.elg_state` (R51), with its encoding of R33: 0 IDLE, 1 ACQUIRING, 2 LOCKED, 3 NOLOCK. -/
inductive ElgState where
  | idle | acquiring | locked | nolock
deriving DecidableEq, Repr

/-- The scalars of the ELG unit (R51); its arrays are the lines mf, eg and elf. -/
structure ElgUnit where
  mfIdx : Nat
  mfSum : F64
  egIdx : Nat
  elfIdx : Nat
  /-- `st.thr`, the pulse-detector threshold flag. -/
  thr : Bool
  /-- `st.zc_prev`, the previous zero-crossing sample. -/
  zcPrev : F64
  trigCnt : Nat
  trigDet : Bool
  trigUpd : Bool
  trigLat : Nat
  state : ElgState
  good : Nat
  samples : Nat
deriving DecidableEq, Repr

/-- The scalars of the MAP unit (R53); its arrays are the lines txi, txq, rxi, rxq and the RAMs mtab and modOut. -/
structure MapUnit where
  txPrev : Nat
  rxPrev : Nat
  /-- `st.mod_phase`, the carrier phase in table units. -/
  modPhase : F64
  tick : Nat
  accI : F64
  accQ : F64
  txiIdx : Nat
  txqIdx : Nat
  rxiIdx : Nat
  rxqIdx : Nat
deriving DecidableEq, Repr

/-- The scalars of the OA unit (R54); its arrays are RAMs and the line lin. -/
structure OaUnit where
  phaseGain : F64
  icg : F64
  frameCount : Nat
  /-- `st.oa_wp`, the next write position in FRAME_BUF. -/
  wp : Nat
  /-- `st.oa_start`, the write position at which the current frame began filling. -/
  start : Nat
  frameReady : Bool
deriving DecidableEq, Repr

/-- R60: the CL scalars after reset. -/
def ClUnit.zero : ClUnit := ⟨0, 0, 0, 0, 0, 0⟩

/-- R60 and R200: the ELG scalars after reset and after `ELG_RESET()`. -/
def ElgUnit.zero : ElgUnit := ⟨0, 0, 0, 0, false, 0, 0, false, false, 0, .idle, 0, 0⟩

/-- R60: the MAP scalars after reset. -/
def MapUnit.zero : MapUnit := ⟨0, 0, 0, 0, 0, 0, 0, 0, 0, 0⟩

/-- R60: the OA scalars after reset. -/
def OaUnit.zero : OaUnit := ⟨0, 0, 0, 0, 0, false⟩

/-- The host agent (R30, R139, R385, R391): the operations it has still to make, the values its reads have returned, newest
first, the schedule of issue and perform, and the verdict of its CHKERRs. These are the model's own fields (assumptions 1 and 11). -/
structure HostSide where
  /-- The rest of the host's program. -/
  queue : List HostOp
  /-- The record of values the host's reads returned (R391), newest first. -/
  reads : List Word
  /-- For each command still to be issued, how many host operations come between its issue and its perform (R385); none
  listed means 0. -/
  lags : List Nat
  /-- How many host operations still come before the command in progress is performed. -/
  lag : Nat
  /-- Has a CHKERR of the program found STATUS.ERR set (R138, "the program is in error")? -/
  inError : Bool
deriving DecidableEq, Repr

/-- A host with no program. -/
def HostSide.idle : HostSide := ⟨[], [], [], 0, false⟩

/-- The state of one CORE instance: every element of R50 to R56, the parameters of R8 and the host's side. -/
structure State where
  /-- The command in progress: the CMD word issued and not yet performed (R131, R385). `st.busy` of R55 is
  `cmd.isSome` (assumption 4). -/
  cmd : Option Word
  /-- `st.err`. -/
  err : Bool
  /-- `st.errcode`. -/
  errcode : BitVec 8
  clReady : Bool
  mapReady : Bool
  oaReady : Bool
  symValid : Bool
  /-- `st.numeric`, the sticky numeric-guard flag. -/
  numeric : Bool
  /-- IRQ_STATUS bits 7:0 (R34); bits 63:8 are reserved. -/
  irqStatus : BitVec 8
  /-- IRQ_ENABLE bits 7:0 (R35); bits 63:8 are reserved. -/
  irqEnable : BitVec 8
  din0 : Word
  din1 : Word
  dout0 : Word
  dout1 : Word
  dout2 : Word
  dout3 : Word
  /-- RAM_SEL bits 7:0 (R38); bits 63:8 are reserved. -/
  ramSel : BitVec 8
  ramAddr : Word
  /-- The registers of R40. -/
  clReg : ClConfig
  /-- The registers of R41. -/
  mapReg : MapConfig
  /-- The registers of R42. -/
  oaReg : OaConfig
  /-- `cfg`, latched by CL_INIT (R52). -/
  clCfg : ClConfig
  /-- `cfg`, latched by MAP_INIT (R52). -/
  mapCfg : MapConfig
  /-- `cfg`, latched by OA_INIT and in part by WINGEN (R52). -/
  oaCfg : OaConfig
  cl : ClUnit
  elg : ElgUnit
  map : MapUnit
  oa : OaUnit
  mem : Memory
  /-- The capacities of R8 (assumption 9). -/
  par : Params
  host : HostSide
  /-- The model's own counter of free values used (assumption 7). -/
  freeNext : Nat
deriving DecidableEq, Repr

/-- Power-on reset (R60, R380) of a block with capacities `p` beside a host `h`: every register and scalar 0, no command in
progress, no unit ready, the ELG IDLE, every RAM and delay-line word unwritten. `free` is the model's own counter. -/
def State.powerOn (p : Params) (h : HostSide) (free : Nat) : State where
  cmd := none
  err := false
  errcode := 0
  clReady := false
  mapReady := false
  oaReady := false
  symValid := false
  numeric := false
  irqStatus := 0
  irqEnable := 0
  din0 := 0
  din1 := 0
  dout0 := 0
  dout1 := 0
  dout2 := 0
  dout3 := 0
  ramSel := 0
  ramAddr := 0
  clReg := .zero
  mapReg := .zero
  oaReg := .zero
  clCfg := .zero
  mapCfg := .zero
  oaCfg := .zero
  cl := .zero
  elg := .zero
  map := .zero
  oa := .zero
  mem := .empty
  par := p
  host := h
  freeNext := free

/-- The machine right after power-on reset (R60, R380), with the default capacities of R8 and a host that has no program. -/
def State.reset : State := State.powerOn Params.defaults HostSide.idle 0

end Sys2Proof.Machine
end

