-- ==== Sys2Proof/Machine/Flags.lean ====
section
/-! DEFINITION. STATUS and its fields (10_state.md R33), the event latches of IRQ_STATUS (R34, 60_exceptions.md R345), the
interrupt output (R346), the error codes (R342) and the sticky flags they set. -/

namespace Sys2Proof.Machine

/-- The interrupt sources of R345, one per bit of IRQ_STATUS. -/
inductive Irq where
  /-- Bit 0, ERR_EV. -/
  | err
  /-- Bit 1, SYM_EV. -/
  | sym
  /-- Bit 2, LOCK_EV. -/
  | lock
  /-- Bit 3, NOLOCK_EV. -/
  | nolock
  /-- Bit 4, FRAME_READY_EV. -/
  | frameReady
  /-- Bit 5, FRAME_DONE_EV. -/
  | frameDone
  /-- Bit 6, NUMERIC_EV. -/
  | numeric
  /-- Bit 7, CMD_DONE_EV. -/
  | cmdDone
deriving DecidableEq, Repr

/-- The bit of an event in IRQ_STATUS and IRQ_ENABLE (R34, R35, R345). -/
def Irq.mask : Irq → BitVec 8
  | .err => 0x01#8
  | .sym => 0x02#8
  | .lock => 0x04#8
  | .nolock => 0x08#8
  | .frameReady => 0x10#8
  | .frameDone => 0x20#8
  | .numeric => 0x40#8
  | .cmdDone => 0x80#8

/-- The event `e` occurs: its latch is set, and a latch already set stays set (R34, R345). -/
def State.fire (e : Irq) (s : State) : State := { s with irqStatus := s.irqStatus ||| e.mask }

/-- A host write of `v` to IRQ_STATUS: each bit written 1 is cleared, each bit written 0 is left (R34, R112). -/
def State.ackIrq (v : Word) (s : State) : State := { s with irqStatus := s.irqStatus &&& ~~~(v.setWidth 8) }

/-- The interrupt output: some event is pending and enabled (R346). -/
def State.irq (s : State) : Bool := s.irqStatus &&& s.irqEnable != 0#8

/-- `st.busy` (R33, R55): a command has been issued and not yet performed (R385). -/
def State.busy (s : State) : Bool := s.cmd.isSome

/-- The error codes of R342. -/
inductive ErrCode where
  | illegalCmd | busyWrite | notInit | cfgTable | cfgFftLen | cfgLength | cfgMode | cfgValue | cfgWinGain | overrun | noFrame
  | badSpeed | zeroFrames | ramAccess | badRatio
deriving DecidableEq, Repr

/-- The code column of R342. -/
def ErrCode.code : ErrCode → BitVec 8
  | .illegalCmd => 0x01#8
  | .busyWrite => 0x02#8
  | .notInit => 0x03#8
  | .cfgTable => 0x04#8
  | .cfgFftLen => 0x05#8
  | .cfgLength => 0x06#8
  | .cfgMode => 0x07#8
  | .cfgValue => 0x08#8
  | .cfgWinGain => 0x09#8
  | .overrun => 0x0A#8
  | .noFrame => 0x0B#8
  | .badSpeed => 0x0C#8
  | .zeroFrames => 0x0D#8
  | .ramAccess => 0x0E#8
  | .badRatio => 0x0F#8

/-- The ELG_STATE field of STATUS (R33). -/
def ElgState.code : ElgState → Word
  | .idle => 0
  | .acquiring => 1
  | .locked => 2
  | .nolock => 3

/-- A bool at bit `n` of a word. -/
def bitAt (b : Bool) (n : Nat) : Word := (if b then 1#64 else 0#64) <<< n

/-- STATUS, the fields of R33 at their places; the reserved bits read 0 (R106). -/
def State.status (s : State) : Word :=
  bitAt s.busy 0 ||| bitAt s.err 1 ||| (s.errcode.setWidth 64 <<< 8) ||| bitAt s.clReady 16 ||| bitAt s.mapReady 17
    ||| bitAt s.oaReady 18 ||| bitAt s.symValid 19 ||| (s.elg.state.code <<< 20) ||| bitAt (s.elg.state == .locked) 22
    ||| bitAt s.oa.frameReady 23 ||| bitAt s.numeric 24

end Sys2Proof.Machine
end

