-- ==== Sys2Proof/Machine/Ops.lean ====
section
/-! DEFINITION. The named operations over memory and registers: reads and writes of RAM and delay-line words (10_state.md R56,
R62), error recording and its acknowledgement (60_exceptions.md R341, R349, R358), the perform bracket of a command
(30_encoding.md R131), and the FIR, sine-table and phase-wrap primitives (40_costas.md R160 to R163). -/

namespace Sys2Proof.Machine

/-- What a rule answers: a value, or a model fault (R344). -/
abbrev Run (α : Type) := Except Fault α

/-! ## Memory -/

/-- The word listed at index `i`, none where it was never written (R62). -/
def Cells.find : Cells → Nat → Option Word
  | [], _ => none
  | (a, v) :: c, i => if a = i then some v else Cells.find c i

/-- Writing word `w` at index `i`, the indices kept strictly rising. -/
def Cells.store : Cells → Nat → Word → Cells
  | [], i, w => [(i, w)]
  | (a, v) :: c, i, w =>
    if i < a then (i, w) :: (a, v) :: c
    else if a = i then (i, w) :: c
    else (a, v) :: Cells.store c i w

/-- The cells of a list of words from index `i` on. -/
def Cells.block : Nat → List Word → Cells
  | _, [] => []
  | i, v :: vs => (i, v) :: Cells.block (i + 1) vs

/-- Writing a list of words from index `i` on. -/
def Cells.splice (c : Cells) (i : Nat) (vs : List Word) : Cells :=
  c.filter (fun p => Nat.blt p.1 i) ++ (Cells.block i vs ++ c.filter (fun p => Nat.ble (i + vs.length) p.1))

/-- The canonical form of a bank: indices strictly rising. -/
abbrev Cells.wf (c : Cells) : Prop := c.Pairwise (fun p q => p.1 < q.1)

/-- The cells of a bank. -/
def Memory.cells (m : Memory) (b : Bank) : Cells := m.banks[b.pos]

/-- The memory with the cells of one bank replaced. -/
def Memory.setCells (m : Memory) (b : Bank) (c : Cells) : Memory := ⟨m.banks.set b.pos c⟩

/-- The canonical form of the memory: every bank has it, so equal contents are equal data. -/
abbrev Memory.wf (m : Memory) : Prop := ∀ i : Fin 32, Cells.wf m.banks[i]

/-- Word `i` of a bank, none where it was never written (R62). -/
def Memory.word (m : Memory) (b : Bank) (i : Nat) : Option Word := Cells.find (m.cells b) i

/-- `RAM[b][i]` read by a command or the host: an unwritten word is the model fault UNWRITTEN (R62). -/
def Memory.read (m : Memory) (b : Bank) (i : Nat) : Run Word :=
  match m.word b i with
  | some v => .ok v
  | none => .error .unwritten

/-- `RAM[b][i] <- w` (R11). -/
def Memory.write (m : Memory) (b : Bank) (i : Nat) (w : Word) : Memory := m.setCells b (Cells.store (m.cells b) i w)

/-- `RAM[b][i..i+n-1]` read in ascending order. -/
def Memory.load (m : Memory) (b : Bank) : Nat → Nat → Run (List Word)
  | _, 0 => .ok []
  | i, n + 1 => do
    let v ← m.read b i
    let vs ← Memory.load m b (i + 1) n
    .ok (v :: vs)

/-- `RAM[b][i..] <- vs`. -/
def Memory.storeAt (m : Memory) (b : Bank) (i : Nat) (vs : List Word) : Memory :=
  m.setCells b (Cells.splice (m.cells b) i vs)

/-- `st.b[*] <- +0.0` over a capacity of `n` words (R168, R200, R237). -/
def Memory.clear (m : Memory) (b : Bank) (n : Nat) : Memory :=
  m.setCells b (Cells.block 0 (List.replicate n Fp.zero))

/-- The capacity column of R56. -/
def ramCapacity (p : Params) : RamId → Nat
  | .lpfCoef => p.maxFir
  | .elgLfCoef => p.maxFir
  | .rrcCoef => p.maxFir
  | .vtab => 5 * p.maxTab / 4
  | .mtab => 5 * p.maxTab / 4
  | .modOut => p.maxSps
  | .sincLut => p.maxSincLut
  | .win => p.maxFft
  | .fftTw => p.maxFft
  | .bitrev => p.maxFft
  | .frameBuf => p.maxSampleLen
  | .speedBuf => p.maxSampleLen
  | .rsRe => p.maxFft
  | .rsIm => p.maxFft
  | .mag => p.maxFft / 2
  | .orders => p.maxOrders
  | .avgRe => p.maxFft / 2
  | .avgIm => p.maxFft / 2
  | .avgSpec => p.maxFft / 2
  | .avgPhase => p.maxFft / 2

/-- The host access column of R56: RW for ids 0, 1, 2, 12 and 13 (R108), RO for the rest. -/
def ramHostWritable : RamId → Bool
  | .lpfCoef | .elgLfCoef | .rrcCoef | .rsRe | .rsIm => true
  | .vtab | .mtab | .modOut | .sincLut | .win | .fftTw | .bitrev | .frameBuf | .speedBuf | .mag | .orders | .avgRe | .avgIm
  | .avgSpec | .avgPhase => false

/-- The capacities of the delay lines (R50, R51, R53) and of `st.lin` (R54). -/
def Line.capacity (p : Params) : Line → Nat
  | .lpf1 => p.maxFir
  | .lpf2 => p.maxFir
  | .cdI => p.maxDelay
  | .cdQ => p.maxDelay
  | .mf => p.maxDelay
  | .eg => p.maxDelay
  | .elf => p.maxFir
  | .txi => p.maxFir
  | .txq => p.maxFir
  | .rxi => p.maxFir
  | .rxq => p.maxFir
  | .lin => p.maxFft / 2

/-- The capacity of a bank. -/
def Bank.capacity (p : Params) : Bank → Nat
  | .ram r => ramCapacity p r
  | .line l => l.capacity p

/-! ## Errors, their acknowledgement and the perform bracket -/

/-- `Error(code)` of R341, the trap entry "as far as the block has one" (R348): the first error since ERR was 0 is kept, and
ERR_EV is set by every error. Nothing else changes. -/
def State.raise (c : ErrCode) (s : State) : State :=
  State.fire .err (if s.err then s else { s with err := true, errcode := c.code })

/-- The acknowledgement of an error (R315, R349): ERR, ERRCODE and NUMERIC cleared, no state restored. There is no
return-from-trap operation. -/
def State.clearError (s : State) : State := { s with err := false, errcode := 0, numeric := false }

/-- The numeric guard of R358: STATUS.NUMERIC and NUMERIC_EV, no error. -/
def State.guard (s : State) : State := State.fire .numeric { s with numeric := true }

/-- The last two lines of R131: `st.busy <- 0` and CMD_DONE_EV, also after an error. -/
def State.complete (s : State) : State := State.fire .cmdDone { s with cmd := none }

/-- A rule's answer as the outcome of a step. -/
def settle (r : Run State) : Host.Outcome State Fault Refusal :=
  match r with
  | .ok s => .next s
  | .error f => .fault f

/-- The perform of a command (R131, R385): its rule, then the completion. -/
def perform (r : Run State) : Host.Outcome State Fault Refusal :=
  match r with
  | .ok s => .next s.complete
  | .error f => .fault f

/-! ## Shared primitives -/

/-- Item `i` of a list a rule has loaded or built; every rule reads below the length. -/
def nth (xs : List F64) (i : Nat) : F64 := xs.getD i Fp.zero

/-- `q[k]` of QSIN(T), 0 <= k <= T/4 (R160). -/
def quarterSine (t k : Nat) : F64 :=
  if k = 0 then Fp.zero
  else if k = t / 4 then Fp.one
  else Config.numSin (Fp.div (Fp.mul (Fp.mul Fp.two Fp.pi) (Fp.ofNat k)) (Fp.ofNat t))

/-- `Tab[k]` of QSIN(T) (R160). -/
def sineEntry (t k : Nat) : F64 :=
  let r := k % t
  if r ≤ t / 4 then quarterSine t r
  else if r ≤ t / 2 then quarterSine t (t / 2 - r)
  else if r ≤ 3 * t / 4 then Fp.neg (quarterSine t (r - t / 2))
  else Fp.neg (quarterSine t (t - r))

/-- `QSIN(T)`, the 1.25×-oversized sine table of 5·T/4 words (R160). -/
def qsin (t : Nat) : List F64 := (List.range (5 * t / 4)).map (sineEntry t)

/-- `SIN(Tab, i)` of R161, Tab in a RAM. -/
def tableSin (m : Memory) (tab : RamId) (i : Nat) : Run F64 := m.read (.ram tab) i

/-- `COS(Tab, i)` of R161, the quarter-table offset, Tab a QSIN(T) table in a RAM. -/
def tableCos (m : Memory) (tab : RamId) (t i : Nat) : Run F64 := m.read (.ram tab) (i + t / 4)

/-- The value `WRAP(v, T)` returns (R162). -/
def wrap (v : F64) (t : Nat) : F64 :=
  if Fp.isFinite v then
    let tf := Fp.ofNat t
    let r := Fp.sub v (Fp.mul tf (Fp.ofInt (Fp.floor (Fp.div v tf))))
    if Fp.le tf r || Fp.lt r Fp.zero || Fp.eq r Fp.zero then Fp.zero else r
  else Fp.zero

/-- The state after `WRAP(v, T)`: the numeric guard fires on a value that is not finite (R162, R358). -/
def State.wrapGuard (v : F64) (s : State) : State := if Fp.isFinite v then s else s.guard

/-- What `FIR` leaves: its result, the memory with the delay line updated, and the new circular index. -/
structure Filtered where
  y : F64
  mem : Memory
  idx : Nat
deriving DecidableEq, Repr

/-- The sum of `FIR` (R163), terms added in ascending k from +0.0; `(idx - k) mod L` for k < L. -/
def firSum (m : Memory) (line : Line) (coef : RamId) (idx len : Nat) : Run F64 :=
  (List.range len).foldlM
    (fun acc k => do
      let c ← m.read (.ram coef) k
      let v ← m.read (.line line) ((idx + len - k) % len)
      .ok (Fp.add acc (Fp.mul c v)))
    Fp.zero

/-- `FIR(S, idx, C, L, x)` (R163). -/
def fir (m : Memory) (line : Line) (idx : Nat) (coef : RamId) (len : Nat) (x : F64) : Run Filtered := do
  let m' := m.write (.line line) idx x
  let y ← firSum m' line coef idx len
  .ok { y := y, mem := m', idx := (idx + 1) % len }

end Sys2Proof.Machine
end

