-- ==== Sys2Proof/Machine/Operands.lean ====
section
/-! DEFINITION. The operands of commands and of host accesses: DIN0 and DIN1 (30_encoding.md R132), the modes in the latched
configuration, and the registers of the window as the host reads and writes them (20_memory.md R101 to R106). -/

namespace Sys2Proof.Machine

/-! ## Command operands -/

/-- DIN0 as `f64` (R132): the pattern as it stands. -/
def State.in0 (s : State) : F64 := s.din0

/-- DIN1 as `f64` (R132). -/
def State.in1 (s : State) : F64 := s.din1

/-- `v[hi:lo]` of R10 with `lo` and the width, as an integer. -/
def field (v : Word) (lo width : Nat) : Nat := (v.toNat >>> lo) % (1 <<< width)

/-- The modulation modes of R230. -/
inductive ModMode where
  | bpsk | qpsk | qam16 | dpsk
deriving DecidableEq, Repr

/-- MOD_MODE as latched (R230). MAP_INIT admits 0 to 3 only (R237), so no reachable state reads another value
(assumption 14). -/
def modMode (c : MapConfig) : ModMode :=
  match c.modMode.toNat with
  | 0 => .bpsk
  | 1 => .qpsk
  | 2 => .qam16
  | _ => .dpsk

/-- The differential modulus DM of R230; 0 means no differential stage. -/
def diffModulus (c : MapConfig) : Nat :=
  match modMode c with
  | .bpsk => 0
  | .qpsk => if c.diffEn = 1 then 4 else 0
  | .qam16 => if c.diffEn = 1 then 4 else 0
  | .dpsk => 2

/-! ## The register window -/

/-- An integer element as the 64-bit value of its register (R9, R18). -/
def u64 (n : Nat) : Word := BitVec.ofNat 64 n

/-- ID (R31). -/
def idValue : Word := 0x53474C4200010000#64

/-- The observability registers, each the view of one internal element (R39). -/
def State.observe (s : State) : ObsReg → Word
  | .clPhase => s.cl.phase
  | .clFb => s.cl.fb
  | .clLf => s.cl.lf
  | .elgTrigCnt => u64 s.elg.trigCnt
  | .elgGoodCnt => u64 s.elg.good
  | .elgSamples => u64 s.elg.samples
  | .elgTrigLat => u64 s.elg.trigLat
  | .mapTxPrev => u64 s.map.txPrev
  | .mapRxPrev => u64 s.map.rxPrev
  | .modPhase => s.map.modPhase
  | .demapTick => u64 s.map.tick
  | .oaFill => u64 s.oa.wp
  | .oaFrameCount => u64 s.oa.frameCount
  | .oaIcg => s.oa.icg
  | .oaPhaseGain => s.oa.phaseGain

/-- The value of a CL or ELG configuration register (R40). -/
def ClConfig.get (c : ClConfig) : ClReg → Word
  | .vcoTsize => c.vcoTsize
  | .carInc => c.carInc
  | .vcoModidx => c.vcoModidx
  | .lpfLen => c.lpfLen
  | .loopAlpha => c.loopAlpha
  | .fbMode => c.fbMode
  | .elgSymlen => c.elgSymlen
  | .elgMfLen => c.elgMfLen
  | .elgDelay => c.elgDelay
  | .elgLfLen => c.elgLfLen
  | .elgThresh => c.elgThresh
  | .compDelay => c.compDelay
  | .acqLimit => c.acqLimit

/-- A CL or ELG configuration register written (R40). -/
def ClConfig.set (c : ClConfig) (r : ClReg) (v : Word) : ClConfig :=
  match r with
  | .vcoTsize => { c with vcoTsize := v }
  | .carInc => { c with carInc := v }
  | .vcoModidx => { c with vcoModidx := v }
  | .lpfLen => { c with lpfLen := v }
  | .loopAlpha => { c with loopAlpha := v }
  | .fbMode => { c with fbMode := v }
  | .elgSymlen => { c with elgSymlen := v }
  | .elgMfLen => { c with elgMfLen := v }
  | .elgDelay => { c with elgDelay := v }
  | .elgLfLen => { c with elgLfLen := v }
  | .elgThresh => { c with elgThresh := v }
  | .compDelay => { c with compDelay := v }
  | .acqLimit => { c with acqLimit := v }

/-- The value of a MAP configuration register (R41). -/
def MapConfig.get (c : MapConfig) : MapReg → Word
  | .modMode => c.modMode
  | .diffEn => c.diffEn
  | .sps => c.sps
  | .rrcEn => c.rrcEn
  | .rrcLen => c.rrcLen
  | .qamThresh => c.qamThresh
  | .modTsize => c.modTsize
  | .modInc => c.modInc

/-- A MAP configuration register written (R41). -/
def MapConfig.set (c : MapConfig) (r : MapReg) (v : Word) : MapConfig :=
  match r with
  | .modMode => { c with modMode := v }
  | .diffEn => { c with diffEn := v }
  | .sps => { c with sps := v }
  | .rrcEn => { c with rrcEn := v }
  | .rrcLen => { c with rrcLen := v }
  | .qamThresh => { c with qamThresh := v }
  | .modTsize => { c with modTsize := v }
  | .modInc => { c with modInc := v }

/-- The value of an OA configuration register (R42). -/
def OaConfig.get (c : OaConfig) : OaReg → Word
  | .sampleLen => c.sampleLen
  | .overlap => c.overlap
  | .fftLen => c.fftLen
  | .sincNa => c.sincNa
  | .sincLutlen => c.sincLutlen
  | .winType => c.winType
  | .winCoef => c.winCoef
  | .fof => c.fof
  | .sampleRate => c.sampleRate
  | .logMode => c.logMode
  | .avgMode => c.avgMode
  | .cohType => c.cohType
  | .dbScale => c.dbScale
  | .baseOrder => c.baseOrder
  | .numOrders => c.numOrders
  | .orderAdj => c.orderAdj
  | .numSum => c.numSum
  | .logFloor => c.logFloor

/-- An OA configuration register written (R42). -/
def OaConfig.set (c : OaConfig) (r : OaReg) (v : Word) : OaConfig :=
  match r with
  | .sampleLen => { c with sampleLen := v }
  | .overlap => { c with overlap := v }
  | .fftLen => { c with fftLen := v }
  | .sincNa => { c with sincNa := v }
  | .sincLutlen => { c with sincLutlen := v }
  | .winType => { c with winType := v }
  | .winCoef => { c with winCoef := v }
  | .fof => { c with fof := v }
  | .sampleRate => { c with sampleRate := v }
  | .logMode => { c with logMode := v }
  | .avgMode => { c with avgMode := v }
  | .cohType => { c with cohType := v }
  | .dbScale => { c with dbScale := v }
  | .baseOrder => { c with baseOrder := v }
  | .numOrders => { c with numOrders := v }
  | .orderAdj => { c with orderAdj := v }
  | .numSum => { c with numSum := v }
  | .logFloor => { c with logFloor := v }

/-- What a host read of a register returns, RAM_DATA apart (it is `ramRead`): reserved bits 0 (R106), a write-only register
0 (R32). -/
def State.readReg (s : State) : Reg → Word
  | .id => idValue
  | .cmd => 0
  | .status => s.status
  | .irqStatus => s.irqStatus.setWidth 64
  | .irqEnable => s.irqEnable.setWidth 64
  | .din0 => s.din0
  | .din1 => s.din1
  | .dout0 => s.dout0
  | .dout1 => s.dout1
  | .dout2 => s.dout2
  | .dout3 => s.dout3
  | .ramSel => s.ramSel.setWidth 64
  | .ramAddr => s.ramAddr
  | .ramData => 0
  | .obs r => s.observe r
  | .cl r => s.clReg.get r
  | .map r => s.mapReg.get r
  | .oa r => s.oaReg.get r

/-- What a host write of `v` to a register does to it, CMD and RAM_DATA apart (they are `issue` and `ramWrite`): a read-only
register ignores it (R104), reserved bits ignore it (R106), IRQ_STATUS is W1C (R34). -/
def State.writeReg (s : State) (r : Reg) (v : Word) : State :=
  match r with
  | .id => s
  | .cmd => s
  | .status => s
  | .irqStatus => s.ackIrq v
  | .irqEnable => { s with irqEnable := v.setWidth 8 }
  | .din0 => { s with din0 := v }
  | .din1 => { s with din1 := v }
  | .dout0 => s
  | .dout1 => s
  | .dout2 => s
  | .dout3 => s
  | .ramSel => { s with ramSel := v.setWidth 8 }
  | .ramAddr => { s with ramAddr := v }
  | .ramData => s
  | .obs _ => s
  | .cl r => { s with clReg := s.clReg.set r v }
  | .map r => { s with mapReg := s.mapReg.set r v }
  | .oa r => { s with oaReg := s.oaReg.set r v }

end Sys2Proof.Machine
end

