-- ==== Sys2Proof/Machine/Bus.lean ====
section
/-! DEFINITION. The host's accesses to the register window (20_memory.md R100 to R109), the issue of a command (30_encoding.md
R131), the busy hazard (70_reset_and_hazards.md R384) and the next move of the host (R385, R391). -/

namespace Sys2Proof.Machine

/-- The value a host read returned is recorded (R391). -/
def State.record (v : Word) (s : State) : State := { s with host := { s.host with reads := v :: s.host.reads } }

/-- The issue of a command by a host write of `w` to CMD while BUSY = 0 (R131, R385): an illegal word raises ILLEGAL_CMD and
sets CMD_DONE_EV; a legal one sets BUSY, and the schedule says how many host operations come before its perform. -/
def issue (w : Word) (s : State) : State :=
  match decode w with
  | .error _ => (s.fire .cmdDone).raise .illegalCmd
  | .ok _ => { s with cmd := some w, host := { s.host with lag := s.host.lags.headD 0, lags := s.host.lags.tail } }

/-- A host read of RAM_DATA while BUSY = 0 (R107): the word and the post-increment, or RAM_ACCESS with 0 returned. -/
def ramRead (s : State) : Run State :=
  match RamId.ofSel s.ramSel with
  | none => .ok ((s.raise .ramAccess).record 0)
  | some r =>
    if s.ramAddr.toNat < ramCapacity s.par r then do
      let v ← s.mem.read (.ram r) s.ramAddr.toNat
      .ok (({ s with ramAddr := s.ramAddr + 1 } : State).record v)
    else .ok ((s.raise .ramAccess).record 0)

/-- A host write of `v` to RAM_DATA while BUSY = 0 (R108): the word and the post-increment, or RAM_ACCESS. -/
def ramWrite (v : Word) (s : State) : State :=
  match RamId.ofSel s.ramSel with
  | none => s.raise .ramAccess
  | some r =>
    if s.ramAddr.toNat < ramCapacity s.par r ∧ ramHostWritable r = true then
      { s with mem := s.mem.write (.ram r) s.ramAddr.toNat v, ramAddr := s.ramAddr + 1 }
    else s.raise .ramAccess

/-- A legal host read at offset `o` (R104, R107, R384): an unmapped offset returns 0; RAM_DATA while BUSY = 1 returns 0 and
raises BUSY_WRITE. Every other register returns its value, which while BUSY = 1 is the value at the issue, but for what a
BUSY_WRITE since then has recorded. -/
def hostRead (o : BitVec 12) (s : State) : Run State :=
  match Reg.ofOffset o with
  | none => .ok (s.record 0)
  | some .ramData => if s.busy then .ok ((s.raise .busyWrite).record 0) else ramRead s
  | some r => .ok (s.record (s.readReg r))

/-- A legal host write of `v` at offset `o` (R104, R108, R131, R384): while BUSY = 1 any write is dropped and raises
BUSY_WRITE. -/
def hostWrite (o : BitVec 12) (v : Word) (s : State) : State :=
  if s.busy then s.raise .busyWrite
  else
    match Reg.ofOffset o with
    | none => s
    | some .cmd => issue v s
    | some .ramData => ramWrite v s
    | some r => s.writeReg r v

/-- One bus access of the host: BUS_ERROR unless it is legal (R103). -/
def busAccess (a : Access) (s : State) : Run State :=
  if a.legal then
    match a.dir with
    | .read => hostRead a.offset s
    | .write => .ok (hostWrite a.offset a.data s)
  else .error .busError

/-- One turn of the WAIT loop (R138): STATUS is read, and the WAIT stays until a read returns BUSY = 0. -/
def waitTurn (s : State) : State :=
  let t := s.record s.status
  if s.busy then { t with host := { t.host with queue := .wait :: t.host.queue } } else t

/-- The test of CHKERR on the value of STATUS it read (R138): "the program is in error if bit 1 is 1". -/
def chkerrFails (status : Word) : Bool := status.getLsbD 1

/-- CHKERR (R138): STATUS is read, and the program is in error if the value fails the test. R138 does not stop the program. -/
def chkerrTurn (s : State) : State :=
  let t := s.record s.status
  { t with host := { t.host with inError := t.host.inError || chkerrFails s.status } }

/-- A power-on reset (R380, R381): every element at the value of R60, a command in progress abandoned. The rest of the host's
program and the record of its reads are outside the block. -/
def platformReset (s : State) : State := State.powerOn s.par { s.host with lag := 0 } s.freeNext

/-- One operation of the host. -/
def hostOp (op : HostOp) (s : State) : Run State :=
  match op with
  | .bus a => busAccess a s
  | .wait => .ok (waitTurn s)
  | .chkerr => .ok (chkerrTurn s)
  | .powerOn => .ok (platformReset s)

/-- The host's next move: the head of its program, or nothing where the program is exhausted (the block is idle, R356, R380). -/
def hostMove (s : State) : Run State :=
  match s.host.queue with
  | [] => .ok s
  | op :: rest => hostOp op { s with host := { s.host with queue := rest } }

/-- While a command is in progress: does the host move before it is performed? The schedule says so and the host has
something left to do; a command is performed at the latest when the host's program is exhausted (R385, weak fairness). -/
def hostFirst (s : State) : Bool := decide (0 < s.host.lag) && !s.host.queue.isEmpty

/-- A host move counted against the schedule. -/
def State.spendLag (s : State) : State := { s with host := { s.host with lag := s.host.lag - 1 } }

/-- The perform of a word that is no command. The issue admits none (R131), so no run reaches it; its effect is that of the
issue of an illegal word, and BUSY is cleared (assumption 5). -/
def illegalPending (s : State) : State := s.raise .illegalCmd

/-- The state in which the command word `w` has been issued and is performed next. -/
def State.withPending (s : State) (w : Word) : State := { s with cmd := some w, host := { s.host with lag := 0 } }

end Sys2Proof.Machine
end

