-- ==== Sys2Proof/Machine/EarlyLate.lean ====
section
/-! DEFINITION. The early-late-gate symbol-timing recovery (41_elg.md R200 to R210): the ELG stages shared by CL_STEP and
ELG_STEP, and ELG_STEP. -/

namespace Sys2Proof.Machine

/-- The arrays of `ELG_RESET()` (R200), cleared over their whole capacity; its scalars are `ElgUnit.zero`. -/
def elgResetMemory (p : Params) (m : Memory) : Memory :=
  ((m.clear (.line .mf) p.maxDelay).clear (.line .eg) p.maxDelay).clear (.line .elf) p.maxFir

/-- A stage's value and the state after it. -/
structure Staged where
  y : F64
  state : State
deriving DecidableEq, Repr

/-- `MF(x)`, the squared-pulse matched filter (R201). -/
def matchedFilter (x : F64) (s : State) : Run Staged := do
  let sq := Fp.mul x x
  let old ← s.mem.read (.line .mf) s.elg.mfIdx
  let sum := Fp.sub (Fp.add s.elg.mfSum sq) old
  .ok
    { y := sum
      state :=
        { s with
          mem := s.mem.write (.line .mf) s.elg.mfIdx sq
          elg := { s.elg with mfSum := sum, mfIdx := (s.elg.mfIdx + 1) % s.clCfg.elgMfLen.toNat } } }

/-- `EARLY_LATE(m)`, the gate error late minus early (R202). -/
def earlyLate (m : F64) (s : State) : Run Staged := do
  let e ← s.mem.read (.line .eg) s.elg.egIdx
  .ok
    { y := Fp.sub m e
      state :=
        { s with
          mem := s.mem.write (.line .eg) s.elg.egIdx m
          elg := { s.elg with egIdx := (s.elg.egIdx + 1) % s.clCfg.elgDelay.toNat } } }

/-- `ELF(d)`, the ELG loop filter (R203). -/
def elgFilter (d : F64) (s : State) : Run Staged := do
  let r ← fir s.mem .elf s.elg.elfIdx .elgLfCoef s.clCfg.elgLfLen.toNat d
  .ok { y := r.y, state := { s with mem := r.mem, elg := { s.elg with elfIdx := r.idx } } }

/-- The zero-crossing flag of `DETECT(m, f)` (R204). -/
def zeroCross (thresh m f : F64) (u : ElgUnit) : Bool :=
  Fp.lt thresh m && Fp.lt Fp.zero u.zcPrev && Fp.le f Fp.zero

/-- The state `DETECT(m, f)` leaves (R204). -/
def detect (thresh m f : F64) (u : ElgUnit) : ElgUnit := { u with thr := Fp.lt thresh m, zcPrev := f }

/-- `ENTER()`, the transition IDLE → ACQUIRING (R205). -/
def enter (u : ElgUnit) : ElgUnit :=
  if u.state = .idle ∧ u.thr = true then { u with state := .acquiring, trigCnt := 0, good := 0 } else u

/-- What `COUNTER(zc)` answers, and the unit after it. -/
structure Counted where
  trig : Bool
  correct : Bool
  unit : ElgUnit
deriving DecidableEq, Repr

/-- `COUNTER(zc)`, the trigger counter with flywheel and resynchronisation (R206). -/
def counter (ns : Nat) (zc : Bool) (u : ElgUnit) : Counted :=
  if u.state = .acquiring ∨ u.state = .locked then
    let c := u.trigCnt + 1
    if zc then
      { trig := true, correct := decide (c = ns), unit := { u with trigCnt := 0, trigUpd := true, trigDet := true } }
    else if ns ≤ c then
      { trig := true, correct := false, unit := { u with trigCnt := 0, trigUpd := false, trigDet := true } }
    else
      { trig := false, correct := false, unit := { u with trigCnt := c, trigUpd := false, trigDet := false } }
  else { trig := false, correct := false, unit := { u with trigUpd := false, trigDet := false } }

/-- `st.good` after `LOCK` in ACQUIRING on a trigger (R207). -/
def goodAfter (zc correct : Bool) (u : ElgUnit) : Nat := if zc && correct then u.good + 1 else 0

/-- `LOCK(zc, trig, correct)`, the transition ACQUIRING → LOCKED (R207). -/
def lock (ns : Nat) (zc trig correct : Bool) (u : ElgUnit) : ElgUnit :=
  if u.state = .acquiring ∧ trig = true then
    let g := goodAfter zc correct u
    if ns ≤ g then { u with good := g, state := .locked, trigLat := u.samples } else { u with good := g }
  else u

/-- `LIMIT()`, the acquisition bound (R208). -/
def limit (acqLimit : Nat) (u : ElgUnit) : ElgUnit :=
  if acqLimit ≠ 0 ∧ (u.state = .idle ∨ u.state = .acquiring) ∧ acqLimit ≤ u.samples then { u with state := .nolock } else u

/-- The event `e` occurs when `b`. -/
def State.fireIf (b : Bool) (e : Irq) (s : State) : State := if b then s.fire e else s

/-- `min(st.samples + 1, 2^64 - 1)` of R209 and of R286's frame count. -/
def satInc (n : Nat) : Nat := min (n + 1) 18446744073709551615

/-- The stages DETECT, ENTER, COUNTER, LOCK and LIMIT of R209 on the unit, with the trigger flag. -/
def elgDecide (c : ClConfig) (m f : F64) (u : ElgUnit) : Counted :=
  let zc := zeroCross c.elgThresh m f u
  let k := counter c.elgSymlen.toNat zc (enter (detect c.elgThresh m f u))
  { k with unit := limit c.acqLimit.toNat (lock c.elgSymlen.toNat zc k.trig k.correct k.unit) }

/-- The events of one ELG sample (R207, R208, R209): LOCK_EV and NOLOCK_EV on the transitions, SYM_EV on a trigger. -/
def State.elgEvents (before after : ElgState) (trig : Bool) (s : State) : State :=
  ((s.fireIf (before != .locked && after == .locked) .lock).fireIf (before != .nolock && after == .nolock) .nolock).fireIf
    trig .sym

/-- What `ELG_CORE` returns: the trigger flag, the two observation values and the state after it. -/
structure ElgOut where
  trig : Bool
  f : F64
  m : F64
  state : State
deriving DecidableEq, Repr

/-- `ELG_CORE(x)`, one ELG sample (R209). -/
def elgCore (x : F64) (s : State) : Run ElgOut := do
  let s0 : State := { s with elg := { s.elg with samples := satInc s.elg.samples } }
  let m ← matchedFilter x s0
  let d ← earlyLate m.y m.state
  let f ← elgFilter d.y d.state
  let k := elgDecide s.clCfg m.y f.y f.state.elg
  .ok
    { trig := k.trig
      f := f.y
      m := m.y
      state := ({ f.state with elg := k.unit } : State).elgEvents s.elg.state k.unit.state k.trig }

/-- The rule of ELG_STEP (R210). -/
def elgStepRule (s : State) : Run State :=
  if s.clReady then do
    let g ← elgCore s.in0 s
    .ok { g.state with dout0 := g.f, dout1 := g.m, symValid := g.trig }
  else .ok (s.raise .notInit)

/-- ELG_STEP (R210). -/
def execElgStep (s : State) : Host.Outcome State Fault Refusal := perform (elgStepRule s)

end Sys2Proof.Machine
end

