-- ==== Sys2Proof/Machine/Constellation.lean ====
section
/-! DEFINITION. The constellation mapper and demapper, differential coding and the symbol modulator (42_constellation.md R230
to R242): MAP_INIT, MAP_ENC, MAP_DEC, DEMAP_ACC and MOD_SYM. -/

namespace Sys2Proof.Machine

/-! ## The fixed tables -/

/-- `QUAD(I, Q)` (R231): a coordinate ±0.0 or NaN counts as non-negative. -/
def quadrant (i q : F64) : Nat :=
  match Fp.lt i Fp.zero, Fp.lt q Fp.zero with
  | false, false => 0
  | true, false => 1
  | true, true => 2
  | false, true => 3

/-- `G(bits)`, the Gray map from a bit pair to a quadrant (R232). -/
def gray (bits : Nat) : Nat :=
  match bits with
  | 0 => 0
  | 1 => 1
  | 3 => 2
  | _ => 3

/-- `Ginv(quadrant)`, the inverse of the Gray map (R232). -/
def grayInv (p : Nat) : Nat :=
  match p with
  | 0 => 0
  | 1 => 1
  | 2 => 3
  | _ => 2

/-- A constellation or baseband point. -/
structure Point where
  i : F64
  q : F64
deriving DecidableEq, Repr

/-- The half-plane points of BPSK and DPSK (R233). -/
def bpskPoint (p : Nat) : Point :=
  match p with
  | 0 => ⟨Fp.one, Fp.zero⟩
  | _ => ⟨Fp.negOne, Fp.zero⟩

/-- A first-quadrant point turned by `p` quarter turns (R233): QPSK turns (1.0, 1.0), QAM16 turns (a, c). -/
def turn (p : Nat) (a c : F64) : Point :=
  match p with
  | 0 => ⟨a, c⟩
  | 1 => ⟨Fp.neg c, a⟩
  | 2 => ⟨Fp.neg a, Fp.neg c⟩
  | _ => ⟨c, Fp.neg a⟩

/-- A ring coordinate of QAM16 (R233): 3.0 when its bit is 1, else 1.0. -/
def ring (b : Nat) : F64 := if b = 1 then Fp.three else Fp.one

/-- `POINT(mode, p, w)`, the Tx table (R233). -/
def pointOf (mode : ModMode) (p : Nat) (w : Word) : Point :=
  match mode with
  | .bpsk => bpskPoint p
  | .dpsk => bpskPoint p
  | .qpsk => turn p Fp.one Fp.one
  | .qam16 => turn p (ring (field w 1 1)) (ring (field w 0 1))

/-- What `DECIDE` returns: the received phase index and the low bit pair (0 where the mode has none). -/
structure Decision where
  p : Nat
  low : Nat
deriving DecidableEq, Repr

/-- The received point turned back into quadrant 0 (R234). -/
def derotate (p : Nat) (i q : F64) : Point :=
  match p with
  | 0 => ⟨i, q⟩
  | 1 => ⟨q, Fp.neg i⟩
  | 2 => ⟨Fp.neg i, Fp.neg q⟩
  | _ => ⟨Fp.neg q, i⟩

/-- `DECIDE(mode, I, Q)`, the Rx decision regions (R234). -/
def decideSymbol (mode : ModMode) (thresh i q : F64) : Decision :=
  match mode with
  | .bpsk => ⟨(Fp.lt i Fp.zero).toNat, 0⟩
  | .dpsk => ⟨(Fp.lt i Fp.zero).toNat, 0⟩
  | .qpsk => ⟨quadrant i q, 0⟩
  | .qam16 =>
    let d := derotate (quadrant i q) i q
    ⟨quadrant i q, 2 * (Fp.lt thresh d.i).toNat + (Fp.lt thresh d.q).toNat⟩

/-! ## Differential coding -/

/-- The phase index `DIFF_ENC(pd)` returns (R235). -/
def diffEnc (dm prev pd : Nat) : Nat := if dm = 0 then pd else (pd + prev) % dm

/-- The phase difference `DIFF_DEC(p)` returns (R236), `(p - prev) mod DM`. -/
def diffDec (dm prev p : Nat) : Nat := if dm = 0 then p else (((p : Int) - (prev : Int)) % (dm : Int)).toNat

/-- The retained state after either (R235, R236): the phase index, or unchanged where DM = 0. -/
def diffNext (dm prev p : Nat) : Nat := if dm = 0 then prev else p

/-- `pd` of `ENCODE(w)` (R242). -/
def symbolPhase (mode : ModMode) (w : Word) : Nat :=
  match mode with
  | .bpsk => field w 0 1
  | .dpsk => field w 0 1
  | .qpsk => gray (field w 0 2)
  | .qam16 => gray (field w 2 2)

/-- The bits of `DECODE` from the phase difference and the low pair (R242). -/
def symbolBits (mode : ModMode) (pd low : Nat) : Nat :=
  match mode with
  | .bpsk => pd
  | .dpsk => pd
  | .qpsk => grayInv pd
  | .qam16 => 4 * grayInv pd + low

/-- What `ENCODE` returns: the point, its phase index and the state with `st.tx_prev` updated. -/
structure Encoded where
  pt : Point
  p : Nat
  state : State
deriving DecidableEq, Repr

/-- `ENCODE(w)`, the Tx direction (R242). -/
def encodeSymbol (w : Word) (s : State) : Encoded :=
  let mode := modMode s.mapCfg
  let dm := diffModulus s.mapCfg
  let p := diffEnc dm s.map.txPrev (symbolPhase mode w)
  { pt := pointOf mode p w, p := p, state := { s with map := { s.map with txPrev := diffNext dm s.map.txPrev p } } }

/-- What `DECODE` returns: the bits, the received phase index and the state with `st.rx_prev` updated. -/
structure Decoded where
  bits : Nat
  p : Nat
  state : State
deriving DecidableEq, Repr

/-- `DECODE(I, Q)`, the Rx direction (R242). -/
def decodeSymbol (i q : F64) (s : State) : Decoded :=
  let mode := modMode s.mapCfg
  let dm := diffModulus s.mapCfg
  let d := decideSymbol mode s.mapCfg.qamThresh i q
  { bits := symbolBits mode (diffDec dm s.map.rxPrev d.p) d.low
    p := d.p
    state := { s with map := { s.map with rxPrev := diffNext dm s.map.rxPrev d.p } } }

/-! ## MAP_INIT, MAP_ENC, MAP_DEC -/

/-- The checks of MAP_INIT in their order (R237, R347): the first that fails. -/
def mapCheck (p : Params) (c : MapConfig) : Option ErrCode :=
  let t := c.modTsize.toNat
  let within := fun (lo hi : Nat) (w : Word) => decide (lo ≤ w.toNat) && decide (w.toNat ≤ hi)
  if t < 4 ∨ p.maxTab < t ∨ t % 4 ≠ 0 then some .cfgTable
  else if !(within 1 p.maxSps c.sps) || (c.rrcEn == 1 && !(within 1 p.maxFir c.rrcLen)) then some .cfgLength
  else if c.modMode.toNat > 3 ∨ c.diffEn.toNat > 1 ∨ c.rrcEn.toNat > 1 then some .cfgMode
  else if !(Fp.isFinite c.qamThresh && Fp.isFinite c.modInc) then some .cfgValue
  else none

/-- The arrays MAP_INIT writes (R237): MTAB built, the four RRC delay lines cleared over their whole capacity. -/
def mapInitMemory (p : Params) (t : Nat) (m : Memory) : Memory :=
  let m := m.storeAt (.ram .mtab) 0 (qsin t)
  let m := (m.clear (.line .txi) p.maxFir).clear (.line .txq) p.maxFir
  (m.clear (.line .rxi) p.maxFir).clear (.line .rxq) p.maxFir

/-- MAP_INIT when every check passes (R237). -/
def mapInitDone (s : State) : State :=
  { s with
    mapCfg := s.mapReg
    mem := mapInitMemory s.par s.mapReg.modTsize.toNat s.mem
    map := .zero
    mapReady := true }

/-- The rule of MAP_INIT (R237). -/
def mapInitRule (s : State) : State :=
  match mapCheck s.par s.mapReg with
  | some e => ({ s with mapReady := false } : State).raise e
  | none => mapInitDone s

/-- The result registers of MAP_ENC and MOD_SYM (R238, R241): the point and its phase index. -/
def State.pointResults (pt : Point) (p : Nat) (s : State) : State := { s with dout0 := pt.i, dout1 := pt.q, dout2 := u64 p }

/-- The rule of MAP_ENC (R238). -/
def mapEncRule (s : State) : State :=
  if s.mapReady then
    let e := encodeSymbol s.din0 s
    e.state.pointResults e.pt e.p
  else s.raise .notInit

/-- The rule of MAP_DEC (R239). -/
def mapDecRule (s : State) : State :=
  if s.mapReady then
    let d := decodeSymbol s.in0 s.in1 s
    { d.state with dout0 := u64 d.bits, dout1 := u64 d.p }
  else s.raise .notInit

/-! ## DEMAP_ACC -/

/-- A point and the state after the rule that gives it. -/
structure Pointed where
  pt : Point
  state : State
deriving DecidableEq, Repr

/-- The two RRC filters of a direction (R240, R241): the lines of I and Q and their indices. -/
structure RrcOut where
  pt : Point
  mem : Memory
  iIdx : Nat
  qIdx : Nat
deriving DecidableEq, Repr

/-- Both rails through the RRC FIR (R240, R241). -/
def rrcPair (m : Memory) (li lq : Line) (ii iq len : Nat) (x : Point) : Run RrcOut := do
  let a ← fir m li ii .rrcCoef len x.i
  let b ← fir a.mem lq iq .rrcCoef len x.q
  .ok { pt := ⟨a.y, b.y⟩, mem := b.mem, iIdx := a.idx, qIdx := b.idx }

/-- The accumulation of DEMAP_ACC (R240): matched-filtered with RRC_EN = 1, raw-summed otherwise. The point is the filter
output, or the sums. -/
def demapAccumulate (s : State) : Run Pointed :=
  if s.mapCfg.rrcEn = 1 then do
    let r ← rrcPair s.mem .rxi .rxq s.map.rxiIdx s.map.rxqIdx s.mapCfg.rrcLen.toNat ⟨s.in0, s.in1⟩
    .ok { pt := r.pt, state := { s with mem := r.mem, map := { s.map with rxiIdx := r.iIdx, rxqIdx := r.qIdx } } }
  else
    let a := Fp.add s.map.accI s.in0
    let b := Fp.add s.map.accQ s.in1
    .ok { pt := ⟨a, b⟩, state := { s with map := { s.map with accI := a, accQ := b } } }

/-- The decision input at a symbol boundary (R240): the filter output, or the mean with the sums returned to zero. -/
def demapBoundary (pt : Point) (s : State) : Pointed :=
  if s.mapCfg.rrcEn = 1 then { pt := pt, state := s }
  else
    let n := Fp.ofNat s.mapCfg.sps.toNat
    { pt := ⟨Fp.div pt.i n, Fp.div pt.q n⟩, state := { s with map := { s.map with accI := Fp.zero, accQ := Fp.zero } } }

/-- The symbol boundary of DEMAP_ACC (R240). -/
def demapDecide (pt : Point) (s : State) : State :=
  let b := demapBoundary pt { s with map := { s.map with tick := 0 } }
  let d := decodeSymbol b.pt.i b.pt.q b.state
  State.fire .sym
    { d.state with dout0 := u64 d.bits, dout1 := b.pt.i, dout2 := b.pt.q, dout3 := u64 d.p, symValid := true }

/-- The tick of DEMAP_ACC (R240). -/
def demapTick (a : Pointed) : State :=
  let t := a.state.map.tick + 1
  if t < a.state.mapCfg.sps.toNat then
    { a.state with map := { a.state.map with tick := t }, symValid := false }
  else demapDecide a.pt a.state

/-- The rule of DEMAP_ACC (R240). -/
def demapAccRule (s : State) : Run State :=
  if s.mapReady then do
    let a ← demapAccumulate s
    .ok (demapTick a)
  else .ok (s.raise .notInit)

/-! ## MOD_SYM -/

/-- The shaped sample of MOD_SYM (R241): the point on sub-sample 0 and +0.0 after it through the RRC filter, or the point
held. -/
def modShape (u : Point) (k : Nat) (s : State) : Run Pointed :=
  if s.mapCfg.rrcEn = 1 then do
    let e : Point := if k = 0 then u else ⟨Fp.zero, Fp.zero⟩
    let r ← rrcPair s.mem .txi .txq s.map.txiIdx s.map.txqIdx s.mapCfg.rrcLen.toNat e
    .ok { pt := r.pt, state := { s with mem := r.mem, map := { s.map with txiIdx := r.iIdx, txqIdx := r.qIdx } } }
  else .ok { pt := u, state := s }

/-- One sub-sample of MOD_SYM (R241): shaped, put on the carrier at the running phase, the phase then advanced and
wrapped. -/
def modSample (u : Point) (s : State) (k : Nat) : Run State := do
  let sh ← modShape u k s
  let t := s.mapCfg.modTsize.toNat
  let i := (Fp.floor s.map.modPhase).toNat
  let c ← tableCos sh.state.mem .mtab t i
  let d ← tableSin sh.state.mem .mtab i
  let v := Fp.add s.map.modPhase s.mapCfg.modInc
  .ok
    { sh.state.wrapGuard v with
      mem := sh.state.mem.write (.ram .modOut) k (Fp.add (Fp.mul sh.pt.i c) (Fp.mul sh.pt.q d))
      map := { sh.state.map with modPhase := wrap v t } }

/-- The SPS sub-samples of MOD_SYM in their order (R241). -/
def modSamples (u : Point) (n : Nat) (s : State) : Run State := (List.range n).foldlM (modSample u) s

/-- The rule of MOD_SYM (R241). -/
def modSymRule (s : State) : Run State :=
  if s.mapReady then do
    let e := encodeSymbol s.din0 s
    let t ← modSamples e.pt s.mapCfg.sps.toNat e.state
    .ok (t.pointResults e.pt e.p)
  else .ok (s.raise .notInit)

/-- MAP_INIT (R237). -/
def execMapInit (s : State) : Host.Outcome State Fault Refusal := perform (.ok (mapInitRule s))

/-- MAP_ENC (R238). -/
def execMapEnc (s : State) : Host.Outcome State Fault Refusal := perform (.ok (mapEncRule s))

/-- MAP_DEC (R239). -/
def execMapDec (s : State) : Host.Outcome State Fault Refusal := perform (.ok (mapDecRule s))

/-- DEMAP_ACC (R240). -/
def execDemapAcc (s : State) : Host.Outcome State Fault Refusal := perform (demapAccRule s)

/-- MOD_SYM (R241). -/
def execModSym (s : State) : Host.Outcome State Fault Refusal := perform (modSymRule s)

end Sys2Proof.Machine
end

