-- ==== Sys2Proof/Machine/Costas.lean ====
section
/-! DEFINITION. The Costas-loop demodulator (40_costas.md R164 to R169): CL_INIT and CL_STEP. -/

namespace Sys2Proof.Machine

/-- `FB(mode, yI, yQ)` (R164). CL_INIT admits modes 0, 1 and 2 only (R168; assumption 14). -/
def feedback (mode : Word) (yI yQ : F64) : F64 :=
  match mode.toNat with
  | 0 => Fp.mul (Fp.sgn yI) (Fp.sgn yQ)
  | 1 => Fp.mul (Fp.sgn yI) yQ
  | _ => Fp.mul yI yQ

/-- The new value of the one-pole loop filter, `LOOPF(e)` (R165). -/
def loopFilter (alpha lf e : F64) : F64 := Fp.add (Fp.mul alpha lf) (Fp.mul (Fp.sub Fp.one alpha) e)

/-- `LOOPF(e)` (R165): the loop-filter accumulator and the feedback sample. -/
def State.loopf (e : F64) (s : State) : State :=
  let y := loopFilter s.clCfg.loopAlpha s.cl.lf e
  { s with cl := { s.cl with lf := y, fb := y } }

/-- A pair of rail values and the state after the rule that gives them. -/
structure Rails where
  i : F64
  q : F64
  state : State
deriving DecidableEq, Repr

/-- The phase `VCO()` wraps (R167): the phase advanced by the carrier increment and the modulation. -/
def vcoAdvance (s : State) : F64 :=
  Fp.add (Fp.add s.cl.phase s.clCfg.carInc) (Fp.mul s.clCfg.vcoModidx s.cl.fb)

/-- `VCO()` (R167): both rails read at the current phase, then the phase advances and wraps. -/
def vco (s : State) : Run Rails := do
  let t := s.clCfg.vcoTsize.toNat
  let i := (Fp.floor s.cl.phase).toNat
  let vI ← tableCos s.mem .vtab t i
  let vQ ← tableSin s.mem .vtab i
  let v := vcoAdvance s
  .ok { i := vI, q := vQ, state := { s.wrapGuard v with cl := { s.cl with phase := wrap v t } } }

/-- The arm low-pass filters, step (c) of R169. -/
def armFilters (mI mQ : F64) (s : State) : Run Rails := do
  let len := s.clCfg.lpfLen.toNat
  let a ← fir s.mem .lpf1 s.cl.lpf1Idx .lpfCoef len mI
  let b ← fir a.mem .lpf2 s.cl.lpf2Idx .lpfCoef len mQ
  .ok { i := a.y, q := b.y, state := { s with mem := b.mem, cl := { s.cl with lpf1Idx := a.idx, lpf2Idx := b.idx } } }

/-- `CDELAY(yI, yQ)` (R166). -/
def compDelay (yI yQ : F64) (s : State) : Run Rails :=
  let d := s.clCfg.compDelay.toNat
  if d = 0 then .ok { i := yI, q := yQ, state := s }
  else do
    let k := s.cl.cdIdx
    let oI ← s.mem.read (.line .cdI) k
    let oQ ← s.mem.read (.line .cdQ) k
    let m := (s.mem.write (.line .cdI) k yI).write (.line .cdQ) k yQ
    .ok { i := oI, q := oQ, state := { s with mem := m, cl := { s.cl with cdIdx := (k + 1) % d } } }

/-- The checks of CL_INIT in their order (R168, R347): the first that fails. -/
def clCheck (p : Params) (c : ClConfig) : Option ErrCode :=
  let t := c.vcoTsize.toNat
  let within := fun (lo hi : Nat) (w : Word) => decide (lo ≤ w.toNat) && decide (w.toNat ≤ hi)
  if t < 4 ∨ p.maxTab < t ∨ t % 4 ≠ 0 then some .cfgTable
  else if !(within 1 p.maxFir c.lpfLen && within 1 p.maxFir c.elgLfLen && within 1 p.maxDelay c.elgSymlen
      && within 1 p.maxDelay c.elgMfLen && within 1 p.maxDelay c.elgDelay && within 0 p.maxDelay c.compDelay) then
    some .cfgLength
  else if c.fbMode.toNat > 2 then some .cfgMode
  else if !(Fp.isFinite c.carInc && Fp.isFinite c.vcoModidx && Fp.isFinite c.elgThresh && Fp.isFinite c.loopAlpha)
      || Fp.lt c.loopAlpha Fp.zero || Fp.lt Fp.one c.loopAlpha then some .cfgValue
  else none

/-- The arrays CL_INIT writes (R168, R200): VTAB built, the arm, compensating and ELG delay lines cleared over their whole
capacity. -/
def clInitMemory (p : Params) (t : Nat) (m : Memory) : Memory :=
  let m := m.storeAt (.ram .vtab) 0 (qsin t)
  let m := (m.clear (.line .lpf1) p.maxFir).clear (.line .lpf2) p.maxFir
  let m := (m.clear (.line .cdI) p.maxDelay).clear (.line .cdQ) p.maxDelay
  elgResetMemory p m

/-- CL_INIT when every check passes (R168). -/
def clInitDone (s : State) : State :=
  { s with
    clCfg := s.clReg
    mem := clInitMemory s.par s.clReg.vcoTsize.toNat s.mem
    cl := .zero
    elg := .zero
    symValid := false
    clReady := true }

/-- The rule of CL_INIT (R168): a failing check makes the unit not ready and changes nothing else. -/
def clInitRule (s : State) : State :=
  match clCheck s.par s.clReg with
  | some e => ({ s with clReady := false } : State).raise e
  | none => clInitDone s

/-- The result registers of CL_STEP (R169): DOUT0 and DOUT1 only when a trigger fired, DOUT2 and DOUT3 always. -/
def State.clResults (trig : Bool) (o y : F64 × F64) (s : State) : State :=
  let s := if trig then { s with dout0 := o.1, dout1 := o.2 } else s
  { s with symValid := trig, dout2 := y.1, dout3 := y.2 }

/-- The steps (a) to (g) of CL_STEP (R169). -/
def clStepBody (s : State) : Run State := do
  let x := s.in0
  let v ← vco s
  let y ← armFilters (Fp.mul x v.i) (Fp.mul x v.q) v.state
  let e := feedback s.clCfg.fbMode y.i y.q
  let g ← elgCore y.i y.state
  let o ← compDelay y.i y.q g.state
  .ok ((o.state.clResults g.trig (o.i, o.q) (y.i, y.q)).loopf e)

/-- The rule of CL_STEP (R169). -/
def clStepRule (s : State) : Run State :=
  if s.clReady then clStepBody s else .ok (s.raise .notInit)

/-- CL_INIT (R168). -/
def execClInit (s : State) : Host.Outcome State Fault Refusal := perform (.ok (clInitRule s))

/-- CL_STEP (R169). -/
def execClStep (s : State) : Host.Outcome State Fault Refusal := perform (clStepRule s)

end Sys2Proof.Machine
end

