-- ==== Sys2Proof/Machine/Housekeeping.lean ====
section
/-! DEFINITION. The housekeeping commands (44_primitives.md R314 to R316): NOP, CLR_ERR and SOFT_RESET. -/

namespace Sys2Proof.Machine

/-- The rule of SOFT_RESET (R316, R61): every element at its reset value, the RAMs and the delay lines kept. The host, the
capacities and the model's counter are no part of the block's state. -/
def softResetRule (s : State) : State := { State.powerOn s.par s.host s.freeNext with mem := s.mem }

/-- NOP (R314): the BUSY pulse and CMD_DONE_EV of R131 are its only effects. -/
def execNop (s : State) : Host.Outcome State Fault Refusal := perform (.ok s)

/-- CLR_ERR (R315). -/
def execClrErr (s : State) : Host.Outcome State Fault Refusal := perform (.ok s.clearError)

/-- SOFT_RESET (R316). -/
def execSoftReset (s : State) : Host.Outcome State Fault Refusal := perform (.ok (softResetRule s))

end Sys2Proof.Machine
end

