-- ==== Sys2Proof/Machine/Tables.lean ====
section
/-! DEFINITION. The pure parts of the order-analysis pipeline on lists of words (43_order.md R271 to R285, 44_primitives.md
R310): tables, window, resampler, FFT, spectrum, order search and sum level. -/

namespace Sys2Proof.Machine

/-! ## Tables of OA_INIT -/

/-- The phase gain of `SINC_TABLE()` (R271). -/
def phaseGain (a ll : Nat) : F64 := Fp.div (Fp.ofNat ll) (Fp.ofNat (a + 1))

/-- `L[i]` of `SINC_TABLE()` (R271). -/
def sincEntry (a ll i : Nat) : F64 :=
  if i = 0 then Fp.one
  else if i * (a + 1) % ll = 0 then Fp.zero
  else
    let u := Fp.mul Fp.pi (Fp.div (Fp.ofNat i) (phaseGain a ll))
    Fp.div (Config.numSin u) u

/-- The table of `SINC_TABLE()` (R271). -/
def sincTable (a ll : Nat) : List F64 := (List.range ll).map (sincEntry a ll)

/-- FFT_TW: the first N words of QSIN(N) (R273). -/
def fftTwiddles (n : Nat) : List F64 := (List.range n).map (sineEntry n)

/-- `rev_K(i)`: i with its K low bits in reverse order (R273). -/
def bitReverse : Nat → Nat → Nat
  | 0, _ => 0
  | k + 1, i => (i % 2) * (1 <<< k) + bitReverse k (i / 2)

/-- BITREV for N words (R273). -/
def bitrevTable (n : Nat) : List Word := (List.range n).map (fun i => u64 (bitReverse n.log2 i))

/-- `TCOS(n)` of R272, the quarter-period offset taken mod N. -/
def tcos (tw : List F64) (len i : Nat) : F64 := nth tw ((i + len / 4) % len)

/-- `w[i]` of `WINDOW(type, coef)` (R272). OA_INIT and WINGEN admit types 0 to 5 only (R270, R312; assumption 14). -/
def windowEntry (tw : List F64) (len : Nat) (type : Word) (coef : F64) (i : Nat) : F64 :=
  let c1 := tcos tw len i
  let c2 := tcos tw len (2 * i % len)
  match type.toNat with
  | 0 => Fp.one
  | 1 => Fp.sub Fp.half (Fp.mul Fp.half c1)
  | 2 => Fp.sub Fp.c054 (Fp.mul Fp.c046 c1)
  | 3 => Fp.add (Fp.sub Fp.c042 (Fp.mul Fp.half c1)) (Fp.mul Fp.c008 c2)
  | 4 => Fp.sub Fp.one (Fp.abs (Fp.sub (Fp.div (Fp.mul Fp.two (Fp.ofNat i)) (Fp.ofNat len)) Fp.one))
  | _ => Fp.sub coef (Fp.mul (Fp.sub Fp.one coef) c1)

/-- `WINDOW(type, coef)` (R272). -/
def window (tw : List F64) (len : Nat) (type : Word) (coef : F64) : List F64 :=
  (List.range len).map (windowEntry tw len type coef)

/-- The sum of a list from +0.0 in its order (R15). -/
def sumList (xs : List F64) : F64 := xs.foldl Fp.add Fp.zero

/-- `ICG(w)` (R272): none where it fails. -/
def icg (len : Nat) (w : List F64) : Option F64 :=
  let s := sumList w
  let g := Fp.div (Fp.ofNat len) s
  if Fp.eq s Fp.zero || !Fp.isFinite g then none else some g

/-! ## Resampler -/

/-- `RATIO(S)` (R278): none where the speed or the ratio is invalid. -/
def ratio (fof speed : F64) : Option F64 :=
  if !Fp.isFinite speed || Fp.le speed Fp.zero then none
  else
    let rho := Fp.div fof (Fp.div speed Fp.sixty)
    if !Fp.isFinite rho || Fp.le rho Fp.zero then none else some rho

/-- The weight `wt` of `SINC_AT` at the index `li` of the table (R279), +0.0 at and beyond its end. -/
def sincWeight (lut : List F64) (li : Int) : F64 := if li < (lut.length : Int) then nth lut li.toNat else Fp.zero

/-- The sample `v` of `SINC_AT` at position `j` of the frame (R279), +0.0 outside it. -/
def frameSample (frame : List F64) (j : Int) : F64 :=
  if 0 ≤ j ∧ j < (frame.length : Int) then nth frame j.toNat else Fp.zero

/-- One term of `SINC_AT` (R279) at tap `t`: the sample of the frame by the weight at its distance. -/
def sincTerm (frame lut : List F64) (gain fr : F64) (b t : Int) : F64 :=
  Fp.mul (frameSample frame (b + t)) (sincWeight lut (Fp.floor (Fp.mul (Fp.abs (Fp.sub fr (Fp.ofInt t))) gain)))

/-- `SINC_AT(x)` at a finite position (R279): the taps -A to A+1 in ascending order. -/
def sincAt (frame lut : List F64) (gain : F64) (a : Nat) (x : F64) : F64 :=
  let b := Fp.floor x
  let fr := Fp.sub x (Fp.ofInt b)
  (List.range (2 * a + 2)).foldl
    (fun acc (k : Nat) => Fp.add acc (sincTerm frame lut gain fr b ((k : Int) - (a : Int)))) Fp.zero

/-- `SINC_AT(x)` at a position that overflowed. It lies past the end of the frame, so every sample reads +0.0 (R279, R286, D36);
each weight is that of a free index into the table (assumption 7). Where the table is finite the result is +0.0. -/
def sincPast (lut : List F64) (a free : Nat) : F64 :=
  (List.range (2 * a + 2)).foldl
    (fun acc (k : Nat) => Fp.add acc (Fp.mul Fp.zero (sincWeight lut (Config.freeSincIndex free k)))) Fp.zero

/-- Output sample `k` of `RESAMPLE(rho)` (R280), its free indices, if any, those at `free + k`. -/
def resampleAt (frame lut : List F64) (gain : F64) (a : Nat) (rho : F64) (free k : Nat) : F64 :=
  let x := Fp.mul (Fp.ofNat k) rho
  if Fp.isFinite x then sincAt frame lut gain a x else sincPast lut a (free + k)

/-- The real part of `RESAMPLE(rho)` (R280); the imaginary part is all +0.0. -/
def resample (frame lut : List F64) (gain : F64) (a n : Nat) (rho : F64) (free : Nat) : List F64 :=
  (List.range n).map (resampleAt frame lut gain a rho free)

/-- `APPLY_WINDOW()` (R280). -/
def applyWindow (xs w : List F64) (g : F64) : List F64 := List.zipWith (fun x c => Fp.mul (Fp.mul x c) g) xs w

/-! ## FFT -/

/-- The real and imaginary arrays of a transform. -/
structure Spectrum where
  re : List F64
  im : List F64
deriving DecidableEq, Repr

/-- Two items of a list exchanged. -/
def swapAt (xs : List F64) (i j : Nat) : List F64 := (xs.set i (nth xs j)).set j (nth xs i)

/-- One step of the bit-reversal permutation (R310). -/
def permuteAt (br : List Word) (v : Spectrum) (i : Nat) : Spectrum :=
  let j := (br.getD i 0).toNat
  if i < j then ⟨swapAt v.re i j, swapAt v.im i j⟩ else v

/-- One butterfly of `FFT_CORE` (R310), block at `s`, index `k` in it. -/
def butterfly (tw : List F64) (n len : Nat) (v : Spectrum) (s k : Nat) : Spectrum :=
  let half := len / 2
  let step := n / len
  let wr := nth tw (k * step + n / 4)
  let wi := Fp.neg (nth tw (k * step))
  let a := s + k
  let b := a + half
  let tr := Fp.sub (Fp.mul (nth v.re b) wr) (Fp.mul (nth v.im b) wi)
  let ti := Fp.add (Fp.mul (nth v.re b) wi) (Fp.mul (nth v.im b) wr)
  let xr := nth v.re a
  let xi := nth v.im a
  ⟨(v.re.set b (Fp.sub xr tr)).set a (Fp.add xr tr), (v.im.set b (Fp.sub xi ti)).set a (Fp.add xi ti)⟩

/-- One stage of `FFT_CORE` (R310): the blocks of `len` in ascending order, the butterflies of a block in ascending order. -/
def fftStage (tw : List F64) (n len : Nat) (v : Spectrum) : Spectrum :=
  (List.range (n / len)).foldl
    (fun v blk => (List.range (len / 2)).foldl (fun v k => butterfly tw n len v (blk * len) k) v) v

/-- `FFT_CORE(RE, IM)` (R310): the permutation, then the stages len = 2, 4, ..., N. -/
def fftCore (tw : List F64) (br : List Word) (n : Nat) (v : Spectrum) : Spectrum :=
  (List.range n.log2).foldl (fun v q => fftStage tw n (2 <<< q) v) ((List.range n).foldl (permuteAt br) v)

/-! ## Spectrum, levels and orders -/

/-- `re[k]` or `im[k]` of `SPECTRUM()` for k below N/2 (R281): scaled by 2/N. -/
def scaled (n : Nat) (xs : List F64) : List F64 :=
  let sc := Fp.div Fp.two (Fp.ofNat n)
  (xs.take (n / 2)).map (fun x => Fp.mul x sc)

/-- The magnitude `sqrt((re × re) + (im × im))` (R281, R287). -/
def magnitude (re im : F64) : F64 := Fp.sqrt (Fp.add (Fp.mul re re) (Fp.mul im im))

/-- `DB(v)` (R283). -/
def toDb (c : OaConfig) (v : F64) : F64 := Fp.mul c.dbScale (Config.numLog10 (Fp.max2 v c.logFloor))

/-- `UNDB(v)` (R283). -/
def fromDb (c : OaConfig) (v : F64) : F64 := Config.numPow10 (Fp.div v c.dbScale)

/-- `OUT(v)` (R283). -/
def outLevel (c : OaConfig) (v : F64) : F64 := if c.logMode = 1 then toDb c v else v

/-- The theoretical bin of order number `i + 1` times the base order (R284). -/
def orderBin (c : OaConfig) (n i : Nat) : F64 :=
  Fp.div (Fp.mul (Fp.mul (Fp.ofNat (c.baseOrder.toNat * (i + 1))) c.fof) (Fp.ofNat n)) c.sampleRate

/-- The first maximum of `lin` over lo..hi (R284). -/
def firstMax (lin : List F64) (lo hi : Nat) : Nat :=
  (List.range' (lo + 1) (hi - lo)).foldl (fun p k => if Fp.lt (nth lin p) (nth lin k) then k else p) lo

/-- The quadratic vertex at bin `p` (R284), `y0` where it is skipped. That the test `den != 0.0` holds of a NaN `den` (two
magnitudes +inf beside each other), so that the peak is then a NaN, is the model's choice: DESIGN CHOICE, assumption 21. -/
def vertex (lin : List F64) (p : Nat) : F64 :=
  let y0 := nth lin p
  if 1 ≤ p ∧ p + 2 ≤ lin.length then
    let ym := nth lin (p - 1)
    let yp := nth lin (p + 1)
    let den := Fp.add (Fp.sub ym (Fp.mul Fp.two y0)) yp
    if Fp.le ym y0 && Fp.le yp y0 && Fp.ne den Fp.zero then
      let delta := Fp.div (Fp.mul Fp.half (Fp.sub ym yp)) den
      Fp.sub y0 (Fp.mul (Fp.mul Fp.quarter (Fp.sub ym yp)) delta)
    else y0
  else y0

/-- `pk` of order `i` (R284): +0.0 where the bin is not finite or beyond the spectrum. -/
def orderPeak (c : OaConfig) (n : Nat) (lin : List F64) (i : Nat) : F64 :=
  let bf := orderBin c n i
  if Fp.isFinite bf then
    let m := Fp.floor (Fp.add bf Fp.half)
    let lo := max 0 (m - (c.orderAdj.toNat : Int))
    let hi := min ((n / 2 : Nat) - 1 : Int) (m + (c.orderAdj.toNat : Int))
    if hi < lo then Fp.zero else vertex lin (firstMax lin lo.toNat hi.toNat)
  else Fp.zero

/-- `ORDERS()` (R284). -/
def orderList (c : OaConfig) (n : Nat) (lin : List F64) : List F64 :=
  (List.range c.numOrders.toNat).map (fun i => outLevel c (orderPeak c n lin i))

/-- The term of one order in `SUMLEVEL()` (R285). -/
def sumTerm (c : OaConfig) (v : F64) : F64 :=
  let a := if c.logMode = 1 then fromDb c v else v
  if c.cohType = 0 then a else Fp.mul a a

/-- `SUMLEVEL()` over the leading orders (R285). -/
def sumLevel (c : OaConfig) (orders : List F64) : F64 :=
  let acc := sumList ((orders.take c.numSum.toNat).map (sumTerm c))
  outLevel c (if c.cohType = 0 then acc else Fp.sqrt acc)

end Sys2Proof.Machine
end

