-- ==== Sys2Proof/Machine/OrderAnalysis.lean ====
section
/-! DEFINITION. The order-analysis commands (43_order.md R270 to R287): OA_INIT, OA_PUSH, OA_FLUSH, OA_FRAME and OA_FINAL. -/

namespace Sys2Proof.Machine

/-! ## OA_INIT -/

/-- `OA_CHECK()` (R270): the first check that fails. -/
def oaCheck (p : Params) (c : OaConfig) : Option ErrCode :=
  let n := c.fftLen.toNat
  let within := fun (lo hi : Nat) (w : Word) => decide (lo ≤ w.toNat) && decide (w.toNat ≤ hi)
  let positive := fun (v : F64) => Fp.isFinite v && Fp.lt Fp.zero v
  if !isPow2 n || decide (n < p.minFft) || decide (p.maxFft < n) then some .cfgFftLen
  else if !(within 1 p.maxSampleLen c.sampleLen && decide (c.overlap.toNat < c.sampleLen.toNat)
      && decide (c.sincNa.toNat ≤ p.maxSincAdj) && within 1 p.maxSincLut c.sincLutlen && within 1 p.maxOrders c.numOrders
      && decide (c.numSum.toNat ≤ c.numOrders.toNat) && decide (c.orderAdj.toNat ≤ p.maxOrderAdj)) then some .cfgLength
  else if c.winType.toNat > 5 ∨ c.logMode.toNat > 1 ∨ c.avgMode.toNat > 1 ∨ c.cohType.toNat > 1 then some .cfgMode
  else if !(Fp.isFinite c.winCoef && positive c.fof && positive c.sampleRate && positive c.dbScale && positive c.logFloor
      && within 1 4294967296 c.baseOrder) then some .cfgValue
  else none

/-- The arrays OA_INIT writes (R274), `w` being the window. -/
def oaInitMemory (c : OaConfig) (w : List F64) (m : Memory) : Memory :=
  let n := c.fftLen.toNat
  let zeros := fun k : Nat => List.replicate k Fp.zero
  let m := m.storeAt (.ram .sincLut) 0 (sincTable c.sincNa.toNat c.sincLutlen.toNat)
  let m := (m.storeAt (.ram .fftTw) 0 (fftTwiddles n)).storeAt (.ram .bitrev) 0 (bitrevTable n)
  let m := m.storeAt (.ram .win) 0 w
  let m := (m.storeAt (.ram .avgRe) 0 (zeros (n / 2))).storeAt (.ram .avgIm) 0 (zeros (n / 2))
  (m.storeAt (.ram .frameBuf) 0 (zeros c.sampleLen.toNat)).storeAt (.ram .speedBuf) 0 (zeros c.sampleLen.toNat)

/-- OA_INIT when every check passes (R274), with the window `w` and its inverse coherent gain `g`. -/
def oaInitDone (w : List F64) (g : F64) (s : State) : State :=
  { s with
    oaCfg := s.oaReg
    mem := oaInitMemory s.oaReg w s.mem
    oa :=
      { phaseGain := phaseGain s.oaReg.sincNa.toNat s.oaReg.sincLutlen.toNat
        icg := g
        frameCount := 0
        wp := 0
        start := 0
        frameReady := false }
    oaReady := true }

/-- An OA_INIT that fails: OA not ready, nothing else but the error (R274). -/
def oaInitFail (e : ErrCode) (s : State) : State := ({ s with oaReady := false } : State).raise e

/-- The window OA_INIT builds from the registers, in scratch storage (R274). -/
def oaInitWindow (c : OaConfig) : List F64 := window (fftTwiddles c.fftLen.toNat) c.fftLen.toNat c.winType c.winCoef

/-- The rule of OA_INIT (R274). -/
def oaInitRule (s : State) : State :=
  match oaCheck s.par s.oaReg with
  | some e => oaInitFail e s
  | none =>
    match icg s.oaReg.fftLen.toNat (oaInitWindow s.oaReg) with
    | none => oaInitFail .cfgWinGain s
    | some g => oaInitDone (oaInitWindow s.oaReg) g s

/-! ## The frame-overlap buffer -/

/-- A full frame becomes ready: FRAME_READY and FRAME_READY_EV (R275, R276). -/
def State.frameFull (s : State) : State := State.fire .frameReady { s with oa := { s.oa with frameReady := true } }

/-- The append of OA_PUSH (R275). -/
def oaAppend (s : State) : State :=
  let t : State :=
    { s with
      mem := (s.mem.write (.ram .frameBuf) s.oa.wp s.in0).write (.ram .speedBuf) s.oa.wp s.in1
      oa := { s.oa with wp := s.oa.wp + 1 } }
  if t.oa.wp = s.oaCfg.sampleLen.toNat then t.frameFull else t

/-- The rule of OA_PUSH (R275): a push onto a ready frame is dropped. -/
def oaPushRule (s : State) : State :=
  if s.oaReady then (if s.oa.frameReady then s.raise .overrun else oaAppend s) else s.raise .notInit

/-- The zero fill of OA_FLUSH (R276). -/
def oaZeroFill (s : State) : State :=
  let ls := s.oaCfg.sampleLen.toNat
  let zeros := List.replicate (ls - s.oa.wp) Fp.zero
  State.frameFull
    { s with
      mem := (s.mem.storeAt (.ram .frameBuf) s.oa.wp zeros).storeAt (.ram .speedBuf) s.oa.wp zeros
      oa := { s.oa with wp := ls } }

/-- The rule of OA_FLUSH (R276): only a frame with new samples that is not ready is filled. -/
def oaFlushRule (s : State) : State :=
  if s.oaReady then (if s.oa.frameReady = false ∧ s.oa.start < s.oa.wp then oaZeroFill s else s) else s.raise .notInit

/-- `ADVANCE()`, the overlap copy (R277). The copy runs upwards from a source above its destination, so each word is read
before it is written. -/
def oaAdvance (s : State) : Run State := do
  let lo := s.oaCfg.overlap.toNat
  let h := s.oaCfg.sampleLen.toNat - lo
  let xs ← s.mem.load (.ram .frameBuf) h lo
  let vs ← s.mem.load (.ram .speedBuf) h lo
  .ok
    { s with
      mem := (s.mem.storeAt (.ram .frameBuf) 0 xs).storeAt (.ram .speedBuf) 0 vs
      oa := { s.oa with wp := lo, start := lo, frameReady := false } }

/-! ## OA_FRAME -/

/-- `RESAMPLE(rho)` on the state (R280): RS_RE the resampled frame, RS_IM all +0.0; the counter of free values moves past the
N indices it may have used. -/
def oaResample (rho : F64) (s : State) : Run State := do
  let c := s.oaCfg
  let n := c.fftLen.toNat
  let frame ← s.mem.load (.ram .frameBuf) 0 c.sampleLen.toNat
  let lut ← s.mem.load (.ram .sincLut) 0 c.sincLutlen.toNat
  let xs := resample frame lut s.oa.phaseGain c.sincNa.toNat n rho s.freeNext
  .ok
    { s with
      mem := (s.mem.storeAt (.ram .rsRe) 0 xs).storeAt (.ram .rsIm) 0 (List.replicate n Fp.zero)
      freeNext := s.freeNext + n }

/-- `APPLY_WINDOW()` on the state (R280). -/
def oaWindow (s : State) : Run State := do
  let n := s.oaCfg.fftLen.toNat
  let xs ← s.mem.load (.ram .rsRe) 0 n
  let w ← s.mem.load (.ram .win) 0 n
  .ok { s with mem := s.mem.storeAt (.ram .rsRe) 0 (applyWindow xs w s.oa.icg) }

/-- `FFT_CORE(RAM[RS_RE], RAM[RS_IM])` on the state (R310). -/
def fftRun (s : State) : Run State := do
  let n := s.oaCfg.fftLen.toNat
  let re ← s.mem.load (.ram .rsRe) 0 n
  let im ← s.mem.load (.ram .rsIm) 0 n
  let tw ← s.mem.load (.ram .fftTw) 0 n
  let br ← s.mem.load (.ram .bitrev) 0 n
  let v := fftCore tw br n ⟨re, im⟩
  .ok { s with mem := (s.mem.storeAt (.ram .rsRe) 0 v.re).storeAt (.ram .rsIm) 0 v.im }

/-- The scaled spectrum of `SPECTRUM()` (R281), after the FFT. -/
def halfSpectrum (s : State) : Run Spectrum := do
  let n := s.oaCfg.fftLen.toNat
  let re ← s.mem.load (.ram .rsRe) 0 n
  let im ← s.mem.load (.ram .rsIm) 0 n
  .ok ⟨scaled n re, scaled n im⟩

/-- `st.lin` of `SPECTRUM()` (R281). -/
def linOf (v : Spectrum) : List F64 := List.zipWith magnitude v.re v.im

/-- `ACCUMULATE()` (R282): the complex spectrum with AVG_MODE = 0, the magnitudes otherwise. -/
def accumulate (v : Spectrum) (s : State) : Run State := do
  let h := s.oaCfg.fftLen.toNat / 2
  let ar ← s.mem.load (.ram .avgRe) 0 h
  if s.oaCfg.avgMode = 0 then do
    let ai ← s.mem.load (.ram .avgIm) 0 h
    .ok
      { s with
        mem :=
          (s.mem.storeAt (.ram .avgRe) 0 (List.zipWith Fp.add ar v.re)).storeAt (.ram .avgIm) 0
            (List.zipWith Fp.add ai v.im) }
  else .ok { s with mem := s.mem.storeAt (.ram .avgRe) 0 (List.zipWith Fp.add ar (linOf v)) }

/-- The level outputs of OA_FRAME: `st.lin` (R281), MAG (R283), ORDERS (R284) and the sum level (R285) in DOUT0. -/
def frameLevels (v : Spectrum) (s : State) : State :=
  let c := s.oaCfg
  let lin := linOf v
  let orders := orderList c c.fftLen.toNat lin
  { s with
    mem :=
      ((s.mem.storeAt (.line .lin) 0 lin).storeAt (.ram .mag) 0 (lin.map (outLevel c))).storeAt (.ram .orders) 0 orders
    dout0 := sumLevel c orders }

/-- The steps (a) to (f) of OA_FRAME at the ratio `rho` (R286), before the frame is consumed. -/
def frameProcess (rho : F64) (s : State) : Run State := do
  let s1 ← oaResample rho s
  let s2 ← oaWindow s1
  let s3 ← fftRun s2
  let v ← halfSpectrum s3
  let s4 ← accumulate v s3
  let s5 := frameLevels v s4
  .ok { s5 with dout1 := rho, oa := { s5.oa with frameCount := satInc s5.oa.frameCount } }

/-- OA_FRAME on a ready frame (R286): a bad speed discards the frame and raises BAD_SPEED. -/
def oaFrameBody (s : State) : Run State := do
  let speed ← s.mem.read (.ram .speedBuf) 0
  match ratio s.oaCfg.fof speed with
  | none => do
    let t ← oaAdvance s
    .ok (t.raise .badSpeed)
  | some rho => do
    let t ← frameProcess rho s
    let u ← oaAdvance t
    .ok (u.fire .frameDone)

/-- The rule of OA_FRAME (R286). -/
def oaFrameRule (s : State) : Run State :=
  if s.oaReady then (if s.oa.frameReady then oaFrameBody s else .ok (s.raise .noFrame)) else .ok (s.raise .notInit)

/-! ## OA_FINAL -/

/-- The averages of OA_FINAL (R287) on a frame count that is not 0. -/
def oaFinalBody (s : State) : Run State := do
  let c := s.oaCfg
  let h := c.fftLen.toNat / 2
  let fc := Fp.ofNat s.oa.frameCount
  let ar ← s.mem.load (.ram .avgRe) 0 h
  let ai ← s.mem.load (.ram .avgIm) 0 h
  let re := ar.map (fun x => Fp.div x fc)
  let im := ai.map (fun x => Fp.div x fc)
  .ok
    { s with
      mem :=
        (s.mem.storeAt (.ram .avgSpec) 0 (List.zipWith (fun x y => outLevel c (magnitude x y)) re im)).storeAt
          (.ram .avgPhase) 0 (List.zipWith (fun x y => Config.numAtan2 y x) re im)
      dout0 := fc }

/-- The rule of OA_FINAL (R287). -/
def oaFinalRule (s : State) : Run State :=
  if s.oaReady then (if s.oa.frameCount = 0 then .ok (s.raise .zeroFrames) else oaFinalBody s) else .ok (s.raise .notInit)

/-- OA_INIT (R274). -/
def execOaInit (s : State) : Host.Outcome State Fault Refusal := perform (.ok (oaInitRule s))

/-- OA_PUSH (R275). -/
def execOaPush (s : State) : Host.Outcome State Fault Refusal := perform (.ok (oaPushRule s))

/-- OA_FLUSH (R276). -/
def execOaFlush (s : State) : Host.Outcome State Fault Refusal := perform (.ok (oaFlushRule s))

/-- OA_FRAME (R286). -/
def execOaFrame (s : State) : Host.Outcome State Fault Refusal := perform (oaFrameRule s)

/-- OA_FINAL (R287). -/
def execOaFinal (s : State) : Host.Outcome State Fault Refusal := perform (oaFinalRule s)

end Sys2Proof.Machine
end

