-- ==== Sys2Proof/Machine/Primitives.lean ====
section
/-! DEFINITION. The standalone primitive commands (44_primitives.md R311 to R313): FFT, WINGEN and SINC_RS. -/

namespace Sys2Proof.Machine

/-- The rule of FFT (R311). -/
def fftRule (s : State) : Run State := if s.oaReady then fftRun s else .ok (s.raise .notInit)

/-- WINGEN when every check passes (R312), with the window `w` and its inverse coherent gain `g`. -/
def wingenDone (w : List F64) (g : F64) (s : State) : State :=
  { s with
    oaCfg := { s.oaCfg with winType := s.oaReg.winType, winCoef := s.oaReg.winCoef }
    mem := s.mem.storeAt (.ram .win) 0 w
    oa := { s.oa with icg := g } }

/-- The window of WINGEN with its gain, from the registers and the FFT table of the last OA_INIT (R312). -/
def wingenBody (s : State) : Run State := do
  let n := s.oaCfg.fftLen.toNat
  let tw ← s.mem.load (.ram .fftTw) 0 n
  let w := window tw n s.oaReg.winType s.oaReg.winCoef
  match icg n w with
  | none => .ok (s.raise .cfgWinGain)
  | some g => .ok (wingenDone w g s)

/-- The rule of WINGEN (R312). -/
def wingenRule (s : State) : Run State :=
  if s.oaReady then
    if s.oaReg.winType.toNat > 5 then .ok (s.raise .cfgMode)
    else if Fp.isFinite s.oaReg.winCoef then wingenBody s
    else .ok (s.raise .cfgValue)
  else .ok (s.raise .notInit)

/-- The rule of SINC_RS (R313). -/
def sincRsRule (s : State) : Run State :=
  if s.oaReady then
    if !Fp.isFinite s.in0 || Fp.le s.in0 Fp.zero then .ok (s.raise .badRatio) else oaResample s.in0 s
  else .ok (s.raise .notInit)

/-- FFT (R311). -/
def execFft (s : State) : Host.Outcome State Fault Refusal := perform (fftRule s)

/-- WINGEN (R312). -/
def execWingen (s : State) : Host.Outcome State Fault Refusal := perform (wingenRule s)

/-- SINC_RS (R313). -/
def execSincRs (s : State) : Host.Outcome State Fault Refusal := perform (sincRsRule s)

end Sys2Proof.Machine
end

