-- ==== Sys2Proof/Machine/Dispatch.lean ====
section
/-! DEFINITION. The perform of every command (30_encoding.md R131, R133): one arm per command. -/

namespace Sys2Proof.Machine

def exec (i : Instr) (s : State) : Host.Outcome State Fault Refusal :=
  match i with
  | .nop => Sys2Proof.Machine.execNop s
  | .clInit => Sys2Proof.Machine.execClInit s
  | .clStep => Sys2Proof.Machine.execClStep s
  | .elgStep => Sys2Proof.Machine.execElgStep s
  | .mapInit => Sys2Proof.Machine.execMapInit s
  | .mapEnc => Sys2Proof.Machine.execMapEnc s
  | .mapDec => Sys2Proof.Machine.execMapDec s
  | .demapAcc => Sys2Proof.Machine.execDemapAcc s
  | .modSym => Sys2Proof.Machine.execModSym s
  | .oaInit => Sys2Proof.Machine.execOaInit s
  | .oaPush => Sys2Proof.Machine.execOaPush s
  | .oaFlush => Sys2Proof.Machine.execOaFlush s
  | .oaFrame => Sys2Proof.Machine.execOaFrame s
  | .oaFinal => Sys2Proof.Machine.execOaFinal s
  | .fft => Sys2Proof.Machine.execFft s
  | .wingen => Sys2Proof.Machine.execWingen s
  | .sincRs => Sys2Proof.Machine.execSincRs s
  | .clrErr => Sys2Proof.Machine.execClrErr s
  | .softReset => Sys2Proof.Machine.execSoftReset s

end Sys2Proof.Machine
end

