-- ==== Sys2Proof/Machine/Step.lean ====
section
/-! DEFINITION. One step of the machine (70_reset_and_hazards.md R385): a move of the host or the perform of the command in
progress. -/

namespace Sys2Proof.Machine

/-- With no command in progress the host moves. With one, the host moves if the schedule says so (R384); otherwise the CORE
performs the command, whose word it decodes (R131, R136). -/
def step (s : State) : Host.Outcome State Fault Refusal :=
  match s.cmd with
  | none => settle (hostMove s)
  | some w =>
    if hostFirst s then settle (hostMove s.spendLag)
    else
      match decode w with
      | .ok i => exec i s
      | .error _ => perform (.ok (illegalPending s))

/-- `s` with the command word `w` issued and performed next: the word in the command in progress, and the schedule at the
perform. -/
def State.withFetchWord (s : State) (nbits w : Nat) : State := s.withPending (BitVec.ofNat 64 (tableWord nbits w))

end Sys2Proof.Machine
end

