-- ==== Sys2Proof/Safety.lean ====
section
/-! DEFINITION. What a good state and an ended run are, in the terms the statements use: the invariants of 10_state.md R58, the
end of a run (70_reset_and_hazards.md R391), and what it means that a bank holds given words. -/

namespace Sys2Proof.Safety

open Sys2Proof.Machine

/-! ## Contents of the memory -/

/-- The first `n` words of a bank have been written (R62). -/
abbrev Written (m : Memory) (b : Bank) (n : Nat) : Prop := ∀ i, i < n → (m.word b i).isSome = true

/-- The first words of a bank are the words of `vs`. -/
abbrev Holds (m : Memory) (b : Bank) (vs : List Word) : Prop := ∀ i, i < vs.length → m.word b i = vs[i]?

/-- Every word of every bank outside `touched` reads in `m'` as it read in `m`. -/
def SameExcept (touched : Bank → Nat → Prop) (m m' : Memory) : Prop :=
  ∀ b i, ¬ touched b i → m'.word b i = m.word b i

/-- No word beyond the capacity of its bank has been written (R56, R50, R51, R53, R54). -/
def WithinCapacity (s : State) : Prop := ∀ b i, s.mem.word b i ≠ none → i < b.capacity s.par

/-- `FIR` of R163 on the words of its coefficient RAM and of its delay line as they were before the sample `x`: the sample
stands at `idx`, and the terms are added in ascending k from +0.0. -/
def firValue (cs vs : List F64) (idx : Nat) (x : F64) : F64 :=
  (List.range cs.length).foldl
    (fun acc k => Fp.add acc (Fp.mul (nth cs k) (nth (vs.set idx x) ((idx + cs.length - k) % cs.length)))) Fp.zero

/-! ## Filters, phases and samples in a row -/

/-- The outputs of `FIR` (R163) on a row of samples, the delay line and its index carried from one to the next. -/
def firRun (cs : List F64) : List F64 → List F64 → Nat → List F64
  | [], _, _ => []
  | x :: xs, vs, idx => firValue cs vs idx x :: firRun cs xs (vs.set idx x) ((idx + 1) % cs.length)

/-- The delay line a row of samples leaves (R163). -/
def firLine (len : Nat) : List F64 → List F64 → Nat → List F64
  | [], vs, _ => vs
  | x :: xs, vs, idx => firLine len xs (vs.set idx x) ((idx + 1) % len)

/-- The carrier phase before sub-sample `k` of a symbol that begins at phase `v` (R241). -/
def phaseAt (inc : F64) (t : Nat) : Nat → F64 → F64
  | 0, v => v
  | k + 1, v => phaseAt inc t k (wrap (Fp.add v inc) t)

/-- A row of ELG decisions (R204 to R208) on pairs of a matched-filter and a loop-filter output: the triggers and the unit
left. -/
def elgRun (c : ClConfig) : List (F64 × F64) → ElgUnit → List Bool × ElgUnit
  | [], u => ([], u)
  | (m, f) :: xs, u =>
    let k := elgDecide c m f u
    let r := elgRun c xs k.unit
    (k.trig :: r.1, r.2)

/-- The IRQ_STATUS bits that one ELG sample sets (R207, R208, R209): LOCK_EV, NOLOCK_EV and SYM_EV. -/
def elgIrq (before after : ElgState) (trig : Bool) : BitVec 8 :=
  (if before ≠ .locked ∧ after = .locked then 0x04#8 else 0#8) ||| (if before ≠ .nolock ∧ after = .nolock then 0x08#8 else 0#8)
    ||| (if trig then 0x02#8 else 0#8)

/-! ## What the INITs admit, group by group in the order of their checks -/

/-- A table size is a multiple of 4 in 4..MAX_TAB (R168, R237). -/
abbrev TableOk (p : Params) (t : Word) : Prop := 4 ≤ t.toNat ∧ t.toNat ≤ p.maxTab ∧ t.toNat % 4 = 0

/-- The lengths CL_INIT admits (R168). -/
abbrev ClLengthsOk (p : Params) (c : ClConfig) : Prop :=
  (1 ≤ c.lpfLen.toNat ∧ c.lpfLen.toNat ≤ p.maxFir) ∧ (1 ≤ c.elgLfLen.toNat ∧ c.elgLfLen.toNat ≤ p.maxFir)
    ∧ (1 ≤ c.elgSymlen.toNat ∧ c.elgSymlen.toNat ≤ p.maxDelay) ∧ (1 ≤ c.elgMfLen.toNat ∧ c.elgMfLen.toNat ≤ p.maxDelay)
    ∧ (1 ≤ c.elgDelay.toNat ∧ c.elgDelay.toNat ≤ p.maxDelay) ∧ c.compDelay.toNat ≤ p.maxDelay

/-- The real parameters CL_INIT admits (R168). -/
abbrev ClValuesOk (c : ClConfig) : Prop :=
  Fp.isFinite c.carInc = true ∧ Fp.isFinite c.vcoModidx = true ∧ Fp.isFinite c.elgThresh = true
    ∧ Fp.isFinite c.loopAlpha = true ∧ Fp.lt c.loopAlpha Fp.zero = false ∧ Fp.lt Fp.one c.loopAlpha = false

/-- The lengths MAP_INIT admits (R237). -/
abbrev MapLengthsOk (p : Params) (c : MapConfig) : Prop :=
  (1 ≤ c.sps.toNat ∧ c.sps.toNat ≤ p.maxSps) ∧ (c.rrcEn = 1 → 1 ≤ c.rrcLen.toNat ∧ c.rrcLen.toNat ≤ p.maxFir)

/-- The modes MAP_INIT admits (R237). -/
abbrev MapModesOk (c : MapConfig) : Prop := c.modMode.toNat ≤ 3 ∧ c.diffEn.toNat ≤ 1 ∧ c.rrcEn.toNat ≤ 1

/-- The real parameters MAP_INIT admits (R237). -/
abbrev MapValuesOk (c : MapConfig) : Prop := Fp.isFinite c.qamThresh = true ∧ Fp.isFinite c.modInc = true

/-- The FFT lengths OA_INIT admits: powers of two in MIN_FFT..MAX_FFT (R270). -/
abbrev OaFftOk (p : Params) (c : OaConfig) : Prop :=
  (∃ k, k < 64 ∧ c.fftLen.toNat = 2 ^ k) ∧ p.minFft ≤ c.fftLen.toNat ∧ c.fftLen.toNat ≤ p.maxFft

/-- The lengths OA_INIT admits (R270). -/
abbrev OaLengthsOk (p : Params) (c : OaConfig) : Prop :=
  (1 ≤ c.sampleLen.toNat ∧ c.sampleLen.toNat ≤ p.maxSampleLen) ∧ c.overlap.toNat < c.sampleLen.toNat
    ∧ c.sincNa.toNat ≤ p.maxSincAdj ∧ (1 ≤ c.sincLutlen.toNat ∧ c.sincLutlen.toNat ≤ p.maxSincLut)
    ∧ (1 ≤ c.numOrders.toNat ∧ c.numOrders.toNat ≤ p.maxOrders) ∧ c.numSum.toNat ≤ c.numOrders.toNat
    ∧ c.orderAdj.toNat ≤ p.maxOrderAdj

/-- The modes OA_INIT admits (R270). -/
abbrev OaModesOk (c : OaConfig) : Prop :=
  c.winType.toNat ≤ 5 ∧ c.logMode.toNat ≤ 1 ∧ c.avgMode.toNat ≤ 1 ∧ c.cohType.toNat ≤ 1

/-- `isfinite(v) and v > 0.0`. -/
abbrev Positive (v : F64) : Prop := Fp.isFinite v = true ∧ Fp.lt Fp.zero v = true

/-- The real parameters and the base order OA_INIT admits (R270). -/
abbrev OaValuesOk (c : OaConfig) : Prop :=
  Fp.isFinite c.winCoef = true ∧ Positive c.fof ∧ Positive c.sampleRate ∧ Positive c.dbScale ∧ Positive c.logFloor
    ∧ 1 ≤ c.baseOrder.toNat ∧ c.baseOrder.toNat ≤ 4294967296

/-! ## Units -/

/-- The commands of the CL and ELG units (R133). -/
abbrev clCommands : List Instr := [.clInit, .clStep, .elgStep]

/-- The commands of the MAP unit (R133). -/
abbrev mapCommands : List Instr := [.mapInit, .mapEnc, .mapDec, .demapAcc, .modSym]

/-- The commands of the OA unit (R133). -/
abbrev oaCommands : List Instr := [.oaInit, .oaPush, .oaFlush, .oaFrame, .oaFinal, .fft, .wingen, .sincRs]

/-- The banks the commands of the CL and ELG units write (R56, R57). -/
abbrev clBanks : List Bank :=
  [.ram .vtab, .line .lpf1, .line .lpf2, .line .cdI, .line .cdQ, .line .mf, .line .eg, .line .elf]

/-- The banks the commands of the MAP unit write (R56, R57). -/
abbrev mapBanks : List Bank := [.ram .mtab, .ram .modOut, .line .txi, .line .txq, .line .rxi, .line .rxq]

/-- The banks the commands of the OA unit write (R56, R57). -/
abbrev oaBanks : List Bank :=
  [.ram .sincLut, .ram .win, .ram .fftTw, .ram .bitrev, .ram .frameBuf, .ram .speedBuf, .ram .rsRe, .ram .rsIm, .ram .mag,
   .ram .orders, .ram .avgRe, .ram .avgIm, .ram .avgSpec, .ram .avgPhase, .line .lin]

/-! ## Invariants -/

/-- `0.0 <= v < f64(t)` (R58, R162). -/
abbrev InTable (v : F64) (t : Nat) : Prop := Fp.le Fp.zero v = true ∧ Fp.lt v (Fp.ofNat t) = true

/-- R58 for the ELG: the trigger counter bounded by the symbol length and the indices by their lengths; and what R207 and R208
leave: fewer than Ns good periods while ACQUIRING, exactly Ns once LOCKED, the acquisition bound not yet reached. -/
abbrev ElgGood (c : ClConfig) (u : ElgUnit) : Prop :=
  u.mfIdx < c.elgMfLen.toNat ∧ u.egIdx < c.elgDelay.toNat ∧ u.elfIdx < c.elgLfLen.toNat ∧ u.trigCnt < c.elgSymlen.toNat
    ∧ u.samples ≤ 18446744073709551615
    ∧ (u.state = .acquiring → u.good < c.elgSymlen.toNat)
    ∧ (u.state = .locked → u.good = c.elgSymlen.toNat ∧ u.trigLat ≤ u.samples)
    ∧ (u.state = .nolock → c.acqLimit ≠ 0)
    ∧ (c.acqLimit ≠ 0 → u.state = .idle ∨ u.state = .acquiring → u.samples < c.acqLimit.toNat)

/-- R58 for a ready CL unit: a latched configuration that CL_INIT admits, the phase in the table, the indices below their
lengths, VTAB the table of its size and every delay line written. -/
abbrev ClGood (s : State) : Prop :=
  clCheck s.par s.clCfg = none
    ∧ InTable s.cl.phase s.clCfg.vcoTsize.toNat
    ∧ s.cl.lpf1Idx < s.clCfg.lpfLen.toNat ∧ s.cl.lpf2Idx < s.clCfg.lpfLen.toNat
    ∧ (if s.clCfg.compDelay = 0 then s.cl.cdIdx = 0 else s.cl.cdIdx < s.clCfg.compDelay.toNat)
    ∧ ElgGood s.clCfg s.elg
    ∧ Holds s.mem (.ram .vtab) (qsin s.clCfg.vcoTsize.toNat)
    ∧ Written s.mem (.line .lpf1) s.par.maxFir ∧ Written s.mem (.line .lpf2) s.par.maxFir
    ∧ Written s.mem (.line .cdI) s.par.maxDelay ∧ Written s.mem (.line .cdQ) s.par.maxDelay
    ∧ Written s.mem (.line .mf) s.par.maxDelay ∧ Written s.mem (.line .eg) s.par.maxDelay
    ∧ Written s.mem (.line .elf) s.par.maxFir

/-- The retained symbol index is below the differential modulus, and 0 without a differential stage (R58). -/
abbrev PrevGood (dm prev : Nat) : Prop := if dm = 0 then prev = 0 else prev < dm

/-- R58 for a ready MAP unit. -/
abbrev MapGood (s : State) : Prop :=
  mapCheck s.par s.mapCfg = none
    ∧ InTable s.map.modPhase s.mapCfg.modTsize.toNat
    ∧ s.map.tick < s.mapCfg.sps.toNat
    ∧ PrevGood (diffModulus s.mapCfg) s.map.txPrev ∧ PrevGood (diffModulus s.mapCfg) s.map.rxPrev
    ∧ (s.mapCfg.rrcEn = 1 →
        s.map.txiIdx < s.mapCfg.rrcLen.toNat ∧ s.map.txqIdx < s.mapCfg.rrcLen.toNat
          ∧ s.map.rxiIdx < s.mapCfg.rrcLen.toNat ∧ s.map.rxqIdx < s.mapCfg.rrcLen.toNat)
    ∧ Holds s.mem (.ram .mtab) (qsin s.mapCfg.modTsize.toNat)
    ∧ Written s.mem (.line .txi) s.par.maxFir ∧ Written s.mem (.line .txq) s.par.maxFir
    ∧ Written s.mem (.line .rxi) s.par.maxFir ∧ Written s.mem (.line .rxq) s.par.maxFir

/-- R58 and R274 for a ready OA unit: a latched configuration that OA_INIT admits, the fill state of the frame, and every
table that of the latched configuration. -/
abbrev OaGood (s : State) : Prop :=
  oaCheck s.par s.oaCfg = none
    ∧ (s.oa.start = 0 ∨ s.oa.start = s.oaCfg.overlap.toNat) ∧ (s.oa.frameCount ≠ 0 → s.oa.start = s.oaCfg.overlap.toNat)
    ∧ s.oa.start ≤ s.oa.wp ∧ s.oa.wp ≤ s.oaCfg.sampleLen.toNat
    ∧ (s.oa.frameReady = true ↔ s.oa.wp = s.oaCfg.sampleLen.toNat)
    ∧ s.oa.frameCount ≤ 18446744073709551615
    ∧ s.oa.phaseGain = phaseGain s.oaCfg.sincNa.toNat s.oaCfg.sincLutlen.toNat
    ∧ icg s.oaCfg.fftLen.toNat (oaInitWindow s.oaCfg) = some s.oa.icg
    ∧ Holds s.mem (.ram .sincLut) (sincTable s.oaCfg.sincNa.toNat s.oaCfg.sincLutlen.toNat)
    ∧ Holds s.mem (.ram .fftTw) (fftTwiddles s.oaCfg.fftLen.toNat)
    ∧ Holds s.mem (.ram .bitrev) (bitrevTable s.oaCfg.fftLen.toNat)
    ∧ Holds s.mem (.ram .win) (oaInitWindow s.oaCfg)
    ∧ Written s.mem (.ram .avgRe) (s.oaCfg.fftLen.toNat / 2) ∧ Written s.mem (.ram .avgIm) (s.oaCfg.fftLen.toNat / 2)
    ∧ Written s.mem (.ram .frameBuf) s.oaCfg.sampleLen.toNat ∧ Written s.mem (.ram .speedBuf) s.oaCfg.sampleLen.toNat

/-- "Invariants after a successful INIT of the unit" (R58), the CL and ELG units. -/
abbrev ClInv (s : State) : Prop := s.clReady = true → ClGood s

/-- The same for the MAP unit. -/
abbrev MapInv (s : State) : Prop := s.mapReady = true → MapGood s

/-- The same for the OA unit. -/
abbrev OaInv (s : State) : Prop := s.oaReady = true → OaGood s

/-- A memory in its canonical form and no word of it beyond a capacity, with the three invariants that bound every index. -/
def MemInv (s : State) : Prop := s.mem.wf ∧ WithinCapacity s ∧ ClInv s ∧ MapInv s ∧ OaInv s

/-! ## Runs -/

/-- The run has ended (R391): the host has issued every transaction of its program and no command is in progress. A fault ends
a step in no state at all. -/
def runEnded (s : State) : Bool := s.host.queue.isEmpty && !s.busy

/-- A host operation that is neither a forbidden access (R103) nor a power-on reset. -/
def plainOp : HostOp → Bool
  | .bus a => a.legal
  | .wait => true
  | .chkerr => true
  | .powerOn => false

/-- The operation the host makes in the next step, if the step is the host's. -/
def nextOp (s : State) : Option HostOp := if s.cmd = none ∨ hostFirst s = true then s.host.queue.head? else none

/-- The command performed in the next step, if the step is the engine's. -/
def nextCommand (s : State) : Option Instr :=
  match s.cmd with
  | none => none
  | some w => if hostFirst s then none else (decode w).toOption

/-- The next step does no reset of the block: neither SOFT_RESET nor a power-on reset (R381). -/
abbrev NoReset (s : State) : Prop := nextOp s ≠ some .powerOn ∧ nextCommand s ≠ some .softReset

end Sys2Proof.Safety
end

