-- ==== Sys2Proof/Certificates/Slice0/Obligations.lean ====
section
/-! DEFINITION. The statements for the provers. Each is a statement about the machine; each docstring names the rules of spec/ it
formalises, and the assumption where a clause rests on the model's own choice. -/

open Sys2Proof Sys2Proof.Machine Sys2Proof.Safety

/-! ## Encoding -/

/-- R130, R133, R135, R136: decode and encode agree. The word of a command decodes to that command, and a word that decodes to a
command is that command's word, so no word has two meanings and no bit of a word is dropped. -/
def Obligations.DecodeEncode : Prop :=
  (∀ i : Instr, i.wf = true → decode (encode i) = .ok i) ∧ ∀ (w : Word) (i : Instr), decode w = .ok i → w = encode i

/-- R133: one word of every unit, written out. -/
def Obligations.SampleWords : Prop :=
  decode 0x0000000000000000#64 = .ok .nop ∧ decode 0x0000000000000002#64 = .ok .clStep
    ∧ decode 0x0000000000000003#64 = .ok .elgStep ∧ decode 0x0000000000000012#64 = .ok .mapDec
    ∧ decode 0x0000000000000014#64 = .ok .modSym ∧ decode 0x0000000000000023#64 = .ok .oaFrame
    ∧ decode 0x0000000000000031#64 = .ok .wingen ∧ decode 0x00000000000000F0#64 = .ok .clrErr
    ∧ decode 0x00000000000000FF#64 = .ok .softReset

/-- R134 with R131: which words are illegal, and all that the host's write of one to CMD does while BUSY = 0. -/
def Obligations.IllegalWords : Prop :=
  (∀ w : Word, (∃ r, decode w = .error r) ↔
    256 ≤ w.toNat ∨ (0x04 ≤ w.toNat ∧ w.toNat ≤ 0x0F) ∨ (0x15 ≤ w.toNat ∧ w.toNat ≤ 0x1F)
      ∨ (0x25 ≤ w.toNat ∧ w.toNat ≤ 0x2F) ∨ (0x33 ≤ w.toNat ∧ w.toNat ≤ 0xEF) ∨ (0xF1 ≤ w.toNat ∧ w.toNat ≤ 0xFE))
  ∧ ∀ (w : Word) (r : Reject) (s : State), decode w = .error r → s.cmd = none →
      hostWrite 0x008#12 w s =
        { s with
          err := true
          errcode := if s.err then s.errcode else 0x01#8
          irqStatus := s.irqStatus ||| 0x81#8 }

/-! ## Issue, perform and the host's accesses -/

/-- R131, R385: the step of a state with a command in progress. Where the schedule leaves the host no access before it, the step
is the command the pending word decodes to; otherwise it is the host's move. The schedule is the model's (assumption 1). -/
def Obligations.StepRunsDecoded : Prop :=
  ∀ (s : State) (w : Word) (i : Instr), s.cmd = some w → decode w = .ok i →
    (s.host.lag = 0 ∨ s.host.queue = [] → step s = exec i s)
      ∧ (0 < s.host.lag → s.host.queue ≠ [] → step s = settle (hostMove s.spendLag))

/-- R138, R139, R104, R384: the step of the host at the head of its program. A legal access with no command in progress is the
host's write or read on the block, and the step of a read is a fault exactly where the read is; while the schedule leaves the host
a move, the access is made with the command still in progress. A WAIT reads STATUS: it ends with BUSY = 0 and stays with BUSY = 1.
CHKERR reads STATUS, and the program is in error if bit 1 is 1; that the verdict is held in `host.inError` and the program goes on
after a failed CHKERR is the model's reading (assumption 22). The host's queue and the values read are the model's data
(assumption 11), the schedule its choice (assumption 1). -/
def Obligations.HostStep : Prop :=
  ∀ (s : State) (rest : List HostOp),
    let idle : State := { s with host := { s.host with queue := rest } }
    let busy : State := { s with host := { s.host with queue := rest, lag := s.host.lag - 1 } }
    (s.cmd = none → s.host.queue = [] → step s = .next s)
    ∧ (∀ a : Access, a.legal = true → s.cmd = none → s.host.queue = .bus a :: rest →
      (a.dir = .write → step s = .next (hostWrite a.offset a.data idle))
        ∧ (a.dir = .read → (∀ t, hostRead a.offset idle = .ok t → step s = .next t)
          ∧ ∀ f, hostRead a.offset idle = .error f → step s = .fault f))
    ∧ (∀ (a : Access) (w : Word), a.legal = true → s.cmd = some w → 0 < s.host.lag → s.host.queue = .bus a :: rest →
      (a.dir = .write → step s = .next (busy.raise .busyWrite))
        ∧ (a.dir = .read → ∃ t, hostRead a.offset busy = .ok t ∧ step s = .next t ∧ t.cmd = some w))
    ∧ (s.host.queue = .wait :: rest →
      (s.cmd = none →
        step s = .next { s with host := { s.host with queue := rest, reads := s.status :: s.host.reads } })
      ∧ ∀ w, s.cmd = some w → 0 < s.host.lag →
        step s = .next { s with host := { s.host with lag := s.host.lag - 1, reads := s.status :: s.host.reads } })
    ∧ (s.host.queue = .chkerr :: rest →
      (s.cmd = none →
        step s =
          .next
            { s with
              host :=
                { s.host with
                  queue := rest
                  reads := s.status :: s.host.reads
                  inError := s.host.inError || s.err } })
      ∧ ∀ w, s.cmd = some w → 0 < s.host.lag →
        step s =
          .next
            { s with
              host :=
                { s.host with
                  queue := rest
                  lag := s.host.lag - 1
                  reads := s.status :: s.host.reads
                  inError := s.host.inError || s.err } })

/-- R131, R385: the host's write of a command's word to CMD while BUSY = 0 is the issue: BUSY becomes 1, and nothing of the block
but BUSY changes. The schedule of the perform is read from the model's own queue (assumption 1). -/
def Obligations.IssueCommand : Prop :=
  ∀ (s : State) (i : Instr), s.cmd = none →
    hostWrite 0x008#12 (encode i) s =
        { s with
          cmd := some (encode i)
          host := { s.host with lag := s.host.lags.headD 0, lags := s.host.lags.tail } }
      ∧ (hostWrite 0x008#12 (encode i) s).busy = true

/-- R131, R345: whatever the command, once it is performed BUSY is 0 and CMD_DONE_EV is set; no command changes the capacities or
the host's side. -/
def Obligations.PerformEnds : Prop :=
  ∀ (i : Instr) (s t : State), exec i s = .next t →
    t.busy = false ∧ t.irqStatus.getLsbD 7 = true ∧ t.par = s.par ∧ t.host = s.host

/-- R385: every issued command is eventually performed, here within as many steps as the schedule names (assumption 1), whatever
legal accesses, waits and CHKERRs the host makes meanwhile; that its program goes on after a failed CHKERR is the model's reading
(assumption 22). -/
def Obligations.EventuallyPerformed : Prop :=
  ∀ (s : State) (w : Word) (i : Instr), s.cmd = some w → decode w = .ok i → (∀ op ∈ s.host.queue, plainOp op = true) →
    ∃ (k : Nat) (t : State), k ≤ s.host.lag ∧ Host.Core.run Sys2Proof.core k s = .next t ∧ t.cmd = some w
      ∧ step t = exec i t

/-- R103: an access of another width or at another alignment is BUS_ERROR, of the access and of the step that makes it; no other
access is. That it is one with a command in progress too, where R384 speaks of BUSY_WRITE, is the model's reading (assumption 18);
that the host moves there while `lag` is not 0 is its schedule (assumption 1). -/
def Obligations.BusError : Prop :=
  (∀ (a : Access) (s : State), busAccess a s = .error .busError ↔ a.bits ≠ 64 ∨ a.offset.toNat % 8 ≠ 0)
    ∧ ∀ (a : Access) (rest : List HostOp) (s : State), s.cmd = none ∨ 0 < s.host.lag → s.host.queue = .bus a :: rest →
        a.bits ≠ 64 ∨ a.offset.toNat % 8 ≠ 0 → step s = .fault .busError

/-- R43, R104: the unmapped offsets; a read of one returns 0 and a write to one is ignored, without error; a write to a read-only
register is ignored without error. (While BUSY = 1 a write is dropped with an error, R384. A value returned is the newest of the
host's reads, assumption 11.) -/
def Obligations.UnmappedAndReadOnly : Prop :=
  (∀ o : BitVec 12, o.toNat % 8 = 0 →
    (Reg.ofOffset o = none ↔
      o = 0x070#12 ∨ o = 0x078#12 ∨ o = 0x0F8#12 ∨ (0x168 ≤ o.toNat ∧ o.toNat ≤ 0x1F8)
        ∨ (0x240 ≤ o.toNat ∧ o.toNat ≤ 0x2F8) ∨ (0x390 ≤ o.toNat ∧ o.toNat ≤ 0xFF8)))
  ∧ (∀ (o : BitVec 12) (s : State), Reg.ofOffset o = none →
      hostRead o s = .ok (s.record 0) ∧ (s.busy = false → ∀ v, hostWrite o v s = s))
  ∧ ∀ (r : Reg) (s : State) (v : Word), s.busy = false →
      (r ∈ [.id, .status, .dout0, .dout1, .dout2, .dout3] ∨ ∃ x, r = .obs x) → hostWrite r.offset v s = s

/-- R31 to R42: what a host read of every register but RAM_DATA returns, by its offset, in every state. A value returned is the
newest of the host's reads (assumption 11). -/
def Obligations.RegisterReads : Prop :=
  ∀ s : State,
    let returns := fun (o : BitVec 12) (v : Word) => hostRead o s = .ok (s.record v)
    (returns 0x000#12 0x53474C4200010000#64 ∧ returns 0x008#12 0 ∧ returns 0x010#12 s.status
      ∧ returns 0x018#12 (s.irqStatus.setWidth 64) ∧ returns 0x020#12 (s.irqEnable.setWidth 64)
      ∧ returns 0x028#12 s.din0 ∧ returns 0x030#12 s.din1 ∧ returns 0x038#12 s.dout0 ∧ returns 0x040#12 s.dout1
      ∧ returns 0x048#12 s.dout2 ∧ returns 0x050#12 s.dout3 ∧ returns 0x058#12 (s.ramSel.setWidth 64)
      ∧ returns 0x060#12 s.ramAddr)
    ∧ (returns 0x080#12 s.cl.phase ∧ returns 0x088#12 s.cl.fb ∧ returns 0x090#12 s.cl.lf
      ∧ returns 0x098#12 (BitVec.ofNat 64 s.elg.trigCnt) ∧ returns 0x0A0#12 (BitVec.ofNat 64 s.elg.good)
      ∧ returns 0x0A8#12 (BitVec.ofNat 64 s.elg.samples) ∧ returns 0x0B0#12 (BitVec.ofNat 64 s.elg.trigLat)
      ∧ returns 0x0B8#12 (BitVec.ofNat 64 s.map.txPrev) ∧ returns 0x0C0#12 (BitVec.ofNat 64 s.map.rxPrev)
      ∧ returns 0x0C8#12 s.map.modPhase ∧ returns 0x0D0#12 (BitVec.ofNat 64 s.map.tick)
      ∧ returns 0x0D8#12 (BitVec.ofNat 64 s.oa.wp) ∧ returns 0x0E0#12 (BitVec.ofNat 64 s.oa.frameCount)
      ∧ returns 0x0E8#12 s.oa.icg ∧ returns 0x0F0#12 s.oa.phaseGain)
    ∧ (returns 0x100#12 s.clReg.vcoTsize ∧ returns 0x108#12 s.clReg.carInc ∧ returns 0x110#12 s.clReg.vcoModidx
      ∧ returns 0x118#12 s.clReg.lpfLen ∧ returns 0x120#12 s.clReg.loopAlpha ∧ returns 0x128#12 s.clReg.fbMode
      ∧ returns 0x130#12 s.clReg.elgSymlen ∧ returns 0x138#12 s.clReg.elgMfLen ∧ returns 0x140#12 s.clReg.elgDelay
      ∧ returns 0x148#12 s.clReg.elgLfLen ∧ returns 0x150#12 s.clReg.elgThresh ∧ returns 0x158#12 s.clReg.compDelay
      ∧ returns 0x160#12 s.clReg.acqLimit)
    ∧ (returns 0x200#12 s.mapReg.modMode ∧ returns 0x208#12 s.mapReg.diffEn ∧ returns 0x210#12 s.mapReg.sps
      ∧ returns 0x218#12 s.mapReg.rrcEn ∧ returns 0x220#12 s.mapReg.rrcLen ∧ returns 0x228#12 s.mapReg.qamThresh
      ∧ returns 0x230#12 s.mapReg.modTsize ∧ returns 0x238#12 s.mapReg.modInc)
    ∧ (returns 0x300#12 s.oaReg.sampleLen ∧ returns 0x308#12 s.oaReg.overlap ∧ returns 0x310#12 s.oaReg.fftLen
      ∧ returns 0x318#12 s.oaReg.sincNa ∧ returns 0x320#12 s.oaReg.sincLutlen ∧ returns 0x328#12 s.oaReg.winType
      ∧ returns 0x330#12 s.oaReg.winCoef ∧ returns 0x338#12 s.oaReg.fof ∧ returns 0x340#12 s.oaReg.sampleRate
      ∧ returns 0x348#12 s.oaReg.logMode ∧ returns 0x350#12 s.oaReg.avgMode ∧ returns 0x358#12 s.oaReg.cohType
      ∧ returns 0x360#12 s.oaReg.dbScale ∧ returns 0x368#12 s.oaReg.baseOrder ∧ returns 0x370#12 s.oaReg.numOrders
      ∧ returns 0x378#12 s.oaReg.orderAdj ∧ returns 0x380#12 s.oaReg.numSum ∧ returns 0x388#12 s.oaReg.logFloor)

/-- R106, R105: the reserved bits read 0 and ignore writes; every register without reserved bits keeps the 64 bits written, and a
host read gives them back; IRQ_ENABLE and RAM_SEL give back the eight bits they store. A write changes nothing else. A value
returned is the newest of the host's reads (assumption 11). -/
def Obligations.ReservedAndStored : Prop :=
  (∀ s : State, s.status &&& 0xFFFFFFFFFE0000FC#64 = 0 ∧ s.readReg .irqStatus &&& 0xFFFFFFFFFFFFFF00#64 = 0
      ∧ s.readReg .irqEnable &&& 0xFFFFFFFFFFFFFF00#64 = 0 ∧ s.readReg .ramSel &&& 0xFFFFFFFFFFFFFF00#64 = 0)
  ∧ (∀ (s : State) (v : Word), s.busy = false → hostWrite 0x010#12 v s = s)
  ∧ (∀ (s : State) (r : Reg) (v : Word), s.busy = false → r = .irqStatus ∨ r = .irqEnable ∨ r = .ramSel →
      hostWrite r.offset v s = hostWrite r.offset (v &&& 0xFF#64) s)
  ∧ (∀ (s : State) (v : Word), s.busy = false →
      hostWrite 0x028#12 v s = { s with din0 := v } ∧ hostWrite 0x030#12 v s = { s with din1 := v }
        ∧ hostWrite 0x060#12 v s = { s with ramAddr := v } ∧ hostWrite 0x020#12 v s = { s with irqEnable := v.setWidth 8 }
        ∧ hostWrite 0x058#12 v s = { s with ramSel := v.setWidth 8 })
  ∧ (∀ (s : State) (r : Reg) (v : Word), s.busy = false →
      (r ∈ [.din0, .din1, .ramAddr] ∨ (∃ x, r = .cl x) ∨ (∃ x, r = .map x) ∨ (∃ x, r = .oa x) →
          hostRead r.offset (hostWrite r.offset v s) = .ok ((hostWrite r.offset v s).record v))
        ∧ (r = .irqEnable ∨ r = .ramSel →
          hostRead r.offset (hostWrite r.offset v s) = .ok ((hostWrite r.offset v s).record (v &&& 0xFF#64))))
  ∧ (∀ (s : State) (r : ClReg) (v : Word), s.busy = false →
      hostWrite r.offset v s = { s with clReg := s.clReg.set r v }
        ∧ ∀ r', (s.clReg.set r v).get r' = if r' = r then v else s.clReg.get r')
  ∧ (∀ (s : State) (r : MapReg) (v : Word), s.busy = false →
      hostWrite r.offset v s = { s with mapReg := s.mapReg.set r v }
        ∧ ∀ r', (s.mapReg.set r v).get r' = if r' = r then v else s.mapReg.get r')
  ∧ ∀ (s : State) (r : OaReg) (v : Word), s.busy = false →
      hostWrite r.offset v s = { s with oaReg := s.oaReg.set r v }
        ∧ ∀ r', (s.oaReg.set r v).get r' = if r' = r then v else s.oaReg.get r'

/-- R384: while BUSY = 1 every write is dropped and raises BUSY_WRITE, a read of RAM_DATA returns 0, leaves RAM_ADDR and raises
BUSY_WRITE, and every other read returns the register's value, which a BUSY_WRITE changes in STATUS and IRQ_STATUS alone. -/
def Obligations.BusyAccess : Prop :=
  ∀ (a : Access) (s : State), s.busy = true → a.legal = true →
    (a.dir = .write → busAccess a s = .ok (s.raise .busyWrite))
      ∧ (a.dir = .read → a.offset = 0x068#12 → busAccess a s = .ok ((s.raise .busyWrite).record 0))
      ∧ (a.dir = .read → a.offset ≠ 0x068#12 →
          busAccess a s = .ok (s.record (((Reg.ofOffset a.offset).map s.readReg).getD 0)))
      ∧ (∀ r, r ≠ .status → r ≠ .irqStatus → (s.raise .busyWrite).readReg r = s.readReg r)

/-- R33: every field of STATUS at its place, the reserved bits 0, and LOCKED exactly when ELG_STATE = 2. -/
def Obligations.StatusFields : Prop :=
  ∀ s : State,
    s.status.getLsbD 0 = s.busy ∧ s.status.getLsbD 1 = s.err ∧ s.status.extractLsb' 2 6 = 0
      ∧ s.status.extractLsb' 8 8 = s.errcode ∧ s.status.getLsbD 16 = s.clReady ∧ s.status.getLsbD 17 = s.mapReady
      ∧ s.status.getLsbD 18 = s.oaReady ∧ s.status.getLsbD 19 = s.symValid
      ∧ s.status.extractLsb' 20 2 =
          (match s.elg.state with | .idle => 0#2 | .acquiring => 1#2 | .locked => 2#2 | .nolock => 3#2)
      ∧ (s.status.getLsbD 22 = true ↔ s.status.extractLsb' 20 2 = 2#2) ∧ s.status.getLsbD 23 = s.oa.frameReady
      ∧ s.status.getLsbD 24 = s.numeric ∧ s.status.extractLsb' 25 39 = 0

/-- R346, R34: the interrupt output is the OR of the pending and enabled bits; a write to IRQ_ENABLE leaves the pending bits; a
write to IRQ_STATUS clears the bits written 1 and leaves the others; with none pending the output is low. -/
def Obligations.IrqOutput : Prop :=
  (∀ s : State, s.irq = true ↔ ∃ i, i < 8 ∧ s.irqStatus.getLsbD i = true ∧ s.irqEnable.getLsbD i = true)
  ∧ (∀ (s : State) (v : Word), s.busy = false →
      (hostWrite 0x020#12 v s).irqStatus = s.irqStatus
        ∧ hostWrite 0x018#12 v s = { s with irqStatus := (hostWrite 0x018#12 v s).irqStatus }
        ∧ ∀ i, i < 8 → (hostWrite 0x018#12 v s).irqStatus.getLsbD i = (s.irqStatus.getLsbD i && !v.getLsbD i))
  ∧ ∀ s : State, s.busy = false → (hostWrite 0x018#12 0xFF#64 s).irq = false

/-- R107, R109, R62: a read of RAM_DATA while BUSY = 0, with the ids and the capacity column of R56. A value returned is the
newest of the host's reads (assumption 11). -/
def Obligations.RamRead : Prop :=
  (∀ sel : BitVec 8, RamId.ofSel sel = none ↔ 19 < sel.toNat)
  ∧ (∀ (sel : BitVec 8) (r : RamId), RamId.ofSel sel = some r → r.id = sel.toNat)
  ∧ (∀ p : Params,
      [RamId.lpfCoef, .elgLfCoef, .rrcCoef, .vtab, .mtab, .modOut, .sincLut, .win, .fftTw, .bitrev, .frameBuf, .speedBuf,
          .rsRe, .rsIm, .mag, .orders, .avgRe, .avgIm, .avgSpec, .avgPhase].map (fun r => (r.id, ramCapacity p r))
        = [(0, p.maxFir), (1, p.maxFir), (2, p.maxFir), (3, 5 * p.maxTab / 4), (4, 5 * p.maxTab / 4), (5, p.maxSps),
          (6, p.maxSincLut), (7, p.maxFft), (8, p.maxFft), (9, p.maxFft), (10, p.maxSampleLen), (11, p.maxSampleLen),
          (12, p.maxFft), (13, p.maxFft), (14, p.maxFft / 2), (15, p.maxOrders), (16, p.maxFft / 2), (17, p.maxFft / 2),
          (18, p.maxFft / 2), (19, p.maxFft / 2)])
  ∧ ∀ s : State, s.cmd = none →
    (RamId.ofSel s.ramSel = none → hostRead 0x068#12 s = .ok ((s.raise .ramAccess).record 0))
      ∧ ∀ r, RamId.ofSel s.ramSel = some r →
        (ramCapacity s.par r ≤ s.ramAddr.toNat → hostRead 0x068#12 s = .ok ((s.raise .ramAccess).record 0))
          ∧ (s.ramAddr.toNat < ramCapacity s.par r →
            (s.mem.word (.ram r) s.ramAddr.toNat = none → hostRead 0x068#12 s = .error .unwritten)
              ∧ ∀ v, s.mem.word (.ram r) s.ramAddr.toNat = some v →
                hostRead 0x068#12 s = .ok (({ s with ramAddr := s.ramAddr + 1 } : State).record v))

/-- R108, R109, R113: a write of RAM_DATA while BUSY = 0: the word and no other, and RAM_ADDR moved on by one; or RAM_ACCESS and
nothing written. -/
def Obligations.RamWrite : Prop :=
  (∀ r : RamId, ramHostWritable r = true ↔ r.id ∈ [0, 1, 2, 12, 13])
  ∧ ∀ (s : State) (v : Word), s.cmd = none →
    (RamId.ofSel s.ramSel = none → hostWrite 0x068#12 v s = s.raise .ramAccess)
      ∧ ∀ r, RamId.ofSel s.ramSel = some r →
        (ramCapacity s.par r ≤ s.ramAddr.toNat ∨ ramHostWritable r = false → hostWrite 0x068#12 v s = s.raise .ramAccess)
          ∧ (s.ramAddr.toNat < ramCapacity s.par r → ramHostWritable r = true →
            ∃ t, hostWrite 0x068#12 v s = t ∧ { t with mem := s.mem, ramAddr := s.ramAddr } = s
              ∧ t.ramAddr = s.ramAddr + 1 ∧ t.mem.word (.ram r) s.ramAddr.toNat = some v
              ∧ SameExcept (fun b i => b = .ram r ∧ i = s.ramAddr.toNat) s.mem t.mem)

/-! ## Errors, reset and housekeeping -/

/-- R341, R342: recording an error keeps the first one since ERR was 0 and always sets ERR_EV; the codes. -/
def Obligations.RaiseRecords : Prop :=
  (∀ (c : ErrCode) (s : State),
    s.raise c =
      { s with err := true, errcode := if s.err then s.errcode else c.code, irqStatus := s.irqStatus ||| 0x01#8 })
  ∧ ([ErrCode.illegalCmd, .busyWrite, .notInit, .cfgTable, .cfgFftLen, .cfgLength, .cfgMode, .cfgValue, .cfgWinGain, .overrun,
        .noFrame, .badSpeed, .zeroFrames, .ramAccess, .badRatio].map ErrCode.code
      = [0x01#8, 0x02#8, 0x03#8, 0x04#8, 0x05#8, 0x06#8, 0x07#8, 0x08#8, 0x09#8, 0x0A#8, 0x0B#8, 0x0C#8, 0x0D#8, 0x0E#8, 0x0F#8])

/-- R60: every element after power-on reset. -/
def Obligations.ResetValues : Prop :=
  (∀ r : Reg, State.reset.readReg r = if r = .id then 0x53474C4200010000#64 else 0)
    ∧ State.reset.busy = false ∧ State.reset.irq = false
    ∧ State.reset.clCfg = ⟨0, 0, 0, 0, 0, 0, 0, 0, 0, 0, 0, 0, 0⟩ ∧ State.reset.mapCfg = ⟨0, 0, 0, 0, 0, 0, 0, 0⟩
    ∧ State.reset.oaCfg = ⟨0, 0, 0, 0, 0, 0, 0, 0, 0, 0, 0, 0, 0, 0, 0, 0, 0, 0⟩
    ∧ State.reset.cl = ⟨0, 0, 0, 0, 0, 0⟩ ∧ State.reset.elg = ⟨0, 0, 0, 0, false, 0, 0, false, false, 0, .idle, 0, 0⟩
    ∧ State.reset.map = ⟨0, 0, 0, 0, 0, 0, 0, 0, 0, 0⟩ ∧ State.reset.oa = ⟨0, 0, 0, 0, 0, false⟩
    ∧ ∀ b i, State.reset.mem.word b i = none

/-- R380, R58, R8: the invariants hold after power-on reset, with the default capacities of R8, and these meet its constraints,
which are written out. That State carries the capacities, and reset the defaults, is the model's choice (assumption 9). -/
def Obligations.ResetInvariants : Prop :=
  MemInv State.reset
  ∧ State.reset.par =
    { maxTab := 4096
      maxFir := 256
      maxDelay := 1024
      maxSps := 256
      minFft := 4
      maxFft := 4096
      maxSampleLen := 8192
      maxSincAdj := 32
      maxSincLut := 4096
      maxOrders := 64
      maxOrderAdj := 16 }
  ∧ Params.wf State.reset.par = true
  ∧ ∀ p : Params,
    p.wf = true ↔
      (p.maxTab % 4 = 0 ∧ 4 ≤ p.maxTab) ∧ (∃ k, p.minFft = 2 ^ k) ∧ (∃ k, p.maxFft = 2 ^ k)
        ∧ (4 ≤ p.minFft ∧ p.minFft ≤ p.maxFft)
        ∧ ∀ n ∈ [p.maxFir, p.maxDelay, p.maxSps, p.maxSampleLen, p.maxSincAdj, p.maxSincLut, p.maxOrders, p.maxOrderAdj],
            1 ≤ n

/-- R380, R381: a power-on reset, also one that abandons a command in progress. The rest of the host's program, the record of its
reads and the model's counter are outside the block (assumption 19). -/
def Obligations.PowerOnReset : Prop :=
  ∀ (s : State) (rest : List HostOp), s.host.queue = .powerOn :: rest → s.cmd = none ∨ 0 < s.host.lag →
    step s =
      .next
        { State.reset with par := s.par, host := { s.host with queue := rest, lag := 0 }, freeNext := s.freeNext }

/-- R314: NOP's only effects are the end of the BUSY pulse and CMD_DONE_EV. R315: CLR_ERR clears the sticky error state and
nothing else. -/
def Obligations.NopAndClrErr : Prop :=
  (encode .nop = 0x0000000000000000#64 ∧ encode .clrErr = 0x00000000000000F0#64)
  ∧ ∀ s : State,
    exec .nop s = .next { s with cmd := none, irqStatus := s.irqStatus ||| 0x80#8 }
    ∧ exec .clrErr s =
      .next { s with cmd := none, err := false, errcode := 0, numeric := false, irqStatus := s.irqStatus ||| 0x80#8 }

/-- R316, R61: SOFT_RESET puts every element at its reset value but the RAMs and the delay lines; IRQ_STATUS reads 0x80 after it
and the interrupt output is low. That `st.lin` is kept with the RAMs, and that the capacities, the host's side and the counter
are outside the reset, are the model's readings (assumptions 10 and 19). -/
def Obligations.SoftReset : Prop :=
  ∀ s : State, ∃ t, exec .softReset s = .next t
    ∧ t =
      { State.reset with
        mem := s.mem
        par := s.par
        host := s.host
        freeNext := s.freeNext
        irqStatus := 0x80#8 }
    ∧ t.readReg .irqStatus = 0x80#64 ∧ t.irq = false

/-- R342, R169, R210, R238 to R241, R275, R276, R286, R287, R311 to R313: a command of a unit that is not ready raises NOT_INIT
and changes nothing else. -/
def Obligations.NotInit : Prop :=
  ∀ (i : Instr) (s : State),
    (i ∈ [.clStep, .elgStep] ∧ s.clReady = false) ∨ (i ∈ [.mapEnc, .mapDec, .demapAcc, .modSym] ∧ s.mapReady = false)
      ∨ (i ∈ [.oaPush, .oaFlush, .oaFrame, .oaFinal, .fft, .wingen, .sincRs] ∧ s.oaReady = false) →
    exec i s =
      .next
        { s with
          cmd := none
          err := true
          errcode := if s.err then s.errcode else 0x03#8
          irqStatus := s.irqStatus ||| 0x81#8 }

/-! ## The Costas loop and the early-late gate -/

/-- R168, R200: CL_INIT. The first check that fails makes CL not ready, records its error and changes nothing else; when none
fails, every effect of the rule and no other. -/
def Obligations.ClInit : Prop :=
  ∀ s : State,
    (¬ TableOk s.par s.clReg.vcoTsize →
      exec .clInit s = .next (({ s with clReady := false } : State).raise .cfgTable).complete)
    ∧ (TableOk s.par s.clReg.vcoTsize → ¬ ClLengthsOk s.par s.clReg →
      exec .clInit s = .next (({ s with clReady := false } : State).raise .cfgLength).complete)
    ∧ (TableOk s.par s.clReg.vcoTsize → ClLengthsOk s.par s.clReg → 2 < s.clReg.fbMode.toNat →
      exec .clInit s = .next (({ s with clReady := false } : State).raise .cfgMode).complete)
    ∧ (TableOk s.par s.clReg.vcoTsize → ClLengthsOk s.par s.clReg → s.clReg.fbMode.toNat ≤ 2 → ¬ ClValuesOk s.clReg →
      exec .clInit s = .next (({ s with clReady := false } : State).raise .cfgValue).complete)
    ∧ (TableOk s.par s.clReg.vcoTsize → ClLengthsOk s.par s.clReg → s.clReg.fbMode.toNat ≤ 2 → ClValuesOk s.clReg →
      ∃ t, exec .clInit s = .next t
        ∧ { t with
            cmd := s.cmd
            clCfg := s.clCfg
            mem := s.mem
            cl := s.cl
            elg := s.elg
            symValid := s.symValid
            clReady := s.clReady
            irqStatus := s.irqStatus } = s
        ∧ t.cmd = none ∧ t.clCfg = s.clReg ∧ t.cl = ⟨0, 0, 0, 0, 0, 0⟩
        ∧ t.elg = ⟨0, 0, 0, 0, false, 0, 0, false, false, 0, .idle, 0, 0⟩ ∧ t.symValid = false ∧ t.clReady = true
        ∧ t.irqStatus = s.irqStatus ||| 0x80#8
        ∧ Holds t.mem (.ram .vtab) (qsin s.clReg.vcoTsize.toNat)
        ∧ (∀ l ∈ [Line.lpf1, .lpf2, .elf], Holds t.mem (.line l) (List.replicate s.par.maxFir Fp.zero))
        ∧ (∀ l ∈ [Line.cdI, .cdQ, .mf, .eg], Holds t.mem (.line l) (List.replicate s.par.maxDelay Fp.zero))
        ∧ SameExcept
          (fun b i =>
            (b = .ram .vtab ∧ i < 5 * s.clReg.vcoTsize.toNat / 4)
              ∨ ∃ l ∈ [Line.lpf1, .lpf2, .cdI, .cdQ, .mf, .eg, .elf], b = .line l)
          s.mem t.mem)

/-- R169 (a) to (g), with R164 to R167, R201 to R209: CL_STEP of a ready unit whose words can be read. `lpf` and `elf` are the
coefficients, `p1`, `p2` and `pe` the delay lines, `vI` and `vQ` the table words at the phase, `oldM`, `oldE` the oldest words of
the matched filter and the early gate, `cI`, `cQ` those of the compensating delay (needed only where it has a length). With an
unwritten word of LPF_COEF below LPF_LEN or of ELG_LF_COEF below ELG_LF_LEN, UNWRITTEN. -/
def Obligations.ClStep : Prop :=
  (∀ (s : State) (vI vQ oldM oldE cI cQ : F64) (lpf elf p1 p2 pe : List F64),
    s.clReady = true →
    s.mem.word (.ram .vtab) ((Fp.floor s.cl.phase).toNat + s.clCfg.vcoTsize.toNat / 4) = some vI →
    s.mem.word (.ram .vtab) (Fp.floor s.cl.phase).toNat = some vQ →
    lpf.length = s.clCfg.lpfLen.toNat → Holds s.mem (.ram .lpfCoef) lpf →
    p1.length = s.clCfg.lpfLen.toNat → Holds s.mem (.line .lpf1) p1 → s.cl.lpf1Idx < s.clCfg.lpfLen.toNat →
    p2.length = s.clCfg.lpfLen.toNat → Holds s.mem (.line .lpf2) p2 → s.cl.lpf2Idx < s.clCfg.lpfLen.toNat →
    elf.length = s.clCfg.elgLfLen.toNat → Holds s.mem (.ram .elgLfCoef) elf →
    pe.length = s.clCfg.elgLfLen.toNat → Holds s.mem (.line .elf) pe → s.elg.elfIdx < s.clCfg.elgLfLen.toNat →
    s.mem.word (.line .mf) s.elg.mfIdx = some oldM → s.mem.word (.line .eg) s.elg.egIdx = some oldE →
    (s.clCfg.compDelay ≠ 0 →
      s.mem.word (.line .cdI) s.cl.cdIdx = some cI ∧ s.mem.word (.line .cdQ) s.cl.cdIdx = some cQ) →
    let mI := Fp.mul s.din0 vI
    let mQ := Fp.mul s.din0 vQ
    let yI := firValue lpf p1 s.cl.lpf1Idx mI
    let yQ := firValue lpf p2 s.cl.lpf2Idx mQ
    let m := Fp.sub (Fp.add s.elg.mfSum (Fp.mul yI yI)) oldM
    let f := firValue elf pe s.elg.elfIdx (Fp.sub m oldE)
    let k :=
      elgDecide s.clCfg m f
        { s.elg with
          samples := min (s.elg.samples + 1) 18446744073709551615
          mfSum := m
          mfIdx := (s.elg.mfIdx + 1) % s.clCfg.elgMfLen.toNat
          egIdx := (s.elg.egIdx + 1) % s.clCfg.elgDelay.toNat
          elfIdx := (s.elg.elfIdx + 1) % s.clCfg.elgLfLen.toNat }
    let oI := if s.clCfg.compDelay = 0 then yI else cI
    let oQ := if s.clCfg.compDelay = 0 then yQ else cQ
    let fb := loopFilter s.clCfg.loopAlpha s.cl.lf (feedback s.clCfg.fbMode yI yQ)
    let v := Fp.add (Fp.add s.cl.phase s.clCfg.carInc) (Fp.mul s.clCfg.vcoModidx s.cl.fb)
    ∃ t, exec .clStep s = .next t
      ∧ t.cmd = none ∧ t.dout2 = yI ∧ t.dout3 = yQ
      ∧ t.dout0 = (if k.trig then oI else s.dout0) ∧ t.dout1 = (if k.trig then oQ else s.dout1) ∧ t.symValid = k.trig
      ∧ t.elg = k.unit
      ∧ t.cl =
        { phase := wrap v s.clCfg.vcoTsize.toNat
          fb := fb
          lf := fb
          lpf1Idx := (s.cl.lpf1Idx + 1) % s.clCfg.lpfLen.toNat
          lpf2Idx := (s.cl.lpf2Idx + 1) % s.clCfg.lpfLen.toNat
          cdIdx := if s.clCfg.compDelay = 0 then s.cl.cdIdx else (s.cl.cdIdx + 1) % s.clCfg.compDelay.toNat }
      ∧ t.numeric = (s.numeric || !Fp.isFinite v)
      ∧ t.irqStatus =
        s.irqStatus ||| (if Fp.isFinite v then 0#8 else 0x40#8) ||| elgIrq s.elg.state k.unit.state k.trig ||| 0x80#8
      ∧ t.mem.word (.line .lpf1) s.cl.lpf1Idx = some mI ∧ t.mem.word (.line .lpf2) s.cl.lpf2Idx = some mQ
      ∧ t.mem.word (.line .mf) s.elg.mfIdx = some (Fp.mul yI yI) ∧ t.mem.word (.line .eg) s.elg.egIdx = some m
      ∧ t.mem.word (.line .elf) s.elg.elfIdx = some (Fp.sub m oldE)
      ∧ (s.clCfg.compDelay ≠ 0 →
        t.mem.word (.line .cdI) s.cl.cdIdx = some yI ∧ t.mem.word (.line .cdQ) s.cl.cdIdx = some yQ)
      ∧ SameExcept
        (fun b i =>
          (b = .line .lpf1 ∧ i = s.cl.lpf1Idx) ∨ (b = .line .lpf2 ∧ i = s.cl.lpf2Idx) ∨ (b = .line .mf ∧ i = s.elg.mfIdx)
            ∨ (b = .line .eg ∧ i = s.elg.egIdx) ∨ (b = .line .elf ∧ i = s.elg.elfIdx)
            ∨ (s.clCfg.compDelay ≠ 0 ∧ (b = .line .cdI ∨ b = .line .cdQ) ∧ i = s.cl.cdIdx))
        s.mem t.mem
      ∧ { t with
          cmd := s.cmd
          dout0 := s.dout0
          dout1 := s.dout1
          dout2 := s.dout2
          dout3 := s.dout3
          symValid := s.symValid
          elg := s.elg
          cl := s.cl
          numeric := s.numeric
          irqStatus := s.irqStatus
          mem := s.mem } = s)
  ∧ ∀ (s : State) (k : Nat), s.clReady = true →
    (k < s.clCfg.lpfLen.toNat ∧ s.mem.word (.ram .lpfCoef) k = none)
        ∨ (k < s.clCfg.elgLfLen.toNat ∧ s.mem.word (.ram .elgLfCoef) k = none) →
    exec .clStep s = .fault .unwritten

/-- R210 with R201 to R209: ELG_STEP of a ready unit whose words can be read; the CL state, DOUT2 and DOUT3 are not touched.
With an unwritten word of ELG_LF_COEF below ELG_LF_LEN, UNWRITTEN. -/
def Obligations.ElgStep : Prop :=
  (∀ (s : State) (oldM oldE : F64) (elf pe : List F64),
    s.clReady = true →
    elf.length = s.clCfg.elgLfLen.toNat → Holds s.mem (.ram .elgLfCoef) elf →
    pe.length = s.clCfg.elgLfLen.toNat → Holds s.mem (.line .elf) pe → s.elg.elfIdx < s.clCfg.elgLfLen.toNat →
    s.mem.word (.line .mf) s.elg.mfIdx = some oldM → s.mem.word (.line .eg) s.elg.egIdx = some oldE →
    let m := Fp.sub (Fp.add s.elg.mfSum (Fp.mul s.din0 s.din0)) oldM
    let f := firValue elf pe s.elg.elfIdx (Fp.sub m oldE)
    let k :=
      elgDecide s.clCfg m f
        { s.elg with
          samples := min (s.elg.samples + 1) 18446744073709551615
          mfSum := m
          mfIdx := (s.elg.mfIdx + 1) % s.clCfg.elgMfLen.toNat
          egIdx := (s.elg.egIdx + 1) % s.clCfg.elgDelay.toNat
          elfIdx := (s.elg.elfIdx + 1) % s.clCfg.elgLfLen.toNat }
    ∃ t, exec .elgStep s = .next t
      ∧ t.cmd = none ∧ t.dout0 = f ∧ t.dout1 = m ∧ t.symValid = k.trig ∧ t.elg = k.unit
      ∧ t.irqStatus = s.irqStatus ||| elgIrq s.elg.state k.unit.state k.trig ||| 0x80#8
      ∧ t.mem.word (.line .mf) s.elg.mfIdx = some (Fp.mul s.din0 s.din0) ∧ t.mem.word (.line .eg) s.elg.egIdx = some m
      ∧ t.mem.word (.line .elf) s.elg.elfIdx = some (Fp.sub m oldE)
      ∧ SameExcept
        (fun b i =>
          (b = .line .mf ∧ i = s.elg.mfIdx) ∨ (b = .line .eg ∧ i = s.elg.egIdx) ∨ (b = .line .elf ∧ i = s.elg.elfIdx))
        s.mem t.mem
      ∧ { t with
          cmd := s.cmd
          dout0 := s.dout0
          dout1 := s.dout1
          symValid := s.symValid
          elg := s.elg
          irqStatus := s.irqStatus
          mem := s.mem } = s)
  ∧ ∀ (s : State) (k : Nat), s.clReady = true → k < s.clCfg.elgLfLen.toNat → s.mem.word (.ram .elgLfCoef) k = none →
    exec .elgStep s = .fault .unwritten

/-- R163, R62: `FIR` gives the sum over the coefficients and the delay line with the new sample in it, writes the sample and no
other word, and moves the index on by one; with an unwritten coefficient it is UNWRITTEN. -/
def Obligations.FirConvolution : Prop :=
  (∀ (m : Memory) (line : Line) (coef : RamId) (idx : Nat) (cs vs : List F64) (x : F64),
    vs.length = cs.length → idx < cs.length → Holds m (.ram coef) cs → Holds m (.line line) vs →
    ∃ r, fir m line idx coef cs.length x = .ok r ∧ r.y = firValue cs vs idx x ∧ r.idx = (idx + 1) % cs.length
      ∧ Holds r.mem (.line line) (vs.set idx x) ∧ SameExcept (fun b i => b = .line line ∧ i = idx) m r.mem)
  ∧ ∀ (m : Memory) (line : Line) (coef : RamId) (idx len k : Nat) (x : F64),
      k < len → m.word (.ram coef) k = none → fir m line idx coef len x = .error .unwritten

/-- R162, R164, R165: the wrapped phase lies in the table, and the numeric guard fires on a value that is not finite and on no
other; the three feedback policies; the one-pole loop filter. -/
def Obligations.CostasFormulas : Prop :=
  (∀ (v : F64) (t : Nat) (s : State), 1 ≤ t → t < 18446744073709551616 →
    InTable (wrap v t) t
      ∧ (Fp.isFinite v = false →
        wrap v t = Fp.zero ∧ s.wrapGuard v = { s with numeric := true, irqStatus := s.irqStatus ||| 0x40#8 })
      ∧ (Fp.isFinite v = true →
        s.wrapGuard v = s
          ∧ wrap v t =
            (let r := Fp.sub v (Fp.mul (Fp.ofNat t) (Fp.ofInt (Fp.floor (Fp.div v (Fp.ofNat t)))))
             if Fp.le (Fp.ofNat t) r = true ∨ Fp.lt r Fp.zero = true ∨ Fp.eq r Fp.zero = true then Fp.zero else r)))
  ∧ (∀ yI yQ : F64,
    let sg := fun v : F64 => if Fp.lt v Fp.zero then Fp.negOne else Fp.one
    feedback 0 yI yQ = Fp.mul (sg yI) (sg yQ) ∧ feedback 1 yI yQ = Fp.mul (sg yI) yQ ∧ feedback 2 yI yQ = Fp.mul yI yQ)
  ∧ ∀ (e : F64) (s : State),
    let y := Fp.add (Fp.mul s.clCfg.loopAlpha s.cl.lf) (Fp.mul (Fp.sub Fp.one s.clCfg.loopAlpha) e)
    loopFilter s.clCfg.loopAlpha s.cl.lf e = y ∧ s.loopf e = { s with cl := { s.cl with lf := y, fb := y } }

/-- R160, with PI of R14: the sine table has 5·T/4 words, has `Num.sin(((2.0 × PI) × f64(k)) / f64(T))` inside its first quarter,
is exact at the quarter points, odd and quarter-symmetric bit for bit, and repeats its first quarter at its end. -/
def Obligations.SineTable : Prop :=
  ∀ t : Nat, 4 ≤ t → t % 4 = 0 →
    (qsin t).length = 5 * t / 4
      ∧ (∀ k, k < 5 * t / 4 →
        (k % t = 0 ∨ k % t = t / 2 → (qsin t)[k]? = some Fp.zero)
          ∧ (k % t = t / 4 → (qsin t)[k]? = some Fp.one) ∧ (k % t = 3 * t / 4 → (qsin t)[k]? = some Fp.negOne))
      ∧ (∀ k, 0 < k → k < t / 4 →
        (qsin t)[k]? =
          some
            (Config.numSin
              (Fp.div (Fp.mul (Fp.mul Fp.two 0x400921FB54442D18#64) (Fp.ofNat k)) (Fp.ofNat t))))
      ∧ (∀ k, 0 < k → k < t → k ≠ t / 2 → (qsin t)[t - k]? = (qsin t)[k]?.map Fp.neg)
      ∧ (∀ k, k ≤ t / 2 → (qsin t)[t / 2 - k]? = (qsin t)[k]?) ∧ (∀ k, k < t / 4 → (qsin t)[t + k]? = (qsin t)[k]?)

/-- R204 to R208, and R212 (b): DETECT, ENTER, COUNTER, LOCK and LIMIT on a unit, given the outputs `m` and `f` of the matched
filter and the loop filter. And while LOCKED at least one trigger fires in any Ns samples, whatever the filters give, and the unit
stays LOCKED. -/
def Obligations.ElgDecisions : Prop :=
  (∀ (c : ClConfig) (m f : F64) (u : ElgUnit),
    let ns := c.elgSymlen.toNat
    let thr := Fp.lt c.elgThresh m
    let zc := thr && Fp.lt Fp.zero u.zcPrev && Fp.le f Fp.zero
    let enters := u.state = .idle ∧ thr = true
    let st1 := if enters then ElgState.acquiring else u.state
    let good1 := if enters then 0 else u.good
    let cnt := (if enters then 0 else u.trigCnt) + 1
    let runs := st1 = .acquiring ∨ st1 = .locked
    let trig := decide runs && (zc || decide (ns ≤ cnt))
    let good2 := if st1 = .acquiring ∧ trig = true then (if zc = true ∧ cnt = ns then good1 + 1 else 0) else good1
    let locks := st1 = .acquiring ∧ trig = true ∧ ns ≤ good2
    let st2 := if locks then ElgState.locked else st1
    let limits := c.acqLimit.toNat ≠ 0 ∧ (st2 = .idle ∨ st2 = .acquiring) ∧ c.acqLimit.toNat ≤ u.samples
    (elgDecide c m f u).trig = trig
      ∧ (elgDecide c m f u).unit =
        { u with
          thr := thr
          zcPrev := f
          state := if limits then .nolock else st2
          trigCnt := if runs then (if trig = true then 0 else cnt) else u.trigCnt
          trigUpd := decide runs && zc
          trigDet := trig
          good := good2
          trigLat := if locks then u.samples else u.trigLat })
  ∧ ∀ (c : ClConfig) (u : ElgUnit) (xs : List (F64 × F64)),
    u.state = .locked → u.trigCnt < c.elgSymlen.toNat → xs.length = c.elgSymlen.toNat →
    true ∈ (elgRun c xs u).1 ∧ (elgRun c xs u).2.state = .locked ∧ (elgRun c xs u).2.trigCnt < c.elgSymlen.toNat

/-! ## The constellation unit -/

/-- R230 to R234, with the symbol's phase and bits of R242: the modes, the quadrant of a point, the Gray map and its inverse, the
decision regions, and the points of every mode, those of QAM16 for every quarter turn and every word. -/
def Obligations.ConstellationTables : Prop :=
  (∀ c : MapConfig,
    (c.modMode = 0 → modMode c = .bpsk ∧ diffModulus c = 0)
      ∧ (c.modMode = 1 → modMode c = .qpsk ∧ diffModulus c = if c.diffEn = 1 then 4 else 0)
      ∧ (c.modMode = 2 → modMode c = .qam16 ∧ diffModulus c = if c.diffEn = 1 then 4 else 0)
      ∧ (c.modMode = 3 → modMode c = .dpsk ∧ diffModulus c = 2))
  ∧ (∀ th i q : F64,
    let nI := Fp.lt i Fp.zero
    let nQ := Fp.lt q Fp.zero
    let p := if nI then (if nQ then 2 else 1) else (if nQ then 3 else 0)
    let a := if p = 0 then i else if p = 1 then q else if p = 2 then Fp.neg i else Fp.neg q
    let c := if p = 0 then q else if p = 1 then Fp.neg i else if p = 2 then Fp.neg q else i
    quadrant i q = p
      ∧ (∀ mode ∈ [ModMode.bpsk, .dpsk], decideSymbol mode th i q = ⟨if nI then 1 else 0, 0⟩)
      ∧ decideSymbol .qpsk th i q = ⟨p, 0⟩
      ∧ decideSymbol .qam16 th i q = ⟨p, (if Fp.lt th a then 2 else 0) + (if Fp.lt th c then 1 else 0)⟩)
  ∧ (∀ (p : Nat) (w : Word), p < 4 →
    let a := if w.getLsbD 1 then Fp.three else Fp.one
    let c := if w.getLsbD 0 then Fp.three else Fp.one
    pointOf .qam16 p w =
      if p = 0 then ⟨a, c⟩ else if p = 1 then ⟨Fp.neg c, a⟩ else if p = 2 then ⟨Fp.neg a, Fp.neg c⟩ else ⟨c, Fp.neg a⟩)
  ∧ (∀ w : Word,
    (∀ mode ∈ [ModMode.bpsk, .dpsk], symbolPhase mode w = w.toNat % 2) ∧ symbolPhase .qpsk w = gray (w.toNat % 4)
      ∧ symbolPhase .qam16 w = gray (w.toNat / 4 % 4))
  ∧ (∀ pd low : Nat,
    (∀ mode ∈ [ModMode.bpsk, .dpsk], symbolBits mode pd low = pd) ∧ symbolBits .qpsk pd low = grayInv pd
      ∧ symbolBits .qam16 pd low = 4 * grayInv pd + low)
  ∧ ([0, 1, 2, 3].map gray = [0, 1, 3, 2]) ∧ (∀ b, b < 4 → grayInv (gray b) = b ∧ gray (grayInv b) = b)
    ∧ (quadrant Fp.one Fp.one = 0 ∧ quadrant Fp.negOne Fp.one = 1 ∧ quadrant Fp.negOne Fp.negOne = 2
      ∧ quadrant Fp.one Fp.negOne = 3 ∧ quadrant Fp.nan (Fp.neg Fp.zero) = 0)
    ∧ (∀ mode ∈ [ModMode.bpsk, .dpsk], ∀ w, [0, 1].map (fun p => pointOf mode p w)
      = [⟨Fp.one, Fp.zero⟩, ⟨Fp.negOne, Fp.zero⟩])
    ∧ (∀ w, [0, 1, 2, 3].map (fun p => pointOf .qpsk p w)
      = [⟨Fp.one, Fp.one⟩, ⟨Fp.negOne, Fp.one⟩, ⟨Fp.negOne, Fp.negOne⟩, ⟨Fp.one, Fp.negOne⟩])
    ∧ ([0, 1, 2, 3, 4, 5, 6, 7, 12, 13, 14, 15, 8, 9, 10, 11].map
        (fun n => let w := BitVec.ofNat 64 n; pointOf .qam16 (gray (field w 2 2)) w)
      = [⟨Fp.one, Fp.one⟩, ⟨Fp.one, Fp.three⟩, ⟨Fp.three, Fp.one⟩, ⟨Fp.three, Fp.three⟩,
         ⟨Fp.negOne, Fp.one⟩, ⟨Fp.neg Fp.three, Fp.one⟩, ⟨Fp.negOne, Fp.three⟩, ⟨Fp.neg Fp.three, Fp.three⟩,
         ⟨Fp.negOne, Fp.negOne⟩, ⟨Fp.negOne, Fp.neg Fp.three⟩, ⟨Fp.neg Fp.three, Fp.negOne⟩,
         ⟨Fp.neg Fp.three, Fp.neg Fp.three⟩,
         ⟨Fp.one, Fp.negOne⟩, ⟨Fp.three, Fp.negOne⟩, ⟨Fp.one, Fp.neg Fp.three⟩, ⟨Fp.three, Fp.neg Fp.three⟩])

/-- R237: MAP_INIT. The first check that fails makes MAP not ready, records its error and changes nothing else; when none fails,
every effect of the rule and no other. -/
def Obligations.MapInit : Prop :=
  ∀ s : State,
    (¬ TableOk s.par s.mapReg.modTsize →
      exec .mapInit s = .next (({ s with mapReady := false } : State).raise .cfgTable).complete)
    ∧ (TableOk s.par s.mapReg.modTsize → ¬ MapLengthsOk s.par s.mapReg →
      exec .mapInit s = .next (({ s with mapReady := false } : State).raise .cfgLength).complete)
    ∧ (TableOk s.par s.mapReg.modTsize → MapLengthsOk s.par s.mapReg → ¬ MapModesOk s.mapReg →
      exec .mapInit s = .next (({ s with mapReady := false } : State).raise .cfgMode).complete)
    ∧ (TableOk s.par s.mapReg.modTsize → MapLengthsOk s.par s.mapReg → MapModesOk s.mapReg → ¬ MapValuesOk s.mapReg →
      exec .mapInit s = .next (({ s with mapReady := false } : State).raise .cfgValue).complete)
    ∧ (TableOk s.par s.mapReg.modTsize → MapLengthsOk s.par s.mapReg → MapModesOk s.mapReg → MapValuesOk s.mapReg →
      ∃ t, exec .mapInit s = .next t
        ∧ { t with
            cmd := s.cmd
            mapCfg := s.mapCfg
            mem := s.mem
            map := s.map
            mapReady := s.mapReady
            irqStatus := s.irqStatus } = s
        ∧ t.cmd = none ∧ t.mapCfg = s.mapReg ∧ t.map = ⟨0, 0, 0, 0, 0, 0, 0, 0, 0, 0⟩ ∧ t.mapReady = true
        ∧ t.irqStatus = s.irqStatus ||| 0x80#8
        ∧ Holds t.mem (.ram .mtab) (qsin s.mapReg.modTsize.toNat)
        ∧ (∀ l ∈ [Line.txi, .txq, .rxi, .rxq], Holds t.mem (.line l) (List.replicate s.par.maxFir Fp.zero))
        ∧ SameExcept
          (fun b i =>
            (b = .ram .mtab ∧ i < 5 * s.mapReg.modTsize.toNat / 4)
              ∨ ∃ l ∈ [Line.txi, .txq, .rxi, .rxq], b = .line l)
          s.mem t.mem)

/-- R238, R239, R242: MAP_ENC and MAP_DEC of a ready unit. MAP_ENC gives the point of the symbol and its phase index, MAP_DEC the
bits and the phase index of the point, each with its differential state moved on, and nothing else. Any pair of words decodes. -/
def Obligations.MapEncDec : Prop :=
  (∀ s : State, s.mapReady = true →
    let mode := modMode s.mapCfg
    let dm := diffModulus s.mapCfg
    let pd := symbolPhase mode s.din0
    let p := if dm = 0 then pd else (pd + s.map.txPrev) % dm
    exec .mapEnc s =
      .next
        { s with
          cmd := none
          dout0 := (pointOf mode p s.din0).i
          dout1 := (pointOf mode p s.din0).q
          dout2 := BitVec.ofNat 64 p
          map := { s.map with txPrev := if dm = 0 then s.map.txPrev else p }
          irqStatus := s.irqStatus ||| 0x80#8 })
  ∧ ∀ s : State, s.mapReady = true →
    let mode := modMode s.mapCfg
    let dm := diffModulus s.mapCfg
    let d := decideSymbol mode s.mapCfg.qamThresh s.din0 s.din1
    let pd := if dm = 0 then d.p else (((d.p : Int) - (s.map.rxPrev : Int)) % (dm : Int)).toNat
    exec .mapDec s =
      .next
        { s with
          cmd := none
          dout0 := BitVec.ofNat 64 (symbolBits mode pd d.low)
          dout1 := BitVec.ofNat 64 d.p
          map := { s.map with rxPrev := if dm = 0 then s.map.rxPrev else d.p }
          irqStatus := s.irqStatus ||| 0x80#8 }

/-- R239, R235, R236, the round trip: MAP_DEC of MAP_ENC(w) returns the symbol bits of w, for every w, where the receiver's
retained index is the transmitter's and below the modulus (it is read with differential coding only), and, in QAM16, where
1.0 < QAM_THRESH < 3.0. The two retained indices are equal and below the modulus again afterwards. -/
def Obligations.MapRoundTrip : Prop :=
  ∀ s : State, s.mapReady = true →
    (diffModulus s.mapCfg ≠ 0 → s.map.txPrev < diffModulus s.mapCfg ∧ s.map.rxPrev = s.map.txPrev) →
    (modMode s.mapCfg = .qam16 →
      Fp.lt Fp.one s.mapCfg.qamThresh = true ∧ Fp.lt s.mapCfg.qamThresh Fp.three = true) →
    ∃ t u, exec .mapEnc s = .next t ∧ exec .mapDec { t with din0 := t.dout0, din1 := t.dout1 } = .next u
      ∧ u.dout0 =
        s.din0 &&& (match modMode s.mapCfg with | .bpsk => 0x1#64 | .qpsk => 0x3#64 | .qam16 => 0xF#64 | .dpsk => 0x1#64)
      ∧ (diffModulus s.mapCfg = 0 → u.map = s.map)
      ∧ (diffModulus s.mapCfg ≠ 0 → u.map.txPrev < diffModulus s.mapCfg ∧ u.map.rxPrev = u.map.txPrev)

/-- R235, R236: differential coding, its round trip, and the XOR it is for DM = 2. -/
def Obligations.DiffCoding : Prop :=
  (∀ dm prev p : Nat, dm ≠ 0 →
    diffEnc dm prev p = (p + prev) % dm ∧ ((diffDec dm prev p : Nat) : Int) = ((p : Int) - (prev : Int)) % (dm : Int)
      ∧ diffNext dm prev p = p)
  ∧ (∀ prev p : Nat, diffEnc 0 prev p = p ∧ diffDec 0 prev p = p ∧ diffNext 0 prev p = prev)
  ∧ (∀ dm s pd : Nat, pd < dm → s < dm → diffDec dm s (diffEnc dm s pd) = pd)
  ∧ (∀ a b : Nat, a < 2 → b < 2 → diffEnc 2 a b = a ^^^ b)

/-- R240 with R163, both forms of DEMAP_ACC: the raw-summed form (RRC_EN other than 1), a sample inside the symbol and the sample
at its end; and the matched-filtered form (RRC_EN = 1) on readable words, UNWRITTEN with an unwritten word of RRC_COEF below
RRC_LEN. -/
def Obligations.DemapAcc : Prop :=
  (∀ s : State, s.mapReady = true → s.mapCfg.rrcEn ≠ 1 →
    let sI := Fp.add s.map.accI s.din0
    let sQ := Fp.add s.map.accQ s.din1
    let dI := Fp.div sI (Fp.ofNat s.mapCfg.sps.toNat)
    let dQ := Fp.div sQ (Fp.ofNat s.mapCfg.sps.toNat)
    let mode := modMode s.mapCfg
    let dm := diffModulus s.mapCfg
    let d := decideSymbol mode s.mapCfg.qamThresh dI dQ
    (s.map.tick + 1 < s.mapCfg.sps.toNat →
      exec .demapAcc s =
        .next
          { s with
            cmd := none
            map := { s.map with accI := sI, accQ := sQ, tick := s.map.tick + 1 }
            symValid := false
            irqStatus := s.irqStatus ||| 0x80#8 })
    ∧ (s.mapCfg.sps.toNat ≤ s.map.tick + 1 →
      exec .demapAcc s =
        .next
          { s with
            cmd := none
            map :=
              { s.map with
                accI := Fp.zero
                accQ := Fp.zero
                tick := 0
                rxPrev := diffNext dm s.map.rxPrev d.p }
            dout0 := BitVec.ofNat 64 (symbolBits mode (diffDec dm s.map.rxPrev d.p) d.low)
            dout1 := dI
            dout2 := dQ
            dout3 := BitVec.ofNat 64 d.p
            symValid := true
            irqStatus := s.irqStatus ||| 0x82#8 }))
  ∧ (∀ (s : State) (cs vi vq : List F64), s.mapReady = true → s.mapCfg.rrcEn = 1 →
    cs.length = s.mapCfg.rrcLen.toNat → Holds s.mem (.ram .rrcCoef) cs →
    vi.length = cs.length → Holds s.mem (.line .rxi) vi → s.map.rxiIdx < cs.length →
    vq.length = cs.length → Holds s.mem (.line .rxq) vq → s.map.rxqIdx < cs.length →
    let fI := firValue cs vi s.map.rxiIdx s.din0
    let fQ := firValue cs vq s.map.rxqIdx s.din1
    let mode := modMode s.mapCfg
    let dm := diffModulus s.mapCfg
    let d := decideSymbol mode s.mapCfg.qamThresh fI fQ
    let last := s.mapCfg.sps.toNat ≤ s.map.tick + 1
    ∃ t, exec .demapAcc s = .next t
      ∧ t.map =
        { s.map with
          rxiIdx := (s.map.rxiIdx + 1) % cs.length
          rxqIdx := (s.map.rxqIdx + 1) % cs.length
          tick := if last then 0 else s.map.tick + 1
          rxPrev := if last then diffNext dm s.map.rxPrev d.p else s.map.rxPrev }
      ∧ t.dout0 =
        (if last then BitVec.ofNat 64 (symbolBits mode (diffDec dm s.map.rxPrev d.p) d.low) else s.dout0)
      ∧ t.dout1 = (if last then fI else s.dout1) ∧ t.dout2 = (if last then fQ else s.dout2)
      ∧ t.dout3 = (if last then BitVec.ofNat 64 d.p else s.dout3) ∧ t.symValid = decide last
      ∧ t.irqStatus = s.irqStatus ||| (if last then 0x02#8 else 0#8) ||| 0x80#8 ∧ t.cmd = none
      ∧ t.mem.word (.line .rxi) s.map.rxiIdx = some s.din0 ∧ t.mem.word (.line .rxq) s.map.rxqIdx = some s.din1
      ∧ SameExcept
        (fun b i => (b = .line .rxi ∧ i = s.map.rxiIdx) ∨ (b = .line .rxq ∧ i = s.map.rxqIdx)) s.mem t.mem
      ∧ { t with
          cmd := s.cmd
          map := s.map
          dout0 := s.dout0
          dout1 := s.dout1
          dout2 := s.dout2
          dout3 := s.dout3
          symValid := s.symValid
          irqStatus := s.irqStatus
          mem := s.mem } = s)
  ∧ ∀ (s : State) (k : Nat), s.mapReady = true → s.mapCfg.rrcEn = 1 → k < s.mapCfg.rrcLen.toNat →
    s.mem.word (.ram .rrcCoef) k = none → exec .demapAcc s = .fault .unwritten

/-- R241 with R163, R167's table lookup and R242: MOD_SYM of a ready unit on readable words. `c` and `d` give the carrier's cosine
and sine of each sub-sample; `cs`, `vi`, `vq` are the coefficients and the transmit delay lines, needed with RRC_EN = 1 only: there
an unwritten word of RRC_COEF below RRC_LEN is UNWRITTEN (of a symbol that has a sub-sample; MAP_INIT admits no other). -/
def Obligations.ModSym : Prop :=
  (∀ (s : State) (c d : Nat → F64) (cs vi vq : List F64), s.mapReady = true →
    let n := s.mapCfg.sps.toNat
    let tb := s.mapCfg.modTsize.toNat
    let inc := s.mapCfg.modInc
    (∀ k, k < n →
      s.mem.word (.ram .mtab) ((Fp.floor (phaseAt inc tb k s.map.modPhase)).toNat + tb / 4) = some (c k)
        ∧ s.mem.word (.ram .mtab) (Fp.floor (phaseAt inc tb k s.map.modPhase)).toNat = some (d k)) →
    (s.mapCfg.rrcEn = 1 →
      cs.length = s.mapCfg.rrcLen.toNat ∧ Holds s.mem (.ram .rrcCoef) cs
        ∧ vi.length = cs.length ∧ Holds s.mem (.line .txi) vi ∧ s.map.txiIdx < cs.length
        ∧ vq.length = cs.length ∧ Holds s.mem (.line .txq) vq ∧ s.map.txqIdx < cs.length) →
    let mode := modMode s.mapCfg
    let dm := diffModulus s.mapCfg
    let p := diffEnc dm s.map.txPrev (symbolPhase mode s.din0)
    let u := pointOf mode p s.din0
    let eI := (List.range n).map (fun k => if k = 0 then u.i else Fp.zero)
    let eQ := (List.range n).map (fun k => if k = 0 then u.q else Fp.zero)
    let sI := if s.mapCfg.rrcEn = 1 then firRun cs eI vi s.map.txiIdx else List.replicate n u.i
    let sQ := if s.mapCfg.rrcEn = 1 then firRun cs eQ vq s.map.txqIdx else List.replicate n u.q
    let bad := (List.range n).any (fun k => !Fp.isFinite (Fp.add (phaseAt inc tb k s.map.modPhase) inc))
    ∃ t, exec .modSym s = .next t
      ∧ t.cmd = none ∧ t.dout0 = u.i ∧ t.dout1 = u.q ∧ t.dout2 = BitVec.ofNat 64 p
      ∧ (∀ k, k < n →
        t.mem.word (.ram .modOut) k = some (Fp.add (Fp.mul (nth sI k) (c k)) (Fp.mul (nth sQ k) (d k))))
      ∧ t.map =
        { s.map with
          txPrev := diffNext dm s.map.txPrev p
          modPhase := phaseAt inc tb n s.map.modPhase
          txiIdx := if s.mapCfg.rrcEn = 1 then (s.map.txiIdx + n) % cs.length else s.map.txiIdx
          txqIdx := if s.mapCfg.rrcEn = 1 then (s.map.txqIdx + n) % cs.length else s.map.txqIdx }
      ∧ t.numeric = (s.numeric || bad) ∧ t.irqStatus = s.irqStatus ||| (if bad then 0x40#8 else 0#8) ||| 0x80#8
      ∧ (s.mapCfg.rrcEn = 1 →
        Holds t.mem (.line .txi) (firLine cs.length eI vi s.map.txiIdx)
          ∧ Holds t.mem (.line .txq) (firLine cs.length eQ vq s.map.txqIdx))
      ∧ SameExcept
        (fun b i =>
          (b = .ram .modOut ∧ i < n) ∨ (s.mapCfg.rrcEn = 1 ∧ (b = .line .txi ∨ b = .line .txq) ∧ i < cs.length))
        s.mem t.mem
      ∧ { t with
          cmd := s.cmd
          dout0 := s.dout0
          dout1 := s.dout1
          dout2 := s.dout2
          map := s.map
          numeric := s.numeric
          irqStatus := s.irqStatus
          mem := s.mem } = s)
  ∧ ∀ (s : State) (k : Nat), s.mapReady = true → s.mapCfg.rrcEn = 1 → 0 < s.mapCfg.sps.toNat →
    k < s.mapCfg.rrcLen.toNat → s.mem.word (.ram .rrcCoef) k = none → exec .modSym s = .fault .unwritten

/-! ## Order analysis -/

/-- R270, R274: OA_INIT. The first check that fails makes OA not ready, records its error and changes nothing else; when none
fails, every effect of the rule and no other. -/
def Obligations.OaInit : Prop :=
  ∀ s : State,
    let c := s.oaReg
    let n := c.fftLen.toNat
    (¬ OaFftOk s.par c → exec .oaInit s = .next (({ s with oaReady := false } : State).raise .cfgFftLen).complete)
    ∧ (OaFftOk s.par c → ¬ OaLengthsOk s.par c →
      exec .oaInit s = .next (({ s with oaReady := false } : State).raise .cfgLength).complete)
    ∧ (OaFftOk s.par c → OaLengthsOk s.par c → ¬ OaModesOk c →
      exec .oaInit s = .next (({ s with oaReady := false } : State).raise .cfgMode).complete)
    ∧ (OaFftOk s.par c → OaLengthsOk s.par c → OaModesOk c → ¬ OaValuesOk c →
      exec .oaInit s = .next (({ s with oaReady := false } : State).raise .cfgValue).complete)
    ∧ (OaFftOk s.par c → OaLengthsOk s.par c → OaModesOk c → OaValuesOk c →
      icg n (window (fftTwiddles n) n c.winType c.winCoef) = none →
      exec .oaInit s = .next (({ s with oaReady := false } : State).raise .cfgWinGain).complete)
    ∧ (OaFftOk s.par c → OaLengthsOk s.par c → OaModesOk c → OaValuesOk c →
      ∀ g, icg n (window (fftTwiddles n) n c.winType c.winCoef) = some g →
      ∃ t, exec .oaInit s = .next t
        ∧ { t with
            cmd := s.cmd
            oaCfg := s.oaCfg
            mem := s.mem
            oa := s.oa
            oaReady := s.oaReady
            irqStatus := s.irqStatus } = s
        ∧ t.cmd = none ∧ t.oaCfg = c ∧ t.oaReady = true ∧ t.irqStatus = s.irqStatus ||| 0x80#8
        ∧ t.oa =
          { phaseGain := Fp.div (Fp.ofNat c.sincLutlen.toNat) (Fp.ofNat (c.sincNa.toNat + 1))
            icg := g
            frameCount := 0
            wp := 0
            start := 0
            frameReady := false }
        ∧ Holds t.mem (.ram .sincLut) (sincTable c.sincNa.toNat c.sincLutlen.toNat)
        ∧ Holds t.mem (.ram .fftTw) ((qsin n).take n)
        ∧ Holds t.mem (.ram .bitrev) ((List.range n).map (fun i => BitVec.ofNat 64 (bitReverse n.log2 i)))
        ∧ Holds t.mem (.ram .win) (window (fftTwiddles n) n c.winType c.winCoef)
        ∧ (∀ r ∈ [RamId.avgRe, .avgIm], Holds t.mem (.ram r) (List.replicate (n / 2) Fp.zero))
        ∧ (∀ r ∈ [RamId.frameBuf, .speedBuf], Holds t.mem (.ram r) (List.replicate c.sampleLen.toNat Fp.zero))
        ∧ SameExcept
          (fun b i =>
            (b = .ram .sincLut ∧ i < c.sincLutlen.toNat)
              ∨ ((b = .ram .fftTw ∨ b = .ram .bitrev ∨ b = .ram .win) ∧ i < n)
              ∨ ((b = .ram .avgRe ∨ b = .ram .avgIm) ∧ i < n / 2)
              ∨ ((b = .ram .frameBuf ∨ b = .ram .speedBuf) ∧ i < c.sampleLen.toNat))
          s.mem t.mem)

/-- R271, R272: the entries of the sinc table, the six window formulas with their constants, the window's cosines read with the
quarter-period offset, and the inverse coherent gain with its two failures. -/
def Obligations.TableFormulas : Prop :=
  (∀ a ll i : Nat, i < ll →
    let pg := Fp.div (Fp.ofNat ll) (Fp.ofNat (a + 1))
    let u := Fp.div (Fp.ofNat i) pg
    phaseGain a ll = pg
      ∧ (sincTable a ll)[i]? =
        some
          (if i = 0 then Fp.one
           else if (i * (a + 1)) % ll = 0 then Fp.zero
           else Fp.div (Config.numSin (Fp.mul 0x400921FB54442D18#64 u)) (Fp.mul 0x400921FB54442D18#64 u)))
  ∧ (Fp.c054 = Fp.ofDecimal false 54 (-2) ∧ Fp.c046 = Fp.ofDecimal false 46 (-2) ∧ Fp.c042 = Fp.ofDecimal false 42 (-2)
    ∧ Fp.c008 = Fp.ofDecimal false 8 (-2) ∧ Fp.half = Fp.ofDecimal false 5 (-1) ∧ Fp.one = Fp.ofDecimal false 10 (-1)
    ∧ Fp.two = Fp.ofDecimal false 20 (-1))
  ∧ (∀ (tw : List F64) (n : Nat) (coef : F64) (i : Nat), i < n →
    let c1 := nth tw ((i + n / 4) % n)
    let c2 := nth tw ((2 * i % n + n / 4) % n)
    (window tw n 0 coef)[i]? = some Fp.one
      ∧ (window tw n 1 coef)[i]? = some (Fp.sub Fp.half (Fp.mul Fp.half c1))
      ∧ (window tw n 2 coef)[i]? = some (Fp.sub Fp.c054 (Fp.mul Fp.c046 c1))
      ∧ (window tw n 3 coef)[i]? = some (Fp.add (Fp.sub Fp.c042 (Fp.mul Fp.half c1)) (Fp.mul Fp.c008 c2))
      ∧ (window tw n 4 coef)[i]? =
        some (Fp.sub Fp.one (Fp.abs (Fp.sub (Fp.div (Fp.mul Fp.two (Fp.ofNat i)) (Fp.ofNat n)) Fp.one)))
      ∧ (window tw n 5 coef)[i]? = some (Fp.sub coef (Fp.mul (Fp.sub Fp.one coef) c1)))
  ∧ ∀ (n : Nat) (w : List F64),
    let s := w.foldl Fp.add Fp.zero
    let g := Fp.div (Fp.ofNat n) s
    (Fp.eq s Fp.zero = true ∨ Fp.isFinite g = false → icg n w = none)
      ∧ (Fp.eq s Fp.zero = false → Fp.isFinite g = true → icg n w = some g)

/-- R273, R310: `rev_K` has bit j of i at bit K-1-j, stays below 2^K and undoes itself; and FFT_CORE for N = 2^K words, its
permutation, its stages and its butterfly in the order of the loops. -/
def Obligations.FftCore : Prop :=
  (∀ k i : Nat, i < 2 ^ k →
    bitReverse k i < 2 ^ k ∧ (∀ j, j < k → (bitReverse k i).testBit j = i.testBit (k - 1 - j))
      ∧ bitReverse k (bitReverse k i) = i)
  ∧ ∀ (tw : List F64) (br : List Word) (k : Nat) (v : Spectrum),
    let n := 2 ^ k
    let permuted :=
      (List.range n).foldl
        (fun (v : Spectrum) i =>
          let j := (br.getD i 0).toNat
          if i < j then
            ⟨(v.re.set i (nth v.re j)).set j (nth v.re i), (v.im.set i (nth v.im j)).set j (nth v.im i)⟩
          else v) v
    let bfly := fun (len : Nat) (v : Spectrum) (s k : Nat) =>
      let wr := nth tw (k * (n / len) + n / 4)
      let wi := Fp.neg (nth tw (k * (n / len)))
      let a := s + k
      let b := s + k + len / 2
      let tr := Fp.sub (Fp.mul (nth v.re b) wr) (Fp.mul (nth v.im b) wi)
      let ti := Fp.add (Fp.mul (nth v.re b) wi) (Fp.mul (nth v.im b) wr)
      (⟨(v.re.set b (Fp.sub (nth v.re a) tr)).set a (Fp.add (nth v.re a) tr),
        (v.im.set b (Fp.sub (nth v.im a) ti)).set a (Fp.add (nth v.im a) ti)⟩ : Spectrum)
    let stage := fun (len : Nat) (v : Spectrum) =>
      (List.range (n / len)).foldl (fun v q => (List.range (len / 2)).foldl (fun v k => bfly len v (q * len) k) v) v
    fftCore tw br n v = (List.range k).foldl (fun v q => stage (2 ^ (q + 1)) v) permuted

/-- R275, R276: OA_PUSH and OA_FLUSH of a ready unit. A pushed pair is dropped with OVERRUN on a ready frame, and otherwise
appended; the frame is ready with FRAME_READY_EV when it is full. OA_FLUSH fills a frame that has new samples and is not ready
with zeros, and it becomes ready; otherwise nothing happens and it is no error. -/
def Obligations.OaPushFlush : Prop :=
  (∀ s : State, s.oaReady = true →
    (s.oa.frameReady = true → exec .oaPush s = .next (s.raise .overrun).complete)
    ∧ (s.oa.frameReady = false →
      ∃ t, exec .oaPush s = .next t
        ∧ t.cmd = none
        ∧ t.oa =
          { s.oa with wp := s.oa.wp + 1, frameReady := decide (s.oa.wp + 1 = s.oaCfg.sampleLen.toNat) }
        ∧ t.irqStatus = s.irqStatus ||| (if s.oa.wp + 1 = s.oaCfg.sampleLen.toNat then 0x10#8 else 0#8) ||| 0x80#8
        ∧ t.mem.word (.ram .frameBuf) s.oa.wp = some s.din0 ∧ t.mem.word (.ram .speedBuf) s.oa.wp = some s.din1
        ∧ SameExcept (fun b i => (b = .ram .frameBuf ∨ b = .ram .speedBuf) ∧ i = s.oa.wp) s.mem t.mem
        ∧ { t with cmd := s.cmd, oa := s.oa, irqStatus := s.irqStatus, mem := s.mem } = s))
  ∧ ∀ s : State, s.oaReady = true →
    (s.oa.frameReady = true ∨ s.oa.wp ≤ s.oa.start →
      exec .oaFlush s = .next { s with cmd := none, irqStatus := s.irqStatus ||| 0x80#8 })
    ∧ (s.oa.frameReady = false → s.oa.start < s.oa.wp →
      ∃ t, exec .oaFlush s = .next t
        ∧ t.cmd = none ∧ t.oa = { s.oa with wp := s.oaCfg.sampleLen.toNat, frameReady := true }
        ∧ t.irqStatus = s.irqStatus ||| 0x90#8
        ∧ (∀ j, s.oa.wp ≤ j → j < s.oaCfg.sampleLen.toNat →
          t.mem.word (.ram .frameBuf) j = some Fp.zero ∧ t.mem.word (.ram .speedBuf) j = some Fp.zero)
        ∧ SameExcept
          (fun b i => (b = .ram .frameBuf ∨ b = .ram .speedBuf) ∧ s.oa.wp ≤ i ∧ i < s.oaCfg.sampleLen.toNat) s.mem t.mem
        ∧ { t with cmd := s.cmd, oa := s.oa, irqStatus := s.irqStatus, mem := s.mem } = s)

/-- R277: the overlap copy: the last Lo words of both buffers become the first Lo, the words from Lo on stay, and the fill state
starts at Lo. -/
def Obligations.Advance : Prop :=
  ∀ s : State, s.oaCfg.overlap.toNat < s.oaCfg.sampleLen.toNat →
    Written s.mem (.ram .frameBuf) s.oaCfg.sampleLen.toNat → Written s.mem (.ram .speedBuf) s.oaCfg.sampleLen.toNat →
    let lo := s.oaCfg.overlap.toNat
    let h := s.oaCfg.sampleLen.toNat - lo
    ∃ t, oaAdvance s = .ok t
      ∧ (∀ j, j < lo →
        t.mem.word (.ram .frameBuf) j = s.mem.word (.ram .frameBuf) (j + h)
          ∧ t.mem.word (.ram .speedBuf) j = s.mem.word (.ram .speedBuf) (j + h))
      ∧ SameExcept (fun b i => (b = .ram .frameBuf ∨ b = .ram .speedBuf) ∧ i < lo) s.mem t.mem
      ∧ t.oa = { s.oa with wp := lo, start := lo, frameReady := false }
      ∧ { t with oa := s.oa, mem := s.mem } = s

/-- R286 with R278 to R285 and R310: OA_FRAME on a ready frame with a good speed and readable words. `frame`, `lut`, `w`, `tw`,
`br` are FRAME_BUF and the tables, `ar`, `ai` the accumulators (`ai` needed with AVG_MODE = 0 only). At a resampling position that
overflowed the samples read zeros and the weights are the model's free ones (assumption 7). In ORDERS and DOUT0, that `den != 0.0`
is true of a NaN `den` (two adjacent bins +infinity) is the model's choice (assumption 21). -/
def Obligations.OaFrame : Prop :=
  ∀ (s : State) (speed : F64) (frame lut w tw ar ai : List F64) (br : List Word),
    s.oaReady = true → s.oa.frameReady = true →
    s.mem.word (.ram .speedBuf) 0 = some speed →
    Fp.isFinite speed = true → Fp.le speed Fp.zero = false →
    let c := s.oaCfg
    let n := c.fftLen.toNat
    let rho := Fp.div c.fof (Fp.div speed Fp.sixty)
    Fp.isFinite rho = true → Fp.le rho Fp.zero = false →
    c.overlap.toNat < c.sampleLen.toNat →
    frame.length = c.sampleLen.toNat → Holds s.mem (.ram .frameBuf) frame →
    Written s.mem (.ram .speedBuf) c.sampleLen.toNat →
    lut.length = c.sincLutlen.toNat → Holds s.mem (.ram .sincLut) lut →
    w.length = n → Holds s.mem (.ram .win) w → tw.length = n → Holds s.mem (.ram .fftTw) tw →
    br.length = n → Holds s.mem (.ram .bitrev) br → ar.length = n / 2 → Holds s.mem (.ram .avgRe) ar →
    (c.avgMode = 0 → ai.length = n / 2 ∧ Holds s.mem (.ram .avgIm) ai) →
    let xs := resample frame lut s.oa.phaseGain c.sincNa.toNat n rho s.freeNext
    let z := fftCore tw br n ⟨applyWindow xs w s.oa.icg, List.replicate n Fp.zero⟩
    let v : Spectrum := ⟨scaled n z.re, scaled n z.im⟩
    let lin := linOf v
    let orders := orderList c n lin
    let lo := c.overlap.toNat
    let h := c.sampleLen.toNat - lo
    ∃ t, exec .oaFrame s = .next t
      ∧ t.cmd = none ∧ t.dout0 = sumLevel c orders ∧ t.dout1 = rho
      ∧ t.oa =
        { s.oa with
          frameCount := min (s.oa.frameCount + 1) 18446744073709551615
          wp := lo
          start := lo
          frameReady := false }
      ∧ t.irqStatus = s.irqStatus ||| 0xA0#8 ∧ t.freeNext = s.freeNext + n
      ∧ Holds t.mem (.ram .rsRe) z.re ∧ Holds t.mem (.ram .rsIm) z.im ∧ Holds t.mem (.line .lin) lin
      ∧ Holds t.mem (.ram .mag) (lin.map (outLevel c)) ∧ Holds t.mem (.ram .orders) orders
      ∧ Holds t.mem (.ram .avgRe) (List.zipWith Fp.add ar (if c.avgMode = 0 then v.re else lin))
      ∧ (c.avgMode = 0 → Holds t.mem (.ram .avgIm) (List.zipWith Fp.add ai v.im))
      ∧ (∀ j, j < lo →
        t.mem.word (.ram .frameBuf) j = s.mem.word (.ram .frameBuf) (j + h)
          ∧ t.mem.word (.ram .speedBuf) j = s.mem.word (.ram .speedBuf) (j + h))
      ∧ z.re.length = n ∧ z.im.length = n ∧ lin.length = n / 2 ∧ orders.length = c.numOrders.toNat
      ∧ SameExcept
        (fun b i =>
          ((b = .ram .rsRe ∨ b = .ram .rsIm) ∧ i < n) ∨ ((b = .line .lin ∨ b = .ram .mag ∨ b = .ram .avgRe) ∧ i < n / 2)
            ∨ (c.avgMode = 0 ∧ b = .ram .avgIm ∧ i < n / 2) ∨ (b = .ram .orders ∧ i < c.numOrders.toNat)
            ∨ ((b = .ram .frameBuf ∨ b = .ram .speedBuf) ∧ i < lo))
        s.mem t.mem
      ∧ { t with
          cmd := s.cmd
          dout0 := s.dout0
          dout1 := s.dout1
          oa := s.oa
          irqStatus := s.irqStatus
          freeNext := s.freeNext
          mem := s.mem } = s

/-- R286, R343: OA_FRAME without a ready frame raises NO_FRAME and changes nothing else; with a bad speed or ratio it discards the
frame as `ADVANCE()` does, raises BAD_SPEED and leaves the frame count, the accumulators and the results. -/
def Obligations.OaFrameErrors : Prop :=
  ∀ s : State, s.oaReady = true →
    (s.oa.frameReady = false → exec .oaFrame s = .next (s.raise .noFrame).complete)
    ∧ ∀ (speed : F64) (u : State), s.oa.frameReady = true → s.mem.word (.ram .speedBuf) 0 = some speed →
      Fp.isFinite speed = false ∨ Fp.le speed Fp.zero = true
        ∨ Fp.isFinite (Fp.div s.oaCfg.fof (Fp.div speed Fp.sixty)) = false
        ∨ Fp.le (Fp.div s.oaCfg.fof (Fp.div speed Fp.sixty)) Fp.zero = true →
      oaAdvance s = .ok u →
      exec .oaFrame s = .next (u.raise .badSpeed).complete ∧ u.oa.frameCount = s.oa.frameCount
        ∧ u.dout0 = s.dout0 ∧ u.dout1 = s.dout1
        ∧ SameExcept (fun b i => (b = .ram .frameBuf ∨ b = .ram .speedBuf) ∧ i < s.oaCfg.overlap.toNat) s.mem u.mem

/-- R287: OA_FINAL of a ready unit: ZERO_FRAMES and nothing else with no frame processed; otherwise the averages in AVG_SPEC and
AVG_PHASE, the count in DOUT0, and no accumulator written. A second OA_FINAL in a row writes identical AVG_SPEC and AVG_PHASE. -/
def Obligations.OaFinal : Prop :=
  (∀ s : State, s.oaReady = true →
    (s.oa.frameCount = 0 → exec .oaFinal s = .next (s.raise .zeroFrames).complete)
    ∧ ∀ ar ai : List F64, s.oa.frameCount ≠ 0 →
      ar.length = s.oaCfg.fftLen.toNat / 2 → Holds s.mem (.ram .avgRe) ar →
      ai.length = s.oaCfg.fftLen.toNat / 2 → Holds s.mem (.ram .avgIm) ai →
      let fc := Fp.ofNat s.oa.frameCount
      ∃ t, exec .oaFinal s = .next t
        ∧ t.cmd = none ∧ t.dout0 = fc ∧ t.irqStatus = s.irqStatus ||| 0x80#8
        ∧ (∀ k, k < s.oaCfg.fftLen.toNat / 2 →
          let re := Fp.div (nth ar k) fc
          let im := Fp.div (nth ai k) fc
          t.mem.word (.ram .avgSpec) k =
              some (outLevel s.oaCfg (Fp.sqrt (Fp.add (Fp.mul re re) (Fp.mul im im))))
            ∧ t.mem.word (.ram .avgPhase) k = some (Config.numAtan2 im re))
        ∧ SameExcept
          (fun b i => (b = .ram .avgSpec ∨ b = .ram .avgPhase) ∧ i < s.oaCfg.fftLen.toNat / 2) s.mem t.mem
        ∧ { t with cmd := s.cmd, dout0 := s.dout0, irqStatus := s.irqStatus, mem := s.mem } = s)
  ∧ ∀ s t : State, s.oaReady = true → exec .oaFinal s = .next t →
      ∃ u, exec .oaFinal t = .next u ∧ u.dout0 = t.dout0 ∧ SameExcept (fun _ _ => False) t.mem u.mem

/-- R284: ORDERS. The bin of each order, the range searched, the first maximum in it and the vertex of the parabola. `den != 0.0`
is true of a NaN `den` by the model's choice (assumption 21). -/
def Obligations.OrderExtraction : Prop :=
  ∀ (c : OaConfig) (n i : Nat) (lin : List F64), lin.length = n / 2 → i < c.numOrders.toNat →
    let bf := Fp.div (Fp.mul (Fp.mul (Fp.ofNat (c.baseOrder.toNat * (i + 1))) c.fof) (Fp.ofNat n)) c.sampleRate
    let mid := Fp.floor (Fp.add bf Fp.half)
    let lo := max 0 (mid - (c.orderAdj.toNat : Int))
    let hi := min (((n / 2 : Nat) : Int) - 1) (mid + (c.orderAdj.toNat : Int))
    (Fp.isFinite bf = false → (orderList c n lin)[i]? = some (outLevel c Fp.zero))
    ∧ (Fp.isFinite bf = true → hi < lo → (orderList c n lin)[i]? = some (outLevel c Fp.zero))
    ∧ (Fp.isFinite bf = true → lo ≤ hi →
      ∃ p : Nat, lo ≤ (p : Int) ∧ (p : Int) ≤ hi
        ∧ (∀ k : Nat, lo ≤ (k : Int) → (k : Int) ≤ hi → Fp.lt (nth lin p) (nth lin k) = false)
        ∧ (∀ k : Nat, lo ≤ (k : Int) → k < p → Fp.lt (nth lin k) (nth lin p) = true ∨ Fp.isNaN (nth lin k) = true)
        ∧ (Fp.isNaN (nth lin lo.toNat) = true → (p : Int) = lo)
        ∧ let y0 := nth lin p
          let ym := nth lin (p - 1)
          let yp := nth lin (p + 1)
          let den := Fp.add (Fp.sub ym (Fp.mul Fp.two y0)) yp
          let delta := Fp.div (Fp.mul Fp.half (Fp.sub ym yp)) den
          (orderList c n lin)[i]? =
            some
              (outLevel c
                (if 1 ≤ p ∧ p + 1 ≤ n / 2 - 1 ∧ Fp.le ym y0 = true ∧ Fp.le yp y0 = true ∧ ¬ Fp.eq den Fp.zero = true then
                  Fp.sub y0 (Fp.mul (Fp.mul Fp.quarter (Fp.sub ym yp)) delta)
                 else y0)))

/-- R280, R281, R283, R285: the windowed samples, the scaled spectrum, the magnitudes, the dB conversion and the sum level. -/
def Obligations.LevelFormulas : Prop :=
  (∀ (xs w : List F64) (g : F64) (k : Nat), xs.length = w.length → k < xs.length →
    (applyWindow xs w g)[k]? = some (Fp.mul (Fp.mul (nth xs k) (nth w k)) g))
  ∧ (∀ (n : Nat) (z : Spectrum) (k : Nat), z.re.length = n → z.im.length = n → k < n / 2 →
    let sc := Fp.div Fp.two (Fp.ofNat n)
    let re := Fp.mul (nth z.re k) sc
    let im := Fp.mul (nth z.im k) sc
    (scaled n z.re)[k]? = some re ∧ (scaled n z.im)[k]? = some im
      ∧ (linOf ⟨scaled n z.re, scaled n z.im⟩)[k]? = some (Fp.sqrt (Fp.add (Fp.mul re re) (Fp.mul im im))))
  ∧ (∀ (c : OaConfig) (v : F64),
    outLevel c v =
      if c.logMode = 1 then Fp.mul c.dbScale (Config.numLog10 (if Fp.lt c.logFloor v = true then v else c.logFloor))
      else v)
  ∧ ∀ (c : OaConfig) (orders : List F64),
    let acc :=
      (orders.take c.numSum.toNat).foldl
        (fun acc v =>
          let a := if c.logMode = 1 then Config.numPow10 (Fp.div v c.dbScale) else v
          if c.cohType = 0 then Fp.add acc a else Fp.add acc (Fp.mul a a))
        Fp.zero
    sumLevel c orders = outLevel c (if c.cohType = 0 then acc else Fp.sqrt acc)

/-- R311 with R310: FFT of a ready unit on readable words: RS_RE and RS_IM transformed in place, and nothing else. With
an unwritten word of RS_RE or RS_IM below N, UNWRITTEN. -/
def Obligations.FftInPlace : Prop :=
  (∀ (s : State) (re im tw : List F64) (br : List Word), s.oaReady = true →
    let n := s.oaCfg.fftLen.toNat
    re.length = n → Holds s.mem (.ram .rsRe) re → im.length = n → Holds s.mem (.ram .rsIm) im →
    tw.length = n → Holds s.mem (.ram .fftTw) tw → br.length = n → Holds s.mem (.ram .bitrev) br →
    let z := fftCore tw br n ⟨re, im⟩
    ∃ t, exec .fft s = .next t ∧ t.cmd = none ∧ t.irqStatus = s.irqStatus ||| 0x80#8
      ∧ z.re.length = n ∧ z.im.length = n ∧ Holds t.mem (.ram .rsRe) z.re ∧ Holds t.mem (.ram .rsIm) z.im
      ∧ SameExcept (fun b i => (b = .ram .rsRe ∨ b = .ram .rsIm) ∧ i < n) s.mem t.mem
      ∧ { t with cmd := s.cmd, irqStatus := s.irqStatus, mem := s.mem } = s)
  ∧ ∀ (s : State) (k : Nat), s.oaReady = true → k < s.oaCfg.fftLen.toNat →
    s.mem.word (.ram .rsRe) k = none ∨ s.mem.word (.ram .rsIm) k = none → exec .fft s = .fault .unwritten

/-- R312 with R272: WINGEN of a ready unit: its checks in their order, each failure leaving all but the error record; otherwise
the window, its gain and the two latched registers, and nothing else. -/
def Obligations.Wingen : Prop :=
  ∀ (s : State) (tw : List F64), s.oaReady = true →
    let n := s.oaCfg.fftLen.toNat
    let w := window tw n s.oaReg.winType s.oaReg.winCoef
    (5 < s.oaReg.winType.toNat → exec .wingen s = .next (s.raise .cfgMode).complete)
    ∧ (s.oaReg.winType.toNat ≤ 5 → Fp.isFinite s.oaReg.winCoef = false →
      exec .wingen s = .next (s.raise .cfgValue).complete)
    ∧ (s.oaReg.winType.toNat ≤ 5 → Fp.isFinite s.oaReg.winCoef = true →
      tw.length = n → Holds s.mem (.ram .fftTw) tw →
      let g := Fp.div (Fp.ofNat n) (w.foldl Fp.add Fp.zero)
      (Fp.eq (w.foldl Fp.add Fp.zero) Fp.zero = true ∨ Fp.isFinite g = false →
        exec .wingen s = .next (s.raise .cfgWinGain).complete)
      ∧ (Fp.eq (w.foldl Fp.add Fp.zero) Fp.zero = false → Fp.isFinite g = true →
        ∃ t, exec .wingen s = .next t ∧ t.cmd = none ∧ t.irqStatus = s.irqStatus ||| 0x80#8
          ∧ t.oaCfg = { s.oaCfg with winType := s.oaReg.winType, winCoef := s.oaReg.winCoef }
          ∧ t.oa = { s.oa with icg := g } ∧ w.length = n ∧ Holds t.mem (.ram .win) w
          ∧ SameExcept (fun b i => b = .ram .win ∧ i < n) s.mem t.mem
          ∧ { t with cmd := s.cmd, irqStatus := s.irqStatus, oaCfg := s.oaCfg, oa := s.oa, mem := s.mem } = s))

/-- R313 with R279, R280: SINC_AT at a finite position; and SINC_RS of a ready unit: BAD_RATIO and nothing else on a bad ratio;
otherwise the resampled frame in RS_RE, +0.0 in RS_IM, and the frame itself not consumed. A position that overflowed reads zeros,
by weights that are the model's free ones (assumption 7): with a finite table the sample is +0.0. The last clause but one says the
same of the list OA_FRAME windows (R286). -/
def Obligations.SincRs : Prop :=
  (∀ (frame lut : List F64) (gain x : F64) (na : Nat), Fp.isFinite x = true →
    let b := Fp.floor x
    let fr := Fp.sub x (Fp.ofInt b)
    sincAt frame lut gain na x =
      (List.range (2 * na + 2)).foldl
        (fun acc (q : Nat) =>
          let t : Int := (q : Int) - (na : Int)
          let j := b + t
          let d := Fp.abs (Fp.sub fr (Fp.ofInt t))
          let li := Fp.floor (Fp.mul d gain)
          let wt := if li < (lut.length : Int) then nth lut li.toNat else Fp.zero
          let v := if 0 ≤ j ∧ j < (frame.length : Int) then nth frame j.toNat else Fp.zero
          Fp.add acc (Fp.mul v wt))
        Fp.zero)
  ∧ (∀ (frame lut : List F64) (gain rho : F64) (na n free k : Nat), k < n →
    let x := Fp.mul (Fp.ofNat k) rho
    (Fp.isFinite x = true → (resample frame lut gain na n rho free)[k]? = some (sincAt frame lut gain na x))
      ∧ (Fp.isFinite x = false → (∀ v ∈ lut, Fp.isFinite v = true) →
        (resample frame lut gain na n rho free)[k]? = some Fp.zero))
  ∧ ∀ (s : State) (frame lut : List F64), s.oaReady = true →
    (Fp.isFinite s.din0 = false ∨ Fp.le s.din0 Fp.zero = true → exec .sincRs s = .next (s.raise .badRatio).complete)
    ∧ (Fp.isFinite s.din0 = true → Fp.le s.din0 Fp.zero = false →
      frame.length = s.oaCfg.sampleLen.toNat → Holds s.mem (.ram .frameBuf) frame →
      lut.length = s.oaCfg.sincLutlen.toNat → Holds s.mem (.ram .sincLut) lut →
      let n := s.oaCfg.fftLen.toNat
      ∃ t, exec .sincRs s = .next t ∧ t.cmd = none ∧ t.irqStatus = s.irqStatus ||| 0x80#8
        ∧ t.freeNext = s.freeNext + n
        ∧ (∀ k, k < n →
          let x := Fp.mul (Fp.ofNat k) s.din0
          (Fp.isFinite x = true →
            t.mem.word (.ram .rsRe) k = some (sincAt frame lut s.oa.phaseGain s.oaCfg.sincNa.toNat x))
          ∧ (Fp.isFinite x = false → (∀ v ∈ lut, Fp.isFinite v = true) → t.mem.word (.ram .rsRe) k = some Fp.zero)
          ∧ (t.mem.word (.ram .rsRe) k).isSome = true ∧ t.mem.word (.ram .rsIm) k = some Fp.zero)
        ∧ SameExcept (fun b i => (b = .ram .rsRe ∨ b = .ram .rsIm) ∧ i < n) s.mem t.mem
        ∧ { t with cmd := s.cmd, irqStatus := s.irqStatus, freeNext := s.freeNext, mem := s.mem } = s)

/-! ## Invariants of every step, and rules of the whole machine -/

/-- R11, R62: every step keeps the memory in its canonical form, which is the model's choice of data for the words and their marks
(assumption 2). -/
def Obligations.MemoryCanonical : Prop :=
  ∀ s t : State, s.mem.wf → step s = .next t → t.mem.wf

/-- R58, R206, R207, R208: every step keeps the invariant of the CL and ELG units: the VCO phase in its table, every filter index
below its length, the trigger counter bounded by the symbol length, VTAB the table of its size. -/
def Obligations.ClInvariant : Prop := ∀ s t : State, ClInv s → step s = .next t → ClInv t

/-- R58: every step keeps the invariant of the MAP unit: the carrier phase in its table, the retained indices below the
differential modulus, the tick below SPS, MTAB the table of its size. -/
def Obligations.MapInvariant : Prop := ∀ s t : State, MapInv s → step s = .next t → MapInv t

/-- R58, R274, R312: every step keeps the invariant of the OA unit: the fill state in its bounds, the tables and the window those
of the latched configuration. -/
def Obligations.OaInvariant : Prop := ∀ s t : State, OaInv s → step s = .next t → OaInv t

/-- R56, R50, R51, R53, R54: the capacities of the delay lines and of `st.lin` (the RAMs' are in RamRead), and no step writes a
word at or beyond the capacity of its bank. -/
def Obligations.CapacityKept : Prop :=
  (∀ p : Params,
    (∀ r : RamId, Bank.capacity p (.ram r) = ramCapacity p r)
      ∧ (∀ l ∈ [Line.lpf1, .lpf2, .elf, .txi, .txq, .rxi, .rxq], Bank.capacity p (.line l) = p.maxFir)
      ∧ (∀ l ∈ [Line.cdI, .cdQ, .mf, .eg], Bank.capacity p (.line l) = p.maxDelay)
      ∧ Bank.capacity p (.line .lin) = p.maxFft / 2)
  ∧ ∀ s t : State, MemInv s → step s = .next t →
    ∀ (b : Bank) (i : Nat), t.mem.word b i ≠ none → i < b.capacity t.par

/-- R62, R58, R344: where the invariants hold and the host has written the coefficients a command reads (and, for FFT, the work
RAMs), every command completes: no model fault, no refusal. The bound on MAX_TAB keeps the table sizes exact in binary64. SINC_RS
and OA_FRAME complete at a position that overflowed by the reading of assumption 7. -/
def Obligations.ReadyCompletes : Prop :=
  ∀ (i : Instr) (s : State), MemInv s → s.par.maxTab ≤ 9007199254740992 →
    (i = .clStep → s.clReady = true → Written s.mem (.ram .lpfCoef) s.clCfg.lpfLen.toNat) →
    (i = .clStep ∨ i = .elgStep → s.clReady = true → Written s.mem (.ram .elgLfCoef) s.clCfg.elgLfLen.toNat) →
    (i = .demapAcc ∨ i = .modSym → s.mapReady = true → s.mapCfg.rrcEn = 1 →
      Written s.mem (.ram .rrcCoef) s.mapCfg.rrcLen.toNat) →
    (i = .fft → s.oaReady = true →
      Written s.mem (.ram .rsRe) s.oaCfg.fftLen.toNat ∧ Written s.mem (.ram .rsIm) s.oaCfg.fftLen.toNat) →
    ∃ t, exec i s = .next t

/-- R341, R33, R345, R34, R207, R208, R212 (c): what a step keeps. ERR and ERRCODE, once set, stay until CLR_ERR, SOFT_RESET or a
power-on reset; an IRQ_STATUS bit, once set, stays until the host writes 1 to it or the block is reset; LOCKED and NOLOCK are left
only by CL_INIT, SOFT_RESET or a power-on reset, and no step leads back to IDLE but those. -/
def Obligations.RecordsKept : Prop :=
  (∀ s t : State, step s = .next t → s.err = true → NoReset s → nextCommand s ≠ some .clrErr →
    t.err = true ∧ t.errcode = s.errcode)
  ∧ (∀ (s t : State) (i : Nat), step s = .next t → s.irqStatus.getLsbD i = true → NoReset s →
    (∀ (v : Word) (n : Nat), s.busy = false → nextOp s = some (.bus ⟨.write, 0x018#12, n, v⟩) → v.getLsbD i = false) →
    t.irqStatus.getLsbD i = true)
  ∧ ∀ s t : State, step s = .next t → NoReset s → nextCommand s ≠ some .clInit →
    (s.elg.state = .locked → t.elg.state = .locked) ∧ (s.elg.state = .nolock → t.elg.state = .nolock)
      ∧ (s.elg.state ≠ .idle → t.elg.state ≠ .idle)

/-- R52, R387: commands other than the INITs, WINGEN and SOFT_RESET read configuration only from the latched copies: two states
that differ in the configuration registers alone give results that differ in them alone. -/
def Obligations.LatchedOnly : Prop :=
  ∀ (i : Instr) (s : State) (a : ClConfig) (b : MapConfig) (c : OaConfig),
    i ∉ [Instr.clInit, .mapInit, .oaInit, .wingen, .softReset] →
    (∀ t, exec i s = .next t →
      exec i { s with clReg := a, mapReg := b, oaReg := c } = .next { t with clReg := a, mapReg := b, oaReg := c })
    ∧ ∀ f, exec i s = .fault f → exec i { s with clReg := a, mapReg := b, oaReg := c } = .fault f

/-- R382, R383, R36, R37, R133: the commands of a unit leave the other units' state, configuration and memory alone; and no command
but SOFT_RESET changes what only the host writes: DIN, the RAM window's registers, IRQ_ENABLE, the configuration registers and the
coefficient RAMs. -/
def Obligations.UnitsIndependent : Prop :=
  ∀ (i : Instr) (s t : State), exec i s = .next t → i ≠ .softReset →
    (i ∉ clCommands → t.clReady = s.clReady ∧ t.clCfg = s.clCfg ∧ t.cl = s.cl ∧ t.elg = s.elg
      ∧ SameExcept (fun b _ => b ∉ clBanks) s.mem t.mem)
    ∧ (i ∉ mapCommands → t.mapReady = s.mapReady ∧ t.mapCfg = s.mapCfg ∧ t.map = s.map
      ∧ SameExcept (fun b _ => b ∉ mapBanks) s.mem t.mem)
    ∧ (i ∉ oaCommands → t.oaReady = s.oaReady ∧ t.oaCfg = s.oaCfg ∧ t.oa = s.oa
      ∧ SameExcept (fun b _ => b ∉ oaBanks) s.mem t.mem)
    ∧ t.din0 = s.din0 ∧ t.din1 = s.din1 ∧ t.ramSel = s.ramSel ∧ t.ramAddr = s.ramAddr ∧ t.irqEnable = s.irqEnable
    ∧ t.clReg = s.clReg ∧ t.mapReg = s.mapReg ∧ t.oaReg = s.oaReg
    ∧ SameExcept (fun b _ => b ∉ [Bank.ram .lpfCoef, .ram .elgLfCoef, .ram .rrcCoef]) s.mem t.mem
end

