-- ==== Sys2Proof/Laws/Float.lean ====
section
/-! SUPPORT. Small facts of the binary64 arithmetic: which results are no NaN, and the order of the values. -/

namespace Sys2Proof.Fp

theorem toNat_signed {neg : Bool} {bits : Nat} (h : bits < 9223372036854775808) :
    (signed neg bits).toNat = if neg then bits + 9223372036854775808 else bits := by
  unfold signed
  cases neg
  · simp only [Bool.false_eq_true, if_false, BitVec.toNat_ofNat]; omega
  · simp only [if_true, BitVec.toNat_ofNat]; omega

theorem expField_eq (v : F64) : expField v = v.toNat / 4503599627370496 % 2048 := by
  unfold expField
  rw [Nat.shiftRight_eq_div_pow]

/-- A pattern of a magnitude up to infinity's is no NaN. -/
theorem isNaN_signed {neg : Bool} {bits : Nat} (h : bits ≤ 9218868437227405312) : isNaN (signed neg bits) = false := by
  have ht := toNat_signed (neg := neg) (show bits < 9223372036854775808 by omega)
  unfold isNaN
  rw [expField_eq, frac, ht]
  by_cases he : bits = 9218868437227405312
  · subst he; cases neg <;> decide
  · have : ((if neg then bits + 9223372036854775808 else bits) / 4503599627370496 % 2048) ≠ 2047 := by
      cases neg
      · simp only [Bool.false_eq_true, if_false]; omega
      · simp only [if_true]; omega
    simp [this]

/-- A rounded value is no NaN (R17: overflow gives an infinity). -/
theorem isNaN_round (neg : Bool) (m : Nat) (e : Int) : isNaN (round neg m e) = false := by
  have hz : isNaN (zeroOf neg) = false := isNaN_signed (Nat.zero_le _)
  have hk : ∀ bits : Nat, isNaN (if bits ≥ 9218868437227405312 then infOf neg else signed neg bits) = false := by
    intro bits
    split
    · exact isNaN_signed (Nat.le_refl _)
    · rename_i h; exact isNaN_signed (by omega)
  unfold round
  split
  · exact hz
  · exact hk _

theorem isNaN_ofInt (n : Int) : isNaN (ofInt n) = false := by
  unfold ofInt; exact isNaN_round _ _ _

theorem isNaN_ofNat (n : Nat) : isNaN (ofNat n) = false := by
  unfold ofNat; exact isNaN_round _ _ _

theorem isNaN_neg (v : F64) : isNaN (neg v) = isNaN v := by
  have h : ∀ i : Nat, i < 63 → (neg v).getLsbD i = v.getLsbD i := by
    intro i hi
    have : (0x8000000000000000#64).getLsbD i = false := by
      rw [show (0x8000000000000000#64) = BitVec.twoPow 64 63 by decide, BitVec.getLsbD_twoPow]
      simp; omega
    simp [neg, BitVec.getLsbD_xor, this]
  have hm : (neg v).toNat % 9223372036854775808 = v.toNat % 9223372036854775808 := by
    apply Nat.eq_of_testBit_eq
    intro i
    rw [show (9223372036854775808 : Nat) = 2 ^ 63 by decide, Nat.testBit_mod_two_pow, Nat.testBit_mod_two_pow]
    by_cases hi : i < 63
    · simpa [hi, BitVec.getLsbD] using h i hi
    · simp [hi]
  unfold isNaN
  rw [expField_eq, expField_eq, frac, frac]
  have e1 : (neg v).toNat / 4503599627370496 % 2048 = v.toNat / 4503599627370496 % 2048 := by omega
  have e2 : (neg v).toNat % 4503599627370496 = v.toNat % 4503599627370496 := by omega
  rw [e1, e2]

theorem not_nan_of_finite {v : F64} (h : isFinite v = true) : isNaN v = false := by
  unfold isFinite at h
  unfold isNaN
  simp only [bne_iff_ne, ne_eq] at h
  simp [h]

theorem not_inf_of_finite {v : F64} (h : isFinite v = true) : isInf v = false := by
  unfold isFinite at h
  unfold isInf
  simp only [bne_iff_ne, ne_eq] at h
  simp [h]

/-- The sum of a finite value and a value that is no NaN is no NaN. -/
theorem isNaN_add_of_finite {a b : F64} (ha : isFinite a = true) (hb : isNaN b = false) : isNaN (add a b) = false := by
  unfold add
  rw [not_nan_of_finite ha, hb, not_inf_of_finite ha]
  simp only [Bool.or_self, Bool.false_eq_true, if_false]
  split
  · exact hb
  · split
    · exact isNaN_signed (Nat.zero_le _)
    · exact isNaN_round _ _ _

theorem isNaN_sub_of_finite {a b : F64} (ha : isFinite a = true) (hb : isNaN b = false) : isNaN (sub a b) = false := by
  unfold sub
  exact isNaN_add_of_finite ha (by rw [isNaN_neg]; exact hb)

/-- The product of two values that are no NaN is no NaN where neither is a zero. -/
theorem isNaN_mul {a b : F64} (ha : isNaN a = false) (hb : isNaN b = false)
    (h : (isInf a || isInf b) = false ∨ (isZero a || isZero b) = false) : isNaN (mul a b) = false := by
  unfold mul infOf
  rw [ha, hb]
  simp only [Bool.or_self, Bool.false_eq_true, if_false]
  split
  · split
    · rename_i h1 h2
      rcases h with h | h
      · simp_all
      · simp_all
    · exact isNaN_signed (Nat.le_refl _)
  · exact isNaN_round _ _ _

/-- +0.0 times a finite value is a zero of the value's sign. -/
theorem zero_mul_of_finite {v : F64} (h : isFinite v = true) : mul zero v = zeroOf (sign v) := by
  unfold mul
  rw [not_nan_of_finite h, not_inf_of_finite h]
  have hm : mant zero = 0 := by decide
  have hr : ∀ b e, round b 0 e = zeroOf b := by intro b e; unfold round; rfl
  rw [hm, Nat.zero_mul, hr]
  have hs : (sign zero != sign v) = sign v := by cases sign v <;> decide
  rw [hs]
  rfl

/-- A zero of either sign added to +0.0 leaves +0.0 (R17). -/
theorem zero_add_zeroOf (b : Bool) : add zero (zeroOf b) = zero := by cases b <;> decide +kernel

/-- Of two values that are no NaN, one is not above the other exactly when the other is below it (R12). -/
theorem lt_of_not_le {a b : F64} (ha : isNaN a = false) (hb : isNaN b = false) (h : le a b = false) : lt b a = true := by
  unfold le at h
  unfold lt
  simp only [ha, hb, Bool.not_false, Bool.true_and, decide_eq_false_iff_not, decide_eq_true_eq] at *
  omega

theorem le_of_not_lt {a b : F64} (ha : isNaN a = false) (hb : isNaN b = false) (h : lt a b = false) : le b a = true := by
  unfold lt at h
  unfold le
  simp only [ha, hb, Bool.not_false, Bool.true_and, decide_eq_false_iff_not, decide_eq_true_eq] at *
  omega

/-- `<` is transitive (R12: a comparison with a NaN is false). -/
theorem lt_trans {a b c : F64} (h1 : lt a b = true) (h2 : lt b c = true) : lt a c = true := by
  unfold lt at *
  simp only [Bool.and_eq_true, decide_eq_true_eq] at *
  exact ⟨⟨h1.1.1, h2.1.2⟩, by omega⟩

theorem lt_asymm {a b : F64} (h : lt a b = true) : lt b a = false := by
  unfold lt at *
  simp only [Bool.and_eq_true, decide_eq_true_eq] at h
  have h3 : ¬ key b < key a := by omega
  simp [h3]

end Sys2Proof.Fp
end

