-- ==== Sys2Proof/Laws/Memory.lean ====
section
/-! SUPPORT. The memory: what each operation leaves in every word, when a read answers, and the canonical form that every
operation keeps. -/

namespace Sys2Proof.Machine

/-! ## Banks -/

theorem RamId.id_inj {r r' : RamId} (h : r.id = r'.id) : r = r' := by
  cases r <;> cases r' <;> first | rfl | exact absurd h (by decide)

theorem RamId.id_lt (r : RamId) : r.id < 20 := by cases r <;> decide

theorem Line.pos_inj {l l' : Line} (h : l.pos = l'.pos) : l = l' := by
  cases l <;> cases l' <;> first | rfl | exact absurd h (by decide)

theorem Bank.pos_inj {b b' : Bank} (h : b.pos = b'.pos) : b = b' := by
  have hv : b.pos.val = b'.pos.val := congrArg Fin.val h
  cases b with
  | ram r =>
    cases b' with
    | ram r' => exact congrArg Bank.ram (RamId.id_inj hv)
    | line l' => have := RamId.id_lt r; simp only [Bank.pos] at hv; omega
  | line l =>
    cases b' with
    | ram r' => have := RamId.id_lt r'; simp only [Bank.pos] at hv; omega
    | line l' =>
      simp only [Bank.pos] at hv
      exact congrArg Bank.line (Line.pos_inj (by omega))

/-! ## Cells -/

theorem Cells.find_store (c : Cells) (i j : Nat) (w : Word) :
    Cells.find (Cells.store c i w) j = if j = i then some w else Cells.find c j := by
  induction c with
  | nil => simp only [Cells.store, Cells.find, @eq_comm _ i j]
  | cons p c ih =>
    obtain ⟨a, v⟩ := p
    simp only [Cells.store]
    by_cases h : j = i
    · subst h
      split
      · simp [Cells.find]
      · split
        · simp [Cells.find]
        · simp only [Cells.find, ih, if_true]
          split <;> simp_all
    · have h' : ¬ i = j := fun e => h e.symm
      split
      · simp [Cells.find, h']
      · split
        · rename_i e; subst e; simp [Cells.find, h']
        · simp [Cells.find, ih, h]

theorem Cells.find_append (c d : Cells) (j : Nat) :
    Cells.find (c ++ d) j = (Cells.find c j).or (Cells.find d j) := by
  induction c with
  | nil => simp [Cells.find]
  | cons p c ih =>
    obtain ⟨a, v⟩ := p
    simp only [List.cons_append, Cells.find, ih]
    split <;> simp

theorem Cells.find_filter (f : Nat → Bool) (c : Cells) (j : Nat) :
    Cells.find (c.filter (fun p => f p.1)) j = if f j then Cells.find c j else none := by
  induction c with
  | nil => simp [Cells.find]
  | cons p c ih =>
    obtain ⟨a, v⟩ := p
    by_cases hf : f a = true
    · rw [List.filter_cons_of_pos (p := fun p : Nat × Word => f p.1) hf]
      simp only [Cells.find, ih]
      split
      · rename_i e; subst e; simp [hf]
      · rfl
    · rw [List.filter_cons_of_neg (p := fun p : Nat × Word => f p.1) hf]
      simp only [Cells.find, ih]
      split
      · split
        · rename_i e; subst e; contradiction
        · rfl
      · rfl

theorem Cells.find_block (vs : List Word) (i j : Nat) :
    Cells.find (Cells.block i vs) j = if i ≤ j then vs[j - i]? else none := by
  induction vs generalizing i with
  | nil => simp [Cells.block, Cells.find]
  | cons v vs ih =>
    simp only [Cells.block, Cells.find, ih]
    by_cases h : i = j
    · subst h; simp
    · by_cases hl : i ≤ j
      · have : j - i = (j - (i + 1)) + 1 := by omega
        have h1 : i + 1 ≤ j := by omega
        rw [this]; simp [h, hl, h1]
      · have h1 : ¬ i + 1 ≤ j := by omega
        simp [h, hl, h1]

theorem Cells.find_splice (c : Cells) (i j : Nat) (vs : List Word) :
    Cells.find (Cells.splice c i vs) j = if i ≤ j ∧ j < i + vs.length then vs[j - i]? else Cells.find c j := by
  unfold Cells.splice
  rw [Cells.find_append, Cells.find_append, Cells.find_filter (fun a => Nat.blt a i), Cells.find_block,
    Cells.find_filter (fun a => Nat.ble (i + vs.length) a)]
  have hb : Nat.blt j i = decide (j < i) := by
    rw [Bool.eq_iff_iff]; simp [Nat.blt]
  have hc : Nat.ble (i + vs.length) j = decide (i + vs.length ≤ j) := by
    rw [Bool.eq_iff_iff]; simp
  rw [hb, hc]
  by_cases h1 : j < i
  · have h2 : ¬ i ≤ j := by omega
    have h3 : ¬ i + vs.length ≤ j := by omega
    simp [h1, h2, h3]
  · have h2 : i ≤ j := by omega
    by_cases h3 : j < i + vs.length
    · have h4 : ¬ i + vs.length ≤ j := by omega
      simp [h1, h2, h3, h4]
    · have h4 : i + vs.length ≤ j := by omega
      have h5 : vs[j - i]? = none := List.getElem?_eq_none (by omega)
      simp [h1, h2, h3, h4, h5]

theorem Cells.find_none_of_lt {c : Cells} {j : Nat} (h : ∀ p ∈ c, j < p.1) : Cells.find c j = none := by
  induction c with
  | nil => rfl
  | cons p c ih =>
    obtain ⟨a, v⟩ := p
    have ha : j < a := h (a, v) (by simp)
    simp only [Cells.find, if_neg (show ¬ a = j by omega)]
    exact ih (fun q hq => h q (List.mem_cons_of_mem _ hq))

theorem Cells.mem_store {c : Cells} {i : Nat} {w : Word} {p : Nat × Word} (h : p ∈ Cells.store c i w) :
    p = (i, w) ∨ p ∈ c := by
  induction c with
  | nil => simpa [Cells.store] using h
  | cons q c ih =>
    obtain ⟨a, v⟩ := q
    simp only [Cells.store] at h
    split at h
    · simpa using h
    · split at h
      · rcases List.mem_cons.mp h with h | h
        · exact .inl h
        · exact .inr (List.mem_cons_of_mem _ h)
      · rcases List.mem_cons.mp h with h | h
        · exact .inr (by simp [h])
        · rcases ih h with h | h
          · exact .inl h
          · exact .inr (List.mem_cons_of_mem _ h)

theorem Cells.wf_store {c : Cells} (h : Cells.wf c) (i : Nat) (w : Word) : Cells.wf (Cells.store c i w) := by
  unfold Cells.wf at *
  induction c with
  | nil => simp [Cells.store]
  | cons q c ih =>
    obtain ⟨a, v⟩ := q
    obtain ⟨h1, h2⟩ := List.pairwise_cons.mp h
    simp only [Cells.store]
    split
    · rename_i hi
      refine List.pairwise_cons.mpr ⟨fun p hp => ?_, h⟩
      rcases List.mem_cons.mp hp with rfl | hp
      · exact hi
      · exact Nat.lt_trans hi (h1 p hp)
    · split
      · rename_i e; subst e
        exact List.pairwise_cons.mpr ⟨h1, h2⟩
      · refine List.pairwise_cons.mpr ⟨fun p hp => ?_, ih h2⟩
        rcases Cells.mem_store hp with rfl | hp
        · show a < i
          omega
        · exact h1 p hp

theorem Cells.mem_block {vs : List Word} {i : Nat} {p : Nat × Word} (h : p ∈ Cells.block i vs) :
    i ≤ p.1 ∧ p.1 < i + vs.length := by
  induction vs generalizing i with
  | nil => simp [Cells.block] at h
  | cons v vs ih =>
    rcases List.mem_cons.mp h with rfl | h
    · simp
    · have := ih h
      simp only [List.length_cons]
      omega

theorem Cells.wf_block (i : Nat) (vs : List Word) : Cells.wf (Cells.block i vs) := by
  unfold Cells.wf
  induction vs generalizing i with
  | nil => exact List.Pairwise.nil
  | cons v vs ih =>
    refine List.pairwise_cons.mpr ⟨fun p hp => ?_, ih (i + 1)⟩
    have := Cells.mem_block hp
    show i < p.1
    omega

theorem Cells.wf_splice {c : Cells} (h : Cells.wf c) (i : Nat) (vs : List Word) : Cells.wf (Cells.splice c i vs) := by
  unfold Cells.wf Cells.splice
  refine List.pairwise_append.mpr ⟨h.filter _, List.pairwise_append.mpr ⟨Cells.wf_block i vs, h.filter _, ?_⟩, ?_⟩
  · intro p hp q hq
    have h1 := Cells.mem_block hp
    have h2 := (List.mem_filter.mp hq).2
    simp only [Nat.ble_eq] at h2
    omega
  · intro p hp q hq
    have h1 := (List.mem_filter.mp hp).2
    simp only [Nat.blt_eq] at h1
    rcases List.mem_append.mp hq with hq | hq
    · have := Cells.mem_block hq
      omega
    · have h2 := (List.mem_filter.mp hq).2
      simp only [Nat.ble_eq] at h2
      omega

/-! ## Words of the memory after each operation -/

theorem Memory.cells_setCells (m : Memory) (b b' : Bank) (c : Cells) :
    (m.setCells b c).cells b' = if b' = b then c else m.cells b' := by
  unfold Memory.cells Memory.setCells
  by_cases h : b' = b
  · subst h; simp
  · have hp : b.pos ≠ b'.pos := fun e => h (Bank.pos_inj e).symm
    have hv : (b.pos : Nat) ≠ (b'.pos : Nat) := fun e => hp (Fin.ext e)
    simp [h, hv]

@[simp] theorem Memory.word_write (m : Memory) (b b' : Bank) (i j : Nat) (w : Word) :
    (m.write b i w).word b' j = if b' = b ∧ j = i then some w else m.word b' j := by
  unfold Memory.write Memory.word
  rw [Memory.cells_setCells]
  by_cases h : b' = b
  · subst h; simp [Cells.find_store]
  · simp [h]

@[simp] theorem Memory.word_storeAt (m : Memory) (b b' : Bank) (i j : Nat) (vs : List Word) :
    (m.storeAt b i vs).word b' j = if b' = b ∧ i ≤ j ∧ j < i + vs.length then vs[j - i]? else m.word b' j := by
  unfold Memory.storeAt Memory.word
  rw [Memory.cells_setCells]
  by_cases h : b' = b
  · subst h; simp [Cells.find_splice]
  · simp [h]

@[simp] theorem Memory.word_clear (m : Memory) (b b' : Bank) (n j : Nat) :
    (m.clear b n).word b' j = if b' = b then (if j < n then some Fp.zero else none) else m.word b' j := by
  unfold Memory.clear Memory.word
  rw [Memory.cells_setCells]
  by_cases h : b' = b
  · subst h
    simp only [if_true, Cells.find_block, Nat.zero_le, Nat.sub_zero, List.getElem?_replicate]
  · simp [h]

@[simp] theorem Memory.word_empty (b : Bank) (i : Nat) : Memory.empty.word b i = none := by
  simp [Memory.word, Memory.cells, Memory.empty, Cells.find]

/-! ## The canonical form -/

theorem Memory.wf_setCells {m : Memory} (h : m.wf) (b : Bank) {c : Cells} (hc : Cells.wf c) : (m.setCells b c).wf := by
  intro i
  have e : (m.setCells b c).banks[i] = if b.pos = i then c else m.banks[i] := by
    simp [Memory.setCells, Vector.getElem_set, Fin.ext_iff]
  rw [e]
  split
  · exact hc
  · exact h i

theorem Memory.wf_cells {m : Memory} (h : m.wf) (b : Bank) : Cells.wf (m.cells b) := h b.pos

theorem Memory.wf_write {m : Memory} (h : m.wf) (b : Bank) (i : Nat) (w : Word) : (m.write b i w).wf :=
  Memory.wf_setCells h b (Cells.wf_store (Memory.wf_cells h b) i w)

theorem Memory.wf_storeAt {m : Memory} (h : m.wf) (b : Bank) (i : Nat) (vs : List Word) : (m.storeAt b i vs).wf :=
  Memory.wf_setCells h b (Cells.wf_splice (Memory.wf_cells h b) i vs)

theorem Memory.wf_clear {m : Memory} (h : m.wf) (b : Bank) (n : Nat) : (m.clear b n).wf :=
  Memory.wf_setCells h b (Cells.wf_block 0 _)

theorem Memory.wf_empty : Memory.empty.wf := by
  intro i
  have e : Memory.empty.banks[i] = [] := by simp [Memory.empty]
  rw [e]
  exact List.Pairwise.nil

/-- Equal contents are equal data: two memories in the canonical form with the same words are equal. -/
theorem Cells.ext_of_find {c d : Cells} (hc : Cells.wf c) (hd : Cells.wf d)
    (h : ∀ i, Cells.find c i = Cells.find d i) : c = d := by
  induction c generalizing d with
  | nil =>
    cases d with
    | nil => rfl
    | cons q d => obtain ⟨b, u⟩ := q; simpa [Cells.find] using h b
  | cons p c ih =>
    obtain ⟨a, v⟩ := p
    obtain ⟨hc1, hc2⟩ := List.pairwise_cons.mp hc
    cases d with
    | nil => simpa [Cells.find] using h a
    | cons q d =>
      obtain ⟨b, u⟩ := q
      obtain ⟨hd1, hd2⟩ := List.pairwise_cons.mp hd
      have hab : a = b := by
        rcases Nat.lt_trichotomy a b with hlt | heq | hgt
        · have := h a
          rw [Cells.find_none_of_lt (c := (b, u) :: d)
            (fun q hq => by
              rcases List.mem_cons.mp hq with rfl | hq
              · exact hlt
              · exact Nat.lt_trans hlt (hd1 q hq))] at this
          simp [Cells.find] at this
        · exact heq
        · have := h b
          rw [Cells.find_none_of_lt (c := (a, v) :: c)
            (fun q hq => by
              rcases List.mem_cons.mp hq with rfl | hq
              · exact hgt
              · exact Nat.lt_trans hgt (hc1 q hq))] at this
          simp [Cells.find] at this
      subst hab
      have huv : v = u := by simpa [Cells.find] using h a
      subst huv
      have : c = d := ih hc2 hd2 (fun i => by
        by_cases hi : a = i
        · subst hi
          rw [Cells.find_none_of_lt hc1, Cells.find_none_of_lt hd1]
        · simpa [Cells.find, hi] using h i)
      rw [this]

/-! ## Reads -/

theorem Memory.read_eq_ok {m : Memory} {b : Bank} {i : Nat} {v : Word} :
    m.read b i = .ok v ↔ m.word b i = some v := by
  unfold Memory.read
  cases m.word b i <;> simp

theorem Memory.read_eq_error {m : Memory} {b : Bank} {i : Nat} {f : Fault} :
    m.read b i = .error f ↔ f = .unwritten ∧ m.word b i = none := by
  unfold Memory.read
  cases m.word b i <;> simp [eq_comm]

/-- When a block read answers: every word of the block has been written, and the answer lists them. -/
theorem Memory.load_eq_ok {m : Memory} {b : Bank} {i n : Nat} {vs : List Word} :
    m.load b i n = .ok vs ↔ vs.length = n ∧ ∀ k, k < n → m.word b (i + k) = vs[k]? := by
  induction n generalizing i vs with
  | zero =>
    simp only [Memory.load, Except.ok.injEq, Nat.not_lt_zero, false_implies, implies_true, and_true]
    constructor
    · rintro rfl; rfl
    · exact fun h => (List.length_eq_zero_iff.mp h).symm
  | succ n ih =>
    simp only [Memory.load]
    cases hr : m.read b i with
    | error f =>
      have := (Memory.read_eq_error.mp hr).2
      simp only [bind, Except.bind, reduceCtorEq, false_iff]
      rintro ⟨hl, h⟩
      have h0 := h 0 (Nat.succ_pos n)
      rw [Nat.add_zero, this] at h0
      have : vs = [] := by
        cases vs with
        | nil => rfl
        | cons v vs => simp at h0
      subst this
      simp at hl
    | ok v =>
      have hv := Memory.read_eq_ok.mp hr
      simp only [bind, Except.bind]
      cases hl : Memory.load m b (i + 1) n with
      | error f =>
        simp only [reduceCtorEq, false_iff]
        rintro ⟨hlen, h⟩
        cases vs with
        | nil => simp at hlen
        | cons u us =>
          have : Memory.load m b (i + 1) n = .ok us :=
            ih.mpr ⟨by simpa using hlen, fun k hk => by
              have := h (k + 1) (by omega)
              simpa [Nat.add_assoc, Nat.add_comm 1 k] using this⟩
          rw [hl] at this
          exact absurd this (by simp)
      | ok us =>
        obtain ⟨hlen, hw⟩ := ih.mp hl
        simp only [Except.ok.injEq]
        constructor
        · rintro rfl
          refine ⟨by simp [hlen], fun k hk => ?_⟩
          cases k with
          | zero => simpa using hv
          | succ k =>
            have := hw k (by omega)
            simpa [Nat.add_assoc, Nat.add_comm 1 k] using this
        · rintro ⟨hlen', h⟩
          cases vs with
          | nil => simp at hlen'
          | cons u ws =>
            have hu : v = u := by
              have := h 0 (Nat.succ_pos n)
              rw [Nat.add_zero, hv] at this
              simpa using this
            have : Memory.load m b (i + 1) n = .ok ws :=
              ih.mpr ⟨by simpa using hlen', fun k hk => by
                have := h (k + 1) (by omega)
                simpa [Nat.add_assoc, Nat.add_comm 1 k] using this⟩
            rw [hl] at this
            rw [hu, Except.ok.inj this]

theorem Memory.load_length {m : Memory} {b : Bank} {i n : Nat} {vs : List Word} (h : m.load b i n = .ok vs) :
    vs.length = n := (Memory.load_eq_ok.mp h).1

/-- A block read answers exactly when every word of the block has been written. -/
theorem Memory.load_isOk {m : Memory} {b : Bank} {i n : Nat} :
    (∃ vs, m.load b i n = .ok vs) ↔ ∀ k, k < n → (m.word b (i + k)).isSome = true := by
  constructor
  · rintro ⟨vs, h⟩ k hk
    obtain ⟨hl, hw⟩ := Memory.load_eq_ok.mp h
    rw [hw k hk, List.getElem?_eq_getElem (by omega)]
    rfl
  · intro h
    induction n generalizing i with
    | zero => exact ⟨[], rfl⟩
    | succ n ih =>
      obtain ⟨v, hv⟩ := Option.isSome_iff_exists.mp (h 0 (Nat.succ_pos n))
      obtain ⟨vs, hvs⟩ := ih (i := i + 1) (fun k hk => by
        have := h (k + 1) (by omega)
        simpa [Nat.add_assoc, Nat.add_comm 1 k] using this)
      refine ⟨v :: vs, Memory.load_eq_ok.mpr ⟨by simp [Memory.load_length hvs], fun k hk => ?_⟩⟩
      cases k with
      | zero => simpa using hv
      | succ k =>
        have := (Memory.load_eq_ok.mp hvs).2 k (by omega)
        simpa [Nat.add_assoc, Nat.add_comm 1 k] using this

/-- Every fault of a block read is UNWRITTEN (R62). -/
theorem Memory.load_error {m : Memory} {b : Bank} {i n : Nat} {f : Fault} (h : m.load b i n = .error f) :
    f = .unwritten := by
  induction n generalizing i with
  | zero => simp [Memory.load] at h
  | succ n ih =>
    simp only [Memory.load] at h
    cases hr : m.read b i with
    | error g =>
      rw [hr] at h
      simp only [bind, Except.bind, Except.error.injEq] at h
      rw [← h]
      exact (Memory.read_eq_error.mp hr).1
    | ok v =>
      rw [hr] at h
      simp only [bind, Except.bind] at h
      cases hl : Memory.load m b (i + 1) n with
      | error g =>
        rw [hl] at h
        simp only [Except.error.injEq] at h
        exact ih (h ▸ hl)
      | ok us => rw [hl] at h; simp at h

end Sys2Proof.Machine
end

