-- ==== Sys2Proof/Laws/State.lean ====
section
/-! SUPPORT. One lemma per field per named update of State: which field an update leaves as it was, and what it puts in the
fields it writes. -/

namespace Sys2Proof.Machine

/-! ### fire -/

@[simp] theorem State.fire_cmd (e : Irq) (s : State) : (s.fire e).cmd = s.cmd := rfl
@[simp] theorem State.fire_err (e : Irq) (s : State) : (s.fire e).err = s.err := rfl
@[simp] theorem State.fire_errcode (e : Irq) (s : State) : (s.fire e).errcode = s.errcode := rfl
@[simp] theorem State.fire_clReady (e : Irq) (s : State) : (s.fire e).clReady = s.clReady := rfl
@[simp] theorem State.fire_mapReady (e : Irq) (s : State) : (s.fire e).mapReady = s.mapReady := rfl
@[simp] theorem State.fire_oaReady (e : Irq) (s : State) : (s.fire e).oaReady = s.oaReady := rfl
@[simp] theorem State.fire_symValid (e : Irq) (s : State) : (s.fire e).symValid = s.symValid := rfl
@[simp] theorem State.fire_numeric (e : Irq) (s : State) : (s.fire e).numeric = s.numeric := rfl
@[simp] theorem State.fire_irqEnable (e : Irq) (s : State) : (s.fire e).irqEnable = s.irqEnable := rfl
@[simp] theorem State.fire_din0 (e : Irq) (s : State) : (s.fire e).din0 = s.din0 := rfl
@[simp] theorem State.fire_din1 (e : Irq) (s : State) : (s.fire e).din1 = s.din1 := rfl
@[simp] theorem State.fire_dout0 (e : Irq) (s : State) : (s.fire e).dout0 = s.dout0 := rfl
@[simp] theorem State.fire_dout1 (e : Irq) (s : State) : (s.fire e).dout1 = s.dout1 := rfl
@[simp] theorem State.fire_dout2 (e : Irq) (s : State) : (s.fire e).dout2 = s.dout2 := rfl
@[simp] theorem State.fire_dout3 (e : Irq) (s : State) : (s.fire e).dout3 = s.dout3 := rfl
@[simp] theorem State.fire_ramSel (e : Irq) (s : State) : (s.fire e).ramSel = s.ramSel := rfl
@[simp] theorem State.fire_ramAddr (e : Irq) (s : State) : (s.fire e).ramAddr = s.ramAddr := rfl
@[simp] theorem State.fire_clReg (e : Irq) (s : State) : (s.fire e).clReg = s.clReg := rfl
@[simp] theorem State.fire_mapReg (e : Irq) (s : State) : (s.fire e).mapReg = s.mapReg := rfl
@[simp] theorem State.fire_oaReg (e : Irq) (s : State) : (s.fire e).oaReg = s.oaReg := rfl
@[simp] theorem State.fire_clCfg (e : Irq) (s : State) : (s.fire e).clCfg = s.clCfg := rfl
@[simp] theorem State.fire_mapCfg (e : Irq) (s : State) : (s.fire e).mapCfg = s.mapCfg := rfl
@[simp] theorem State.fire_oaCfg (e : Irq) (s : State) : (s.fire e).oaCfg = s.oaCfg := rfl
@[simp] theorem State.fire_cl (e : Irq) (s : State) : (s.fire e).cl = s.cl := rfl
@[simp] theorem State.fire_elg (e : Irq) (s : State) : (s.fire e).elg = s.elg := rfl
@[simp] theorem State.fire_map (e : Irq) (s : State) : (s.fire e).map = s.map := rfl
@[simp] theorem State.fire_oa (e : Irq) (s : State) : (s.fire e).oa = s.oa := rfl
@[simp] theorem State.fire_mem (e : Irq) (s : State) : (s.fire e).mem = s.mem := rfl
@[simp] theorem State.fire_par (e : Irq) (s : State) : (s.fire e).par = s.par := rfl
@[simp] theorem State.fire_host (e : Irq) (s : State) : (s.fire e).host = s.host := rfl
@[simp] theorem State.fire_freeNext (e : Irq) (s : State) : (s.fire e).freeNext = s.freeNext := rfl

/-! ### ackIrq -/

@[simp] theorem State.ackIrq_cmd (v : Word) (s : State) : (s.ackIrq v).cmd = s.cmd := rfl
@[simp] theorem State.ackIrq_err (v : Word) (s : State) : (s.ackIrq v).err = s.err := rfl
@[simp] theorem State.ackIrq_errcode (v : Word) (s : State) : (s.ackIrq v).errcode = s.errcode := rfl
@[simp] theorem State.ackIrq_clReady (v : Word) (s : State) : (s.ackIrq v).clReady = s.clReady := rfl
@[simp] theorem State.ackIrq_mapReady (v : Word) (s : State) : (s.ackIrq v).mapReady = s.mapReady := rfl
@[simp] theorem State.ackIrq_oaReady (v : Word) (s : State) : (s.ackIrq v).oaReady = s.oaReady := rfl
@[simp] theorem State.ackIrq_symValid (v : Word) (s : State) : (s.ackIrq v).symValid = s.symValid := rfl
@[simp] theorem State.ackIrq_numeric (v : Word) (s : State) : (s.ackIrq v).numeric = s.numeric := rfl
@[simp] theorem State.ackIrq_irqEnable (v : Word) (s : State) : (s.ackIrq v).irqEnable = s.irqEnable := rfl
@[simp] theorem State.ackIrq_din0 (v : Word) (s : State) : (s.ackIrq v).din0 = s.din0 := rfl
@[simp] theorem State.ackIrq_din1 (v : Word) (s : State) : (s.ackIrq v).din1 = s.din1 := rfl
@[simp] theorem State.ackIrq_dout0 (v : Word) (s : State) : (s.ackIrq v).dout0 = s.dout0 := rfl
@[simp] theorem State.ackIrq_dout1 (v : Word) (s : State) : (s.ackIrq v).dout1 = s.dout1 := rfl
@[simp] theorem State.ackIrq_dout2 (v : Word) (s : State) : (s.ackIrq v).dout2 = s.dout2 := rfl
@[simp] theorem State.ackIrq_dout3 (v : Word) (s : State) : (s.ackIrq v).dout3 = s.dout3 := rfl
@[simp] theorem State.ackIrq_ramSel (v : Word) (s : State) : (s.ackIrq v).ramSel = s.ramSel := rfl
@[simp] theorem State.ackIrq_ramAddr (v : Word) (s : State) : (s.ackIrq v).ramAddr = s.ramAddr := rfl
@[simp] theorem State.ackIrq_clReg (v : Word) (s : State) : (s.ackIrq v).clReg = s.clReg := rfl
@[simp] theorem State.ackIrq_mapReg (v : Word) (s : State) : (s.ackIrq v).mapReg = s.mapReg := rfl
@[simp] theorem State.ackIrq_oaReg (v : Word) (s : State) : (s.ackIrq v).oaReg = s.oaReg := rfl
@[simp] theorem State.ackIrq_clCfg (v : Word) (s : State) : (s.ackIrq v).clCfg = s.clCfg := rfl
@[simp] theorem State.ackIrq_mapCfg (v : Word) (s : State) : (s.ackIrq v).mapCfg = s.mapCfg := rfl
@[simp] theorem State.ackIrq_oaCfg (v : Word) (s : State) : (s.ackIrq v).oaCfg = s.oaCfg := rfl
@[simp] theorem State.ackIrq_cl (v : Word) (s : State) : (s.ackIrq v).cl = s.cl := rfl
@[simp] theorem State.ackIrq_elg (v : Word) (s : State) : (s.ackIrq v).elg = s.elg := rfl
@[simp] theorem State.ackIrq_map (v : Word) (s : State) : (s.ackIrq v).map = s.map := rfl
@[simp] theorem State.ackIrq_oa (v : Word) (s : State) : (s.ackIrq v).oa = s.oa := rfl
@[simp] theorem State.ackIrq_mem (v : Word) (s : State) : (s.ackIrq v).mem = s.mem := rfl
@[simp] theorem State.ackIrq_par (v : Word) (s : State) : (s.ackIrq v).par = s.par := rfl
@[simp] theorem State.ackIrq_host (v : Word) (s : State) : (s.ackIrq v).host = s.host := rfl
@[simp] theorem State.ackIrq_freeNext (v : Word) (s : State) : (s.ackIrq v).freeNext = s.freeNext := rfl

/-! ### clearError -/

@[simp] theorem State.clearError_cmd (s : State) : (s.clearError).cmd = s.cmd := rfl
@[simp] theorem State.clearError_clReady (s : State) : (s.clearError).clReady = s.clReady := rfl
@[simp] theorem State.clearError_mapReady (s : State) : (s.clearError).mapReady = s.mapReady := rfl
@[simp] theorem State.clearError_oaReady (s : State) : (s.clearError).oaReady = s.oaReady := rfl
@[simp] theorem State.clearError_symValid (s : State) : (s.clearError).symValid = s.symValid := rfl
@[simp] theorem State.clearError_irqStatus (s : State) : (s.clearError).irqStatus = s.irqStatus := rfl
@[simp] theorem State.clearError_irqEnable (s : State) : (s.clearError).irqEnable = s.irqEnable := rfl
@[simp] theorem State.clearError_din0 (s : State) : (s.clearError).din0 = s.din0 := rfl
@[simp] theorem State.clearError_din1 (s : State) : (s.clearError).din1 = s.din1 := rfl
@[simp] theorem State.clearError_dout0 (s : State) : (s.clearError).dout0 = s.dout0 := rfl
@[simp] theorem State.clearError_dout1 (s : State) : (s.clearError).dout1 = s.dout1 := rfl
@[simp] theorem State.clearError_dout2 (s : State) : (s.clearError).dout2 = s.dout2 := rfl
@[simp] theorem State.clearError_dout3 (s : State) : (s.clearError).dout3 = s.dout3 := rfl
@[simp] theorem State.clearError_ramSel (s : State) : (s.clearError).ramSel = s.ramSel := rfl
@[simp] theorem State.clearError_ramAddr (s : State) : (s.clearError).ramAddr = s.ramAddr := rfl
@[simp] theorem State.clearError_clReg (s : State) : (s.clearError).clReg = s.clReg := rfl
@[simp] theorem State.clearError_mapReg (s : State) : (s.clearError).mapReg = s.mapReg := rfl
@[simp] theorem State.clearError_oaReg (s : State) : (s.clearError).oaReg = s.oaReg := rfl
@[simp] theorem State.clearError_clCfg (s : State) : (s.clearError).clCfg = s.clCfg := rfl
@[simp] theorem State.clearError_mapCfg (s : State) : (s.clearError).mapCfg = s.mapCfg := rfl
@[simp] theorem State.clearError_oaCfg (s : State) : (s.clearError).oaCfg = s.oaCfg := rfl
@[simp] theorem State.clearError_cl (s : State) : (s.clearError).cl = s.cl := rfl
@[simp] theorem State.clearError_elg (s : State) : (s.clearError).elg = s.elg := rfl
@[simp] theorem State.clearError_map (s : State) : (s.clearError).map = s.map := rfl
@[simp] theorem State.clearError_oa (s : State) : (s.clearError).oa = s.oa := rfl
@[simp] theorem State.clearError_mem (s : State) : (s.clearError).mem = s.mem := rfl
@[simp] theorem State.clearError_par (s : State) : (s.clearError).par = s.par := rfl
@[simp] theorem State.clearError_host (s : State) : (s.clearError).host = s.host := rfl
@[simp] theorem State.clearError_freeNext (s : State) : (s.clearError).freeNext = s.freeNext := rfl

/-! ### guard -/

@[simp] theorem State.guard_cmd (s : State) : (s.guard).cmd = s.cmd := rfl
@[simp] theorem State.guard_err (s : State) : (s.guard).err = s.err := rfl
@[simp] theorem State.guard_errcode (s : State) : (s.guard).errcode = s.errcode := rfl
@[simp] theorem State.guard_clReady (s : State) : (s.guard).clReady = s.clReady := rfl
@[simp] theorem State.guard_mapReady (s : State) : (s.guard).mapReady = s.mapReady := rfl
@[simp] theorem State.guard_oaReady (s : State) : (s.guard).oaReady = s.oaReady := rfl
@[simp] theorem State.guard_symValid (s : State) : (s.guard).symValid = s.symValid := rfl
@[simp] theorem State.guard_irqEnable (s : State) : (s.guard).irqEnable = s.irqEnable := rfl
@[simp] theorem State.guard_din0 (s : State) : (s.guard).din0 = s.din0 := rfl
@[simp] theorem State.guard_din1 (s : State) : (s.guard).din1 = s.din1 := rfl
@[simp] theorem State.guard_dout0 (s : State) : (s.guard).dout0 = s.dout0 := rfl
@[simp] theorem State.guard_dout1 (s : State) : (s.guard).dout1 = s.dout1 := rfl
@[simp] theorem State.guard_dout2 (s : State) : (s.guard).dout2 = s.dout2 := rfl
@[simp] theorem State.guard_dout3 (s : State) : (s.guard).dout3 = s.dout3 := rfl
@[simp] theorem State.guard_ramSel (s : State) : (s.guard).ramSel = s.ramSel := rfl
@[simp] theorem State.guard_ramAddr (s : State) : (s.guard).ramAddr = s.ramAddr := rfl
@[simp] theorem State.guard_clReg (s : State) : (s.guard).clReg = s.clReg := rfl
@[simp] theorem State.guard_mapReg (s : State) : (s.guard).mapReg = s.mapReg := rfl
@[simp] theorem State.guard_oaReg (s : State) : (s.guard).oaReg = s.oaReg := rfl
@[simp] theorem State.guard_clCfg (s : State) : (s.guard).clCfg = s.clCfg := rfl
@[simp] theorem State.guard_mapCfg (s : State) : (s.guard).mapCfg = s.mapCfg := rfl
@[simp] theorem State.guard_oaCfg (s : State) : (s.guard).oaCfg = s.oaCfg := rfl
@[simp] theorem State.guard_cl (s : State) : (s.guard).cl = s.cl := rfl
@[simp] theorem State.guard_elg (s : State) : (s.guard).elg = s.elg := rfl
@[simp] theorem State.guard_map (s : State) : (s.guard).map = s.map := rfl
@[simp] theorem State.guard_oa (s : State) : (s.guard).oa = s.oa := rfl
@[simp] theorem State.guard_mem (s : State) : (s.guard).mem = s.mem := rfl
@[simp] theorem State.guard_par (s : State) : (s.guard).par = s.par := rfl
@[simp] theorem State.guard_host (s : State) : (s.guard).host = s.host := rfl
@[simp] theorem State.guard_freeNext (s : State) : (s.guard).freeNext = s.freeNext := rfl

/-! ### complete -/

@[simp] theorem State.complete_err (s : State) : (s.complete).err = s.err := rfl
@[simp] theorem State.complete_errcode (s : State) : (s.complete).errcode = s.errcode := rfl
@[simp] theorem State.complete_clReady (s : State) : (s.complete).clReady = s.clReady := rfl
@[simp] theorem State.complete_mapReady (s : State) : (s.complete).mapReady = s.mapReady := rfl
@[simp] theorem State.complete_oaReady (s : State) : (s.complete).oaReady = s.oaReady := rfl
@[simp] theorem State.complete_symValid (s : State) : (s.complete).symValid = s.symValid := rfl
@[simp] theorem State.complete_numeric (s : State) : (s.complete).numeric = s.numeric := rfl
@[simp] theorem State.complete_irqEnable (s : State) : (s.complete).irqEnable = s.irqEnable := rfl
@[simp] theorem State.complete_din0 (s : State) : (s.complete).din0 = s.din0 := rfl
@[simp] theorem State.complete_din1 (s : State) : (s.complete).din1 = s.din1 := rfl
@[simp] theorem State.complete_dout0 (s : State) : (s.complete).dout0 = s.dout0 := rfl
@[simp] theorem State.complete_dout1 (s : State) : (s.complete).dout1 = s.dout1 := rfl
@[simp] theorem State.complete_dout2 (s : State) : (s.complete).dout2 = s.dout2 := rfl
@[simp] theorem State.complete_dout3 (s : State) : (s.complete).dout3 = s.dout3 := rfl
@[simp] theorem State.complete_ramSel (s : State) : (s.complete).ramSel = s.ramSel := rfl
@[simp] theorem State.complete_ramAddr (s : State) : (s.complete).ramAddr = s.ramAddr := rfl
@[simp] theorem State.complete_clReg (s : State) : (s.complete).clReg = s.clReg := rfl
@[simp] theorem State.complete_mapReg (s : State) : (s.complete).mapReg = s.mapReg := rfl
@[simp] theorem State.complete_oaReg (s : State) : (s.complete).oaReg = s.oaReg := rfl
@[simp] theorem State.complete_clCfg (s : State) : (s.complete).clCfg = s.clCfg := rfl
@[simp] theorem State.complete_mapCfg (s : State) : (s.complete).mapCfg = s.mapCfg := rfl
@[simp] theorem State.complete_oaCfg (s : State) : (s.complete).oaCfg = s.oaCfg := rfl
@[simp] theorem State.complete_cl (s : State) : (s.complete).cl = s.cl := rfl
@[simp] theorem State.complete_elg (s : State) : (s.complete).elg = s.elg := rfl
@[simp] theorem State.complete_map (s : State) : (s.complete).map = s.map := rfl
@[simp] theorem State.complete_oa (s : State) : (s.complete).oa = s.oa := rfl
@[simp] theorem State.complete_mem (s : State) : (s.complete).mem = s.mem := rfl
@[simp] theorem State.complete_par (s : State) : (s.complete).par = s.par := rfl
@[simp] theorem State.complete_host (s : State) : (s.complete).host = s.host := rfl
@[simp] theorem State.complete_freeNext (s : State) : (s.complete).freeNext = s.freeNext := rfl

/-! ### record -/

@[simp] theorem State.record_cmd (v : Word) (s : State) : (s.record v).cmd = s.cmd := rfl
@[simp] theorem State.record_err (v : Word) (s : State) : (s.record v).err = s.err := rfl
@[simp] theorem State.record_errcode (v : Word) (s : State) : (s.record v).errcode = s.errcode := rfl
@[simp] theorem State.record_clReady (v : Word) (s : State) : (s.record v).clReady = s.clReady := rfl
@[simp] theorem State.record_mapReady (v : Word) (s : State) : (s.record v).mapReady = s.mapReady := rfl
@[simp] theorem State.record_oaReady (v : Word) (s : State) : (s.record v).oaReady = s.oaReady := rfl
@[simp] theorem State.record_symValid (v : Word) (s : State) : (s.record v).symValid = s.symValid := rfl
@[simp] theorem State.record_numeric (v : Word) (s : State) : (s.record v).numeric = s.numeric := rfl
@[simp] theorem State.record_irqStatus (v : Word) (s : State) : (s.record v).irqStatus = s.irqStatus := rfl
@[simp] theorem State.record_irqEnable (v : Word) (s : State) : (s.record v).irqEnable = s.irqEnable := rfl
@[simp] theorem State.record_din0 (v : Word) (s : State) : (s.record v).din0 = s.din0 := rfl
@[simp] theorem State.record_din1 (v : Word) (s : State) : (s.record v).din1 = s.din1 := rfl
@[simp] theorem State.record_dout0 (v : Word) (s : State) : (s.record v).dout0 = s.dout0 := rfl
@[simp] theorem State.record_dout1 (v : Word) (s : State) : (s.record v).dout1 = s.dout1 := rfl
@[simp] theorem State.record_dout2 (v : Word) (s : State) : (s.record v).dout2 = s.dout2 := rfl
@[simp] theorem State.record_dout3 (v : Word) (s : State) : (s.record v).dout3 = s.dout3 := rfl
@[simp] theorem State.record_ramSel (v : Word) (s : State) : (s.record v).ramSel = s.ramSel := rfl
@[simp] theorem State.record_ramAddr (v : Word) (s : State) : (s.record v).ramAddr = s.ramAddr := rfl
@[simp] theorem State.record_clReg (v : Word) (s : State) : (s.record v).clReg = s.clReg := rfl
@[simp] theorem State.record_mapReg (v : Word) (s : State) : (s.record v).mapReg = s.mapReg := rfl
@[simp] theorem State.record_oaReg (v : Word) (s : State) : (s.record v).oaReg = s.oaReg := rfl
@[simp] theorem State.record_clCfg (v : Word) (s : State) : (s.record v).clCfg = s.clCfg := rfl
@[simp] theorem State.record_mapCfg (v : Word) (s : State) : (s.record v).mapCfg = s.mapCfg := rfl
@[simp] theorem State.record_oaCfg (v : Word) (s : State) : (s.record v).oaCfg = s.oaCfg := rfl
@[simp] theorem State.record_cl (v : Word) (s : State) : (s.record v).cl = s.cl := rfl
@[simp] theorem State.record_elg (v : Word) (s : State) : (s.record v).elg = s.elg := rfl
@[simp] theorem State.record_map (v : Word) (s : State) : (s.record v).map = s.map := rfl
@[simp] theorem State.record_oa (v : Word) (s : State) : (s.record v).oa = s.oa := rfl
@[simp] theorem State.record_mem (v : Word) (s : State) : (s.record v).mem = s.mem := rfl
@[simp] theorem State.record_par (v : Word) (s : State) : (s.record v).par = s.par := rfl
@[simp] theorem State.record_freeNext (v : Word) (s : State) : (s.record v).freeNext = s.freeNext := rfl

/-! ### spendLag -/

@[simp] theorem State.spendLag_cmd (s : State) : (s.spendLag).cmd = s.cmd := rfl
@[simp] theorem State.spendLag_err (s : State) : (s.spendLag).err = s.err := rfl
@[simp] theorem State.spendLag_errcode (s : State) : (s.spendLag).errcode = s.errcode := rfl
@[simp] theorem State.spendLag_clReady (s : State) : (s.spendLag).clReady = s.clReady := rfl
@[simp] theorem State.spendLag_mapReady (s : State) : (s.spendLag).mapReady = s.mapReady := rfl
@[simp] theorem State.spendLag_oaReady (s : State) : (s.spendLag).oaReady = s.oaReady := rfl
@[simp] theorem State.spendLag_symValid (s : State) : (s.spendLag).symValid = s.symValid := rfl
@[simp] theorem State.spendLag_numeric (s : State) : (s.spendLag).numeric = s.numeric := rfl
@[simp] theorem State.spendLag_irqStatus (s : State) : (s.spendLag).irqStatus = s.irqStatus := rfl
@[simp] theorem State.spendLag_irqEnable (s : State) : (s.spendLag).irqEnable = s.irqEnable := rfl
@[simp] theorem State.spendLag_din0 (s : State) : (s.spendLag).din0 = s.din0 := rfl
@[simp] theorem State.spendLag_din1 (s : State) : (s.spendLag).din1 = s.din1 := rfl
@[simp] theorem State.spendLag_dout0 (s : State) : (s.spendLag).dout0 = s.dout0 := rfl
@[simp] theorem State.spendLag_dout1 (s : State) : (s.spendLag).dout1 = s.dout1 := rfl
@[simp] theorem State.spendLag_dout2 (s : State) : (s.spendLag).dout2 = s.dout2 := rfl
@[simp] theorem State.spendLag_dout3 (s : State) : (s.spendLag).dout3 = s.dout3 := rfl
@[simp] theorem State.spendLag_ramSel (s : State) : (s.spendLag).ramSel = s.ramSel := rfl
@[simp] theorem State.spendLag_ramAddr (s : State) : (s.spendLag).ramAddr = s.ramAddr := rfl
@[simp] theorem State.spendLag_clReg (s : State) : (s.spendLag).clReg = s.clReg := rfl
@[simp] theorem State.spendLag_mapReg (s : State) : (s.spendLag).mapReg = s.mapReg := rfl
@[simp] theorem State.spendLag_oaReg (s : State) : (s.spendLag).oaReg = s.oaReg := rfl
@[simp] theorem State.spendLag_clCfg (s : State) : (s.spendLag).clCfg = s.clCfg := rfl
@[simp] theorem State.spendLag_mapCfg (s : State) : (s.spendLag).mapCfg = s.mapCfg := rfl
@[simp] theorem State.spendLag_oaCfg (s : State) : (s.spendLag).oaCfg = s.oaCfg := rfl
@[simp] theorem State.spendLag_cl (s : State) : (s.spendLag).cl = s.cl := rfl
@[simp] theorem State.spendLag_elg (s : State) : (s.spendLag).elg = s.elg := rfl
@[simp] theorem State.spendLag_map (s : State) : (s.spendLag).map = s.map := rfl
@[simp] theorem State.spendLag_oa (s : State) : (s.spendLag).oa = s.oa := rfl
@[simp] theorem State.spendLag_mem (s : State) : (s.spendLag).mem = s.mem := rfl
@[simp] theorem State.spendLag_par (s : State) : (s.spendLag).par = s.par := rfl
@[simp] theorem State.spendLag_freeNext (s : State) : (s.spendLag).freeNext = s.freeNext := rfl

/-! ### withPending -/

@[simp] theorem State.withPending_err (s : State) (w : Word) : (s.withPending w).err = s.err := rfl
@[simp] theorem State.withPending_errcode (s : State) (w : Word) : (s.withPending w).errcode = s.errcode := rfl
@[simp] theorem State.withPending_clReady (s : State) (w : Word) : (s.withPending w).clReady = s.clReady := rfl
@[simp] theorem State.withPending_mapReady (s : State) (w : Word) : (s.withPending w).mapReady = s.mapReady := rfl
@[simp] theorem State.withPending_oaReady (s : State) (w : Word) : (s.withPending w).oaReady = s.oaReady := rfl
@[simp] theorem State.withPending_symValid (s : State) (w : Word) : (s.withPending w).symValid = s.symValid := rfl
@[simp] theorem State.withPending_numeric (s : State) (w : Word) : (s.withPending w).numeric = s.numeric := rfl
@[simp] theorem State.withPending_irqStatus (s : State) (w : Word) : (s.withPending w).irqStatus = s.irqStatus := rfl
@[simp] theorem State.withPending_irqEnable (s : State) (w : Word) : (s.withPending w).irqEnable = s.irqEnable := rfl
@[simp] theorem State.withPending_din0 (s : State) (w : Word) : (s.withPending w).din0 = s.din0 := rfl
@[simp] theorem State.withPending_din1 (s : State) (w : Word) : (s.withPending w).din1 = s.din1 := rfl
@[simp] theorem State.withPending_dout0 (s : State) (w : Word) : (s.withPending w).dout0 = s.dout0 := rfl
@[simp] theorem State.withPending_dout1 (s : State) (w : Word) : (s.withPending w).dout1 = s.dout1 := rfl
@[simp] theorem State.withPending_dout2 (s : State) (w : Word) : (s.withPending w).dout2 = s.dout2 := rfl
@[simp] theorem State.withPending_dout3 (s : State) (w : Word) : (s.withPending w).dout3 = s.dout3 := rfl
@[simp] theorem State.withPending_ramSel (s : State) (w : Word) : (s.withPending w).ramSel = s.ramSel := rfl
@[simp] theorem State.withPending_ramAddr (s : State) (w : Word) : (s.withPending w).ramAddr = s.ramAddr := rfl
@[simp] theorem State.withPending_clReg (s : State) (w : Word) : (s.withPending w).clReg = s.clReg := rfl
@[simp] theorem State.withPending_mapReg (s : State) (w : Word) : (s.withPending w).mapReg = s.mapReg := rfl
@[simp] theorem State.withPending_oaReg (s : State) (w : Word) : (s.withPending w).oaReg = s.oaReg := rfl
@[simp] theorem State.withPending_clCfg (s : State) (w : Word) : (s.withPending w).clCfg = s.clCfg := rfl
@[simp] theorem State.withPending_mapCfg (s : State) (w : Word) : (s.withPending w).mapCfg = s.mapCfg := rfl
@[simp] theorem State.withPending_oaCfg (s : State) (w : Word) : (s.withPending w).oaCfg = s.oaCfg := rfl
@[simp] theorem State.withPending_cl (s : State) (w : Word) : (s.withPending w).cl = s.cl := rfl
@[simp] theorem State.withPending_elg (s : State) (w : Word) : (s.withPending w).elg = s.elg := rfl
@[simp] theorem State.withPending_map (s : State) (w : Word) : (s.withPending w).map = s.map := rfl
@[simp] theorem State.withPending_oa (s : State) (w : Word) : (s.withPending w).oa = s.oa := rfl
@[simp] theorem State.withPending_mem (s : State) (w : Word) : (s.withPending w).mem = s.mem := rfl
@[simp] theorem State.withPending_par (s : State) (w : Word) : (s.withPending w).par = s.par := rfl
@[simp] theorem State.withPending_freeNext (s : State) (w : Word) : (s.withPending w).freeNext = s.freeNext := rfl

/-! ### frameFull -/

@[simp] theorem State.frameFull_cmd (s : State) : (s.frameFull).cmd = s.cmd := rfl
@[simp] theorem State.frameFull_err (s : State) : (s.frameFull).err = s.err := rfl
@[simp] theorem State.frameFull_errcode (s : State) : (s.frameFull).errcode = s.errcode := rfl
@[simp] theorem State.frameFull_clReady (s : State) : (s.frameFull).clReady = s.clReady := rfl
@[simp] theorem State.frameFull_mapReady (s : State) : (s.frameFull).mapReady = s.mapReady := rfl
@[simp] theorem State.frameFull_oaReady (s : State) : (s.frameFull).oaReady = s.oaReady := rfl
@[simp] theorem State.frameFull_symValid (s : State) : (s.frameFull).symValid = s.symValid := rfl
@[simp] theorem State.frameFull_numeric (s : State) : (s.frameFull).numeric = s.numeric := rfl
@[simp] theorem State.frameFull_irqEnable (s : State) : (s.frameFull).irqEnable = s.irqEnable := rfl
@[simp] theorem State.frameFull_din0 (s : State) : (s.frameFull).din0 = s.din0 := rfl
@[simp] theorem State.frameFull_din1 (s : State) : (s.frameFull).din1 = s.din1 := rfl
@[simp] theorem State.frameFull_dout0 (s : State) : (s.frameFull).dout0 = s.dout0 := rfl
@[simp] theorem State.frameFull_dout1 (s : State) : (s.frameFull).dout1 = s.dout1 := rfl
@[simp] theorem State.frameFull_dout2 (s : State) : (s.frameFull).dout2 = s.dout2 := rfl
@[simp] theorem State.frameFull_dout3 (s : State) : (s.frameFull).dout3 = s.dout3 := rfl
@[simp] theorem State.frameFull_ramSel (s : State) : (s.frameFull).ramSel = s.ramSel := rfl
@[simp] theorem State.frameFull_ramAddr (s : State) : (s.frameFull).ramAddr = s.ramAddr := rfl
@[simp] theorem State.frameFull_clReg (s : State) : (s.frameFull).clReg = s.clReg := rfl
@[simp] theorem State.frameFull_mapReg (s : State) : (s.frameFull).mapReg = s.mapReg := rfl
@[simp] theorem State.frameFull_oaReg (s : State) : (s.frameFull).oaReg = s.oaReg := rfl
@[simp] theorem State.frameFull_clCfg (s : State) : (s.frameFull).clCfg = s.clCfg := rfl
@[simp] theorem State.frameFull_mapCfg (s : State) : (s.frameFull).mapCfg = s.mapCfg := rfl
@[simp] theorem State.frameFull_oaCfg (s : State) : (s.frameFull).oaCfg = s.oaCfg := rfl
@[simp] theorem State.frameFull_cl (s : State) : (s.frameFull).cl = s.cl := rfl
@[simp] theorem State.frameFull_elg (s : State) : (s.frameFull).elg = s.elg := rfl
@[simp] theorem State.frameFull_map (s : State) : (s.frameFull).map = s.map := rfl
@[simp] theorem State.frameFull_mem (s : State) : (s.frameFull).mem = s.mem := rfl
@[simp] theorem State.frameFull_par (s : State) : (s.frameFull).par = s.par := rfl
@[simp] theorem State.frameFull_host (s : State) : (s.frameFull).host = s.host := rfl
@[simp] theorem State.frameFull_freeNext (s : State) : (s.frameFull).freeNext = s.freeNext := rfl

/-! ### loopf -/

@[simp] theorem State.loopf_cmd (e : F64) (s : State) : (s.loopf e).cmd = s.cmd := rfl
@[simp] theorem State.loopf_err (e : F64) (s : State) : (s.loopf e).err = s.err := rfl
@[simp] theorem State.loopf_errcode (e : F64) (s : State) : (s.loopf e).errcode = s.errcode := rfl
@[simp] theorem State.loopf_clReady (e : F64) (s : State) : (s.loopf e).clReady = s.clReady := rfl
@[simp] theorem State.loopf_mapReady (e : F64) (s : State) : (s.loopf e).mapReady = s.mapReady := rfl
@[simp] theorem State.loopf_oaReady (e : F64) (s : State) : (s.loopf e).oaReady = s.oaReady := rfl
@[simp] theorem State.loopf_symValid (e : F64) (s : State) : (s.loopf e).symValid = s.symValid := rfl
@[simp] theorem State.loopf_numeric (e : F64) (s : State) : (s.loopf e).numeric = s.numeric := rfl
@[simp] theorem State.loopf_irqStatus (e : F64) (s : State) : (s.loopf e).irqStatus = s.irqStatus := rfl
@[simp] theorem State.loopf_irqEnable (e : F64) (s : State) : (s.loopf e).irqEnable = s.irqEnable := rfl
@[simp] theorem State.loopf_din0 (e : F64) (s : State) : (s.loopf e).din0 = s.din0 := rfl
@[simp] theorem State.loopf_din1 (e : F64) (s : State) : (s.loopf e).din1 = s.din1 := rfl
@[simp] theorem State.loopf_dout0 (e : F64) (s : State) : (s.loopf e).dout0 = s.dout0 := rfl
@[simp] theorem State.loopf_dout1 (e : F64) (s : State) : (s.loopf e).dout1 = s.dout1 := rfl
@[simp] theorem State.loopf_dout2 (e : F64) (s : State) : (s.loopf e).dout2 = s.dout2 := rfl
@[simp] theorem State.loopf_dout3 (e : F64) (s : State) : (s.loopf e).dout3 = s.dout3 := rfl
@[simp] theorem State.loopf_ramSel (e : F64) (s : State) : (s.loopf e).ramSel = s.ramSel := rfl
@[simp] theorem State.loopf_ramAddr (e : F64) (s : State) : (s.loopf e).ramAddr = s.ramAddr := rfl
@[simp] theorem State.loopf_clReg (e : F64) (s : State) : (s.loopf e).clReg = s.clReg := rfl
@[simp] theorem State.loopf_mapReg (e : F64) (s : State) : (s.loopf e).mapReg = s.mapReg := rfl
@[simp] theorem State.loopf_oaReg (e : F64) (s : State) : (s.loopf e).oaReg = s.oaReg := rfl
@[simp] theorem State.loopf_clCfg (e : F64) (s : State) : (s.loopf e).clCfg = s.clCfg := rfl
@[simp] theorem State.loopf_mapCfg (e : F64) (s : State) : (s.loopf e).mapCfg = s.mapCfg := rfl
@[simp] theorem State.loopf_oaCfg (e : F64) (s : State) : (s.loopf e).oaCfg = s.oaCfg := rfl
@[simp] theorem State.loopf_elg (e : F64) (s : State) : (s.loopf e).elg = s.elg := rfl
@[simp] theorem State.loopf_map (e : F64) (s : State) : (s.loopf e).map = s.map := rfl
@[simp] theorem State.loopf_oa (e : F64) (s : State) : (s.loopf e).oa = s.oa := rfl
@[simp] theorem State.loopf_mem (e : F64) (s : State) : (s.loopf e).mem = s.mem := rfl
@[simp] theorem State.loopf_par (e : F64) (s : State) : (s.loopf e).par = s.par := rfl
@[simp] theorem State.loopf_host (e : F64) (s : State) : (s.loopf e).host = s.host := rfl
@[simp] theorem State.loopf_freeNext (e : F64) (s : State) : (s.loopf e).freeNext = s.freeNext := rfl

/-! ### pointResults -/

@[simp] theorem State.pointResults_cmd (pt : Point) (p : Nat) (s : State) : (s.pointResults pt p).cmd = s.cmd := rfl
@[simp] theorem State.pointResults_err (pt : Point) (p : Nat) (s : State) : (s.pointResults pt p).err = s.err := rfl
@[simp] theorem State.pointResults_errcode (pt : Point) (p : Nat) (s : State) : (s.pointResults pt p).errcode = s.errcode := rfl
@[simp] theorem State.pointResults_clReady (pt : Point) (p : Nat) (s : State) : (s.pointResults pt p).clReady = s.clReady := rfl
@[simp] theorem State.pointResults_mapReady (pt : Point) (p : Nat) (s : State) : (s.pointResults pt p).mapReady = s.mapReady := rfl
@[simp] theorem State.pointResults_oaReady (pt : Point) (p : Nat) (s : State) : (s.pointResults pt p).oaReady = s.oaReady := rfl
@[simp] theorem State.pointResults_symValid (pt : Point) (p : Nat) (s : State) : (s.pointResults pt p).symValid = s.symValid := rfl
@[simp] theorem State.pointResults_numeric (pt : Point) (p : Nat) (s : State) : (s.pointResults pt p).numeric = s.numeric := rfl
@[simp] theorem State.pointResults_irqStatus (pt : Point) (p : Nat) (s : State) : (s.pointResults pt p).irqStatus = s.irqStatus := rfl
@[simp] theorem State.pointResults_irqEnable (pt : Point) (p : Nat) (s : State) : (s.pointResults pt p).irqEnable = s.irqEnable := rfl
@[simp] theorem State.pointResults_din0 (pt : Point) (p : Nat) (s : State) : (s.pointResults pt p).din0 = s.din0 := rfl
@[simp] theorem State.pointResults_din1 (pt : Point) (p : Nat) (s : State) : (s.pointResults pt p).din1 = s.din1 := rfl
@[simp] theorem State.pointResults_dout3 (pt : Point) (p : Nat) (s : State) : (s.pointResults pt p).dout3 = s.dout3 := rfl
@[simp] theorem State.pointResults_ramSel (pt : Point) (p : Nat) (s : State) : (s.pointResults pt p).ramSel = s.ramSel := rfl
@[simp] theorem State.pointResults_ramAddr (pt : Point) (p : Nat) (s : State) : (s.pointResults pt p).ramAddr = s.ramAddr := rfl
@[simp] theorem State.pointResults_clReg (pt : Point) (p : Nat) (s : State) : (s.pointResults pt p).clReg = s.clReg := rfl
@[simp] theorem State.pointResults_mapReg (pt : Point) (p : Nat) (s : State) : (s.pointResults pt p).mapReg = s.mapReg := rfl
@[simp] theorem State.pointResults_oaReg (pt : Point) (p : Nat) (s : State) : (s.pointResults pt p).oaReg = s.oaReg := rfl
@[simp] theorem State.pointResults_clCfg (pt : Point) (p : Nat) (s : State) : (s.pointResults pt p).clCfg = s.clCfg := rfl
@[simp] theorem State.pointResults_mapCfg (pt : Point) (p : Nat) (s : State) : (s.pointResults pt p).mapCfg = s.mapCfg := rfl
@[simp] theorem State.pointResults_oaCfg (pt : Point) (p : Nat) (s : State) : (s.pointResults pt p).oaCfg = s.oaCfg := rfl
@[simp] theorem State.pointResults_cl (pt : Point) (p : Nat) (s : State) : (s.pointResults pt p).cl = s.cl := rfl
@[simp] theorem State.pointResults_elg (pt : Point) (p : Nat) (s : State) : (s.pointResults pt p).elg = s.elg := rfl
@[simp] theorem State.pointResults_map (pt : Point) (p : Nat) (s : State) : (s.pointResults pt p).map = s.map := rfl
@[simp] theorem State.pointResults_oa (pt : Point) (p : Nat) (s : State) : (s.pointResults pt p).oa = s.oa := rfl
@[simp] theorem State.pointResults_mem (pt : Point) (p : Nat) (s : State) : (s.pointResults pt p).mem = s.mem := rfl
@[simp] theorem State.pointResults_par (pt : Point) (p : Nat) (s : State) : (s.pointResults pt p).par = s.par := rfl
@[simp] theorem State.pointResults_host (pt : Point) (p : Nat) (s : State) : (s.pointResults pt p).host = s.host := rfl
@[simp] theorem State.pointResults_freeNext (pt : Point) (p : Nat) (s : State) : (s.pointResults pt p).freeNext = s.freeNext := rfl

/-! ### raise -/

@[simp] theorem State.raise_cmd (c : ErrCode) (s : State) : (s.raise c).cmd = s.cmd := by
  unfold State.raise; split <;> rfl
@[simp] theorem State.raise_clReady (c : ErrCode) (s : State) : (s.raise c).clReady = s.clReady := by
  unfold State.raise; split <;> rfl
@[simp] theorem State.raise_mapReady (c : ErrCode) (s : State) : (s.raise c).mapReady = s.mapReady := by
  unfold State.raise; split <;> rfl
@[simp] theorem State.raise_oaReady (c : ErrCode) (s : State) : (s.raise c).oaReady = s.oaReady := by
  unfold State.raise; split <;> rfl
@[simp] theorem State.raise_symValid (c : ErrCode) (s : State) : (s.raise c).symValid = s.symValid := by
  unfold State.raise; split <;> rfl
@[simp] theorem State.raise_numeric (c : ErrCode) (s : State) : (s.raise c).numeric = s.numeric := by
  unfold State.raise; split <;> rfl
@[simp] theorem State.raise_irqEnable (c : ErrCode) (s : State) : (s.raise c).irqEnable = s.irqEnable := by
  unfold State.raise; split <;> rfl
@[simp] theorem State.raise_din0 (c : ErrCode) (s : State) : (s.raise c).din0 = s.din0 := by
  unfold State.raise; split <;> rfl
@[simp] theorem State.raise_din1 (c : ErrCode) (s : State) : (s.raise c).din1 = s.din1 := by
  unfold State.raise; split <;> rfl
@[simp] theorem State.raise_dout0 (c : ErrCode) (s : State) : (s.raise c).dout0 = s.dout0 := by
  unfold State.raise; split <;> rfl
@[simp] theorem State.raise_dout1 (c : ErrCode) (s : State) : (s.raise c).dout1 = s.dout1 := by
  unfold State.raise; split <;> rfl
@[simp] theorem State.raise_dout2 (c : ErrCode) (s : State) : (s.raise c).dout2 = s.dout2 := by
  unfold State.raise; split <;> rfl
@[simp] theorem State.raise_dout3 (c : ErrCode) (s : State) : (s.raise c).dout3 = s.dout3 := by
  unfold State.raise; split <;> rfl
@[simp] theorem State.raise_ramSel (c : ErrCode) (s : State) : (s.raise c).ramSel = s.ramSel := by
  unfold State.raise; split <;> rfl
@[simp] theorem State.raise_ramAddr (c : ErrCode) (s : State) : (s.raise c).ramAddr = s.ramAddr := by
  unfold State.raise; split <;> rfl
@[simp] theorem State.raise_clReg (c : ErrCode) (s : State) : (s.raise c).clReg = s.clReg := by
  unfold State.raise; split <;> rfl
@[simp] theorem State.raise_mapReg (c : ErrCode) (s : State) : (s.raise c).mapReg = s.mapReg := by
  unfold State.raise; split <;> rfl
@[simp] theorem State.raise_oaReg (c : ErrCode) (s : State) : (s.raise c).oaReg = s.oaReg := by
  unfold State.raise; split <;> rfl
@[simp] theorem State.raise_clCfg (c : ErrCode) (s : State) : (s.raise c).clCfg = s.clCfg := by
  unfold State.raise; split <;> rfl
@[simp] theorem State.raise_mapCfg (c : ErrCode) (s : State) : (s.raise c).mapCfg = s.mapCfg := by
  unfold State.raise; split <;> rfl
@[simp] theorem State.raise_oaCfg (c : ErrCode) (s : State) : (s.raise c).oaCfg = s.oaCfg := by
  unfold State.raise; split <;> rfl
@[simp] theorem State.raise_cl (c : ErrCode) (s : State) : (s.raise c).cl = s.cl := by
  unfold State.raise; split <;> rfl
@[simp] theorem State.raise_elg (c : ErrCode) (s : State) : (s.raise c).elg = s.elg := by
  unfold State.raise; split <;> rfl
@[simp] theorem State.raise_map (c : ErrCode) (s : State) : (s.raise c).map = s.map := by
  unfold State.raise; split <;> rfl
@[simp] theorem State.raise_oa (c : ErrCode) (s : State) : (s.raise c).oa = s.oa := by
  unfold State.raise; split <;> rfl
@[simp] theorem State.raise_mem (c : ErrCode) (s : State) : (s.raise c).mem = s.mem := by
  unfold State.raise; split <;> rfl
@[simp] theorem State.raise_par (c : ErrCode) (s : State) : (s.raise c).par = s.par := by
  unfold State.raise; split <;> rfl
@[simp] theorem State.raise_host (c : ErrCode) (s : State) : (s.raise c).host = s.host := by
  unfold State.raise; split <;> rfl
@[simp] theorem State.raise_freeNext (c : ErrCode) (s : State) : (s.raise c).freeNext = s.freeNext := by
  unfold State.raise; split <;> rfl

/-! ### wrapGuard -/

@[simp] theorem State.wrapGuard_cmd (v : F64) (s : State) : (s.wrapGuard v).cmd = s.cmd := by
  unfold State.wrapGuard; split <;> rfl
@[simp] theorem State.wrapGuard_err (v : F64) (s : State) : (s.wrapGuard v).err = s.err := by
  unfold State.wrapGuard; split <;> rfl
@[simp] theorem State.wrapGuard_errcode (v : F64) (s : State) : (s.wrapGuard v).errcode = s.errcode := by
  unfold State.wrapGuard; split <;> rfl
@[simp] theorem State.wrapGuard_clReady (v : F64) (s : State) : (s.wrapGuard v).clReady = s.clReady := by
  unfold State.wrapGuard; split <;> rfl
@[simp] theorem State.wrapGuard_mapReady (v : F64) (s : State) : (s.wrapGuard v).mapReady = s.mapReady := by
  unfold State.wrapGuard; split <;> rfl
@[simp] theorem State.wrapGuard_oaReady (v : F64) (s : State) : (s.wrapGuard v).oaReady = s.oaReady := by
  unfold State.wrapGuard; split <;> rfl
@[simp] theorem State.wrapGuard_symValid (v : F64) (s : State) : (s.wrapGuard v).symValid = s.symValid := by
  unfold State.wrapGuard; split <;> rfl
@[simp] theorem State.wrapGuard_irqEnable (v : F64) (s : State) : (s.wrapGuard v).irqEnable = s.irqEnable := by
  unfold State.wrapGuard; split <;> rfl
@[simp] theorem State.wrapGuard_din0 (v : F64) (s : State) : (s.wrapGuard v).din0 = s.din0 := by
  unfold State.wrapGuard; split <;> rfl
@[simp] theorem State.wrapGuard_din1 (v : F64) (s : State) : (s.wrapGuard v).din1 = s.din1 := by
  unfold State.wrapGuard; split <;> rfl
@[simp] theorem State.wrapGuard_dout0 (v : F64) (s : State) : (s.wrapGuard v).dout0 = s.dout0 := by
  unfold State.wrapGuard; split <;> rfl
@[simp] theorem State.wrapGuard_dout1 (v : F64) (s : State) : (s.wrapGuard v).dout1 = s.dout1 := by
  unfold State.wrapGuard; split <;> rfl
@[simp] theorem State.wrapGuard_dout2 (v : F64) (s : State) : (s.wrapGuard v).dout2 = s.dout2 := by
  unfold State.wrapGuard; split <;> rfl
@[simp] theorem State.wrapGuard_dout3 (v : F64) (s : State) : (s.wrapGuard v).dout3 = s.dout3 := by
  unfold State.wrapGuard; split <;> rfl
@[simp] theorem State.wrapGuard_ramSel (v : F64) (s : State) : (s.wrapGuard v).ramSel = s.ramSel := by
  unfold State.wrapGuard; split <;> rfl
@[simp] theorem State.wrapGuard_ramAddr (v : F64) (s : State) : (s.wrapGuard v).ramAddr = s.ramAddr := by
  unfold State.wrapGuard; split <;> rfl
@[simp] theorem State.wrapGuard_clReg (v : F64) (s : State) : (s.wrapGuard v).clReg = s.clReg := by
  unfold State.wrapGuard; split <;> rfl
@[simp] theorem State.wrapGuard_mapReg (v : F64) (s : State) : (s.wrapGuard v).mapReg = s.mapReg := by
  unfold State.wrapGuard; split <;> rfl
@[simp] theorem State.wrapGuard_oaReg (v : F64) (s : State) : (s.wrapGuard v).oaReg = s.oaReg := by
  unfold State.wrapGuard; split <;> rfl
@[simp] theorem State.wrapGuard_clCfg (v : F64) (s : State) : (s.wrapGuard v).clCfg = s.clCfg := by
  unfold State.wrapGuard; split <;> rfl
@[simp] theorem State.wrapGuard_mapCfg (v : F64) (s : State) : (s.wrapGuard v).mapCfg = s.mapCfg := by
  unfold State.wrapGuard; split <;> rfl
@[simp] theorem State.wrapGuard_oaCfg (v : F64) (s : State) : (s.wrapGuard v).oaCfg = s.oaCfg := by
  unfold State.wrapGuard; split <;> rfl
@[simp] theorem State.wrapGuard_cl (v : F64) (s : State) : (s.wrapGuard v).cl = s.cl := by
  unfold State.wrapGuard; split <;> rfl
@[simp] theorem State.wrapGuard_elg (v : F64) (s : State) : (s.wrapGuard v).elg = s.elg := by
  unfold State.wrapGuard; split <;> rfl
@[simp] theorem State.wrapGuard_map (v : F64) (s : State) : (s.wrapGuard v).map = s.map := by
  unfold State.wrapGuard; split <;> rfl
@[simp] theorem State.wrapGuard_oa (v : F64) (s : State) : (s.wrapGuard v).oa = s.oa := by
  unfold State.wrapGuard; split <;> rfl
@[simp] theorem State.wrapGuard_mem (v : F64) (s : State) : (s.wrapGuard v).mem = s.mem := by
  unfold State.wrapGuard; split <;> rfl
@[simp] theorem State.wrapGuard_par (v : F64) (s : State) : (s.wrapGuard v).par = s.par := by
  unfold State.wrapGuard; split <;> rfl
@[simp] theorem State.wrapGuard_host (v : F64) (s : State) : (s.wrapGuard v).host = s.host := by
  unfold State.wrapGuard; split <;> rfl
@[simp] theorem State.wrapGuard_freeNext (v : F64) (s : State) : (s.wrapGuard v).freeNext = s.freeNext := by
  unfold State.wrapGuard; split <;> rfl

/-! ### fireIf -/

@[simp] theorem State.fireIf_cmd (b : Bool) (e : Irq) (s : State) : (s.fireIf b e).cmd = s.cmd := by
  unfold State.fireIf; split <;> rfl
@[simp] theorem State.fireIf_err (b : Bool) (e : Irq) (s : State) : (s.fireIf b e).err = s.err := by
  unfold State.fireIf; split <;> rfl
@[simp] theorem State.fireIf_errcode (b : Bool) (e : Irq) (s : State) : (s.fireIf b e).errcode = s.errcode := by
  unfold State.fireIf; split <;> rfl
@[simp] theorem State.fireIf_clReady (b : Bool) (e : Irq) (s : State) : (s.fireIf b e).clReady = s.clReady := by
  unfold State.fireIf; split <;> rfl
@[simp] theorem State.fireIf_mapReady (b : Bool) (e : Irq) (s : State) : (s.fireIf b e).mapReady = s.mapReady := by
  unfold State.fireIf; split <;> rfl
@[simp] theorem State.fireIf_oaReady (b : Bool) (e : Irq) (s : State) : (s.fireIf b e).oaReady = s.oaReady := by
  unfold State.fireIf; split <;> rfl
@[simp] theorem State.fireIf_symValid (b : Bool) (e : Irq) (s : State) : (s.fireIf b e).symValid = s.symValid := by
  unfold State.fireIf; split <;> rfl
@[simp] theorem State.fireIf_numeric (b : Bool) (e : Irq) (s : State) : (s.fireIf b e).numeric = s.numeric := by
  unfold State.fireIf; split <;> rfl
@[simp] theorem State.fireIf_irqEnable (b : Bool) (e : Irq) (s : State) : (s.fireIf b e).irqEnable = s.irqEnable := by
  unfold State.fireIf; split <;> rfl
@[simp] theorem State.fireIf_din0 (b : Bool) (e : Irq) (s : State) : (s.fireIf b e).din0 = s.din0 := by
  unfold State.fireIf; split <;> rfl
@[simp] theorem State.fireIf_din1 (b : Bool) (e : Irq) (s : State) : (s.fireIf b e).din1 = s.din1 := by
  unfold State.fireIf; split <;> rfl
@[simp] theorem State.fireIf_dout0 (b : Bool) (e : Irq) (s : State) : (s.fireIf b e).dout0 = s.dout0 := by
  unfold State.fireIf; split <;> rfl
@[simp] theorem State.fireIf_dout1 (b : Bool) (e : Irq) (s : State) : (s.fireIf b e).dout1 = s.dout1 := by
  unfold State.fireIf; split <;> rfl
@[simp] theorem State.fireIf_dout2 (b : Bool) (e : Irq) (s : State) : (s.fireIf b e).dout2 = s.dout2 := by
  unfold State.fireIf; split <;> rfl
@[simp] theorem State.fireIf_dout3 (b : Bool) (e : Irq) (s : State) : (s.fireIf b e).dout3 = s.dout3 := by
  unfold State.fireIf; split <;> rfl
@[simp] theorem State.fireIf_ramSel (b : Bool) (e : Irq) (s : State) : (s.fireIf b e).ramSel = s.ramSel := by
  unfold State.fireIf; split <;> rfl
@[simp] theorem State.fireIf_ramAddr (b : Bool) (e : Irq) (s : State) : (s.fireIf b e).ramAddr = s.ramAddr := by
  unfold State.fireIf; split <;> rfl
@[simp] theorem State.fireIf_clReg (b : Bool) (e : Irq) (s : State) : (s.fireIf b e).clReg = s.clReg := by
  unfold State.fireIf; split <;> rfl
@[simp] theorem State.fireIf_mapReg (b : Bool) (e : Irq) (s : State) : (s.fireIf b e).mapReg = s.mapReg := by
  unfold State.fireIf; split <;> rfl
@[simp] theorem State.fireIf_oaReg (b : Bool) (e : Irq) (s : State) : (s.fireIf b e).oaReg = s.oaReg := by
  unfold State.fireIf; split <;> rfl
@[simp] theorem State.fireIf_clCfg (b : Bool) (e : Irq) (s : State) : (s.fireIf b e).clCfg = s.clCfg := by
  unfold State.fireIf; split <;> rfl
@[simp] theorem State.fireIf_mapCfg (b : Bool) (e : Irq) (s : State) : (s.fireIf b e).mapCfg = s.mapCfg := by
  unfold State.fireIf; split <;> rfl
@[simp] theorem State.fireIf_oaCfg (b : Bool) (e : Irq) (s : State) : (s.fireIf b e).oaCfg = s.oaCfg := by
  unfold State.fireIf; split <;> rfl
@[simp] theorem State.fireIf_cl (b : Bool) (e : Irq) (s : State) : (s.fireIf b e).cl = s.cl := by
  unfold State.fireIf; split <;> rfl
@[simp] theorem State.fireIf_elg (b : Bool) (e : Irq) (s : State) : (s.fireIf b e).elg = s.elg := by
  unfold State.fireIf; split <;> rfl
@[simp] theorem State.fireIf_map (b : Bool) (e : Irq) (s : State) : (s.fireIf b e).map = s.map := by
  unfold State.fireIf; split <;> rfl
@[simp] theorem State.fireIf_oa (b : Bool) (e : Irq) (s : State) : (s.fireIf b e).oa = s.oa := by
  unfold State.fireIf; split <;> rfl
@[simp] theorem State.fireIf_mem (b : Bool) (e : Irq) (s : State) : (s.fireIf b e).mem = s.mem := by
  unfold State.fireIf; split <;> rfl
@[simp] theorem State.fireIf_par (b : Bool) (e : Irq) (s : State) : (s.fireIf b e).par = s.par := by
  unfold State.fireIf; split <;> rfl
@[simp] theorem State.fireIf_host (b : Bool) (e : Irq) (s : State) : (s.fireIf b e).host = s.host := by
  unfold State.fireIf; split <;> rfl
@[simp] theorem State.fireIf_freeNext (b : Bool) (e : Irq) (s : State) : (s.fireIf b e).freeNext = s.freeNext := by
  unfold State.fireIf; split <;> rfl

/-! ### elgEvents -/

@[simp] theorem State.elgEvents_cmd (x y : ElgState) (b : Bool) (s : State) : (s.elgEvents x y b).cmd = s.cmd := by
  simp [State.elgEvents]
@[simp] theorem State.elgEvents_err (x y : ElgState) (b : Bool) (s : State) : (s.elgEvents x y b).err = s.err := by
  simp [State.elgEvents]
@[simp] theorem State.elgEvents_errcode (x y : ElgState) (b : Bool) (s : State) : (s.elgEvents x y b).errcode = s.errcode := by
  simp [State.elgEvents]
@[simp] theorem State.elgEvents_clReady (x y : ElgState) (b : Bool) (s : State) : (s.elgEvents x y b).clReady = s.clReady := by
  simp [State.elgEvents]
@[simp] theorem State.elgEvents_mapReady (x y : ElgState) (b : Bool) (s : State) : (s.elgEvents x y b).mapReady = s.mapReady := by
  simp [State.elgEvents]
@[simp] theorem State.elgEvents_oaReady (x y : ElgState) (b : Bool) (s : State) : (s.elgEvents x y b).oaReady = s.oaReady := by
  simp [State.elgEvents]
@[simp] theorem State.elgEvents_symValid (x y : ElgState) (b : Bool) (s : State) : (s.elgEvents x y b).symValid = s.symValid := by
  simp [State.elgEvents]
@[simp] theorem State.elgEvents_numeric (x y : ElgState) (b : Bool) (s : State) : (s.elgEvents x y b).numeric = s.numeric := by
  simp [State.elgEvents]
@[simp] theorem State.elgEvents_irqEnable (x y : ElgState) (b : Bool) (s : State) : (s.elgEvents x y b).irqEnable = s.irqEnable := by
  simp [State.elgEvents]
@[simp] theorem State.elgEvents_din0 (x y : ElgState) (b : Bool) (s : State) : (s.elgEvents x y b).din0 = s.din0 := by
  simp [State.elgEvents]
@[simp] theorem State.elgEvents_din1 (x y : ElgState) (b : Bool) (s : State) : (s.elgEvents x y b).din1 = s.din1 := by
  simp [State.elgEvents]
@[simp] theorem State.elgEvents_dout0 (x y : ElgState) (b : Bool) (s : State) : (s.elgEvents x y b).dout0 = s.dout0 := by
  simp [State.elgEvents]
@[simp] theorem State.elgEvents_dout1 (x y : ElgState) (b : Bool) (s : State) : (s.elgEvents x y b).dout1 = s.dout1 := by
  simp [State.elgEvents]
@[simp] theorem State.elgEvents_dout2 (x y : ElgState) (b : Bool) (s : State) : (s.elgEvents x y b).dout2 = s.dout2 := by
  simp [State.elgEvents]
@[simp] theorem State.elgEvents_dout3 (x y : ElgState) (b : Bool) (s : State) : (s.elgEvents x y b).dout3 = s.dout3 := by
  simp [State.elgEvents]
@[simp] theorem State.elgEvents_ramSel (x y : ElgState) (b : Bool) (s : State) : (s.elgEvents x y b).ramSel = s.ramSel := by
  simp [State.elgEvents]
@[simp] theorem State.elgEvents_ramAddr (x y : ElgState) (b : Bool) (s : State) : (s.elgEvents x y b).ramAddr = s.ramAddr := by
  simp [State.elgEvents]
@[simp] theorem State.elgEvents_clReg (x y : ElgState) (b : Bool) (s : State) : (s.elgEvents x y b).clReg = s.clReg := by
  simp [State.elgEvents]
@[simp] theorem State.elgEvents_mapReg (x y : ElgState) (b : Bool) (s : State) : (s.elgEvents x y b).mapReg = s.mapReg := by
  simp [State.elgEvents]
@[simp] theorem State.elgEvents_oaReg (x y : ElgState) (b : Bool) (s : State) : (s.elgEvents x y b).oaReg = s.oaReg := by
  simp [State.elgEvents]
@[simp] theorem State.elgEvents_clCfg (x y : ElgState) (b : Bool) (s : State) : (s.elgEvents x y b).clCfg = s.clCfg := by
  simp [State.elgEvents]
@[simp] theorem State.elgEvents_mapCfg (x y : ElgState) (b : Bool) (s : State) : (s.elgEvents x y b).mapCfg = s.mapCfg := by
  simp [State.elgEvents]
@[simp] theorem State.elgEvents_oaCfg (x y : ElgState) (b : Bool) (s : State) : (s.elgEvents x y b).oaCfg = s.oaCfg := by
  simp [State.elgEvents]
@[simp] theorem State.elgEvents_cl (x y : ElgState) (b : Bool) (s : State) : (s.elgEvents x y b).cl = s.cl := by
  simp [State.elgEvents]
@[simp] theorem State.elgEvents_elg (x y : ElgState) (b : Bool) (s : State) : (s.elgEvents x y b).elg = s.elg := by
  simp [State.elgEvents]
@[simp] theorem State.elgEvents_map (x y : ElgState) (b : Bool) (s : State) : (s.elgEvents x y b).map = s.map := by
  simp [State.elgEvents]
@[simp] theorem State.elgEvents_oa (x y : ElgState) (b : Bool) (s : State) : (s.elgEvents x y b).oa = s.oa := by
  simp [State.elgEvents]
@[simp] theorem State.elgEvents_mem (x y : ElgState) (b : Bool) (s : State) : (s.elgEvents x y b).mem = s.mem := by
  simp [State.elgEvents]
@[simp] theorem State.elgEvents_par (x y : ElgState) (b : Bool) (s : State) : (s.elgEvents x y b).par = s.par := by
  simp [State.elgEvents]
@[simp] theorem State.elgEvents_host (x y : ElgState) (b : Bool) (s : State) : (s.elgEvents x y b).host = s.host := by
  simp [State.elgEvents]
@[simp] theorem State.elgEvents_freeNext (x y : ElgState) (b : Bool) (s : State) : (s.elgEvents x y b).freeNext = s.freeNext := by
  simp [State.elgEvents]

/-! ### clResults -/

@[simp] theorem State.clResults_cmd (b : Bool) (o y : F64 × F64) (s : State) : (s.clResults b o y).cmd = s.cmd := by
  unfold State.clResults; split <;> rfl
@[simp] theorem State.clResults_err (b : Bool) (o y : F64 × F64) (s : State) : (s.clResults b o y).err = s.err := by
  unfold State.clResults; split <;> rfl
@[simp] theorem State.clResults_errcode (b : Bool) (o y : F64 × F64) (s : State) : (s.clResults b o y).errcode = s.errcode := by
  unfold State.clResults; split <;> rfl
@[simp] theorem State.clResults_clReady (b : Bool) (o y : F64 × F64) (s : State) : (s.clResults b o y).clReady = s.clReady := by
  unfold State.clResults; split <;> rfl
@[simp] theorem State.clResults_mapReady (b : Bool) (o y : F64 × F64) (s : State) : (s.clResults b o y).mapReady = s.mapReady := by
  unfold State.clResults; split <;> rfl
@[simp] theorem State.clResults_oaReady (b : Bool) (o y : F64 × F64) (s : State) : (s.clResults b o y).oaReady = s.oaReady := by
  unfold State.clResults; split <;> rfl
@[simp] theorem State.clResults_numeric (b : Bool) (o y : F64 × F64) (s : State) : (s.clResults b o y).numeric = s.numeric := by
  unfold State.clResults; split <;> rfl
@[simp] theorem State.clResults_irqStatus (b : Bool) (o y : F64 × F64) (s : State) : (s.clResults b o y).irqStatus = s.irqStatus := by
  unfold State.clResults; split <;> rfl
@[simp] theorem State.clResults_irqEnable (b : Bool) (o y : F64 × F64) (s : State) : (s.clResults b o y).irqEnable = s.irqEnable := by
  unfold State.clResults; split <;> rfl
@[simp] theorem State.clResults_din0 (b : Bool) (o y : F64 × F64) (s : State) : (s.clResults b o y).din0 = s.din0 := by
  unfold State.clResults; split <;> rfl
@[simp] theorem State.clResults_din1 (b : Bool) (o y : F64 × F64) (s : State) : (s.clResults b o y).din1 = s.din1 := by
  unfold State.clResults; split <;> rfl
@[simp] theorem State.clResults_ramSel (b : Bool) (o y : F64 × F64) (s : State) : (s.clResults b o y).ramSel = s.ramSel := by
  unfold State.clResults; split <;> rfl
@[simp] theorem State.clResults_ramAddr (b : Bool) (o y : F64 × F64) (s : State) : (s.clResults b o y).ramAddr = s.ramAddr := by
  unfold State.clResults; split <;> rfl
@[simp] theorem State.clResults_clReg (b : Bool) (o y : F64 × F64) (s : State) : (s.clResults b o y).clReg = s.clReg := by
  unfold State.clResults; split <;> rfl
@[simp] theorem State.clResults_mapReg (b : Bool) (o y : F64 × F64) (s : State) : (s.clResults b o y).mapReg = s.mapReg := by
  unfold State.clResults; split <;> rfl
@[simp] theorem State.clResults_oaReg (b : Bool) (o y : F64 × F64) (s : State) : (s.clResults b o y).oaReg = s.oaReg := by
  unfold State.clResults; split <;> rfl
@[simp] theorem State.clResults_clCfg (b : Bool) (o y : F64 × F64) (s : State) : (s.clResults b o y).clCfg = s.clCfg := by
  unfold State.clResults; split <;> rfl
@[simp] theorem State.clResults_mapCfg (b : Bool) (o y : F64 × F64) (s : State) : (s.clResults b o y).mapCfg = s.mapCfg := by
  unfold State.clResults; split <;> rfl
@[simp] theorem State.clResults_oaCfg (b : Bool) (o y : F64 × F64) (s : State) : (s.clResults b o y).oaCfg = s.oaCfg := by
  unfold State.clResults; split <;> rfl
@[simp] theorem State.clResults_cl (b : Bool) (o y : F64 × F64) (s : State) : (s.clResults b o y).cl = s.cl := by
  unfold State.clResults; split <;> rfl
@[simp] theorem State.clResults_elg (b : Bool) (o y : F64 × F64) (s : State) : (s.clResults b o y).elg = s.elg := by
  unfold State.clResults; split <;> rfl
@[simp] theorem State.clResults_map (b : Bool) (o y : F64 × F64) (s : State) : (s.clResults b o y).map = s.map := by
  unfold State.clResults; split <;> rfl
@[simp] theorem State.clResults_oa (b : Bool) (o y : F64 × F64) (s : State) : (s.clResults b o y).oa = s.oa := by
  unfold State.clResults; split <;> rfl
@[simp] theorem State.clResults_mem (b : Bool) (o y : F64 × F64) (s : State) : (s.clResults b o y).mem = s.mem := by
  unfold State.clResults; split <;> rfl
@[simp] theorem State.clResults_par (b : Bool) (o y : F64 × F64) (s : State) : (s.clResults b o y).par = s.par := by
  unfold State.clResults; split <;> rfl
@[simp] theorem State.clResults_host (b : Bool) (o y : F64 × F64) (s : State) : (s.clResults b o y).host = s.host := by
  unfold State.clResults; split <;> rfl
@[simp] theorem State.clResults_freeNext (b : Bool) (o y : F64 × F64) (s : State) : (s.clResults b o y).freeNext = s.freeNext := by
  unfold State.clResults; split <;> rfl

/-! ### The fields an update writes -/

@[simp] theorem State.fire_irqStatus (e : Irq) (s : State) : (s.fire e).irqStatus = s.irqStatus ||| e.mask := rfl
@[simp] theorem State.ackIrq_irqStatus (v : Word) (s : State) :
    (s.ackIrq v).irqStatus = s.irqStatus &&& ~~~(v.setWidth 8) := rfl
@[simp] theorem State.clearError_err (s : State) : s.clearError.err = false := rfl
@[simp] theorem State.clearError_errcode (s : State) : s.clearError.errcode = 0 := rfl
@[simp] theorem State.clearError_numeric (s : State) : s.clearError.numeric = false := rfl
@[simp] theorem State.guard_numeric (s : State) : s.guard.numeric = true := rfl
@[simp] theorem State.guard_irqStatus (s : State) : s.guard.irqStatus = s.irqStatus ||| Irq.mask .numeric := rfl
@[simp] theorem State.complete_cmd (s : State) : s.complete.cmd = none := rfl
@[simp] theorem State.complete_irqStatus (s : State) : s.complete.irqStatus = s.irqStatus ||| Irq.mask .cmdDone := rfl
@[simp] theorem State.record_host (v : Word) (s : State) :
    (s.record v).host = { s.host with reads := v :: s.host.reads } := rfl
@[simp] theorem State.spendLag_host (s : State) : s.spendLag.host = { s.host with lag := s.host.lag - 1 } := rfl
@[simp] theorem State.withPending_cmd (s : State) (w : Word) : (s.withPending w).cmd = some w := rfl
@[simp] theorem State.withPending_host (s : State) (w : Word) : (s.withPending w).host = { s.host with lag := 0 } := rfl
@[simp] theorem State.frameFull_oa (s : State) : s.frameFull.oa = { s.oa with frameReady := true } := rfl
@[simp] theorem State.frameFull_irqStatus (s : State) :
    s.frameFull.irqStatus = s.irqStatus ||| Irq.mask .frameReady := rfl
@[simp] theorem State.loopf_cl (e : F64) (s : State) :
    (s.loopf e).cl = { s.cl with lf := loopFilter s.clCfg.loopAlpha s.cl.lf e, fb := loopFilter s.clCfg.loopAlpha s.cl.lf e } :=
  rfl
@[simp] theorem State.pointResults_dout0 (pt : Point) (p : Nat) (s : State) : (s.pointResults pt p).dout0 = pt.i := rfl
@[simp] theorem State.pointResults_dout1 (pt : Point) (p : Nat) (s : State) : (s.pointResults pt p).dout1 = pt.q := rfl
@[simp] theorem State.pointResults_dout2 (pt : Point) (p : Nat) (s : State) : (s.pointResults pt p).dout2 = u64 p := rfl
@[simp] theorem State.raise_err (c : ErrCode) (s : State) : (s.raise c).err = true := by
  unfold State.raise; split
  · assumption
  · rfl
@[simp] theorem State.raise_errcode (c : ErrCode) (s : State) :
    (s.raise c).errcode = if s.err then s.errcode else c.code := by
  unfold State.raise; split <;> rfl
@[simp] theorem State.raise_irqStatus (c : ErrCode) (s : State) :
    (s.raise c).irqStatus = s.irqStatus ||| Irq.mask .err := by
  unfold State.raise; split <;> rfl
@[simp] theorem State.wrapGuard_numeric (v : F64) (s : State) :
    (s.wrapGuard v).numeric = (s.numeric || !Fp.isFinite v) := by
  unfold State.wrapGuard; split <;> simp_all
@[simp] theorem State.wrapGuard_irqStatus (v : F64) (s : State) :
    (s.wrapGuard v).irqStatus = if Fp.isFinite v then s.irqStatus else s.irqStatus ||| Irq.mask .numeric := by
  unfold State.wrapGuard; split <;> simp_all
@[simp] theorem State.fireIf_irqStatus (b : Bool) (e : Irq) (s : State) :
    (s.fireIf b e).irqStatus = if b then s.irqStatus ||| e.mask else s.irqStatus := by
  unfold State.fireIf; split <;> rfl
@[simp] theorem State.clResults_dout0 (b : Bool) (o y : F64 × F64) (s : State) :
    (s.clResults b o y).dout0 = if b then o.1 else s.dout0 := by
  unfold State.clResults; split <;> rfl
@[simp] theorem State.clResults_dout1 (b : Bool) (o y : F64 × F64) (s : State) :
    (s.clResults b o y).dout1 = if b then o.2 else s.dout1 := by
  unfold State.clResults; split <;> rfl
@[simp] theorem State.clResults_dout2 (b : Bool) (o y : F64 × F64) (s : State) : (s.clResults b o y).dout2 = y.1 := rfl
@[simp] theorem State.clResults_dout3 (b : Bool) (o y : F64 × F64) (s : State) : (s.clResults b o y).dout3 = y.2 := rfl
@[simp] theorem State.clResults_symValid (b : Bool) (o y : F64 × F64) (s : State) : (s.clResults b o y).symValid = b := rfl
@[simp] theorem State.busy_eq (s : State) : s.busy = s.cmd.isSome := rfl

end Sys2Proof.Machine
end

