-- ==== Sys2Proof/Laws/Ops.lean ====
section
/-! SUPPORT. One lemma per shared operation that says once everything it can do: when it answers, and with what. -/

namespace Sys2Proof.Machine

/-! ## Answers of a rule -/

theorem Run.bind_eq_ok {α β : Type} {x : Run α} {f : α → Run β} {r : β} :
    (x >>= f) = .ok r ↔ ∃ a, x = .ok a ∧ f a = .ok r := by
  cases x <;> simp [bind, Except.bind]

theorem perform_eq_next {r : Run State} {t : State} : perform r = .next t ↔ ∃ u, r = .ok u ∧ t = u.complete := by
  cases r <;> simp [perform, eq_comm]

theorem perform_eq_fault {r : Run State} {f : Fault} : perform r = .fault f ↔ r = .error f := by
  cases r <;> simp [perform]

theorem settle_eq_next {r : Run State} {t : State} : settle r = .next t ↔ r = .ok t := by
  cases r <;> simp [settle]

theorem perform_ne_refused {r : Run State} {e : Refusal} : perform r ≠ .refused e := by
  cases r <;> simp [perform]

/-! ## Errors and events -/

/-- `Error(code)` (R341), all of it. -/
theorem State.raise_eq (c : ErrCode) (s : State) :
    s.raise c =
      { s with
        err := true
        errcode := if s.err then s.errcode else c.code
        irqStatus := s.irqStatus ||| Irq.mask .err } := by
  unfold State.raise State.fire
  split
  · rename_i h; simp [h.symm]
  · rename_i h; simp

/-- The numeric guard of a phase wrap (R162, R358), all of it. -/
theorem State.wrapGuard_eq (v : F64) (s : State) :
    s.wrapGuard v =
      { s with
        numeric := s.numeric || !Fp.isFinite v
        irqStatus := if Fp.isFinite v then s.irqStatus else s.irqStatus ||| Irq.mask .numeric } := by
  unfold State.wrapGuard State.guard State.fire
  cases Fp.isFinite v <;> simp

/-- The events of one ELG sample (R209), all of them: only IRQ_STATUS is written. -/
theorem State.elgEvents_eq (x y : ElgState) (b : Bool) (s : State) :
    s.elgEvents x y b = { s with irqStatus := s.irqStatus ||| Safety.elgIrq x y b } := by
  unfold State.elgEvents State.fireIf State.fire Safety.elgIrq
  cases x <;> cases y <;> cases b <;> simp [Irq.mask, BitVec.or_assoc]

/-- The result registers of CL_STEP (R169), all of them. -/
theorem State.clResults_eq (trig : Bool) (o y : F64 × F64) (s : State) :
    s.clResults trig o y =
      { s with
        dout0 := if trig then o.1 else s.dout0
        dout1 := if trig then o.2 else s.dout1
        symValid := trig
        dout2 := y.1
        dout3 := y.2 } := by
  unfold State.clResults
  cases trig <;> rfl

/-! ## Filters and tables -/

theorem fir_eq_ok {m : Memory} {line : Line} {idx : Nat} {coef : RamId} {len : Nat} {x : F64} {r : Filtered} :
    fir m line idx coef len x = .ok r ↔
      ∃ y, firSum (m.write (.line line) idx x) line coef idx len = .ok y
        ∧ r = { y := y, mem := m.write (.line line) idx x, idx := (idx + 1) % len } := by
  simp only [fir, Run.bind_eq_ok, Except.ok.injEq, eq_comm (b := r)]

theorem vco_eq_ok {s : State} {r : Rails} :
    vco s = .ok r ↔
      ∃ vI vQ, s.mem.word (.ram .vtab) ((Fp.floor s.cl.phase).toNat + s.clCfg.vcoTsize.toNat / 4) = some vI
        ∧ s.mem.word (.ram .vtab) (Fp.floor s.cl.phase).toNat = some vQ
        ∧ r =
          { i := vI
            q := vQ
            state :=
              { s.wrapGuard (vcoAdvance s) with
                cl := { s.cl with phase := wrap (vcoAdvance s) s.clCfg.vcoTsize.toNat } } } := by
  simp only [vco, tableCos, tableSin, Run.bind_eq_ok, Memory.read_eq_ok, Except.ok.injEq, eq_comm (b := r), exists_and_left]

theorem armFilters_eq_ok {mI mQ : F64} {s : State} {r : Rails} :
    armFilters mI mQ s = .ok r ↔
      ∃ a b, fir s.mem .lpf1 s.cl.lpf1Idx .lpfCoef s.clCfg.lpfLen.toNat mI = .ok a
        ∧ fir a.mem .lpf2 s.cl.lpf2Idx .lpfCoef s.clCfg.lpfLen.toNat mQ = .ok b
        ∧ r =
          { i := a.y
            q := b.y
            state := { s with mem := b.mem, cl := { s.cl with lpf1Idx := a.idx, lpf2Idx := b.idx } } } := by
  simp only [armFilters, Run.bind_eq_ok, Except.ok.injEq, eq_comm (b := r), exists_and_left]

/-- `CDELAY` (R166): with COMP_DELAY = 0 the pair passes through, otherwise the delay line moves on by one. -/
theorem compDelay_eq_ok {yI yQ : F64} {s : State} {r : Rails} :
    compDelay yI yQ s = .ok r ↔
      (s.clCfg.compDelay.toNat = 0 ∧ r = { i := yI, q := yQ, state := s })
        ∨ (s.clCfg.compDelay.toNat ≠ 0
          ∧ ∃ oI oQ, s.mem.word (.line .cdI) s.cl.cdIdx = some oI ∧ s.mem.word (.line .cdQ) s.cl.cdIdx = some oQ
            ∧ r =
              { i := oI
                q := oQ
                state :=
                  { s with
                    mem := (s.mem.write (.line .cdI) s.cl.cdIdx yI).write (.line .cdQ) s.cl.cdIdx yQ
                    cl := { s.cl with cdIdx := (s.cl.cdIdx + 1) % s.clCfg.compDelay.toNat } } }) := by
  by_cases h : s.clCfg.compDelay.toNat = 0 <;>
    simp only [compDelay, h, if_true, if_false, Run.bind_eq_ok, Memory.read_eq_ok, Except.ok.injEq, eq_comm (b := r),
      exists_and_left, true_and, not_true_eq_false, false_and, or_false, ne_eq, not_false_eq_true, false_or]

/-! ## The early-late gate -/

theorem matchedFilter_eq_ok {x : F64} {s : State} {r : Staged} :
    matchedFilter x s = .ok r ↔
      ∃ old, s.mem.word (.line .mf) s.elg.mfIdx = some old
        ∧ r =
          { y := Fp.sub (Fp.add s.elg.mfSum (Fp.mul x x)) old
            state :=
              { s with
                mem := s.mem.write (.line .mf) s.elg.mfIdx (Fp.mul x x)
                elg :=
                  { s.elg with
                    mfSum := Fp.sub (Fp.add s.elg.mfSum (Fp.mul x x)) old
                    mfIdx := (s.elg.mfIdx + 1) % s.clCfg.elgMfLen.toNat } } } := by
  simp only [matchedFilter, Run.bind_eq_ok, Memory.read_eq_ok, Except.ok.injEq, eq_comm (b := r)]

theorem earlyLate_eq_ok {m : F64} {s : State} {r : Staged} :
    earlyLate m s = .ok r ↔
      ∃ e, s.mem.word (.line .eg) s.elg.egIdx = some e
        ∧ r =
          { y := Fp.sub m e
            state :=
              { s with
                mem := s.mem.write (.line .eg) s.elg.egIdx m
                elg := { s.elg with egIdx := (s.elg.egIdx + 1) % s.clCfg.elgDelay.toNat } } } := by
  simp only [earlyLate, Run.bind_eq_ok, Memory.read_eq_ok, Except.ok.injEq, eq_comm (b := r)]

theorem elgFilter_eq_ok {d : F64} {s : State} {r : Staged} :
    elgFilter d s = .ok r ↔
      ∃ a, fir s.mem .elf s.elg.elfIdx .elgLfCoef s.clCfg.elgLfLen.toNat d = .ok a
        ∧ r = { y := a.y, state := { s with mem := a.mem, elg := { s.elg with elfIdx := a.idx } } } := by
  simp only [elgFilter, Run.bind_eq_ok, Except.ok.injEq, eq_comm (b := r)]

/-- The three delay lines of one ELG sample and the unit they leave, before its decisions (R209): `m` and `f` are the
matched-filter and loop-filter outputs. -/
theorem elgCore_eq_ok {x : F64} {s : State} {g : ElgOut} :
    elgCore x s = .ok g ↔
      ∃ m d f,
        matchedFilter x { s with elg := { s.elg with samples := satInc s.elg.samples } } = .ok m
        ∧ earlyLate m.y m.state = .ok d ∧ elgFilter d.y d.state = .ok f
        ∧ g =
          { trig := (elgDecide s.clCfg m.y f.y f.state.elg).trig
            f := f.y
            m := m.y
            state :=
              ({ f.state with elg := (elgDecide s.clCfg m.y f.y f.state.elg).unit } : State).elgEvents s.elg.state
                (elgDecide s.clCfg m.y f.y f.state.elg).unit.state (elgDecide s.clCfg m.y f.y f.state.elg).trig } := by
  simp only [elgCore, Run.bind_eq_ok, Except.ok.injEq, eq_comm (b := g), exists_and_left]

/-- The trigger counter while it runs (R206): where it stands next, and when it fires. -/
theorem counter_running {ns : Nat} {zc : Bool} {u : ElgUnit} (h : u.state = .acquiring ∨ u.state = .locked) :
    (counter ns zc u).trig = (zc || decide (ns ≤ u.trigCnt + 1))
      ∧ (counter ns zc u).correct = (zc && decide (u.trigCnt + 1 = ns))
      ∧ (counter ns zc u).unit =
        { u with
          trigCnt := if zc || decide (ns ≤ u.trigCnt + 1) then 0 else u.trigCnt + 1
          trigUpd := zc
          trigDet := zc || decide (ns ≤ u.trigCnt + 1) } := by
  unfold counter
  rw [if_pos h]
  cases zc
  · by_cases hn : ns ≤ u.trigCnt + 1 <;> simp [hn]
  · simp

/-- The trigger counter at rest (R206). -/
theorem counter_resting {ns : Nat} {zc : Bool} {u : ElgUnit} (h : ¬ (u.state = .acquiring ∨ u.state = .locked)) :
    counter ns zc u = { trig := false, correct := false, unit := { u with trigUpd := false, trigDet := false } } := by
  unfold counter
  rw [if_neg h]

/-! ## The constellation unit -/

theorem rrcPair_eq_ok {m : Memory} {li lq : Line} {ii iq len : Nat} {x : Point} {r : RrcOut} :
    rrcPair m li lq ii iq len x = .ok r ↔
      ∃ a b, fir m li ii .rrcCoef len x.i = .ok a ∧ fir a.mem lq iq .rrcCoef len x.q = .ok b
        ∧ r = { pt := ⟨a.y, b.y⟩, mem := b.mem, iIdx := a.idx, qIdx := b.idx } := by
  simp only [rrcPair, Run.bind_eq_ok, Except.ok.injEq, eq_comm (b := r), exists_and_left]

theorem demapAccumulate_eq_ok {s : State} {r : Pointed} :
    demapAccumulate s = .ok r ↔
      (s.mapCfg.rrcEn = 1
        ∧ ∃ p, rrcPair s.mem .rxi .rxq s.map.rxiIdx s.map.rxqIdx s.mapCfg.rrcLen.toNat ⟨s.in0, s.in1⟩ = .ok p
          ∧ r =
            { pt := p.pt, state := { s with mem := p.mem, map := { s.map with rxiIdx := p.iIdx, rxqIdx := p.qIdx } } })
        ∨ (s.mapCfg.rrcEn ≠ 1
          ∧ r =
            { pt := ⟨Fp.add s.map.accI s.in0, Fp.add s.map.accQ s.in1⟩
              state :=
                { s with map := { s.map with accI := Fp.add s.map.accI s.in0, accQ := Fp.add s.map.accQ s.in1 } } }) := by
  by_cases h : s.mapCfg.rrcEn = 1 <;>
    simp only [demapAccumulate, h, if_true, if_false, Run.bind_eq_ok, Except.ok.injEq, eq_comm (b := r), true_and,
      not_true_eq_false, false_and, or_false, ne_eq, not_false_eq_true, false_or]

theorem modShape_eq_ok {u : Point} {k : Nat} {s : State} {r : Pointed} :
    modShape u k s = .ok r ↔
      (s.mapCfg.rrcEn = 1
        ∧ ∃ p,
          rrcPair s.mem .txi .txq s.map.txiIdx s.map.txqIdx s.mapCfg.rrcLen.toNat
              (if k = 0 then u else ⟨Fp.zero, Fp.zero⟩) = .ok p
          ∧ r =
            { pt := p.pt, state := { s with mem := p.mem, map := { s.map with txiIdx := p.iIdx, txqIdx := p.qIdx } } })
        ∨ (s.mapCfg.rrcEn ≠ 1 ∧ r = { pt := u, state := s }) := by
  by_cases h : s.mapCfg.rrcEn = 1 <;>
    simp only [modShape, h, if_true, if_false, Run.bind_eq_ok, Except.ok.injEq, eq_comm (b := r), true_and,
      not_true_eq_false, false_and, or_false, ne_eq, not_false_eq_true, false_or]

theorem modSample_eq_ok {u : Point} {s t : State} {k : Nat} :
    modSample u s k = .ok t ↔
      ∃ sh c d, modShape u k s = .ok sh
        ∧ sh.state.mem.word (.ram .mtab) ((Fp.floor s.map.modPhase).toNat + s.mapCfg.modTsize.toNat / 4) = some c
        ∧ sh.state.mem.word (.ram .mtab) (Fp.floor s.map.modPhase).toNat = some d
        ∧ t =
          { sh.state.wrapGuard (Fp.add s.map.modPhase s.mapCfg.modInc) with
            mem := sh.state.mem.write (.ram .modOut) k (Fp.add (Fp.mul sh.pt.i c) (Fp.mul sh.pt.q d))
            map :=
              { sh.state.map with
                modPhase := wrap (Fp.add s.map.modPhase s.mapCfg.modInc) s.mapCfg.modTsize.toNat } } := by
  simp only [modSample, tableCos, tableSin, Run.bind_eq_ok, Memory.read_eq_ok, Except.ok.injEq, eq_comm (b := t),
    exists_and_left]

/-! ## Order analysis -/

theorem oaAdvance_eq_ok {s t : State} :
    oaAdvance s = .ok t ↔
      ∃ xs vs,
        s.mem.load (.ram .frameBuf) (s.oaCfg.sampleLen.toNat - s.oaCfg.overlap.toNat) s.oaCfg.overlap.toNat = .ok xs
        ∧ s.mem.load (.ram .speedBuf) (s.oaCfg.sampleLen.toNat - s.oaCfg.overlap.toNat) s.oaCfg.overlap.toNat = .ok vs
        ∧ t =
          { s with
            mem := (s.mem.storeAt (.ram .frameBuf) 0 xs).storeAt (.ram .speedBuf) 0 vs
            oa := { s.oa with wp := s.oaCfg.overlap.toNat, start := s.oaCfg.overlap.toNat, frameReady := false } } := by
  simp only [oaAdvance, Run.bind_eq_ok, Except.ok.injEq, eq_comm (b := t), exists_and_left]

theorem oaResample_eq_ok {rho : F64} {s t : State} :
    oaResample rho s = .ok t ↔
      ∃ frame lut,
        s.mem.load (.ram .frameBuf) 0 s.oaCfg.sampleLen.toNat = .ok frame
        ∧ s.mem.load (.ram .sincLut) 0 s.oaCfg.sincLutlen.toNat = .ok lut
        ∧ t =
          { s with
            mem :=
              (s.mem.storeAt (.ram .rsRe) 0
                  (resample frame lut s.oa.phaseGain s.oaCfg.sincNa.toNat s.oaCfg.fftLen.toNat rho s.freeNext)).storeAt
                (.ram .rsIm) 0 (List.replicate s.oaCfg.fftLen.toNat Fp.zero)
            freeNext := s.freeNext + s.oaCfg.fftLen.toNat } := by
  simp only [oaResample, Run.bind_eq_ok, Except.ok.injEq, eq_comm (b := t), exists_and_left]

theorem oaWindow_eq_ok {s t : State} :
    oaWindow s = .ok t ↔
      ∃ xs w, s.mem.load (.ram .rsRe) 0 s.oaCfg.fftLen.toNat = .ok xs
        ∧ s.mem.load (.ram .win) 0 s.oaCfg.fftLen.toNat = .ok w
        ∧ t = { s with mem := s.mem.storeAt (.ram .rsRe) 0 (applyWindow xs w s.oa.icg) } := by
  simp only [oaWindow, Run.bind_eq_ok, Except.ok.injEq, eq_comm (b := t), exists_and_left]

theorem fftRun_eq_ok {s t : State} :
    fftRun s = .ok t ↔
      ∃ re im tw br,
        s.mem.load (.ram .rsRe) 0 s.oaCfg.fftLen.toNat = .ok re
        ∧ s.mem.load (.ram .rsIm) 0 s.oaCfg.fftLen.toNat = .ok im
        ∧ s.mem.load (.ram .fftTw) 0 s.oaCfg.fftLen.toNat = .ok tw
        ∧ s.mem.load (.ram .bitrev) 0 s.oaCfg.fftLen.toNat = .ok br
        ∧ t =
          { s with
            mem :=
              (s.mem.storeAt (.ram .rsRe) 0 (fftCore tw br s.oaCfg.fftLen.toNat ⟨re, im⟩).re).storeAt (.ram .rsIm) 0
                (fftCore tw br s.oaCfg.fftLen.toNat ⟨re, im⟩).im } := by
  simp only [fftRun, Run.bind_eq_ok, Except.ok.injEq, eq_comm (b := t), exists_and_left]

theorem halfSpectrum_eq_ok {s : State} {v : Spectrum} :
    halfSpectrum s = .ok v ↔
      ∃ re im, s.mem.load (.ram .rsRe) 0 s.oaCfg.fftLen.toNat = .ok re
        ∧ s.mem.load (.ram .rsIm) 0 s.oaCfg.fftLen.toNat = .ok im
        ∧ v = ⟨scaled s.oaCfg.fftLen.toNat re, scaled s.oaCfg.fftLen.toNat im⟩ := by
  simp only [halfSpectrum, Run.bind_eq_ok, Except.ok.injEq, eq_comm (b := v), exists_and_left]

theorem accumulate_eq_ok {v : Spectrum} {s t : State} :
    accumulate v s = .ok t ↔
      ∃ ar, s.mem.load (.ram .avgRe) 0 (s.oaCfg.fftLen.toNat / 2) = .ok ar
        ∧ ((s.oaCfg.avgMode = 0
            ∧ ∃ ai, s.mem.load (.ram .avgIm) 0 (s.oaCfg.fftLen.toNat / 2) = .ok ai
              ∧ t =
                { s with
                  mem :=
                    (s.mem.storeAt (.ram .avgRe) 0 (List.zipWith Fp.add ar v.re)).storeAt (.ram .avgIm) 0
                      (List.zipWith Fp.add ai v.im) })
          ∨ (s.oaCfg.avgMode ≠ 0
            ∧ t = { s with mem := s.mem.storeAt (.ram .avgRe) 0 (List.zipWith Fp.add ar (linOf v)) })) := by
  by_cases h : s.oaCfg.avgMode = 0 <;>
    simp only [accumulate, h, if_true, if_false, Run.bind_eq_ok, Except.ok.injEq, eq_comm (b := t), true_and,
      not_true_eq_false, false_and, or_false, ne_eq, not_false_eq_true, false_or]

theorem frameProcess_eq_ok {rho : F64} {s t : State} :
    frameProcess rho s = .ok t ↔
      ∃ s1 s2 s3 v s4,
        oaResample rho s = .ok s1 ∧ oaWindow s1 = .ok s2 ∧ fftRun s2 = .ok s3 ∧ halfSpectrum s3 = .ok v
        ∧ accumulate v s3 = .ok s4
        ∧ t =
          { frameLevels v s4 with
            dout1 := rho
            oa := { (frameLevels v s4).oa with frameCount := satInc (frameLevels v s4).oa.frameCount } } := by
  simp only [frameProcess, Run.bind_eq_ok, Except.ok.injEq, eq_comm (b := t), exists_and_left]

/-! ## The resampler past the end of the frame -/

/-- Every weight of a finite table is finite, at and beyond its end too (R279). -/
theorem sincWeight_finite {lut : List F64} (h : ∀ w ∈ lut, Fp.isFinite w = true) (li : Int) :
    Fp.isFinite (sincWeight lut li) = true := by
  unfold sincWeight nth
  split
  · cases e : lut[li.toNat]? with
    | none => rw [List.getD_eq_getElem?_getD, e]; decide
    | some w => rw [List.getD_eq_getElem?_getD, e]; exact h w (List.mem_of_getElem? e)
  · decide

/-- A position that overflowed reads zeros (R286): on a finite table the result is +0.0, whatever the free indices are. -/
theorem sincPast_eq_zero {lut : List F64} (h : ∀ w ∈ lut, Fp.isFinite w = true) (a free : Nat) :
    sincPast lut a free = Fp.zero := by
  unfold sincPast
  induction List.range (2 * a + 2) with
  | nil => rfl
  | cons k ks ih =>
    rw [List.foldl_cons, Fp.zero_mul_of_finite (sincWeight_finite h _), Fp.zero_add_zeroOf]
    exact ih

/-! ## Lengths of the lists the order analysis moves -/

@[simp] theorem swapAt_length (xs : List F64) (i j : Nat) : (swapAt xs i j).length = xs.length := by simp [swapAt]

theorem permuteAt_lengths (br : List Word) (v : Spectrum) (i : Nat) :
    (permuteAt br v i).re.length = v.re.length ∧ (permuteAt br v i).im.length = v.im.length := by
  unfold permuteAt
  dsimp only
  split <;> simp

theorem butterfly_lengths (tw : List F64) (n len : Nat) (v : Spectrum) (s k : Nat) :
    (butterfly tw n len v s k).re.length = v.re.length ∧ (butterfly tw n len v s k).im.length = v.im.length := by
  simp [butterfly]

/-- A fold whose steps keep both lengths keeps both lengths. -/
theorem foldl_lengths {α : Type} (f : Spectrum → α → Spectrum)
    (h : ∀ v a, (f v a).re.length = v.re.length ∧ (f v a).im.length = v.im.length) (xs : List α) (v : Spectrum) :
    (xs.foldl f v).re.length = v.re.length ∧ (xs.foldl f v).im.length = v.im.length := by
  induction xs generalizing v with
  | nil => exact ⟨rfl, rfl⟩
  | cons a xs ih =>
    rw [List.foldl_cons, (ih (f v a)).1, (ih (f v a)).2]
    exact h v a

/-- The FFT works in place (R310): both arrays keep their length. -/
theorem fftCore_lengths (tw : List F64) (br : List Word) (n : Nat) (v : Spectrum) :
    (fftCore tw br n v).re.length = v.re.length ∧ (fftCore tw br n v).im.length = v.im.length := by
  unfold fftCore
  have hs : ∀ (len : Nat) (w : Spectrum),
      (fftStage tw n len w).re.length = w.re.length ∧ (fftStage tw n len w).im.length = w.im.length := fun len w =>
    foldl_lengths _
      (fun w' blk => foldl_lengths _ (fun w'' k => butterfly_lengths tw n len w'' (blk * len) k) _ w') _ w
  have h1 := foldl_lengths _ (fun w q => hs (2 <<< q) w) (List.range n.log2) ((List.range n).foldl (permuteAt br) v)
  have h2 := foldl_lengths _ (permuteAt_lengths br) (List.range n) v
  exact ⟨h1.1.trans h2.1, h1.2.trans h2.2⟩

@[simp] theorem qsin_length (t : Nat) : (qsin t).length = 5 * t / 4 := by simp [qsin]
@[simp] theorem sincTable_length (a ll : Nat) : (sincTable a ll).length = ll := by simp [sincTable]
@[simp] theorem fftTwiddles_length (n : Nat) : (fftTwiddles n).length = n := by simp [fftTwiddles]
@[simp] theorem bitrevTable_length (n : Nat) : (bitrevTable n).length = n := by simp [bitrevTable]
@[simp] theorem window_length (tw : List F64) (n : Nat) (y : Word) (c : F64) : (window tw n y c).length = n := by
  simp [window]
@[simp] theorem resample_length (f l : List F64) (g : F64) (a n : Nat) (r : F64) (k : Nat) :
    (resample f l g a n r k).length = n := by simp [resample]
@[simp] theorem orderList_length (c : OaConfig) (n : Nat) (l : List F64) :
    (orderList c n l).length = c.numOrders.toNat := by simp [orderList]
theorem scaled_length {n : Nat} {xs : List F64} (h : xs.length = n) : (scaled n xs).length = n / 2 := by
  simp only [scaled, List.length_map, List.length_take, h]
  omega

end Sys2Proof.Machine
end

