-- ==== Sys2Proof/Laws/Step.lean ====
section
/-! SUPPORT. What one step can do: the perform of a command as its rule, the moves of the host, and the step itself. -/

namespace Sys2Proof.Machine

/-- The rule of each command, without the completion of R131. -/
def ruleOf (i : Instr) (s : State) : Run State :=
  match i with
  | .nop => .ok s
  | .clInit => .ok (clInitRule s)
  | .clStep => clStepRule s
  | .elgStep => elgStepRule s
  | .mapInit => .ok (mapInitRule s)
  | .mapEnc => .ok (mapEncRule s)
  | .mapDec => .ok (mapDecRule s)
  | .demapAcc => demapAccRule s
  | .modSym => modSymRule s
  | .oaInit => .ok (oaInitRule s)
  | .oaPush => .ok (oaPushRule s)
  | .oaFlush => .ok (oaFlushRule s)
  | .oaFrame => oaFrameRule s
  | .oaFinal => oaFinalRule s
  | .fft => fftRule s
  | .wingen => wingenRule s
  | .sincRs => sincRsRule s
  | .clrErr => .ok s.clearError
  | .softReset => .ok (softResetRule s)

/-- Every command is its rule in the bracket of R131. -/
theorem exec_eq_perform (i : Instr) (s : State) : exec i s = perform (ruleOf i s) := by cases i <;> rfl

/-- When a command answers a next state: its rule answers, and the next state is the completed one. -/
theorem exec_eq_next {i : Instr} {s t : State} : exec i s = .next t ↔ ∃ u, ruleOf i s = .ok u ∧ t = u.complete := by
  rw [exec_eq_perform, perform_eq_next]

/-- What a host read leaves (R107, R384): the state, with a BUSY_WRITE or a RAM_ACCESS recorded, or with RAM_ADDR moved on;
and the value returned. -/
theorem hostRead_cases {o : BitVec 12} {s t : State} (h : hostRead o s = .ok t) :
    ∃ v u, t = u.record v
      ∧ (u = s ∨ (s.busy = true ∧ u = s.raise .busyWrite)
        ∨ (s.busy = false ∧ (u = s.raise .ramAccess ∨ u = { s with ramAddr := s.ramAddr + 1 }))) := by
  unfold hostRead at h
  split at h
  · simp only [Except.ok.injEq] at h; exact ⟨_, s, h.symm, .inl rfl⟩
  · split at h
    · rename_i hb
      simp only [Except.ok.injEq] at h; exact ⟨_, _, h.symm, .inr (.inl ⟨hb, rfl⟩)⟩
    · rename_i hb
      have hb' : s.busy = false := by simpa using hb
      unfold ramRead at h
      split at h
      · simp only [Except.ok.injEq] at h; exact ⟨_, _, h.symm, .inr (.inr ⟨hb', .inl rfl⟩)⟩
      · split at h
        · obtain ⟨v, -, h⟩ := Run.bind_eq_ok.mp h
          simp only [Except.ok.injEq] at h
          exact ⟨v, _, h.symm, .inr (.inr ⟨hb', .inr rfl⟩)⟩
        · simp only [Except.ok.injEq] at h; exact ⟨_, _, h.symm, .inr (.inr ⟨hb', .inl rfl⟩)⟩
  · simp only [Except.ok.injEq] at h; exact ⟨_, s, h.symm, .inl rfl⟩

/-- What a host write leaves (R104, R108, R131, R384). -/
theorem hostWrite_cases (o : BitVec 12) (v : Word) (s : State) :
    (s.busy = true ∧ hostWrite o v s = s.raise .busyWrite)
      ∨ (s.busy = false
        ∧ (hostWrite o v s = s ∨ hostWrite o v s = issue v s ∨ hostWrite o v s = ramWrite v s
          ∨ ∃ r, hostWrite o v s = s.writeReg r v)) := by
  cases hb : s.busy
  · right
    refine ⟨rfl, ?_⟩
    unfold hostWrite
    rw [hb]
    simp only [Bool.false_eq_true, if_false]
    split
    · exact .inl rfl
    · exact .inr (.inl rfl)
    · exact .inr (.inr (.inl rfl))
    · rename_i r _ _ _; exact .inr (.inr (.inr ⟨r, rfl⟩))
  · left
    unfold hostWrite
    rw [hb]
    exact ⟨rfl, rfl⟩

/-- One turn of a WAIT (R138): STATUS is recorded, and the WAIT stays at the head of the program while BUSY = 1. -/
theorem waitTurn_eq (s : State) :
    waitTurn s =
      { s with
        host :=
          { s.host with
            reads := s.status :: s.host.reads
            queue := if s.busy then .wait :: s.host.queue else s.host.queue } } := by
  unfold waitTurn
  cases s.busy <;> rfl

/-- CHKERR (R138): STATUS is recorded, and the program is in error from then on if ERR is set. -/
theorem chkerrTurn_eq (s : State) :
    chkerrTurn s =
      { s with
        host := { s.host with reads := s.status :: s.host.reads, inError := s.host.inError || s.status.getLsbD 1 } } := rfl

/-- The next move of the host (R391): none, where its program is exhausted; otherwise the head of it. -/
theorem hostMove_eq_ok {s t : State} :
    hostMove s = .ok t ↔
      (s.host.queue = [] ∧ t = s)
        ∨ ∃ op rest, s.host.queue = op :: rest
          ∧ hostOp op { s with host := { s.host with queue := rest } } = .ok t := by
  unfold hostMove
  cases hq : s.host.queue with
  | nil => simp [eq_comm]
  | cons op rest => simp

/-- What a step can do (R385): a move of the host, or the perform of the command in progress. -/
theorem step_eq_next {s t : State} :
    step s = .next t ↔
      (s.cmd = none ∧ hostMove s = .ok t)
        ∨ (∃ w, s.cmd = some w ∧ hostFirst s = true ∧ hostMove s.spendLag = .ok t)
        ∨ (∃ w i, s.cmd = some w ∧ hostFirst s = false ∧ decode w = .ok i ∧ exec i s = .next t)
        ∨ (∃ w r, s.cmd = some w ∧ hostFirst s = false ∧ decode w = .error r ∧ t = (illegalPending s).complete) := by
  unfold step
  cases hc : s.cmd with
  | none => simp [settle_eq_next]
  | some w =>
    cases hf : hostFirst s with
    | true => simp [settle_eq_next]
    | false =>
      cases hd : decode w with
      | ok i => simp [hd]
      | error r => simp [perform_eq_next, hd]

/-- No command is refused (R344), and no access is. -/
theorem step_ne_refused (s : State) (r : Refusal) : step s ≠ .refused r := by
  unfold step
  cases s.cmd with
  | none => simp only; cases hostMove s <;> simp [settle]
  | some w =>
    simp only
    split
    · cases hostMove s.spendLag <;> simp [settle]
    · split
      · rw [exec_eq_perform]; exact perform_ne_refused
      · exact perform_ne_refused

end Sys2Proof.Machine
end

