-- ==== Sys2Proof/Laws/Frames.lean ====
section
/-! SUPPORT. The frames of the shared operations: which fields of the state each one writes, which banks of the memory, and that
none un-writes a word or leaves the canonical form. -/

namespace Sys2Proof.Machine

/-- From `m` to `m'` only banks of `bs` were written, no written word became unwritten, and the canonical form was kept. -/
structure Memory.Moves (bs : List Bank) (m m' : Memory) : Prop where
  other : ∀ b i, b ∉ bs → m'.word b i = m.word b i
  written : ∀ b i, m.word b i ≠ none → m'.word b i ≠ none
  wf : m.wf → m'.wf

namespace Memory.Moves

theorem refl (bs : List Bank) (m : Memory) : Moves bs m m := ⟨fun _ _ _ => rfl, fun _ _ h => h, fun h => h⟩

theorem trans {bs : List Bank} {m m' m'' : Memory} (h : Moves bs m m') (h' : Moves bs m' m'') : Moves bs m m'' :=
  ⟨fun b i hb => (h'.other b i hb).trans (h.other b i hb), fun b i hw => h'.written b i (h.written b i hw),
    fun hw => h'.wf (h.wf hw)⟩

theorem mono {bs cs : List Bank} {m m' : Memory} (h : Moves bs m m') (hs : ∀ b ∈ bs, b ∈ cs) : Moves cs m m' :=
  ⟨fun b i hb => h.other b i (fun hm => hb (hs b hm)), h.written, h.wf⟩

theorem write {bs : List Bank} {m m' : Memory} (h : Moves bs m m') {b : Bank} (hb : b ∈ bs) (i : Nat) (w : Word) :
    Moves bs m (m'.write b i w) := by
  refine h.trans ⟨fun b' j hn => ?_, fun b' j hw => ?_, fun hw => Memory.wf_write hw b i w⟩
  · rw [Memory.word_write, if_neg]
    rintro ⟨rfl, -⟩
    exact hn hb
  · rw [Memory.word_write]
    split
    · simp
    · exact hw

theorem storeAt {bs : List Bank} {m m' : Memory} (h : Moves bs m m') {b : Bank} (hb : b ∈ bs) (i : Nat) (vs : List Word) :
    Moves bs m (m'.storeAt b i vs) := by
  refine h.trans ⟨fun b' j hn => ?_, fun b' j hw => ?_, fun hw => Memory.wf_storeAt hw b i vs⟩
  · rw [Memory.word_storeAt, if_neg]
    rintro ⟨rfl, -⟩
    exact hn hb
  · rw [Memory.word_storeAt]
    split
    · rename_i hj
      rw [List.getElem?_eq_getElem (by omega)]
      simp
    · exact hw

end Memory.Moves

/-- A property that every step of a fold keeps, the fold keeps. -/
theorem foldlM_keeps {α β : Type} {f : β → α → Run β} (P : β → Prop) {xs : List α} {b b' : β}
    (hf : ∀ c a c', a ∈ xs → P c → f c a = .ok c' → P c') (hb : P b) (h : xs.foldlM f b = .ok b') : P b' := by
  induction xs generalizing b with
  | nil =>
    simp only [List.foldlM_nil, pure, Except.pure, Except.ok.injEq] at h
    exact h ▸ hb
  | cons a xs ih =>
    rw [List.foldlM_cons] at h
    obtain ⟨c, hc, h⟩ := Run.bind_eq_ok.mp h
    exact ih (fun c a c' ha => hf c a c' (List.mem_cons_of_mem _ ha)) (hf b a c (by simp) hb hc) h

theorem fir_moves {m : Memory} {line : Line} {idx : Nat} {coef : RamId} {len : Nat} {x : F64} {r : Filtered}
    (h : fir m line idx coef len x = .ok r) : r.mem = m.write (.line line) idx x ∧ r.idx = (idx + 1) % len := by
  obtain ⟨y, -, rfl⟩ := fir_eq_ok.mp h
  exact ⟨rfl, rfl⟩

/-! ## The Costas loop and the early-late gate -/

theorem vco_frame {s : State} {r : Rails} (h : vco s = .ok r) :
    r.state =
      { s with
        numeric := s.numeric || !Fp.isFinite (vcoAdvance s)
        irqStatus := if Fp.isFinite (vcoAdvance s) then s.irqStatus else s.irqStatus ||| Irq.mask .numeric
        cl := { s.cl with phase := wrap (vcoAdvance s) s.clCfg.vcoTsize.toNat } } := by
  obtain ⟨vI, vQ, -, -, rfl⟩ := vco_eq_ok.mp h
  simp only [State.wrapGuard_eq]

theorem armFilters_frame {mI mQ : F64} {s : State} {r : Rails} (h : armFilters mI mQ s = .ok r) :
    r.state =
      { s with
        mem := (s.mem.write (.line .lpf1) s.cl.lpf1Idx mI).write (.line .lpf2) s.cl.lpf2Idx mQ
        cl :=
          { s.cl with
            lpf1Idx := (s.cl.lpf1Idx + 1) % s.clCfg.lpfLen.toNat
            lpf2Idx := (s.cl.lpf2Idx + 1) % s.clCfg.lpfLen.toNat } } := by
  obtain ⟨a, b, ha, hb, rfl⟩ := armFilters_eq_ok.mp h
  obtain ⟨hm, hi⟩ := fir_moves ha
  obtain ⟨hm', hi'⟩ := fir_moves hb
  rw [hm] at hm'
  simp only [hm', hi, hi']

/-- The memory an ELG sample leaves, and its decisions (R204 to R208), made on the unit with its filters moved on. -/
theorem elgCore_frame {x : F64} {s : State} {g : ElgOut} (h : elgCore x s = .ok g) :
    ∃ v w z f k,
      k =
        elgDecide s.clCfg g.m f
          { s.elg with
            samples := satInc s.elg.samples
            mfSum := g.m
            mfIdx := (s.elg.mfIdx + 1) % s.clCfg.elgMfLen.toNat
            egIdx := (s.elg.egIdx + 1) % s.clCfg.elgDelay.toNat
            elfIdx := (s.elg.elfIdx + 1) % s.clCfg.elgLfLen.toNat }
      ∧ g.trig = k.trig
      ∧ g.state =
        { s with
          mem := ((s.mem.write (.line .mf) s.elg.mfIdx v).write (.line .eg) s.elg.egIdx w).write (.line .elf) s.elg.elfIdx z
          elg := k.unit
          irqStatus := s.irqStatus ||| Safety.elgIrq s.elg.state k.unit.state k.trig } := by
  obtain ⟨m, d, f, hm, hd, hf, hg⟩ := elgCore_eq_ok.mp h
  obtain ⟨old, -, rfl⟩ := matchedFilter_eq_ok.mp hm
  obtain ⟨e, -, rfl⟩ := earlyLate_eq_ok.mp hd
  obtain ⟨a, ha, rfl⟩ := elgFilter_eq_ok.mp hf
  obtain ⟨hm', hi'⟩ := fir_moves ha
  dsimp only at hg hm' hi'
  rw [hm', hi', State.elgEvents_eq] at hg
  dsimp only at hg
  subst hg
  exact ⟨_, _, _, a.y, _, rfl, rfl, rfl⟩

theorem compDelay_frame {yI yQ : F64} {s : State} {r : Rails} (h : compDelay yI yQ s = .ok r) :
    r.state = { s with mem := r.state.mem, cl := { s.cl with cdIdx := r.state.cl.cdIdx } }
      ∧ s.mem.Moves [.line .cdI, .line .cdQ] r.state.mem
      ∧ r.state.cl.cdIdx =
        (if s.clCfg.compDelay.toNat = 0 then s.cl.cdIdx else (s.cl.cdIdx + 1) % s.clCfg.compDelay.toNat) := by
  rcases compDelay_eq_ok.mp h with ⟨h0, rfl⟩ | ⟨h0, oI, oQ, -, -, rfl⟩
  · exact ⟨rfl, .refl _ _, by rw [if_pos h0]⟩
  · refine ⟨rfl, ((Memory.Moves.refl _ _).write (by simp) _ _).write (by simp) _ _, by rw [if_neg h0]⟩

/-- CL_STEP of a ready unit (R169), all it writes but the values of its outputs. -/
theorem clStepBody_frame {s t : State} (h : clStepBody s = .ok t) :
    ∃ (m f : F64) (k : Counted),
      k =
        elgDecide s.clCfg m f
          { s.elg with
            samples := satInc s.elg.samples
            mfSum := m
            mfIdx := (s.elg.mfIdx + 1) % s.clCfg.elgMfLen.toNat
            egIdx := (s.elg.egIdx + 1) % s.clCfg.elgDelay.toNat
            elfIdx := (s.elg.elfIdx + 1) % s.clCfg.elgLfLen.toNat }
      ∧ t =
        { s with
          mem := t.mem
          cl := t.cl
          elg := k.unit
          numeric := s.numeric || !Fp.isFinite (vcoAdvance s)
          irqStatus :=
            (if Fp.isFinite (vcoAdvance s) then s.irqStatus else s.irqStatus ||| Irq.mask .numeric)
              ||| Safety.elgIrq s.elg.state k.unit.state k.trig
          dout0 := t.dout0
          dout1 := t.dout1
          dout2 := t.dout2
          dout3 := t.dout3
          symValid := k.trig }
      ∧ t.cl =
        { t.cl with
          phase := wrap (vcoAdvance s) s.clCfg.vcoTsize.toNat
          lpf1Idx := (s.cl.lpf1Idx + 1) % s.clCfg.lpfLen.toNat
          lpf2Idx := (s.cl.lpf2Idx + 1) % s.clCfg.lpfLen.toNat
          cdIdx :=
            if s.clCfg.compDelay.toNat = 0 then s.cl.cdIdx else (s.cl.cdIdx + 1) % s.clCfg.compDelay.toNat }
      ∧ s.mem.Moves
        [.line .lpf1, .line .lpf2, .line .mf, .line .eg, .line .elf, .line .cdI, .line .cdQ] t.mem := by
  simp only [clStepBody] at h
  obtain ⟨v, hv, h⟩ := Run.bind_eq_ok.mp h
  obtain ⟨y, hy, h⟩ := Run.bind_eq_ok.mp h
  obtain ⟨g, hg, h⟩ := Run.bind_eq_ok.mp h
  obtain ⟨o, ho, h⟩ := Run.bind_eq_ok.mp h
  have h1 := vco_frame hv
  have h2 := armFilters_frame hy
  rw [h1] at h2
  obtain ⟨a, b, c, f, k, hk, ht, h3⟩ := elgCore_frame hg
  obtain ⟨h4, h5, h6⟩ := compDelay_frame ho
  rw [h2] at h3 hk
  simp only [Except.ok.injEq] at h
  subst h
  rw [State.clResults_eq, ht]
  rw [h3] at h5 h6 h4
  refine ⟨g.m, f, k, hk, ?_, ?_, ?_⟩
  · simp only [State.loopf]
    rw [h4]
  · simp only [State.loopf, h6]
    rw [h4]
  · simp only [State.loopf]
    refine Memory.Moves.trans ?_ (h5.mono (by simp))
    exact (((((Memory.Moves.refl _ _).write (by simp) _ _).write (by simp) _ _).write (by simp) _ _).write (by simp) _ _).write
      (by simp) _ _

/-! ## The constellation unit -/

theorem rrcPair_moves {m : Memory} {li lq : Line} {ii iq len : Nat} {x : Point} {r : RrcOut}
    (h : rrcPair m li lq ii iq len x = .ok r) :
    r.mem = (m.write (.line li) ii x.i).write (.line lq) iq x.q ∧ r.iIdx = (ii + 1) % len ∧ r.qIdx = (iq + 1) % len := by
  obtain ⟨a, b, ha, hb, rfl⟩ := rrcPair_eq_ok.mp h
  obtain ⟨hm, hi⟩ := fir_moves ha
  obtain ⟨hm', hi'⟩ := fir_moves hb
  rw [hm] at hm'
  exact ⟨hm', hi, hi'⟩

theorem demapAccumulate_frame {s : State} {r : Pointed} (h : demapAccumulate s = .ok r) :
    r.state = { s with mem := r.state.mem, map := r.state.map }
      ∧ r.state.map =
        { s.map with
          accI := r.state.map.accI
          accQ := r.state.map.accQ
          rxiIdx := if s.mapCfg.rrcEn = 1 then (s.map.rxiIdx + 1) % s.mapCfg.rrcLen.toNat else s.map.rxiIdx
          rxqIdx := if s.mapCfg.rrcEn = 1 then (s.map.rxqIdx + 1) % s.mapCfg.rrcLen.toNat else s.map.rxqIdx }
      ∧ s.mem.Moves [.line .rxi, .line .rxq] r.state.mem
      ∧ ∀ b i, r.state.mem.word b i ≠ none → s.mem.word b i ≠ none
          ∨ (s.mapCfg.rrcEn = 1 ∧ (b = .line .rxi ∧ i = s.map.rxiIdx ∨ b = .line .rxq ∧ i = s.map.rxqIdx)) := by
  rcases demapAccumulate_eq_ok.mp h with ⟨h1, p, hp, rfl⟩ | ⟨h1, rfl⟩
  · obtain ⟨hm, hi, hq⟩ := rrcPair_moves hp
    refine ⟨rfl, ?_, ?_, ?_⟩
    · simp only [hi, hq, if_pos h1]
    · simp only [hm]
      exact ((Memory.Moves.refl _ _).write (by simp) _ _).write (by simp) _ _
    · intro b i hw
      simp only [hm, Memory.word_write] at hw
      by_cases hA : b = .line .rxi ∧ i = s.map.rxiIdx
      · exact .inr ⟨h1, .inl hA⟩
      · by_cases hB : b = .line .rxq ∧ i = s.map.rxqIdx
        · exact .inr ⟨h1, .inr hB⟩
        · left; simpa [hA, hB] using hw
  · exact ⟨rfl, by simp only [if_neg h1], .refl _ _, fun b i hw => .inl hw⟩

/-- The tick of DEMAP_ACC writes no memory (R240). -/
theorem demapTick_frame (a : Pointed) :
    demapTick a =
      { a.state with
        map := (demapTick a).map
        dout0 := (demapTick a).dout0
        dout1 := (demapTick a).dout1
        dout2 := (demapTick a).dout2
        dout3 := (demapTick a).dout3
        symValid := (demapTick a).symValid
        irqStatus := (demapTick a).irqStatus } := by
  have hd : ∀ (pt : Point) (s : State),
      demapDecide pt s =
        { s with
          map := (demapDecide pt s).map
          dout0 := (demapDecide pt s).dout0
          dout1 := (demapDecide pt s).dout1
          dout2 := (demapDecide pt s).dout2
          dout3 := (demapDecide pt s).dout3
          symValid := (demapDecide pt s).symValid
          irqStatus := (demapDecide pt s).irqStatus } := by
    intro pt s
    by_cases h : s.mapCfg.rrcEn = 1
    · simp only [demapDecide, demapBoundary, h, if_true, decodeSymbol, State.fire]
    · simp only [demapDecide, demapBoundary, h, if_false, decodeSymbol, State.fire]
  by_cases h : a.state.map.tick + 1 < a.state.mapCfg.sps.toNat
  · simp only [demapTick, h, if_true]
  · simp only [demapTick, h, if_false]
    exact hd a.pt a.state

theorem modShape_frame {u : Point} {k : Nat} {s : State} {r : Pointed} (h : modShape u k s = .ok r) :
    r.state = { s with mem := r.state.mem, map := r.state.map }
      ∧ r.state.map =
        { s.map with
          txiIdx := if s.mapCfg.rrcEn = 1 then (s.map.txiIdx + 1) % s.mapCfg.rrcLen.toNat else s.map.txiIdx
          txqIdx := if s.mapCfg.rrcEn = 1 then (s.map.txqIdx + 1) % s.mapCfg.rrcLen.toNat else s.map.txqIdx }
      ∧ s.mem.Moves [.line .txi, .line .txq] r.state.mem
      ∧ ∀ b i, r.state.mem.word b i ≠ none → s.mem.word b i ≠ none
          ∨ (s.mapCfg.rrcEn = 1 ∧ (b = .line .txi ∧ i = s.map.txiIdx ∨ b = .line .txq ∧ i = s.map.txqIdx)) := by
  rcases modShape_eq_ok.mp h with ⟨h1, p, hp, rfl⟩ | ⟨h1, rfl⟩
  · obtain ⟨hm, hi, hq⟩ := rrcPair_moves hp
    refine ⟨rfl, ?_, ?_, ?_⟩
    · simp only [hi, hq, if_pos h1]
    · simp only [hm]
      exact ((Memory.Moves.refl _ _).write (by simp) _ _).write (by simp) _ _
    · intro b i hw
      simp only [hm, Memory.word_write] at hw
      by_cases hA : b = .line .txi ∧ i = s.map.txiIdx
      · exact .inr ⟨h1, .inl hA⟩
      · by_cases hB : b = .line .txq ∧ i = s.map.txqIdx
        · exact .inr ⟨h1, .inr hB⟩
        · left; simpa [hA, hB] using hw
  · exact ⟨rfl, by simp only [if_neg h1], .refl _ _, fun b i hw => .inl hw⟩

theorem modSample_frame {u : Point} {s t : State} {k : Nat} (h : modSample u s k = .ok t) :
    t = { s with mem := t.mem, map := t.map, numeric := t.numeric, irqStatus := t.irqStatus }
      ∧ t.map =
        { s.map with
          modPhase := wrap (Fp.add s.map.modPhase s.mapCfg.modInc) s.mapCfg.modTsize.toNat
          txiIdx := if s.mapCfg.rrcEn = 1 then (s.map.txiIdx + 1) % s.mapCfg.rrcLen.toNat else s.map.txiIdx
          txqIdx := if s.mapCfg.rrcEn = 1 then (s.map.txqIdx + 1) % s.mapCfg.rrcLen.toNat else s.map.txqIdx }
      ∧ s.mem.Moves [.ram .modOut, .line .txi, .line .txq] t.mem
      ∧ ∀ b i, t.mem.word b i ≠ none → s.mem.word b i ≠ none ∨ (b = .ram .modOut ∧ i = k)
          ∨ (s.mapCfg.rrcEn = 1 ∧ (b = .line .txi ∧ i = s.map.txiIdx ∨ b = .line .txq ∧ i = s.map.txqIdx)) := by
  obtain ⟨sh, c, d, hs, -, -, rfl⟩ := modSample_eq_ok.mp h
  obtain ⟨h1, h2, h3, h4⟩ := modShape_frame hs
  rw [State.wrapGuard_eq]
  refine ⟨?_, ?_, ?_, ?_⟩
  · rw [h1]
  · rw [h2]
  · exact (h3.mono (by simp)).write (by simp) _ _
  · intro b i hw
    simp only [Memory.word_write] at hw
    by_cases hA : b = .ram .modOut ∧ i = k
    · exact .inr (.inl hA)
    · rw [if_neg hA] at hw
      rcases h4 b i hw with h | h
      · exact .inl h
      · exact .inr (.inr h)

/-! ## Order analysis -/

theorem oaAdvance_frame {s t : State} (h : oaAdvance s = .ok t) :
    t =
        { s with
          mem := t.mem
          oa := { s.oa with wp := s.oaCfg.overlap.toNat, start := s.oaCfg.overlap.toNat, frameReady := false } }
      ∧ s.mem.Moves [.ram .frameBuf, .ram .speedBuf] t.mem := by
  obtain ⟨xs, vs, -, -, rfl⟩ := oaAdvance_eq_ok.mp h
  exact ⟨rfl, ((Memory.Moves.refl _ _).storeAt (by simp) _ _).storeAt (by simp) _ _⟩

theorem oaResample_frame {rho : F64} {s t : State} (h : oaResample rho s = .ok t) :
    t = { s with mem := t.mem, freeNext := s.freeNext + s.oaCfg.fftLen.toNat }
      ∧ s.mem.Moves [.ram .rsRe, .ram .rsIm] t.mem := by
  obtain ⟨f, l, -, -, rfl⟩ := oaResample_eq_ok.mp h
  exact ⟨rfl, ((Memory.Moves.refl _ _).storeAt (by simp) _ _).storeAt (by simp) _ _⟩

theorem oaWindow_frame {s t : State} (h : oaWindow s = .ok t) :
    t = { s with mem := t.mem } ∧ s.mem.Moves [.ram .rsRe] t.mem := by
  obtain ⟨x, w, -, -, rfl⟩ := oaWindow_eq_ok.mp h
  exact ⟨rfl, (Memory.Moves.refl _ _).storeAt (by simp) _ _⟩

theorem fftRun_frame {s t : State} (h : fftRun s = .ok t) :
    t = { s with mem := t.mem } ∧ s.mem.Moves [.ram .rsRe, .ram .rsIm] t.mem := by
  obtain ⟨a, b, c, d, -, -, -, -, rfl⟩ := fftRun_eq_ok.mp h
  exact ⟨rfl, ((Memory.Moves.refl _ _).storeAt (by simp) _ _).storeAt (by simp) _ _⟩

theorem accumulate_frame {v : Spectrum} {s t : State} (h : accumulate v s = .ok t) :
    t = { s with mem := t.mem } ∧ s.mem.Moves [.ram .avgRe, .ram .avgIm] t.mem := by
  obtain ⟨ar, -, h⟩ := accumulate_eq_ok.mp h
  rcases h with ⟨-, ai, -, rfl⟩ | ⟨-, rfl⟩
  · exact ⟨rfl, ((Memory.Moves.refl _ _).storeAt (by simp) _ _).storeAt (by simp) _ _⟩
  · exact ⟨rfl, (Memory.Moves.refl _ _).storeAt (by simp) _ _⟩

theorem frameLevels_frame (v : Spectrum) (s : State) :
    frameLevels v s = { s with mem := (frameLevels v s).mem, dout0 := (frameLevels v s).dout0 }
      ∧ s.mem.Moves [.line .lin, .ram .mag, .ram .orders] (frameLevels v s).mem :=
  ⟨rfl, (((Memory.Moves.refl _ _).storeAt (by simp) _ _).storeAt (by simp) _ _).storeAt (by simp) _ _⟩

/-- The steps (a) to (f) of OA_FRAME (R286): the fields they write, and the banks. -/
theorem frameProcess_frame {rho : F64} {s t : State} (h : frameProcess rho s = .ok t) :
    t =
        { s with
          mem := t.mem
          dout0 := t.dout0
          dout1 := rho
          freeNext := s.freeNext + s.oaCfg.fftLen.toNat
          oa := { s.oa with frameCount := satInc s.oa.frameCount } }
      ∧ s.mem.Moves [.ram .rsRe, .ram .rsIm, .ram .avgRe, .ram .avgIm, .line .lin, .ram .mag, .ram .orders] t.mem := by
  obtain ⟨s1, s2, s3, v, s4, h1, h2, h3, -, h4, rfl⟩ := frameProcess_eq_ok.mp h
  obtain ⟨e1, m1⟩ := oaResample_frame h1
  obtain ⟨e2, m2⟩ := oaWindow_frame h2
  obtain ⟨e3, m3⟩ := fftRun_frame h3
  obtain ⟨e4, m4⟩ := accumulate_frame h4
  obtain ⟨e5, m5⟩ := frameLevels_frame v s4
  constructor
  · rw [e5, e4, e3, e2, e1]
  · exact ((((m1.mono (by simp)).trans (m2.mono (by simp))).trans (m3.mono (by simp))).trans (m4.mono (by simp))).trans
      (m5.mono (by simp))

end Sys2Proof.Machine
end

