-- ==== Sys2Proof/Laws/Rules.lean ====
section
/-! SUPPORT. What the rule of each command can do, case by case: the error it raises, or the operation it runs. -/

namespace Sys2Proof.Machine

/-- CL_INIT (R168). -/
theorem clInitRule_cases (s : State) :
    (∃ e, clCheck s.par s.clReg = some e ∧ clInitRule s = ({ s with clReady := false } : State).raise e)
      ∨ (clCheck s.par s.clReg = none ∧ clInitRule s = clInitDone s) := by
  unfold clInitRule
  split
  · exact .inl ⟨_, by assumption, rfl⟩
  · exact .inr ⟨by assumption, rfl⟩

/-- CL_STEP (R169). -/
theorem clStepRule_cases {s u : State} (h : clStepRule s = .ok u) :
    (s.clReady = false ∧ u = s.raise .notInit) ∨ (s.clReady = true ∧ clStepBody s = .ok u) := by
  unfold clStepRule at h
  split at h
  · exact .inr ⟨by assumption, h⟩
  · rename_i hc
    exact .inl ⟨by simpa using hc, (Except.ok.inj h).symm⟩

/-- ELG_STEP (R210). -/
theorem elgStepRule_cases {s u : State} (h : elgStepRule s = .ok u) :
    (s.clReady = false ∧ u = s.raise .notInit)
      ∨ (s.clReady = true
        ∧ ∃ g, elgCore s.din0 s = .ok g ∧ u = { g.state with dout0 := g.f, dout1 := g.m, symValid := g.trig }) := by
  unfold elgStepRule at h
  split at h
  · obtain ⟨g, hg, h⟩ := Run.bind_eq_ok.mp h
    exact .inr ⟨by assumption, g, hg, (Except.ok.inj h).symm⟩
  · rename_i hc
    exact .inl ⟨by simpa using hc, (Except.ok.inj h).symm⟩

/-- MAP_INIT (R237). -/
theorem mapInitRule_cases (s : State) :
    (∃ e, mapCheck s.par s.mapReg = some e ∧ mapInitRule s = ({ s with mapReady := false } : State).raise e)
      ∨ (mapCheck s.par s.mapReg = none ∧ mapInitRule s = mapInitDone s) := by
  unfold mapInitRule
  split
  · exact .inl ⟨_, by assumption, rfl⟩
  · exact .inr ⟨by assumption, rfl⟩

/-- MAP_ENC (R238). -/
theorem mapEncRule_cases (s : State) :
    (s.mapReady = false ∧ mapEncRule s = s.raise .notInit)
      ∨ (s.mapReady = true
        ∧ mapEncRule s = (encodeSymbol s.din0 s).state.pointResults (encodeSymbol s.din0 s).pt (encodeSymbol s.din0 s).p) := by
  unfold mapEncRule
  split
  · exact .inr ⟨by assumption, rfl⟩
  · rename_i hc
    exact .inl ⟨by simpa using hc, rfl⟩

/-- MAP_DEC (R239). -/
theorem mapDecRule_cases (s : State) :
    (s.mapReady = false ∧ mapDecRule s = s.raise .notInit)
      ∨ (s.mapReady = true
        ∧ mapDecRule s =
          { (decodeSymbol s.din0 s.din1 s).state with
            dout0 := u64 (decodeSymbol s.din0 s.din1 s).bits
            dout1 := u64 (decodeSymbol s.din0 s.din1 s).p }) := by
  unfold mapDecRule
  split
  · exact .inr ⟨by assumption, rfl⟩
  · rename_i hc
    exact .inl ⟨by simpa using hc, rfl⟩

/-- DEMAP_ACC (R240). -/
theorem demapAccRule_cases {s u : State} (h : demapAccRule s = .ok u) :
    (s.mapReady = false ∧ u = s.raise .notInit)
      ∨ (s.mapReady = true ∧ ∃ a, demapAccumulate s = .ok a ∧ u = demapTick a) := by
  unfold demapAccRule at h
  split at h
  · obtain ⟨a, ha, h⟩ := Run.bind_eq_ok.mp h
    exact .inr ⟨by assumption, a, ha, (Except.ok.inj h).symm⟩
  · rename_i hc
    exact .inl ⟨by simpa using hc, (Except.ok.inj h).symm⟩

/-- MOD_SYM (R241). -/
theorem modSymRule_cases {s u : State} (h : modSymRule s = .ok u) :
    (s.mapReady = false ∧ u = s.raise .notInit)
      ∨ (s.mapReady = true
        ∧ ∃ t, modSamples (encodeSymbol s.din0 s).pt s.mapCfg.sps.toNat (encodeSymbol s.din0 s).state = .ok t
          ∧ u = t.pointResults (encodeSymbol s.din0 s).pt (encodeSymbol s.din0 s).p) := by
  unfold modSymRule at h
  split at h
  · obtain ⟨t, ht, h⟩ := Run.bind_eq_ok.mp h
    exact .inr ⟨by assumption, t, ht, (Except.ok.inj h).symm⟩
  · rename_i hc
    exact .inl ⟨by simpa using hc, (Except.ok.inj h).symm⟩

/-- The sub-samples of MOD_SYM (R241): the fields they write, and the banks. -/
theorem modSamples_frame {u : Point} {n : Nat} {s t : State} (h : modSamples u n s = .ok t) :
    t = { s with mem := t.mem, map := t.map, numeric := t.numeric, irqStatus := t.irqStatus }
      ∧ s.mem.Moves [.ram .modOut, .line .txi, .line .txq] t.mem := by
  refine foldlM_keeps
    (P := fun t =>
      t = { s with mem := t.mem, map := t.map, numeric := t.numeric, irqStatus := t.irqStatus }
        ∧ s.mem.Moves [.ram .modOut, .line .txi, .line .txq] t.mem) ?_ ⟨rfl, .refl _ _⟩ h
  intro c a c' _ ⟨h1, h2⟩ h
  obtain ⟨e, _, m, _⟩ := modSample_frame h
  refine ⟨?_, h2.trans m⟩
  rw [e, h1]

/-- OA_INIT (R274). -/
theorem oaInitRule_cases (s : State) :
    (∃ e, oaInitRule s = oaInitFail e s)
      ∨ (oaCheck s.par s.oaReg = none
        ∧ ∃ g, icg s.oaReg.fftLen.toNat (oaInitWindow s.oaReg) = some g
          ∧ oaInitRule s = oaInitDone (oaInitWindow s.oaReg) g s) := by
  unfold oaInitRule
  split
  · exact .inl ⟨_, rfl⟩
  · split
    · exact .inl ⟨_, rfl⟩
    · exact .inr ⟨by assumption, _, by assumption, rfl⟩

/-- OA_PUSH (R275). -/
theorem oaPushRule_cases (s : State) :
    (∃ e, oaPushRule s = s.raise e)
      ∨ (s.oaReady = true ∧ s.oa.frameReady = false ∧ oaPushRule s = oaAppend s) := by
  unfold oaPushRule
  split
  · split
    · exact .inl ⟨_, rfl⟩
    · rename_i h1 h2
      exact .inr ⟨h1, by simpa using h2, rfl⟩
  · exact .inl ⟨_, rfl⟩

/-- OA_FLUSH (R276). -/
theorem oaFlushRule_cases (s : State) :
    (∃ e, oaFlushRule s = s.raise e) ∨ oaFlushRule s = s
      ∨ (s.oaReady = true ∧ s.oa.frameReady = false ∧ s.oa.start < s.oa.wp ∧ oaFlushRule s = oaZeroFill s) := by
  unfold oaFlushRule
  split
  · split
    · rename_i h1 h2
      exact .inr (.inr ⟨h1, h2.1, h2.2, rfl⟩)
    · exact .inr (.inl rfl)
  · exact .inl ⟨_, rfl⟩

/-- OA_FRAME (R286). -/
theorem oaFrameRule_cases {s u : State} (h : oaFrameRule s = .ok u) :
    (∃ e, u = s.raise e)
      ∨ (s.oaReady = true ∧ s.oa.frameReady = true
        ∧ ((∃ t, oaAdvance s = .ok t ∧ u = t.raise .badSpeed)
          ∨ ∃ rho t v, frameProcess rho s = .ok t ∧ oaAdvance t = .ok v ∧ u = v.fire .frameDone)) := by
  unfold oaFrameRule at h
  split at h
  · split at h
    · rename_i h1 h2
      refine .inr ⟨h1, h2, ?_⟩
      unfold oaFrameBody at h
      obtain ⟨speed, -, h⟩ := Run.bind_eq_ok.mp h
      split at h
      · obtain ⟨t, ht, h⟩ := Run.bind_eq_ok.mp h
        exact .inl ⟨t, ht, (Except.ok.inj h).symm⟩
      · obtain ⟨t, ht, h⟩ := Run.bind_eq_ok.mp h
        obtain ⟨v, hv, h⟩ := Run.bind_eq_ok.mp h
        exact .inr ⟨_, t, v, ht, hv, (Except.ok.inj h).symm⟩
    · exact .inl ⟨_, (Except.ok.inj h).symm⟩
  · exact .inl ⟨_, (Except.ok.inj h).symm⟩

/-- OA_FINAL (R287). -/
theorem oaFinalRule_cases {s u : State} (h : oaFinalRule s = .ok u) :
    (∃ e, u = s.raise e)
      ∨ (s.oaReady = true ∧ s.oa.frameCount ≠ 0
        ∧ u = { s with mem := u.mem, dout0 := Fp.ofNat s.oa.frameCount }
        ∧ ∃ xs ys, xs.length ≤ s.oaCfg.fftLen.toNat / 2 ∧ ys.length ≤ s.oaCfg.fftLen.toNat / 2
          ∧ u.mem = (s.mem.storeAt (.ram .avgSpec) 0 xs).storeAt (.ram .avgPhase) 0 ys) := by
  unfold oaFinalRule at h
  split at h
  · split at h
    · exact .inl ⟨_, (Except.ok.inj h).symm⟩
    · rename_i h1 h2
      unfold oaFinalBody at h
      obtain ⟨ar, har, h⟩ := Run.bind_eq_ok.mp h
      obtain ⟨ai, hai, h⟩ := Run.bind_eq_ok.mp h
      have h := (Except.ok.inj h).symm
      subst h
      refine .inr ⟨h1, h2, rfl, _, _, ?_, ?_, rfl⟩
      · simp [Memory.load_length har]
      · simp [Memory.load_length har]
  · exact .inl ⟨_, (Except.ok.inj h).symm⟩

/-- FFT (R311). -/
theorem fftRule_cases {s u : State} (h : fftRule s = .ok u) :
    (∃ e, u = s.raise e) ∨ (s.oaReady = true ∧ fftRun s = .ok u) := by
  unfold fftRule at h
  split at h
  · exact .inr ⟨by assumption, h⟩
  · exact .inl ⟨_, (Except.ok.inj h).symm⟩

/-- WINGEN (R312). -/
theorem wingenRule_cases {s u : State} (h : wingenRule s = .ok u) :
    (∃ e, u = s.raise e)
      ∨ (s.oaReady = true ∧ s.oaReg.winType.toNat ≤ 5 ∧ Fp.isFinite s.oaReg.winCoef = true
        ∧ ∃ tw g, s.mem.load (.ram .fftTw) 0 s.oaCfg.fftLen.toNat = .ok tw
          ∧ icg s.oaCfg.fftLen.toNat (window tw s.oaCfg.fftLen.toNat s.oaReg.winType s.oaReg.winCoef) = some g
          ∧ u = wingenDone (window tw s.oaCfg.fftLen.toNat s.oaReg.winType s.oaReg.winCoef) g s) := by
  unfold wingenRule at h
  split at h
  · split at h
    · exact .inl ⟨_, (Except.ok.inj h).symm⟩
    · split at h
      · rename_i h1 h2 h3
        unfold wingenBody at h
        obtain ⟨tw, htw, h⟩ := Run.bind_eq_ok.mp h
        dsimp only at h
        split at h
        · exact .inl ⟨_, (Except.ok.inj h).symm⟩
        · exact .inr ⟨h1, by omega, h3, tw, _, htw, by assumption, (Except.ok.inj h).symm⟩
      · exact .inl ⟨_, (Except.ok.inj h).symm⟩
  · exact .inl ⟨_, (Except.ok.inj h).symm⟩

/-- SINC_RS (R313). -/
theorem sincRsRule_cases {s u : State} (h : sincRsRule s = .ok u) :
    (∃ e, u = s.raise e) ∨ (s.oaReady = true ∧ oaResample s.din0 s = .ok u) := by
  unfold sincRsRule at h
  split at h
  · split at h
    · exact .inl ⟨_, (Except.ok.inj h).symm⟩
    · exact .inr ⟨by assumption, h⟩
  · exact .inl ⟨_, (Except.ok.inj h).symm⟩

end Sys2Proof.Machine
end

