-- ==== Sys2Proof/Laws/Faults.lean ====
section
/-! SUPPORT. What a command can stop with: UNWRITTEN, where it reads a word that was never written (60_exceptions.md R344), and
nothing else. -/

namespace Sys2Proof.Machine

/-- The only model fault of the answer is UNWRITTEN (R344). -/
abbrev Run.OnlyUnwritten {α : Type} (r : Run α) : Prop := ∀ f, r = .error f → f = .unwritten

theorem Run.OnlyUnwritten.ok {α : Type} (a : α) : Run.OnlyUnwritten (.ok a) := fun _ h => by cases h

theorem Run.OnlyUnwritten.bind {α β : Type} {r : Run α} {f : α → Run β} (h : r.OnlyUnwritten)
    (hf : ∀ a, (f a).OnlyUnwritten) : Run.OnlyUnwritten (r >>= f) := by
  cases r with
  | ok a => exact hf a
  | error e => intro g hg; cases hg; exact h _ rfl

theorem Run.OnlyUnwritten.foldlM {α β : Type} {f : β → α → Run β} (hf : ∀ b a, (f b a).OnlyUnwritten) (xs : List α)
    (b : β) : Run.OnlyUnwritten (xs.foldlM f b) := by
  induction xs generalizing b with
  | nil => exact .ok b
  | cons a xs ih => rw [List.foldlM_cons]; exact (hf b a).bind ih

theorem Memory.read_onlyUnwritten (m : Memory) (b : Bank) (i : Nat) : (m.read b i).OnlyUnwritten :=
  fun _ h => (Memory.read_eq_error.mp h).1

theorem fir_onlyUnwritten (m : Memory) (line : Line) (idx : Nat) (coef : RamId) (len : Nat) (x : F64) :
    (fir m line idx coef len x).OnlyUnwritten :=
  .bind
    (.foldlM (fun _ _ => .bind (Memory.read_onlyUnwritten _ _ _) fun _ => .bind (Memory.read_onlyUnwritten _ _ _) fun _ => .ok _)
      _ _)
    fun _ => .ok _

theorem elgCore_onlyUnwritten (x : F64) (s : State) : (elgCore x s).OnlyUnwritten :=
  .bind (.bind (Memory.read_onlyUnwritten _ _ _) fun _ => .ok _) fun _ =>
    .bind (.bind (Memory.read_onlyUnwritten _ _ _) fun _ => .ok _) fun _ =>
      .bind (.bind (fir_onlyUnwritten _ _ _ _ _ _) fun _ => .ok _) fun _ => .ok _

theorem clStepBody_onlyUnwritten (s : State) : (clStepBody s).OnlyUnwritten := by
  refine .bind (.bind (Memory.read_onlyUnwritten _ _ _) fun _ => .bind (Memory.read_onlyUnwritten _ _ _) fun _ => .ok _)
    fun _ => .bind (.bind (fir_onlyUnwritten _ _ _ _ _ _) fun _ => .bind (fir_onlyUnwritten _ _ _ _ _ _) fun _ => .ok _)
    fun _ => .bind (elgCore_onlyUnwritten _ _) fun _ => .bind ?_ fun _ => .ok _
  unfold compDelay
  dsimp only
  split
  · exact .ok _
  · exact .bind (Memory.read_onlyUnwritten _ _ _) fun _ => .bind (Memory.read_onlyUnwritten _ _ _) fun _ => .ok _

theorem rrcPair_onlyUnwritten (m : Memory) (li lq : Line) (ii iq len : Nat) (x : Point) :
    (rrcPair m li lq ii iq len x).OnlyUnwritten :=
  .bind (fir_onlyUnwritten _ _ _ _ _ _) fun _ => .bind (fir_onlyUnwritten _ _ _ _ _ _) fun _ => .ok _

theorem demapAccumulate_onlyUnwritten (s : State) : (demapAccumulate s).OnlyUnwritten := by
  unfold demapAccumulate
  split
  · exact .bind (rrcPair_onlyUnwritten _ _ _ _ _ _ _) fun _ => .ok _
  · exact .ok _

theorem modSamples_onlyUnwritten (u : Point) (n : Nat) (s : State) : (modSamples u n s).OnlyUnwritten := by
  refine .foldlM (fun s k => .bind ?_ fun _ => .bind (Memory.read_onlyUnwritten _ _ _) fun _ =>
    .bind (Memory.read_onlyUnwritten _ _ _) fun _ => .ok _) _ _
  unfold modShape
  split
  · exact .bind (rrcPair_onlyUnwritten _ _ _ _ _ _ _) fun _ => .ok _
  · exact .ok _

theorem Memory.load_onlyUnwritten (m : Memory) (b : Bank) (i n : Nat) : (m.load b i n).OnlyUnwritten :=
  fun _ h => Memory.load_error h

theorem oaAdvance_onlyUnwritten (s : State) : (oaAdvance s).OnlyUnwritten :=
  .bind (Memory.load_onlyUnwritten _ _ _ _) fun _ => .bind (Memory.load_onlyUnwritten _ _ _ _) fun _ => .ok _

theorem oaResample_onlyUnwritten (rho : F64) (s : State) : (oaResample rho s).OnlyUnwritten :=
  .bind (Memory.load_onlyUnwritten _ _ _ _) fun _ => .bind (Memory.load_onlyUnwritten _ _ _ _) fun _ => .ok _

theorem fftRun_onlyUnwritten (s : State) : (fftRun s).OnlyUnwritten :=
  .bind (Memory.load_onlyUnwritten _ _ _ _) fun _ => .bind (Memory.load_onlyUnwritten _ _ _ _) fun _ =>
    .bind (Memory.load_onlyUnwritten _ _ _ _) fun _ => .bind (Memory.load_onlyUnwritten _ _ _ _) fun _ => .ok _

theorem frameProcess_onlyUnwritten (rho : F64) (s : State) : (frameProcess rho s).OnlyUnwritten := by
  refine .bind (oaResample_onlyUnwritten _ _) fun _ =>
    .bind (.bind (Memory.load_onlyUnwritten _ _ _ _) fun _ => .bind (Memory.load_onlyUnwritten _ _ _ _) fun _ => .ok _)
      fun _ => .bind (fftRun_onlyUnwritten _) fun _ =>
        .bind (.bind (Memory.load_onlyUnwritten _ _ _ _) fun _ => .bind (Memory.load_onlyUnwritten _ _ _ _) fun _ => .ok _)
          fun _ => .bind ?_ fun _ => .ok _
  refine .bind (Memory.load_onlyUnwritten _ _ _ _) fun _ => ?_
  split
  · exact .bind (Memory.load_onlyUnwritten _ _ _ _) fun _ => .ok _
  · exact .ok _

theorem oaFrameBody_onlyUnwritten (s : State) : (oaFrameBody s).OnlyUnwritten := by
  refine .bind (Memory.read_onlyUnwritten _ _ _) fun _ => ?_
  split
  · exact .bind (oaAdvance_onlyUnwritten _) fun _ => .ok _
  · exact .bind (frameProcess_onlyUnwritten _ _) fun _ => .bind (oaAdvance_onlyUnwritten _) fun _ => .ok _

/-- A command that stops stops with UNWRITTEN (R344): no command is a BUS_ERROR. -/
theorem exec_fault {i : Instr} {s : State} {f : Fault} (h : exec i s = .fault f) : f = .unwritten := by
  rw [exec_eq_perform, perform_eq_fault] at h
  refine (show (ruleOf i s).OnlyUnwritten from ?_) f h
  cases i with
  | nop | clInit | mapInit | mapEnc | mapDec | oaInit | oaPush | oaFlush | clrErr | softReset => exact .ok _
  | clStep =>
    simp only [ruleOf, clStepRule]
    split
    · exact clStepBody_onlyUnwritten _
    · exact .ok _
  | elgStep =>
    simp only [ruleOf, elgStepRule]
    split
    · exact .bind (elgCore_onlyUnwritten _ _) fun _ => .ok _
    · exact .ok _
  | demapAcc =>
    simp only [ruleOf, demapAccRule]
    split
    · exact .bind (demapAccumulate_onlyUnwritten _) fun _ => .ok _
    · exact .ok _
  | modSym =>
    simp only [ruleOf, modSymRule]
    split
    · exact .bind (modSamples_onlyUnwritten _ _ _) fun _ => .ok _
    · exact .ok _
  | oaFrame =>
    simp only [ruleOf, oaFrameRule]
    split
    · split
      · exact oaFrameBody_onlyUnwritten _
      · exact .ok _
    · exact .ok _
  | oaFinal =>
    simp only [ruleOf, oaFinalRule]
    split
    · split
      · exact .ok _
      · exact .bind (Memory.load_onlyUnwritten _ _ _ _) fun _ => .bind (Memory.load_onlyUnwritten _ _ _ _) fun _ => .ok _
    · exact .ok _
  | fft =>
    simp only [ruleOf, fftRule]
    split
    · exact fftRun_onlyUnwritten _
    · exact .ok _
  | wingen =>
    simp only [ruleOf, wingenRule]
    split
    · split
      · exact .ok _
      · split
        · refine .bind (Memory.load_onlyUnwritten _ _ _ _) fun _ => ?_
          dsimp only
          split <;> exact .ok _
        · exact .ok _
    · exact .ok _
  | sincRs =>
    simp only [ruleOf, sincRsRule]
    split
    · split
      · exact .ok _
      · exact oaResample_onlyUnwritten _ _
    · exact .ok _

/-- A command whose rule gives no state stops with UNWRITTEN. -/
theorem exec_unwritten {i : Instr} {s : State} (h : ∀ u, ruleOf i s ≠ .ok u) : exec i s = .fault .unwritten := by
  cases hr : ruleOf i s with
  | ok u => exact absurd hr (h u)
  | error f =>
    have e : exec i s = .fault f := by rw [exec_eq_perform, perform_eq_fault]; exact hr
    rw [e, exec_fault e]

end Sys2Proof.Machine
end

