-- ==== Sys2Proof/Laws/PerInstr.lean ====
section
/-! SUPPORT. A statement of every command as syntax, made and proved command by command: it is well formed (30_encoding.md R130,
no operand field to check), its word is its opcode zero-extended, with the reserved bits zero, and its word decodes to it. -/

namespace Sys2Proof.Laws

/-- The word of a command (R130, R133). -/
def Encoding.Statement (i : Instr) : Prop :=
  i.wf = true ∧ (encode i).toNat = (opcode i).toNat ∧ reservedZero (encode i) = true
    ∧ decodeTableWord 64 (encode i).toNat = some i

theorem Encoding.nop : Encoding.Statement .nop := by unfold Encoding.Statement; decide
theorem Encoding.clInit : Encoding.Statement .clInit := by unfold Encoding.Statement; decide
theorem Encoding.clStep : Encoding.Statement .clStep := by unfold Encoding.Statement; decide
theorem Encoding.elgStep : Encoding.Statement .elgStep := by unfold Encoding.Statement; decide
theorem Encoding.mapInit : Encoding.Statement .mapInit := by unfold Encoding.Statement; decide
theorem Encoding.mapEnc : Encoding.Statement .mapEnc := by unfold Encoding.Statement; decide
theorem Encoding.mapDec : Encoding.Statement .mapDec := by unfold Encoding.Statement; decide
theorem Encoding.demapAcc : Encoding.Statement .demapAcc := by unfold Encoding.Statement; decide
theorem Encoding.modSym : Encoding.Statement .modSym := by unfold Encoding.Statement; decide
theorem Encoding.oaInit : Encoding.Statement .oaInit := by unfold Encoding.Statement; decide
theorem Encoding.oaPush : Encoding.Statement .oaPush := by unfold Encoding.Statement; decide
theorem Encoding.oaFlush : Encoding.Statement .oaFlush := by unfold Encoding.Statement; decide
theorem Encoding.oaFrame : Encoding.Statement .oaFrame := by unfold Encoding.Statement; decide
theorem Encoding.oaFinal : Encoding.Statement .oaFinal := by unfold Encoding.Statement; decide
theorem Encoding.fft : Encoding.Statement .fft := by unfold Encoding.Statement; decide
theorem Encoding.wingen : Encoding.Statement .wingen := by unfold Encoding.Statement; decide
theorem Encoding.sincRs : Encoding.Statement .sincRs := by unfold Encoding.Statement; decide
theorem Encoding.clrErr : Encoding.Statement .clrErr := by unfold Encoding.Statement; decide
theorem Encoding.softReset : Encoding.Statement .softReset := by unfold Encoding.Statement; decide

end Sys2Proof.Laws
end

