-- ==== Sys2Proof/Machine/Asm.lean ====
section
/-! DEFINITION. The assembler of host programs (30_encoding.md R137, R138): the bus transactions of a statement. -/

namespace Sys2Proof.Machine

/-- The transaction (R, offset(REG)) of `RD <REG>` (R137). -/
def rdOp (r : Reg) : HostOp := .bus { dir := .read, offset := r.offset, bits := 64, data := 0 }

/-- The transaction (W, offset(REG), v) of `WR <REG>, v` (R137). -/
def wrOp (r : Reg) (v : Word) : HostOp := .bus { dir := .write, offset := r.offset, bits := 64, data := v }

/-- The binary64 pattern of a decimal (R138). -/
def Decimal.pattern (d : Decimal) : F64 := Fp.ofDecimal d.neg d.digits d.exp

/-- The word an LDRAM value stands for (R138): "a `v` written as a decimal in LDRAM is its binary64 pattern". -/
def Value.word : Value → Word
  | .hex w => w
  | .decimal d => Decimal.pattern d

/-- The transactions of a statement (R137) or the expansion of a pseudo-instruction (R138), of a statement that is well formed. -/
def Stmt.expand : Stmt → List HostOp
  | .wr r v => [wrOp r v]
  | .rd r => [rdOp r]
  | .cmd i => [wrOp .cmd (encode i)]
  | .wrf r d => [wrOp r (Decimal.pattern d)]
  | .wru r n => [wrOp r (u64 n)]
  | .wait => [.wait]
  | .exec i => [wrOp .cmd (encode i), .wait]
  | .ldram ram addr vs => wrOp .ramSel (u64 ram.id) :: wrOp .ramAddr (u64 addr) :: vs.map (fun v => wrOp .ramData (Value.word v))
  | .rdram ram addr n => wrOp .ramSel (u64 ram.id) :: wrOp .ramAddr (u64 addr) :: List.replicate n (rdOp .ramData)
  | .chkerr => [.chkerr]

/-- A program is encoded as its list of transactions (R139); none where one of its statements is not well formed. -/
def assemble (p : List Stmt) : Option (List HostOp) := if p.all Stmt.wf then some (p.flatMap Stmt.expand) else none

/-- The state of a block after power-on reset whose host has the program `p` still to run; none where `p` does not assemble. -/
def State.running (p : List Stmt) : Option State :=
  (assemble p).map (fun q => State.powerOn Params.defaults { HostSide.idle with queue := q } 0)

end Sys2Proof.Machine
end

