-- ==== Sys2Proof/Tests/Slice0.lean ====
section
/-! SUPPORT. The model's own tests: the well-formedness checks refuse an ill-formed term each, every command's word decodes to it,
the commands' examples of spec/ come out as the spec works them, and every statement's hypotheses are met by a concrete state. -/

namespace Sys2Proof.Tests

-- One test after another: each evaluates in the kernel, and many at once would hold a thread each.
set_option Elab.async false

open Sys2Proof.Machine Sys2Proof.Safety

/-! ## Small states -/

/-- Small capacities that meet R8. -/
def small : Params :=
  { maxTab := 8, maxFir := 4, maxDelay := 4, maxSps := 4, minFft := 4, maxFft := 8, maxSampleLen := 8, maxSincAdj := 4,
    maxSincLut := 8, maxOrders := 4, maxOrderAdj := 4 }

/-- The reset state with small capacities. -/
def rest : State := { State.reset with par := small }

/-- The outcome is a next state. -/
def isNext : Host.Outcome State Fault Refusal → Bool
  | .next _ => true
  | .fault _ => false
  | .refused _ => false

/-- The outcome is the fault UNWRITTEN. -/
def isUnwritten : Host.Outcome State Fault Refusal → Bool
  | .next _ => false
  | .fault f => f == .unwritten
  | .refused _ => false

/-- The state an outcome leads to, or `rest`. -/
def stateOf : Host.Outcome State Fault Refusal → State
  | .next t => t
  | .fault _ => rest
  | .refused _ => rest

theorem next_of {o : Host.Outcome State Fault Refusal} (h : isNext o = true) : ∃ t, o = .next t := by
  cases o with
  | next t => exact ⟨t, rfl⟩
  | fault f => exact absurd h (by simp [isNext])
  | refused r => exact absurd h (by simp [isNext])

/-- The state after a command. -/
def after (i : Instr) (s : State) : State := stateOf (exec i s)

/-- A RAM filled from word 0. -/
def fill (r : RamId) (vs : List Word) (s : State) : State := { s with mem := s.mem.storeAt (.ram r) 0 vs }

/-- The first `n` words of a bank. -/
def words (s : State) (b : Bank) (n : Nat) : List (Option Word) := (List.range n).map (s.mem.word b)

/-- The configuration CL-A of spec/95_test_vectors.md, FB_MODE = 2, with the compensating delay `d`. -/
def clA (d : Word) : ClConfig :=
  { vcoTsize := 4, carInc := Fp.one, vcoModidx := Fp.one, lpfLen := 2, loopAlpha := Fp.half, fbMode := 2, elgSymlen := 4,
    elgMfLen := 2, elgDelay := 1, elgLfLen := 1, elgThresh := Fp.half, compDelay := d, acqLimit := 0 }

/-- CL_INIT done on `clA d`, the coefficients written, a sample 1.0 in DIN0. -/
def clOn (d : Word) : State :=
  { fill .elgLfCoef [Fp.one] (fill .lpfCoef [Fp.one, Fp.one] (after .clInit { rest with clReg := clA d })) with
    din0 := Fp.one }

/-- A MAP configuration: mode, DIFF_EN, SPS and RRC_EN, with RRC_LEN = 2. -/
def mapA (mode diff sps rrc : Word) : MapConfig :=
  { modMode := mode, diffEn := diff, sps := sps, rrcEn := rrc, rrcLen := 2, qamThresh := Fp.two, modTsize := 4,
    modInc := Fp.one }

/-- MAP_INIT done on a configuration, RRC_COEF = [1.0, 0.5]. -/
def mapOn (c : MapConfig) : State := fill .rrcCoef [Fp.one, Fp.half] (after .mapInit { rest with mapReg := c })

/-- The OA configuration of the example of R286, with AVG_MODE and OVERLAP given. -/
def oaA (avg lo : Word) : OaConfig :=
  { sampleLen := 4, overlap := lo, fftLen := 4, sincNa := 1, sincLutlen := 2, winType := 0, winCoef := Fp.zero,
    fof := Fp.one, sampleRate := 0x4010000000000000#64, logMode := 0, avgMode := avg, cohType := 0, dbScale := Fp.one,
    baseOrder := 1, numOrders := 1, orderAdj := 0, numSum := 1, logFloor := Fp.one }

/-- OA_INIT done. -/
def oaOn (avg lo : Word) : State := after .oaInit { rest with oaReg := oaA avg lo }

/-- OA_PUSH of a pair. -/
def push (v speed : F64) (s : State) : State := after .oaPush { s with din0 := v, din1 := speed }

/-- The frame [1.0, 0.0, -1.0, 0.0] pushed at a speed. -/
def framed (speed : F64) (s : State) : State :=
  push Fp.zero speed (push Fp.negOne speed (push Fp.zero speed (push Fp.one speed s)))

/-- A ready frame at 60 rpm, overlap 2. -/
def ready : State := framed Fp.sixty (oaOn 0 2)

/-- The pending command `w` with `lag` host operations before its perform and the host's program `q`. -/
def pending (w : Word) (lag : Nat) (q : List HostOp) : State :=
  { rest with cmd := some w, host := { HostSide.idle with queue := q, lag := lag } }

/-- A host at its program with no command in progress. -/
def hosting (q : List HostOp) : State := { rest with host := { HostSide.idle with queue := q } }

/-- Plus infinity. -/
def inf : F64 := Fp.infOf false

/-! ## Well-formedness: each check refuses an ill-formed term -/

theorem test_params_defaults_wf : Params.defaults.wf = true ∧ small.wf = true := by decide +kernel

theorem test_params_refused :
    ({ small with maxTab := 10 } : Params).wf = false ∧ ({ small with maxTab := 0 } : Params).wf = false
      ∧ ({ small with minFft := 6 } : Params).wf = false ∧ ({ small with maxFft := 12 } : Params).wf = false
      ∧ ({ small with minFft := 2 } : Params).wf = false ∧ ({ small with minFft := 16 } : Params).wf = false
      ∧ ({ small with maxFir := 0 } : Params).wf = false ∧ ({ small with maxDelay := 0 } : Params).wf = false
      ∧ ({ small with maxSps := 0 } : Params).wf = false ∧ ({ small with maxSampleLen := 0 } : Params).wf = false
      ∧ ({ small with maxSincAdj := 0 } : Params).wf = false ∧ ({ small with maxSincLut := 0 } : Params).wf = false
      ∧ ({ small with maxOrders := 0 } : Params).wf = false ∧ ({ small with maxOrderAdj := 0 } : Params).wf = false := by
  decide +kernel

theorem test_access_refused :
    Access.legal ⟨.read, 0x010#12, 32, 0⟩ = false ∧ Access.legal ⟨.write, 0x00C#12, 64, 0⟩ = false
      ∧ Access.legal ⟨.write, 0x008#12, 64, 0⟩ = true := by decide

theorem test_statement_refused :
    Stmt.wf (.wru .din0 18446744073709551616) = false ∧ Stmt.wf (.ldram .lpfCoef 0 []) = false
      ∧ Stmt.wf (.ldram .lpfCoef 18446744073709551616 [.hex 0]) = false
      ∧ Stmt.wf (.rdram .vtab 18446744073709551616 1) = false := by decide

/-- R138, "the decimal must be exact in binary64": 0.1, 2^53 + 1 and 1e400 are not; 0.5, -2.5, -0.0 and 2^53 are. -/
theorem test_decimal_refused :
    [⟨false, 1, -1⟩, ⟨false, 9007199254740993, 0⟩, ⟨false, 1, 400⟩].all (fun d => !Stmt.wf (.wrf .din0 d)) = true
      ∧ [⟨false, 5, -1⟩, ⟨true, 25, -1⟩, ⟨true, 0, 0⟩, ⟨false, 9007199254740992, 0⟩].all (fun d => Stmt.wf (.wrf .din0 d))
        = true
      ∧ assemble [.wait, .wrf .din0 ⟨false, 1, -1⟩] = none := by decide +kernel

theorem test_reserved_refused : reservedZero 0x100#64 = false ∧ reservedZero 0xFF#64 = true := by decide

theorem test_memory_refused :
    ¬ Memory.wf (Memory.empty.setCells (.ram .lpfCoef) [(1, 0), (0, 0)])
      ∧ ¬ Memory.wf (Memory.empty.setCells (.ram .lpfCoef) [(1, 0), (1, 0)]) := by decide +kernel

/-! ## Decoding: the word of every command, from the table of R133 -/

theorem test_decode_housekeeping :
    decode 0x0000000000000000#64 = .ok .nop ∧ decode 0x00000000000000F0#64 = .ok .clrErr
      ∧ decode 0x00000000000000FF#64 = .ok .softReset := by decide

theorem test_decode_cl :
    decode 0x0000000000000001#64 = .ok .clInit ∧ decode 0x0000000000000002#64 = .ok .clStep
      ∧ decode 0x0000000000000003#64 = .ok .elgStep := by decide

theorem test_decode_map :
    decode 0x0000000000000010#64 = .ok .mapInit ∧ decode 0x0000000000000011#64 = .ok .mapEnc
      ∧ decode 0x0000000000000012#64 = .ok .mapDec ∧ decode 0x0000000000000013#64 = .ok .demapAcc
      ∧ decode 0x0000000000000014#64 = .ok .modSym := by decide

theorem test_decode_oa :
    decode 0x0000000000000020#64 = .ok .oaInit ∧ decode 0x0000000000000021#64 = .ok .oaPush
      ∧ decode 0x0000000000000022#64 = .ok .oaFlush ∧ decode 0x0000000000000023#64 = .ok .oaFrame
      ∧ decode 0x0000000000000024#64 = .ok .oaFinal := by decide

theorem test_decode_primitives :
    decode 0x0000000000000030#64 = .ok .fft ∧ decode 0x0000000000000031#64 = .ok .wingen
      ∧ decode 0x0000000000000032#64 = .ok .sincRs := by decide

/-- R134: the ends of every illegal range, and a reserved bit. -/
theorem test_decode_illegal :
    [0x04, 0x0F, 0x15, 0x1F, 0x25, 0x2F, 0x33, 0xEF, 0xF1, 0xFE].all
        (fun n => decode (BitVec.ofNat 64 n) = .error (.unassigned (BitVec.ofNat 8 n))) = true
      ∧ decode 0x102#64 = .error (.reservedBits 0x102#64) := by decide

/-- A command runs as the first one after reset. -/
theorem test_fetch : step (State.reset.withFetchWord 8 0xF0) = exec .clrErr (State.reset.withFetchWord 8 0xF0) := by rfl

/-- Every register's offset finds it again (R101), and every register is listed. -/
theorem test_offsets : Reg.all.all (fun r => Reg.ofOffset r.offset = some r) = true ∧ Reg.all.length = 68 := by
  decide +kernel

/-! ## Arithmetic -/

/-- Decimals of R272 and of spec/95_test_vectors.md, a subnormal and an overflow, as their nearest binary64 values (R10). -/
theorem test_decimal :
    Fp.ofDecimal false 54 (-2) = 0x3FE147AE147AE148#64 ∧ Fp.ofDecimal false 8 (-2) = 0x3FB47AE147AE147B#64
      ∧ Fp.ofDecimal true 10 (-1) = 0xBFF0000000000000#64 ∧ Fp.ofDecimal false 200 (-1) = 0x4034000000000000#64
      ∧ Fp.ofDecimal false 5 (-324) = 1#64 ∧ Fp.ofDecimal false 18 307 = inf ∧ Fp.ofDecimal true 0 0 = 0x8000000000000000#64 := by
  decide +kernel

/-- 0.1 + 0.2, 1/3, sqrt 2, a tie to even, an overflow and the smallest subnormal halved: IEEE 754 results. -/
theorem test_arithmetic :
    Fp.add 0x3FB999999999999A#64 0x3FC999999999999A#64 = 0x3FD3333333333334#64
      ∧ Fp.div Fp.one Fp.three = 0x3FD5555555555555#64 ∧ Fp.sqrt Fp.two = 0x3FF6A09E667F3BCD#64
      ∧ Fp.add 0x4340000000000000#64 Fp.one = 0x4340000000000000#64
      ∧ Fp.add 0x7FEFFFFFFFFFFFFF#64 0x7FEFFFFFFFFFFFFF#64 = inf ∧ Fp.mul 1#64 Fp.half = 0#64
      ∧ Fp.sub inf inf = Fp.nan ∧ Fp.floor (Fp.neg Fp.half) = -1 := by decide +kernel

/-! ## Commands: the examples of spec/ -/

/-- The example of R168. -/
theorem test_clInit :
    words (after .clInit { rest with clReg := clA 0 }) (.ram .vtab) 5
        = [some 0, some Fp.one, some 0, some Fp.negOne, some 0]
      ∧ (after .clInit { rest with clReg := clA 0 }).status = 0x10000#64 := by decide +kernel

/-- V-CL-1, steps 1 and 2. -/
theorem test_clStep_first :
    (after .clStep (clOn 0)).dout2 = Fp.one ∧ (after .clStep (clOn 0)).dout3 = 0 ∧ (after .clStep (clOn 0)).cl.phase = Fp.one
      ∧ (after .clStep (clOn 0)).cl.fb = 0 := by decide +kernel

theorem test_clStep_second :
    (after .clStep (after .clStep (clOn 0))).cl.phase = Fp.two ∧ (after .clStep (after .clStep (clOn 0))).cl.lf = Fp.half
      ∧ (after .clStep (after .clStep (clOn 0))).elg.state = .acquiring := by decide +kernel

/-- V-ELG-1: pulse train 1.0, 0.0, ...; the first trigger is at sample 2. -/
theorem test_elgStep :
    (after .elgStep (clOn 0)).symValid = false
      ∧ (after .elgStep { after .elgStep (clOn 0) with din0 := 0 }).symValid = true
      ∧ (after .elgStep { after .elgStep (clOn 0) with din0 := 0 }).irqStatus = 0x82#8 := by decide +kernel

/-- The example of R237. -/
theorem test_mapInit :
    words (mapOn (mapA 1 0 2 0)) (.ram .mtab) 5 = [some 0, some Fp.one, some 0, some Fp.negOne, some 0]
      ∧ (mapOn (mapA 1 0 2 0)).status = 0x20000#64 := by decide +kernel

/-- The example of R238. -/
theorem test_mapEnc :
    (after .mapEnc { mapOn (mapA 2 0 2 0) with din0 := 5 }).dout0 = 0xC008000000000000#64
      ∧ (after .mapEnc { mapOn (mapA 2 0 2 0) with din0 := 5 }).dout1 = Fp.one
      ∧ (after .mapEnc { mapOn (mapA 2 0 2 0) with din0 := 5 }).dout2 = 1 := by decide +kernel

/-- The example of R239. -/
theorem test_mapDec :
    (after .mapDec { mapOn (mapA 2 0 2 0) with din0 := 0xC008000000000000#64, din1 := Fp.one }).dout0 = 5
      ∧ (after .mapDec { mapOn (mapA 2 0 2 0) with din0 := 0xC008000000000000#64, din1 := Fp.one }).dout1 = 1 := by
  decide +kernel

/-- R163, R241: with one of two coefficients written, the filters' commands are UNWRITTEN; so are CL_STEP and ELG_STEP (R169, R210). -/
theorem test_unwritten :
    [Instr.clStep, .elgStep].all (fun i => isUnwritten (exec i (after .clInit { rest with clReg := clA 0 }))) = true
      ∧ [Instr.demapAcc, .modSym].all
          (fun i => isUnwritten (exec i (fill .rrcCoef [Fp.one] (after .mapInit { rest with mapReg := mapA 1 0 2 1 })))) = true := by
  decide +kernel

/-- The example of R240, the second pair of samples. -/
theorem test_demapAcc :
    (after .demapAcc (after .demapAcc { mapOn (mapA 1 0 2 0) with din0 := Fp.negOne, din1 := Fp.half })).dout0 = 1
      ∧ (after .demapAcc (after .demapAcc { mapOn (mapA 1 0 2 0) with din0 := Fp.negOne, din1 := Fp.half })).dout2 = Fp.half
      ∧ (after .demapAcc { mapOn (mapA 1 0 2 0) with din0 := Fp.negOne }).symValid = false := by decide +kernel

/-- The examples of R241. -/
theorem test_modSym_held :
    words (after .modSym (mapOn (mapA 1 0 4 0))) (.ram .modOut) 4
      = [some Fp.one, some Fp.one, some Fp.negOne, some Fp.negOne] := by decide +kernel

theorem test_modSym_shaped :
    words (after .modSym (mapOn (mapA 1 0 4 1))) (.ram .modOut) 4 = [some Fp.one, some Fp.half, some 0, some 0] := by
  decide +kernel

/-- The example of R274. -/
theorem test_oaInit :
    words (after .oaInit { rest with oaReg := { oaA 0 0 with winType := 1 } }) (.ram .win) 4
        = [some 0, some Fp.half, some Fp.one, some Fp.half]
      ∧ (after .oaInit { rest with oaReg := { oaA 0 0 with winType := 1 } }).oa.icg = Fp.two := by decide +kernel

theorem test_oaInit_gain :
    (after .oaInit { rest with oaReg := { oaA 0 0 with winType := 5 } }).errcode = 0x09#8
      ∧ words (oaOn 0 0) (.ram .bitrev) 4 = [some 0, some 2, some 1, some 3] := by decide +kernel

/-- The example of R275: the fourth push makes the frame ready; the fifth is dropped. -/
theorem test_oaPush :
    ready.oa.frameReady = true ∧ ready.irqStatus = 0x90#8
      ∧ (push Fp.three Fp.one ready).errcode = 0x0A#8 ∧ (push Fp.three Fp.one ready).mem = ready.mem := by decide +kernel

/-- The example of R276. -/
theorem test_oaFlush :
    words (after .oaFlush (push Fp.two Fp.one (push Fp.one Fp.one (oaOn 0 0)))) (.ram .frameBuf) 4
        = [some Fp.one, some Fp.two, some 0, some 0]
      ∧ (after .oaFlush (oaOn 0 0)).oa.frameReady = false := by decide +kernel

/-- The example of R286. -/
theorem test_oaFrame :
    words (after .oaFrame ready) (.ram .rsRe) 4 = [some 0, some Fp.two, some 0, some Fp.two]
      ∧ words (after .oaFrame ready) (.ram .mag) 2 = [some 0, some Fp.one] ∧ (after .oaFrame ready).dout0 = Fp.one
      ∧ (after .oaFrame ready).dout1 = Fp.one ∧ (after .oaFrame ready).oa.wp = 2 := by decide +kernel

/-- The example of R287. -/
theorem test_oaFinal :
    words (after .oaFinal (after .oaFrame ready)) (.ram .avgSpec) 2 = [some 0, some Fp.one]
      ∧ (after .oaFinal (after .oaFrame ready)).dout0 = Fp.one ∧ (after .oaFinal ready).errcode = 0x0D#8 := by
  decide +kernel

/-- RS_RE = [1.0, 0.0, -1.0, 0.0] and RS_IM all zero, in a ready unit. -/
def fftOn : State := fill .rsIm [0, 0, 0, 0] (fill .rsRe [Fp.one, 0, Fp.negOne, 0] (oaOn 0 2))

/-- The example of R311, and the fault on an unwritten work RAM. -/
theorem test_fft :
    words (after .fft fftOn) (.ram .rsRe) 4 = [some 0, some Fp.two, some 0, some Fp.two]
      ∧ isUnwritten (exec .fft (oaOn 0 2)) = true := by decide +kernel

/-- The example of R312. -/
theorem test_wingen :
    words (after .wingen { oaOn 0 0 with oaReg := { oaA 0 0 with winType := 4 } }) (.ram .win) 4
        = [some 0, some Fp.half, some Fp.one, some Fp.half]
      ∧ (after .wingen { oaOn 0 0 with oaReg := { oaA 0 0 with winType := 4 } }).oa.icg = Fp.two := by decide +kernel

/-- The example of R313. -/
theorem test_sincRs :
    words (after .sincRs { ready with din0 := Fp.two }) (.ram .rsRe) 4 = [some Fp.one, some Fp.negOne, some 0, some 0]
      ∧ (after .sincRs { ready with din0 := Fp.two }).oa.frameReady = true := by decide +kernel

/-- R286 and D36 at positions that pass the end of the frame, also one that overflows: zeros. -/
theorem test_sincRs_past :
    words (after .sincRs { ready with din0 := 0x7FE0000000000000#64 }) (.ram .rsRe) 2 = [some Fp.one, some 0] := by
  decide +kernel

theorem lut_finite : ∀ v ∈ ([Fp.one, 0] : List F64), Fp.isFinite v = true :=
  List.all_eq_true.mp (by decide +kernel)

theorem test_sincPast : sincPast [Fp.one, 0] 1 2 = Fp.zero := sincPast_eq_zero lut_finite 1 2

/-- R284: no vertex where the order is at an edge; the parabola through 0.0, 1.0, 0.0 has its peak at 1.0. -/
theorem test_vertex :
    vertex [Fp.one, 0] 0 = Fp.one ∧ vertex [0, Fp.one, 0] 1 = Fp.one ∧ vertex [Fp.one, Fp.one, Fp.one] 1 = Fp.one := by
  decide +kernel

theorem test_nop : exec .nop rest = .next { rest with irqStatus := 0x80#8 } := by rfl

theorem test_clrErr : (after .clrErr (rest.raise .badRatio)).status = 0 := by decide +kernel

/-- R316: IRQ_STATUS reads 0x80, the RAMs keep their contents, no unit is ready. -/
theorem test_softReset :
    (after .softReset ready).readReg .irqStatus = 0x80#64 ∧ (after .softReset ready).mem = ready.mem
      ∧ (after .softReset ready).status = 0 := by decide +kernel

/-! ## The host's program -/

/-- The state of a program's run after `n` steps, with small capacities. -/
def ran (n : Nat) (p : List Stmt) : State :=
  match State.running p with
  | none => rest
  | some s => stateOf (Sys2Proof.core.run n { s with par := small })

/-- LDRAM of a decimal and of a pattern (program P1), run step by step: the words of LPF_COEF. -/
theorem test_program :
    words (ran 4 [.ldram .lpfCoef 1 [.decimal ⟨false, 20, -1⟩, .hex Fp.half]]) (.ram .lpfCoef) 3
        = [none, some Fp.two, some Fp.half]
      ∧ (ran 4 [.ldram .lpfCoef 1 [.decimal ⟨false, 20, -1⟩, .hex Fp.half]]).ramAddr = 3
      ∧ runEnded (ran 4 [.ldram .lpfCoef 1 [.decimal ⟨false, 20, -1⟩, .hex Fp.half]]) = true := by decide +kernel

/-- R138: EXEC of a command that is not ready, then CHKERR: the program is in error; without the command it is not. -/
theorem test_chkerr :
    (ran 4 [.exec .fft, .chkerr]).host.inError = true ∧ (ran 1 [.chkerr]).host.inError = false
      ∧ (ran 4 [.exec .fft, .chkerr]).host.reads = [0x302#64, 0x302#64] := by decide +kernel

/-! ## The statements' hypotheses are met -/

theorem witness_DecodeEncode : Instr.wf .oaFrame = true ∧ decode 0x23#64 = .ok .oaFrame := by decide

theorem witness_IllegalWords :
    decode 0x04#64 = .error (.unassigned 0x04#8) ∧ decode 0x8000000000000000#64 = .error (.reservedBits 0x8000000000000000#64)
      ∧ rest.cmd = none := by decide

theorem witness_StepRunsDecoded :
    ((pending 0 0 [.wait]).cmd = some 0 ∧ decode 0 = .ok .nop ∧ (pending 0 0 [.wait]).host.lag = 0)
      ∧ ((pending 0 1 []).cmd = some 0 ∧ (pending 0 1 []).host.queue = [])
      ∧ ((pending 0 1 [.wait]).cmd = some 0 ∧ 0 < (pending 0 1 [.wait]).host.lag ∧ (pending 0 1 [.wait]).host.queue ≠ []) := by
  decide

/-- A state for each of the host's moves; an access that faults; a move while a command is in progress. -/
theorem witness_HostStep :
    ((hosting []).cmd = none ∧ (hosting []).host.queue = [])
      ∧ (Access.legal ⟨.write, 0x028#12, 64, 1⟩ = true ∧ (hosting [wrOp .din0 1]).cmd = none
        ∧ (hosting [wrOp .din0 1]).host.queue = .bus ⟨.write, 0x028#12, 64, 1⟩ :: [])
      ∧ (∃ t, hostRead 0x010#12 rest = .ok t) ∧ (∃ f, hostRead 0x068#12 rest = .error f)
      ∧ ((pending 0 1 [rdOp .id]).cmd = some 0 ∧ 0 < (pending 0 1 [rdOp .id]).host.lag)
      ∧ ((hosting [.wait]).host.queue = .wait :: [] ∧ (pending 0 1 [.wait]).host.queue = .wait :: [])
      ∧ ((hosting [.chkerr]).host.queue = .chkerr :: [] ∧ (pending 0 1 [.chkerr]).host.queue = .chkerr :: []
        ∧ 0 < (pending 0 1 [.chkerr]).host.lag) :=
  ⟨by decide, by decide, ⟨_, rfl⟩, ⟨.unwritten, by decide +kernel⟩, by decide, by decide, by decide⟩

theorem witness_IssueCommand : rest.cmd = none := by decide

theorem witness_PerformEnds : ∃ t, exec .clStep (clOn 1) = .next t := next_of (by decide +kernel)

theorem witness_EventuallyPerformed :
    (pending 0x24 2 [.wait, wrOp .cmd 0]).cmd = some 0x24#64 ∧ decode 0x24 = .ok .oaFinal
      ∧ ∀ op ∈ (pending 0x24 2 [.wait, wrOp .cmd 0]).host.queue, plainOp op = true := by decide

theorem witness_BusError :
    (hosting [.bus ⟨.read, 0x010#12, 32, 0⟩]).cmd = none
      ∧ (hosting [.bus ⟨.read, 0x010#12, 32, 0⟩]).host.queue = .bus ⟨.read, 0x010#12, 32, 0⟩ :: []
      ∧ (32 ≠ 64 ∨ (0x010#12).toNat % 8 ≠ 0) ∧ (64 ≠ 64 ∨ (0x004#12).toNat % 8 ≠ 0)
      ∧ ((pending 0 1 [.bus ⟨.write, 0x004#12, 64, 0⟩]).cmd = some 0 ∧ 0 < (pending 0 1 [.bus ⟨.write, 0x004#12, 64, 0⟩]).host.lag
        ∧ (pending 0 1 [.bus ⟨.write, 0x004#12, 64, 0⟩]).host.queue = .bus ⟨.write, 0x004#12, 64, 0⟩ :: []) := by decide

theorem witness_UnmappedAndReadOnly :
    (0x390#12).toNat % 8 = 0 ∧ Reg.ofOffset 0x390#12 = none ∧ Reg.ofOffset 0x388#12 ≠ none ∧ rest.busy = false
      ∧ Reg.status ∈ [Reg.id, .status, .dout0, .dout1, .dout2, .dout3] ∧ (∃ x, Reg.obs .clPhase = .obs x) := by
  refine ⟨by decide, by decide +kernel, by decide +kernel, by decide, by decide, ⟨.clPhase, rfl⟩⟩

theorem witness_ReservedAndStored :
    rest.busy = false ∧ (Reg.ramSel = .irqStatus ∨ Reg.ramSel = .irqEnable ∨ Reg.ramSel = .ramSel)
      ∧ Reg.din1 ∈ [Reg.din0, .din1, .ramAddr] ∧ ∃ x, Reg.oa .logFloor = .oa x :=
  ⟨by decide, by decide, by decide, ⟨_, rfl⟩⟩

theorem witness_BusyAccess :
    (pending 0 1 []).busy = true
      ∧ (Access.legal ⟨.write, 0x028#12, 64, 1⟩ = true ∧ (⟨.write, 0x028#12, 64, 1⟩ : Access).dir = .write)
      ∧ (Access.legal ⟨.read, 0x068#12, 64, 0⟩ = true ∧ (⟨.read, 0x068#12, 64, 0⟩ : Access).offset = 0x068#12)
      ∧ (Access.legal ⟨.read, 0x010#12, 64, 0⟩ = true ∧ (⟨.read, 0x010#12, 64, 0⟩ : Access).offset ≠ 0x068#12)
      ∧ Reg.din0 ≠ .status ∧ Reg.din0 ≠ .irqStatus := by decide

theorem witness_IrqOutput : rest.busy = false ∧ 7 < 8 := by decide

/-- Below and at the end of the ids and of a capacity; an unwritten word and a written one. -/
theorem witness_RamRead :
    RamId.ofSel 20 = none ∧ RamId.ofSel 19 = some .avgPhase ∧ rest.cmd = none
      ∧ (RamId.ofSel rest.ramSel = some .lpfCoef ∧ rest.ramAddr.toNat < ramCapacity rest.par .lpfCoef
        ∧ rest.mem.word (.ram .lpfCoef) rest.ramAddr.toNat = none)
      ∧ ((clOn 0).cmd = none ∧ (clOn 0).mem.word (.ram .lpfCoef) (clOn 0).ramAddr.toNat = some Fp.one)
      ∧ ramCapacity rest.par .lpfCoef ≤ ({ rest with ramAddr := 4 } : State).ramAddr.toNat
      ∧ ¬ ramCapacity rest.par .lpfCoef ≤ ({ rest with ramAddr := 3 } : State).ramAddr.toNat := by decide +kernel

theorem witness_RamWrite :
    rest.cmd = none ∧ RamId.ofSel rest.ramSel = some .lpfCoef ∧ rest.ramAddr.toNat < ramCapacity rest.par .lpfCoef
      ∧ ramHostWritable .lpfCoef = true ∧ ramHostWritable .vtab = false ∧ RamId.ofSel 3 = some .vtab
      ∧ RamId.ofSel ({ rest with ramSel := 0xFF } : State).ramSel = none
      ∧ ramCapacity rest.par .lpfCoef ≤ ({ rest with ramAddr := 4 } : State).ramAddr.toNat := by decide +kernel

theorem witness_PowerOnReset :
    ((hosting [.powerOn]).host.queue = .powerOn :: [] ∧ (hosting [.powerOn]).cmd = none)
      ∧ ((pending 0 1 [.powerOn]).host.queue = .powerOn :: [] ∧ 0 < (pending 0 1 [.powerOn]).host.lag) := by decide

theorem witness_NotInit :
    (Instr.clStep ∈ [Instr.clStep, .elgStep] ∧ rest.clReady = false)
      ∧ (Instr.modSym ∈ [Instr.mapEnc, .mapDec, .demapAcc, .modSym] ∧ rest.mapReady = false)
      ∧ (Instr.sincRs ∈ [Instr.oaPush, .oaFlush, .oaFrame, .oaFinal, .fft, .wingen, .sincRs] ∧ rest.oaReady = false) := by
  decide

/-- One state for each outcome of CL_INIT. -/
theorem witness_ClInit :
    ¬ TableOk small 3 ∧ ¬ TableOk small 12 ∧ ¬ TableOk small 6
      ∧ (TableOk small (clA 0).vcoTsize ∧ ¬ ClLengthsOk small { clA 0 with compDelay := 5 })
      ∧ (ClLengthsOk small { clA 4 with fbMode := 3 } ∧ 2 < ({ clA 4 with fbMode := 3 } : ClConfig).fbMode.toNat)
      ∧ (ClLengthsOk small { clA 4 with carInc := inf } ∧ ¬ ClValuesOk { clA 4 with carInc := inf })
      ∧ (TableOk small (clA 4).vcoTsize ∧ ClLengthsOk small (clA 4) ∧ (clA 4).fbMode.toNat ≤ 2 ∧ ClValuesOk (clA 4)) :=
  ⟨by decide +kernel, by decide +kernel, by decide +kernel, by decide +kernel, by decide +kernel, by decide +kernel,
    by decide +kernel⟩

/-- With a compensating delay of one sample; the delay lines all +0.0. -/
theorem witness_ClStep :
    let s := clOn 1
    s.clReady = true
      ∧ s.mem.word (.ram .vtab) ((Fp.floor s.cl.phase).toNat + s.clCfg.vcoTsize.toNat / 4) = some Fp.one
      ∧ s.mem.word (.ram .vtab) (Fp.floor s.cl.phase).toNat = some 0
      ∧ [Fp.one, Fp.one].length = s.clCfg.lpfLen.toNat ∧ Holds s.mem (.ram .lpfCoef) [Fp.one, Fp.one]
      ∧ [0, 0].length = s.clCfg.lpfLen.toNat ∧ Holds s.mem (.line .lpf1) [0, 0] ∧ s.cl.lpf1Idx < s.clCfg.lpfLen.toNat
      ∧ Holds s.mem (.line .lpf2) [0, 0] ∧ s.cl.lpf2Idx < s.clCfg.lpfLen.toNat
      ∧ [Fp.one].length = s.clCfg.elgLfLen.toNat ∧ Holds s.mem (.ram .elgLfCoef) [Fp.one]
      ∧ Holds s.mem (.line .elf) [0] ∧ s.elg.elfIdx < s.clCfg.elgLfLen.toNat
      ∧ s.mem.word (.line .mf) s.elg.mfIdx = some 0 ∧ s.mem.word (.line .eg) s.elg.egIdx = some 0
      ∧ (s.clCfg.compDelay ≠ 0
        ∧ s.mem.word (.line .cdI) s.cl.cdIdx = some 0 ∧ s.mem.word (.line .cdQ) s.cl.cdIdx = some 0)
      ∧ (clOn 0).clCfg.compDelay = 0 := by decide +kernel

/-- CL_INIT done and no coefficient written; and LPF_COEF written, ELG_LF_COEF not: the last word of each. -/
theorem witness_ClStep_unwritten :
    let s := after .clInit { rest with clReg := clA 0 }
    let t := fill .lpfCoef [Fp.one, Fp.one] s
    (s.clReady = true ∧ 1 < s.clCfg.lpfLen.toNat ∧ s.mem.word (.ram .lpfCoef) 1 = none)
      ∧ (t.clReady = true ∧ 0 < t.clCfg.elgLfLen.toNat ∧ t.mem.word (.ram .elgLfCoef) 0 = none) := by decide +kernel

theorem witness_ElgStep_unwritten :
    let s := after .clInit { rest with clReg := clA 0 }
    s.clReady = true ∧ 0 < s.clCfg.elgLfLen.toNat ∧ s.mem.word (.ram .elgLfCoef) 0 = none := by decide +kernel

theorem witness_ElgStep :
    let s := clOn 0
    s.clReady = true ∧ [Fp.one].length = s.clCfg.elgLfLen.toNat ∧ Holds s.mem (.ram .elgLfCoef) [Fp.one]
      ∧ Holds s.mem (.line .elf) [0] ∧ s.elg.elfIdx < s.clCfg.elgLfLen.toNat
      ∧ s.mem.word (.line .mf) s.elg.mfIdx = some 0 ∧ s.mem.word (.line .eg) s.elg.egIdx = some 0 := by decide +kernel

theorem witness_FirConvolution :
    ([0, 0] : List F64).length = [Fp.one, Fp.one].length ∧ 1 < [Fp.one, Fp.one].length
      ∧ Holds (clOn 0).mem (.ram .lpfCoef) [Fp.one, Fp.one] ∧ Holds (clOn 0).mem (.line .lpf1) [0, 0]
      ∧ (2 < 3 ∧ (clOn 0).mem.word (.ram .lpfCoef) 2 = none) := by decide +kernel

/-- The ends of the range of T, and a value of each clause. -/
theorem witness_CostasFormulas :
    1 ≤ 1 ∧ 1 < 18446744073709551616 ∧ 1 ≤ 18446744073709551615 ∧ 18446744073709551615 < 18446744073709551616
      ∧ Fp.isFinite inf = false ∧ Fp.isFinite Fp.negOne = true := by decide

theorem witness_SineTable : (4 ≤ 8 ∧ 8 % 4 = 0 ∧ 0 < 1 ∧ 1 < 8 / 4) ∧ 4 ≤ 4 ∧ 4 % 4 = 0 ∧ 0 < 1 ∧ 1 < 4 ∧ 1 ≠ 4 / 2 ∧ 0 < 4 / 4 ∧ 4 < 5 * 4 / 4 := by decide

/-- A locked unit of CL-A with its counter at the last value. -/
theorem witness_ElgDecisions :
    ({ ElgUnit.zero with state := .locked, trigCnt := 3 } : ElgUnit).state = .locked ∧ 3 < (clA 0).elgSymlen.toNat
      ∧ [(Fp.zero, Fp.zero), (Fp.zero, Fp.zero), (Fp.zero, Fp.zero), (Fp.zero, Fp.zero)].length = (clA 0).elgSymlen.toNat := by
  decide

/-- CL-A ready with the unit in a given state, ELG_STEP pending. -/
def elgPending (e : ElgState) : State := { clOn 0 with cmd := some 0x03#64, elg := { (clOn 0).elg with state := e, good := 4 } }

theorem witness_RecordsKept_lock :
    (∃ t, step (elgPending .locked) = .next t) ∧ NoReset (elgPending .locked)
      ∧ nextCommand (elgPending .locked) ≠ some .clInit ∧ (elgPending .locked).elg.state = .locked
      ∧ (∃ t, step (elgPending .nolock) = .next t) ∧ (elgPending .nolock).elg.state = .nolock :=
  ⟨next_of (by decide +kernel), by decide +kernel, by decide +kernel, by decide +kernel, next_of (by decide +kernel),
    by decide +kernel⟩

/-- One state for each outcome of MAP_INIT. -/
theorem witness_MapInit :
    ¬ TableOk small 0 ∧ TableOk small 4 ∧ TableOk small 8
      ∧ ¬ MapLengthsOk small (mapA 0 0 5 0) ∧ ¬ MapLengthsOk small { mapA 0 0 4 1 with rrcLen := 5 }
      ∧ (MapLengthsOk small { mapA 4 0 4 0 with rrcLen := 5 } ∧ ¬ MapModesOk { mapA 4 0 4 0 with rrcLen := 5 })
      ∧ (MapLengthsOk small { mapA 3 1 4 1 with modInc := inf } ∧ MapModesOk { mapA 3 1 4 1 with modInc := inf }
        ∧ ¬ MapValuesOk { mapA 3 1 4 1 with modInc := inf })
      ∧ (MapLengthsOk small (mapA 3 1 4 1) ∧ MapModesOk (mapA 3 1 4 1) ∧ MapValuesOk (mapA 3 1 4 1)) := by decide +kernel

theorem witness_ConstellationTables :
    ((mapA 0 0 1 0).modMode = 0 ∧ (mapA 1 0 1 0).modMode = 1 ∧ (mapA 2 0 1 0).modMode = 2 ∧ (mapA 3 0 1 0).modMode = 3)
      ∧ 0 < 4 ∧ 3 < 4 := by
  decide

theorem witness_MapEncDec : (mapOn (mapA 2 1 2 0)).mapReady = true ∧ (mapOn (mapA 3 0 2 0)).mapReady = true := by
  decide +kernel

/-- QAM16 with differential coding, and QPSK without. -/
theorem witness_MapRoundTrip :
    ((mapOn (mapA 2 1 2 0)).mapReady = true ∧ diffModulus (mapOn (mapA 2 1 2 0)).mapCfg = 4
        ∧ (mapOn (mapA 2 1 2 0)).map.txPrev < 4 ∧ (mapOn (mapA 2 1 2 0)).map.rxPrev = (mapOn (mapA 2 1 2 0)).map.txPrev
        ∧ modMode (mapOn (mapA 2 1 2 0)).mapCfg = .qam16
        ∧ Fp.lt Fp.one (mapOn (mapA 2 1 2 0)).mapCfg.qamThresh = true
        ∧ Fp.lt (mapOn (mapA 2 1 2 0)).mapCfg.qamThresh Fp.three = true)
      ∧ ((mapOn (mapA 1 0 2 0)).mapReady = true ∧ diffModulus (mapOn (mapA 1 0 2 0)).mapCfg = 0
        ∧ modMode (mapOn (mapA 1 0 2 0)).mapCfg ≠ .qam16) := by decide +kernel

theorem witness_DiffCoding : 4 ≠ 0 ∧ 3 < 4 ∧ 0 < 4 ∧ 1 < 2 := by decide

/-- A sample inside the symbol, and the one at its end. -/
theorem witness_DemapAcc :
    let s := mapOn (mapA 1 0 2 0)
    s.mapReady = true ∧ s.mapCfg.rrcEn ≠ 1 ∧ s.map.tick + 1 < s.mapCfg.sps.toNat
      ∧ (after .demapAcc s).mapReady = true ∧ (after .demapAcc s).mapCfg.rrcEn ≠ 1
      ∧ (after .demapAcc s).mapCfg.sps.toNat ≤ (after .demapAcc s).map.tick + 1 := by decide +kernel

/-- The matched-filtered form of DEMAP_ACC. -/
theorem witness_DemapAcc_filtered :
    let s := mapOn (mapA 2 1 1 1)
    s.mapReady = true ∧ s.mapCfg.rrcEn = 1 ∧ [Fp.one, Fp.half].length = s.mapCfg.rrcLen.toNat
      ∧ Holds s.mem (.ram .rrcCoef) [Fp.one, Fp.half] ∧ ([0, 0] : List F64).length = [Fp.one, Fp.half].length
      ∧ Holds s.mem (.line .rxi) [0, 0] ∧ s.map.rxiIdx < [Fp.one, Fp.half].length
      ∧ Holds s.mem (.line .rxq) [0, 0] ∧ s.map.rxqIdx < [Fp.one, Fp.half].length := by decide +kernel

/-- MAP_INIT done with RRC_EN = 1 and one of two coefficients written. -/
def rrcHalf : State := fill .rrcCoef [Fp.one] (after .mapInit { rest with mapReg := mapA 1 0 2 1 })

theorem witness_DemapAcc_unwritten :
    rrcHalf.mapReady = true ∧ rrcHalf.mapCfg.rrcEn = 1 ∧ 1 < rrcHalf.mapCfg.rrcLen.toNat
      ∧ rrcHalf.mem.word (.ram .rrcCoef) 1 = none := by decide +kernel

theorem witness_ModSym_unwritten :
    rrcHalf.mapReady = true ∧ rrcHalf.mapCfg.rrcEn = 1 ∧ 0 < rrcHalf.mapCfg.sps.toNat ∧ 1 < rrcHalf.mapCfg.rrcLen.toNat
      ∧ rrcHalf.mem.word (.ram .rrcCoef) 1 = none := by decide +kernel

/-- The carrier of MOD_INC = 1.0 in the table of four words. -/
def carrier (k : Nat) : F64 := nth [0, Fp.one, 0, Fp.negOne] (k % 4)

/-- The shaped form of MOD_SYM on a carrier over four sub-samples. -/
theorem witness_ModSym :
    let s := mapOn (mapA 1 0 4 1)
    s.mapReady = true
      ∧ (∀ k, k < s.mapCfg.sps.toNat →
        s.mem.word (.ram .mtab)
            ((Fp.floor (phaseAt s.mapCfg.modInc s.mapCfg.modTsize.toNat k s.map.modPhase)).toNat
              + s.mapCfg.modTsize.toNat / 4) = some (carrier (k + 1))
          ∧ s.mem.word (.ram .mtab) (Fp.floor (phaseAt s.mapCfg.modInc s.mapCfg.modTsize.toNat k s.map.modPhase)).toNat
            = some (carrier k))
      ∧ s.mapCfg.rrcEn = 1 ∧ [Fp.one, Fp.half].length = s.mapCfg.rrcLen.toNat
      ∧ Holds s.mem (.ram .rrcCoef) [Fp.one, Fp.half] ∧ Holds s.mem (.line .txi) [0, 0] ∧ s.map.txiIdx < 2
      ∧ Holds s.mem (.line .txq) [0, 0] ∧ s.map.txqIdx < 2 := by decide +kernel

/-- The held form of MOD_SYM. -/
theorem witness_ModSym_held :
    (mapOn (mapA 1 0 4 0)).mapReady = true ∧ (mapOn (mapA 1 0 4 0)).mapCfg.rrcEn ≠ 1 := by decide +kernel

/-- One configuration for each outcome of OA_INIT; both ends of the length of a transform. -/
theorem witness_OaInit :
    (¬ isPow2 6 = true ∧ small.minFft ≤ 6)
      ∧ (OaFftOk small (oaA 0 0) ∧ ¬ OaLengthsOk small (oaA 0 4))
      ∧ (OaLengthsOk small { oaA 0 3 with winType := 6 } ∧ ¬ OaModesOk { oaA 0 3 with winType := 6 })
      ∧ (OaModesOk { oaA 1 3 with baseOrder := 0 } ∧ ¬ OaValuesOk { oaA 1 3 with baseOrder := 0 })
      ∧ (OaModesOk { oaA 0 0 with winType := 5 } ∧ OaValuesOk { oaA 0 0 with winType := 5 }
        ∧ icg 4 (window (fftTwiddles 4) 4 5 Fp.zero) = none)
      ∧ (OaLengthsOk small (oaA 0 3) ∧ OaModesOk (oaA 0 3) ∧ OaValuesOk (oaA 0 3)
        ∧ icg 4 (window (fftTwiddles 4) 4 0 Fp.zero) = some Fp.one) := by
  refine ⟨by decide +kernel, ⟨⟨⟨2, by decide, by decide⟩, by decide, by decide⟩, by decide +kernel⟩, by decide +kernel,
    by decide +kernel, by decide +kernel, by decide +kernel⟩

/-- Both ends of a table, and a window for each outcome of its gain. -/
theorem witness_TableFormulas :
    0 < 8 ∧ 7 < 8
      ∧ Fp.eq ((window [0, Fp.one, 0, Fp.negOne] 4 5 Fp.zero).foldl Fp.add Fp.zero) Fp.zero = true
      ∧ Fp.isFinite (Fp.div (Fp.ofNat 4) (([1, 0, 0, 0] : List F64).foldl Fp.add Fp.zero)) = false
      ∧ (Fp.eq ((window [0, Fp.one, 0, Fp.negOne] 4 0 Fp.zero).foldl Fp.add Fp.zero) Fp.zero = false
        ∧ Fp.isFinite (Fp.div (Fp.ofNat 4) ((window [0, Fp.one, 0, Fp.negOne] 4 0 Fp.zero).foldl Fp.add Fp.zero)) = true) := by
  decide +kernel

theorem witness_FftCore : 5 < 2 ^ 3 ∧ 0 < 2 ^ 0 ∧ 2 < 3 := by decide

theorem witness_OaPushFlush :
    (ready.oaReady = true ∧ ready.oa.frameReady = true) ∧ ((oaOn 0 2).oaReady = true ∧ (oaOn 0 2).oa.frameReady = false) := by
  decide +kernel

theorem witness_OaPushFlush_flush :
    (ready.oaReady = true ∧ ready.oa.frameReady = true) ∧ (oaOn 0 2).oa.wp ≤ (oaOn 0 2).oa.start
      ∧ ((push Fp.one Fp.one (oaOn 0 2)).oaReady = true ∧ (push Fp.one Fp.one (oaOn 0 2)).oa.frameReady = false
        ∧ (push Fp.one Fp.one (oaOn 0 2)).oa.start < (push Fp.one Fp.one (oaOn 0 2)).oa.wp) := by decide +kernel

theorem witness_Advance :
    ready.oaCfg.overlap.toNat < ready.oaCfg.sampleLen.toNat ∧ Written ready.mem (.ram .frameBuf) ready.oaCfg.sampleLen.toNat
      ∧ Written ready.mem (.ram .speedBuf) ready.oaCfg.sampleLen.toNat := by decide +kernel

/-- The frame of R286 at 60 rpm, AVG_MODE = 0. -/
theorem witness_OaFrame :
    let s := ready
    s.oaReady = true ∧ s.oa.frameReady = true ∧ s.mem.word (.ram .speedBuf) 0 = some Fp.sixty
      ∧ Fp.isFinite Fp.sixty = true ∧ Fp.le Fp.sixty Fp.zero = false
      ∧ Fp.isFinite (Fp.div s.oaCfg.fof (Fp.div Fp.sixty Fp.sixty)) = true
      ∧ Fp.le (Fp.div s.oaCfg.fof (Fp.div Fp.sixty Fp.sixty)) Fp.zero = false
      ∧ s.oaCfg.overlap.toNat < s.oaCfg.sampleLen.toNat
      ∧ [Fp.one, 0, Fp.negOne, 0].length = s.oaCfg.sampleLen.toNat
      ∧ Holds s.mem (.ram .frameBuf) [Fp.one, 0, Fp.negOne, 0]
      ∧ Written s.mem (.ram .speedBuf) s.oaCfg.sampleLen.toNat
      ∧ [Fp.one, 0].length = s.oaCfg.sincLutlen.toNat ∧ Holds s.mem (.ram .sincLut) [Fp.one, 0]
      ∧ [Fp.one, Fp.one, Fp.one, Fp.one].length = s.oaCfg.fftLen.toNat
      ∧ Holds s.mem (.ram .win) [Fp.one, Fp.one, Fp.one, Fp.one] ∧ Holds s.mem (.ram .fftTw) [0, Fp.one, 0, Fp.negOne]
      ∧ Holds s.mem (.ram .bitrev) [0, 2, 1, 3] ∧ [0, 0].length = s.oaCfg.fftLen.toNat / 2
      ∧ Holds s.mem (.ram .avgRe) [0, 0] ∧ s.oaCfg.avgMode = 0 ∧ Holds s.mem (.ram .avgIm) [0, 0] := by decide +kernel

/-- The frame of R286 at 60 rpm, AVG_MODE = 1. -/
theorem witness_OaFrame_incoherent :
    let s := framed Fp.sixty (oaOn 1 2)
    s.oaReady = true ∧ s.oa.frameReady = true ∧ s.mem.word (.ram .speedBuf) 0 = some Fp.sixty
      ∧ Fp.isFinite Fp.sixty = true ∧ Fp.le Fp.sixty Fp.zero = false
      ∧ Fp.isFinite (Fp.div s.oaCfg.fof (Fp.div Fp.sixty Fp.sixty)) = true
      ∧ Fp.le (Fp.div s.oaCfg.fof (Fp.div Fp.sixty Fp.sixty)) Fp.zero = false
      ∧ s.oaCfg.overlap.toNat < s.oaCfg.sampleLen.toNat
      ∧ [Fp.one, 0, Fp.negOne, 0].length = s.oaCfg.sampleLen.toNat
      ∧ Holds s.mem (.ram .frameBuf) [Fp.one, 0, Fp.negOne, 0]
      ∧ Written s.mem (.ram .speedBuf) s.oaCfg.sampleLen.toNat
      ∧ [Fp.one, 0].length = s.oaCfg.sincLutlen.toNat ∧ Holds s.mem (.ram .sincLut) [Fp.one, 0]
      ∧ [Fp.one, Fp.one, Fp.one, Fp.one].length = s.oaCfg.fftLen.toNat
      ∧ Holds s.mem (.ram .win) [Fp.one, Fp.one, Fp.one, Fp.one] ∧ Holds s.mem (.ram .fftTw) [0, Fp.one, 0, Fp.negOne]
      ∧ Holds s.mem (.ram .bitrev) [0, 2, 1, 3] ∧ [0, 0].length = s.oaCfg.fftLen.toNat / 2
      ∧ Holds s.mem (.ram .avgRe) [0, 0] ∧ s.oaCfg.avgMode ≠ 0 := by decide +kernel

/-- No frame; a speed of 0. -/
theorem witness_OaFrameErrors :
    ((oaOn 0 2).oaReady = true ∧ (oaOn 0 2).oa.frameReady = false)
      ∧ ((framed Fp.zero (oaOn 0 2)).oaReady = true ∧ (framed Fp.zero (oaOn 0 2)).oa.frameReady = true
        ∧ (framed Fp.zero (oaOn 0 2)).mem.word (.ram .speedBuf) 0 = some Fp.zero ∧ Fp.le Fp.zero Fp.zero = true)
      ∧ ∃ u, oaAdvance (framed Fp.zero (oaOn 0 2)) = .ok u := by
  refine ⟨by decide +kernel, by decide +kernel, ?_⟩
  have h : (match oaAdvance (framed Fp.zero (oaOn 0 2)) with | .ok _ => true | .error _ => false) = true := by decide +kernel
  cases e : oaAdvance (framed Fp.zero (oaOn 0 2)) with
  | ok u => exact ⟨u, rfl⟩
  | error f => rw [e] at h; exact absurd h (by simp)

theorem witness_OaFinal :
    (ready.oaReady = true ∧ ready.oa.frameCount = 0)
      ∧ ((after .oaFrame ready).oaReady = true ∧ (after .oaFrame ready).oa.frameCount ≠ 0
        ∧ [0, 0].length = (after .oaFrame ready).oaCfg.fftLen.toNat / 2
        ∧ Holds (after .oaFrame ready).mem (.ram .avgRe) [0, Fp.one]
        ∧ Holds (after .oaFrame ready).mem (.ram .avgIm) [0, 0])
      ∧ ∃ t, exec .oaFinal (after .oaFrame ready) = .next t :=
  ⟨by decide +kernel, by decide +kernel, next_of (by decide +kernel)⟩

/-- An order at a bin that overflows, one beyond the spectrum, and one at the last bin of it. -/
theorem witness_OrderExtraction :
    ([Fp.zero, Fp.one] : List F64).length = 4 / 2 ∧ 0 < (oaA 0 0).numOrders.toNat
      ∧ Fp.isFinite (orderBin { oaA 0 0 with fof := 0x7FEFFFFFFFFFFFFF#64 } 4 0) = false
      ∧ (Fp.isFinite (orderBin { oaA 0 0 with fof := 0x4010000000000000#64 } 4 0) = true
        ∧ (4 / 2 : Int) - 1 < Fp.floor (Fp.add (orderBin { oaA 0 0 with fof := 0x4010000000000000#64 } 4 0) Fp.half))
      ∧ (Fp.isFinite (orderBin (oaA 0 0) 4 0) = true
        ∧ Fp.floor (Fp.add (orderBin (oaA 0 0) 4 0) Fp.half) = (4 / 2 : Int) - 1) := by decide +kernel

theorem witness_LevelFormulas :
    ([Fp.one, 0] : List F64).length = ([Fp.one, Fp.two] : List F64).length ∧ 1 < ([Fp.one, 0] : List F64).length
      ∧ (⟨[0, 0, 0, 0], [0, 0, 0, 0]⟩ : Spectrum).re.length = 4 ∧ (⟨[0, 0, 0, 0], [0, 0, 0, 0]⟩ : Spectrum).im.length = 4
      ∧ 1 < 4 / 2 := by decide

theorem witness_FftInPlace :
    fftOn.oaReady = true ∧ [Fp.one, 0, Fp.negOne, 0].length = fftOn.oaCfg.fftLen.toNat
      ∧ Holds fftOn.mem (.ram .rsRe) [Fp.one, 0, Fp.negOne, 0] ∧ Holds fftOn.mem (.ram .rsIm) [0, 0, 0, 0]
      ∧ Holds fftOn.mem (.ram .fftTw) [0, Fp.one, 0, Fp.negOne] ∧ Holds fftOn.mem (.ram .bitrev) [0, 2, 1, 3] := by
  decide +kernel

/-- RS_RE written but for its last word; RS_RE written and RS_IM not. -/
theorem witness_FftInPlace_unwritten :
    let s := fill .rsRe [0, 0, 0] (oaOn 0 2)
    let t := fill .rsRe [0, 0, 0, 0] (oaOn 0 2)
    (s.oaReady = true ∧ 3 < s.oaCfg.fftLen.toNat ∧ s.mem.word (.ram .rsRe) 3 = none)
      ∧ (t.oaReady = true ∧ 0 < t.oaCfg.fftLen.toNat ∧ t.mem.word (.ram .rsIm) 0 = none) := by decide +kernel

/-- One value of WIN_TYPE and WIN_COEF for each outcome of WINGEN. -/
theorem witness_Wingen :
    (oaOn 0 0).oaReady = true ∧ 5 < (6#64).toNat ∧ ((5#64).toNat ≤ 5 ∧ Fp.isFinite inf = false)
      ∧ (Fp.isFinite Fp.zero = true ∧ [0, Fp.one, 0, Fp.negOne].length = (oaOn 0 0).oaCfg.fftLen.toNat
        ∧ Holds (oaOn 0 0).mem (.ram .fftTw) [0, Fp.one, 0, Fp.negOne]
        ∧ Fp.eq ((window [0, Fp.one, 0, Fp.negOne] 4 5 Fp.zero).foldl Fp.add Fp.zero) Fp.zero = true
        ∧ Fp.eq ((window [0, Fp.one, 0, Fp.negOne] 4 4 Fp.zero).foldl Fp.add Fp.zero) Fp.zero = false
        ∧ Fp.isFinite (Fp.div (Fp.ofNat 4) ((window [0, Fp.one, 0, Fp.negOne] 4 4 Fp.zero).foldl Fp.add Fp.zero)) = true) := by
  decide +kernel

/-- A finite position and one that overflows, on a finite table. -/
theorem witness_SincRs :
    (Fp.isFinite (Fp.mul (Fp.ofNat 1) 0x7FE0000000000000#64) = true
        ∧ Fp.isFinite (Fp.mul (Fp.ofNat 2) 0x7FE0000000000000#64) = false ∧ 2 < 4
        ∧ ∀ v ∈ ([Fp.one, 0] : List F64), Fp.isFinite v = true)
      ∧ ready.oaReady = true ∧ (Fp.le ({ ready with din0 := Fp.zero } : State).din0 Fp.zero = true)
      ∧ (Fp.isFinite ({ ready with din0 := Fp.two } : State).din0 = true
        ∧ Fp.le ({ ready with din0 := Fp.two } : State).din0 Fp.zero = false)
      ∧ [Fp.one, 0, Fp.negOne, 0].length = ready.oaCfg.sampleLen.toNat
      ∧ Holds ready.mem (.ram .frameBuf) [Fp.one, 0, Fp.negOne, 0]
      ∧ [Fp.one, 0].length = ready.oaCfg.sincLutlen.toNat ∧ Holds ready.mem (.ram .sincLut) [Fp.one, 0] := ⟨⟨by decide +kernel, by decide +kernel, by decide, lut_finite⟩, by decide +kernel⟩

/-- CL_STEP pending on a state with its memory in the canonical form. -/
def clPending : State := { clOn 1 with cmd := some 0x02#64 }

theorem witness_MemoryCanonical : clPending.mem.wf ∧ ∃ t, step clPending = .next t :=
  ⟨by decide +kernel, next_of (by decide +kernel)⟩

theorem witness_ClInvariant : ClInv clPending ∧ clPending.clReady = true ∧ ∃ t, step clPending = .next t :=
  ⟨by decide +kernel, by decide +kernel, next_of (by decide +kernel)⟩

/-- MOD_SYM pending. -/
def modPending : State := { mapOn (mapA 2 1 4 1) with cmd := some 0x14#64 }

theorem witness_MapInvariant : MapInv modPending ∧ modPending.mapReady = true ∧ ∃ t, step modPending = .next t :=
  ⟨by decide +kernel, by decide +kernel, next_of (by decide +kernel)⟩

/-- OA_FRAME pending. -/
def framePending : State := { ready with cmd := some 0x23#64 }

theorem witness_OaInvariant : OaInv framePending ∧ framePending.oaReady = true ∧ ∃ t, step framePending = .next t :=
  ⟨by decide +kernel, by decide +kernel, next_of (by decide +kernel)⟩

/-- No bank lists a word at or beyond its capacity, over every bank. -/
def banksOk (s : State) : Bool :=
  (RamId.all.map Bank.ram ++ Line.all.map Bank.line).all
    (fun b => (s.mem.cells b).all (fun p => decide (p.1 < b.capacity s.par)))

theorem mem_of_find {c : Cells} {i : Nat} (h : Cells.find c i ≠ none) : ∃ p ∈ c, p.1 = i := by
  induction c with
  | nil => exact absurd rfl h
  | cons p c ih =>
    obtain ⟨a, v⟩ := p
    by_cases e : a = i
    · exact ⟨_, List.mem_cons_self, e⟩
    · obtain ⟨q, hq, hi⟩ := ih (by simpa [Cells.find, e] using h)
      exact ⟨q, List.mem_cons_of_mem _ hq, hi⟩

theorem withinCapacity_of {s : State} (h : banksOk s = true) : WithinCapacity s := by
  intro b i hw
  have hb : b ∈ RamId.all.map Bank.ram ++ Line.all.map Bank.line := by
    cases b with
    | ram r => cases r <;> decide
    | line l => cases l <;> decide
  obtain ⟨p, hp, rfl⟩ := mem_of_find hw
  have := List.all_eq_true.mp (List.all_eq_true.mp h b hb) p hp
  simpa using this

/-- The CL, MAP and OA units all ready, every coefficient written, a frame ready. -/
def allOn : State :=
  fill .rsIm [0, 0, 0, 0] (fill .rsRe [0, 0, 0, 0]
    (framed Fp.sixty (after .oaInit { fill .rrcCoef [Fp.one, Fp.half]
      (after .mapInit { clOn 1 with mapReg := mapA 2 1 4 1 }) with oaReg := oaA 0 2 })))

theorem witness_allOn_MemInv : MemInv allOn :=
  ⟨by decide +kernel, withinCapacity_of (by decide +kernel), by decide +kernel, by decide +kernel, by decide +kernel⟩

theorem witness_CapacityKept : MemInv allOn ∧ ∃ t, step { allOn with cmd := some 0x23#64 } = .next t :=
  ⟨witness_allOn_MemInv, next_of (by decide +kernel)⟩

/-- One state that meets the hypotheses for every command. -/
theorem witness_ReadyCompletes :
    MemInv allOn ∧ allOn.par.maxTab ≤ 9007199254740992 ∧ allOn.clReady = true ∧ allOn.mapReady = true ∧ allOn.oaReady = true
      ∧ Written allOn.mem (.ram .lpfCoef) allOn.clCfg.lpfLen.toNat
      ∧ Written allOn.mem (.ram .elgLfCoef) allOn.clCfg.elgLfLen.toNat
      ∧ (allOn.mapCfg.rrcEn = 1 ∧ Written allOn.mem (.ram .rrcCoef) allOn.mapCfg.rrcLen.toNat)
      ∧ Written allOn.mem (.ram .rsRe) allOn.oaCfg.fftLen.toNat ∧ Written allOn.mem (.ram .rsIm) allOn.oaCfg.fftLen.toNat :=
  ⟨witness_allOn_MemInv, by decide +kernel, by decide +kernel, by decide +kernel, by decide +kernel, by decide +kernel,
    by decide +kernel, by decide +kernel, by decide +kernel, by decide +kernel⟩

/-- A NOP pending on a state with an error recorded and ERR_EV pending. -/
def errPending : State := { rest.raise .badRatio with cmd := some 0#64 }

theorem witness_RecordsKept :
    (∃ t, step errPending = .next t) ∧ errPending.err = true ∧ NoReset errPending ∧ nextCommand errPending ≠ some .clrErr :=
  ⟨next_of (by decide +kernel), by decide +kernel, by decide +kernel, by decide +kernel⟩

/-- A write of the other bits to IRQ_STATUS. -/
def ackOther : State := { hosting [wrOp .irqStatus 0xFE#64] with irqStatus := 0x01#8 }

theorem witness_RecordsKept_event :
    (∃ t, step ackOther = .next t) ∧ ackOther.irqStatus.getLsbD 0 = true ∧ NoReset ackOther
      ∧ ∀ (v : Word) (n : Nat), ackOther.busy = false → nextOp ackOther = some (.bus ⟨.write, 0x018#12, n, v⟩) →
          v.getLsbD 0 = false := by
  refine ⟨next_of (by decide +kernel), by decide +kernel, by decide +kernel, ?_⟩
  intro v n _ h
  have e : nextOp ackOther = some (.bus ⟨.write, 0x018#12, 64, 0xFE#64⟩) := by decide +kernel
  rw [e] at h
  simp only [Option.some.injEq, HostOp.bus.injEq, Access.mk.injEq, true_and] at h
  rw [← h.2]
  decide

theorem witness_LatchedOnly :
    Instr.fft ∉ [Instr.clInit, .mapInit, .oaInit, .wingen, .softReset] ∧ (∃ t, exec .fft fftOn = .next t)
      ∧ ∃ f, exec .fft (oaOn 0 2) = .fault f := by
  refine ⟨by decide, next_of (by decide +kernel), ?_⟩
  have h : isUnwritten (exec .fft (oaOn 0 2)) = true := by decide +kernel
  cases e : exec .fft (oaOn 0 2) with
  | next t => rw [e] at h; exact absurd h (by simp [isUnwritten])
  | fault f => exact ⟨f, rfl⟩
  | refused r => rw [e] at h; exact absurd h (by simp [isUnwritten])

theorem witness_UnitsIndependent :
    (∃ t, exec .modSym (mapOn (mapA 1 0 4 0)) = .next t) ∧ Instr.modSym ≠ .softReset ∧ Instr.modSym ∉ clCommands
      ∧ Instr.modSym ∉ oaCommands ∧ Instr.clStep ∉ mapCommands := ⟨next_of (by decide +kernel), by decide, by decide, by decide, by decide⟩

end Sys2Proof.Tests
end

section
/-! PROOFS of the statements MemoryCanonical, SineTable, ResetInvariants and TableFormulas: first the facts about the model's
operations that they rest on (the memory after each command and each host move, the quarters of the sine table, the powers of two),
then the statements. -/

namespace Sys2Proof.Fp

/-- Flipping the sign twice gives the value back, bit for bit, also a NaN (R17). -/
theorem neg_neg (v : F64) : neg (neg v) = v := by
  unfold neg
  rw [BitVec.xor_assoc, BitVec.xor_self, BitVec.xor_zero]

end Sys2Proof.Fp

namespace Sys2Proof

/-! ## The check of the capacities -/

theorem isPow2_iff (n : Nat) : isPow2 n = true ↔ ∃ k, n = 2 ^ k := by
  unfold isPow2
  simp only [Bool.and_eq_true, bne_iff_ne, ne_eq, beq_iff_eq, Nat.one_shiftLeft]
  constructor
  · exact fun h => ⟨n.log2, h.2.symm⟩
  · rintro ⟨k, rfl⟩
    exact ⟨by simp, by rw [Nat.log2_two_pow]⟩

/-- The check of R8's constraints, each written out. -/
theorem Params.wf_iff (p : Params) :
    p.wf = true ↔
      (p.maxTab % 4 = 0 ∧ 4 ≤ p.maxTab) ∧ (∃ k, p.minFft = 2 ^ k) ∧ (∃ k, p.maxFft = 2 ^ k)
        ∧ (4 ≤ p.minFft ∧ p.minFft ≤ p.maxFft)
        ∧ ∀ n ∈ [p.maxFir, p.maxDelay, p.maxSps, p.maxSampleLen, p.maxSincAdj, p.maxSincLut, p.maxOrders, p.maxOrderAdj],
            1 ≤ n := by
  unfold Params.wf
  simp only [Bool.and_eq_true, beq_iff_eq, decide_eq_true_eq, isPow2_iff, List.forall_mem_cons, List.not_mem_nil,
    false_implies, implies_true, and_true, and_assoc]

end Sys2Proof

namespace Sys2Proof.Machine

/-! ## The memory after a move of the host -/

/-- The banks a host write of RAM_DATA can reach (R56, R108). -/
abbrev hostBanks : List Bank := [.ram .lpfCoef, .ram .elgLfCoef, .ram .rrcCoef, .ram .rsRe, .ram .rsIm]

theorem ramHostWritable_mem {r : RamId} (h : ramHostWritable r = true) : Bank.ram r ∈ hostBanks := by
  revert h
  cases r <;> decide

@[simp] theorem issue_mem (w : Word) (s : State) : (issue w s).mem = s.mem := by
  unfold issue
  split
  · simp
  · rfl

@[simp] theorem State.writeReg_mem (s : State) (r : Reg) (v : Word) : (s.writeReg r v).mem = s.mem := by
  cases r <;> rfl

/-- A host write of RAM_DATA while BUSY = 0 (R108): RAM_ACCESS, or the word written and the address moved on. -/
theorem ramWrite_cases (v : Word) (s : State) :
    ramWrite v s = s.raise .ramAccess
      ∨ ∃ r, s.ramAddr.toNat < ramCapacity s.par r ∧ ramHostWritable r = true
        ∧ ramWrite v s = { s with mem := s.mem.write (.ram r) s.ramAddr.toNat v, ramAddr := s.ramAddr + 1 } := by
  unfold ramWrite
  split
  · exact .inl rfl
  · rename_i r _
    split
    · rename_i h
      exact .inr ⟨r, h.1, h.2, rfl⟩
    · exact .inl rfl

theorem ramWrite_moves (v : Word) (s : State) : s.mem.Moves hostBanks (ramWrite v s).mem := by
  rcases ramWrite_cases v s with h | ⟨r, -, hr, h⟩
  · rw [h, State.raise_mem]
    exact .refl _ _
  · rw [h]
    exact (Memory.Moves.refl _ _).write (ramHostWritable_mem hr) _ _

theorem hostWrite_moves (o : BitVec 12) (v : Word) (s : State) : s.mem.Moves hostBanks (hostWrite o v s).mem := by
  rcases hostWrite_cases o v s with ⟨-, h⟩ | ⟨-, h | h | h | ⟨r, h⟩⟩
  · rw [h, State.raise_mem]
    exact .refl _ _
  · rw [h]
    exact .refl _ _
  · rw [h, issue_mem]
    exact .refl _ _
  · rw [h]
    exact ramWrite_moves v s
  · rw [h, State.writeReg_mem]
    exact .refl _ _

theorem hostRead_mem {o : BitVec 12} {s t : State} (h : hostRead o s = .ok t) : t.mem = s.mem := by
  obtain ⟨v, u, rfl, hu⟩ := hostRead_cases h
  rw [State.record_mem]
  rcases hu with rfl | ⟨-, rfl⟩ | ⟨-, rfl | rfl⟩ <;> simp

/-- One bus access (R103): it was legal, and it was a read or a write. -/
theorem busAccess_eq_ok {a : Access} {s t : State} :
    busAccess a s = .ok t ↔
      a.legal = true
        ∧ ((a.dir = .read ∧ hostRead a.offset s = .ok t) ∨ (a.dir = .write ∧ t = hostWrite a.offset a.data s)) := by
  unfold busAccess
  cases a.legal <;> cases a.dir <;> simp [eq_comm]

/-- The memory after one operation of the host: emptied by a power-on reset (R60, R380), otherwise moved in the banks the host
can write. -/
theorem hostOp_mem {op : HostOp} {s t : State} (h : hostOp op s = .ok t) :
    (op = .powerOn ∧ t.mem = .empty) ∨ s.mem.Moves hostBanks t.mem := by
  cases op with
  | bus a =>
    right
    obtain ⟨-, ⟨-, hr⟩ | ⟨-, rfl⟩⟩ := busAccess_eq_ok.mp h
    · rw [hostRead_mem hr]
      exact .refl _ _
    · exact hostWrite_moves _ _ _
  | wait =>
    right
    obtain rfl := Except.ok.inj h
    rw [waitTurn_eq]
    exact .refl _ _
  | chkerr =>
    right
    obtain rfl := Except.ok.inj h
    rw [chkerrTurn_eq]
    exact .refl _ _
  | powerOn =>
    left
    obtain rfl := Except.ok.inj h
    exact ⟨rfl, rfl⟩

/-- The memory after a move of the host, as `hostOp_mem` says of the operation at the head of its program. -/
theorem hostMove_mem {s t : State} (h : hostMove s = .ok t) :
    (s.host.queue.head? = some .powerOn ∧ t.mem = .empty) ∨ s.mem.Moves hostBanks t.mem := by
  rcases hostMove_eq_ok.mp h with ⟨-, rfl⟩ | ⟨op, rest, hq, h⟩
  · exact .inr (.refl _ _)
  · rcases hostOp_mem h with ⟨rfl, hm⟩ | hm
    · exact .inl ⟨by rw [hq]; rfl, hm⟩
    · exact .inr hm

theorem hostMove_wf {s t : State} (h : hostMove s = .ok t) (hs : s.mem.wf) : t.mem.wf := by
  rcases hostMove_mem h with ⟨-, hm⟩ | hm
  · rw [hm]
    exact Memory.wf_empty
  · exact hm.wf hs

/-! ## The memory after a command -/

theorem clInitMemory_wf {m : Memory} (h : m.wf) (p : Params) (t : Nat) : (clInitMemory p t m).wf := by
  unfold clInitMemory elgResetMemory
  iterate 7 refine Memory.wf_clear ?_ _ _
  exact Memory.wf_storeAt h _ _ _

theorem mapInitMemory_wf {m : Memory} (h : m.wf) (p : Params) (t : Nat) : (mapInitMemory p t m).wf := by
  unfold mapInitMemory
  iterate 4 refine Memory.wf_clear ?_ _ _
  exact Memory.wf_storeAt h _ _ _

/-- OA_INIT writes its tables, the averages and the frame from their first word on, and clears no bank (R274). -/
theorem oaInitMemory_moves (c : OaConfig) (w : List F64) (m : Memory) : m.Moves Safety.oaBanks (oaInitMemory c w m) := by
  unfold oaInitMemory
  iterate 8 refine Memory.Moves.storeAt ?_ (by simp) _ _
  exact .refl _ _

theorem elgCore_moves {x : F64} {s : State} {g : ElgOut} (h : elgCore x s = .ok g) :
    s.mem.Moves [.line .mf, .line .eg, .line .elf] g.state.mem := by
  obtain ⟨v, w, z, f, k, -, -, ht⟩ := elgCore_frame h
  rw [ht]
  exact (((Memory.Moves.refl _ _).write (by simp) _ _).write (by simp) _ _).write (by simp) _ _

@[simp] theorem demapTick_mem (a : Pointed) : (demapTick a).mem = a.state.mem := by rw [demapTick_frame]

theorem oaAppend_moves (s : State) : s.mem.Moves [.ram .frameBuf, .ram .speedBuf] (oaAppend s).mem := by
  unfold oaAppend
  dsimp only
  split <;> exact ((Memory.Moves.refl _ _).write (by simp) _ _).write (by simp) _ _

theorem oaZeroFill_moves (s : State) : s.mem.Moves [.ram .frameBuf, .ram .speedBuf] (oaZeroFill s).mem :=
  ((Memory.Moves.refl _ _).storeAt (by simp) _ _).storeAt (by simp) _ _

theorem clInitRule_wf {s : State} (h : s.mem.wf) : (clInitRule s).mem.wf := by
  rcases clInitRule_cases s with ⟨e, -, hr⟩ | ⟨-, hr⟩
  · rw [hr, State.raise_mem]
    exact h
  · rw [hr]
    exact clInitMemory_wf h _ _

theorem mapInitRule_wf {s : State} (h : s.mem.wf) : (mapInitRule s).mem.wf := by
  rcases mapInitRule_cases s with ⟨e, -, hr⟩ | ⟨-, hr⟩
  · rw [hr, State.raise_mem]
    exact h
  · rw [hr]
    exact mapInitMemory_wf h _ _

theorem oaInitRule_moves (s : State) : s.mem.Moves Safety.oaBanks (oaInitRule s).mem := by
  rcases oaInitRule_cases s with ⟨e, hr⟩ | ⟨-, g, -, hr⟩
  · rw [hr, oaInitFail, State.raise_mem]
    exact .refl _ _
  · rw [hr]
    exact oaInitMemory_moves _ _ _

/-- Every command but the CL and MAP INITs, which clear delay lines, writes words over words: it moves the memory (R62). -/
theorem ruleOf_moves {i : Instr} {s u : State} (h : ruleOf i s = .ok u) (hc : i ≠ .clInit) (hm : i ≠ .mapInit) :
    s.mem.Moves (Safety.clBanks ++ Safety.mapBanks ++ Safety.oaBanks) u.mem := by
  have same : ∀ v : State, v.mem = s.mem → s.mem.Moves (Safety.clBanks ++ Safety.mapBanks ++ Safety.oaBanks) v.mem :=
    fun v hv => hv ▸ .refl _ _
  cases i with
  | clInit => exact absurd rfl hc
  | mapInit => exact absurd rfl hm
  | nop | clrErr | softReset =>
    obtain rfl := Except.ok.inj h
    exact same _ rfl
  | clStep =>
    rcases clStepRule_cases h with ⟨-, rfl⟩ | ⟨-, h⟩
    · exact same _ (by simp)
    · obtain ⟨m, f, k, -, -, -, moves⟩ := clStepBody_frame h
      exact moves.mono (by simp)
  | elgStep =>
    rcases elgStepRule_cases h with ⟨-, rfl⟩ | ⟨-, g, hg, rfl⟩
    · exact same _ (by simp)
    · exact (elgCore_moves hg).mono (by simp)
  | mapEnc =>
    obtain rfl := Except.ok.inj h
    rcases mapEncRule_cases s with ⟨-, hr⟩ | ⟨-, hr⟩
    · exact same _ (by simp [hr])
    · exact same _ (by rw [hr]; rfl)
  | mapDec =>
    obtain rfl := Except.ok.inj h
    rcases mapDecRule_cases s with ⟨-, hr⟩ | ⟨-, hr⟩
    · exact same _ (by simp [hr])
    · exact same _ (by rw [hr]; rfl)
  | demapAcc =>
    rcases demapAccRule_cases h with ⟨-, rfl⟩ | ⟨-, a, ha, rfl⟩
    · exact same _ (by simp)
    · obtain ⟨-, -, moves, -⟩ := demapAccumulate_frame ha
      rw [demapTick_mem]
      exact moves.mono (by simp)
  | modSym =>
    rcases modSymRule_cases h with ⟨-, rfl⟩ | ⟨-, t, ht, rfl⟩
    · exact same _ (by simp)
    · rw [State.pointResults_mem]
      exact (modSamples_frame ht).2.mono (by simp)
  | oaInit =>
    obtain rfl := Except.ok.inj h
    exact (oaInitRule_moves s).mono (by simp)
  | oaPush =>
    obtain rfl := Except.ok.inj h
    rcases oaPushRule_cases s with ⟨e, hr⟩ | ⟨-, -, hr⟩
    · exact same _ (by simp [hr])
    · rw [hr]
      exact (oaAppend_moves s).mono (by simp)
  | oaFlush =>
    obtain rfl := Except.ok.inj h
    rcases oaFlushRule_cases s with ⟨e, hr⟩ | hr | ⟨-, -, -, hr⟩
    · exact same _ (by simp [hr])
    · exact same _ (by rw [hr])
    · rw [hr]
      exact (oaZeroFill_moves s).mono (by simp)
  | oaFrame =>
    rcases oaFrameRule_cases h with ⟨e, rfl⟩ | ⟨-, -, ⟨t, ht, rfl⟩ | ⟨rho, t, v, ht, hv, rfl⟩⟩
    · exact same _ (by simp)
    · rw [State.raise_mem]
      exact (oaAdvance_frame ht).2.mono (by simp)
    · rw [State.fire_mem]
      exact ((frameProcess_frame ht).2.mono (by simp)).trans ((oaAdvance_frame hv).2.mono (by simp))
  | oaFinal =>
    rcases oaFinalRule_cases h with ⟨e, rfl⟩ | ⟨-, -, -, xs, ys, -, -, hmem⟩
    · exact same _ (by simp)
    · rw [hmem]
      exact ((Memory.Moves.refl _ _).storeAt (by simp) _ _).storeAt (by simp) _ _
  | fft =>
    rcases fftRule_cases h with ⟨e, rfl⟩ | ⟨-, h⟩
    · exact same _ (by simp)
    · exact (fftRun_frame h).2.mono (by simp)
  | wingen =>
    rcases wingenRule_cases h with ⟨e, rfl⟩ | ⟨-, -, -, tw, g, -, -, rfl⟩
    · exact same _ (by simp)
    · exact (Memory.Moves.refl _ _).storeAt (by simp) _ _
  | sincRs =>
    rcases sincRsRule_cases h with ⟨e, rfl⟩ | ⟨-, h⟩
    · exact same _ (by simp)
    · exact (oaResample_frame h).2.mono (by simp)

/-- A perform keeps the canonical form: the two INITs that clear delay lines by `Memory.wf_clear`, every other command because it
moves the memory. -/
theorem exec_wf {i : Instr} {s t : State} (h : exec i s = .next t) (hs : s.mem.wf) : t.mem.wf := by
  obtain ⟨u, hu, rfl⟩ := exec_eq_next.mp h
  rw [State.complete_mem]
  by_cases hc : i = .clInit
  · subst hc
    obtain rfl := Except.ok.inj hu
    exact clInitRule_wf hs
  · by_cases hm : i = .mapInit
    · subst hm
      obtain rfl := Except.ok.inj hu
      exact mapInitRule_wf hs
    · exact (ruleOf_moves hu hc hm).wf hs

/-- Settles O52: the step is a move of the host, the perform of a command, or the perform of a word that is none. -/
theorem memoryCanonical : Obligations.MemoryCanonical := by
  intro s t hs h
  rcases step_eq_next.mp h with ⟨-, hm⟩ | ⟨w, -, -, hm⟩ | ⟨w, i, -, -, -, he⟩ | ⟨w, r, -, -, -, rfl⟩
  · exact hostMove_wf hm hs
  · exact hostMove_wf hm (by rw [State.spendLag_mem]; exact hs)
  · exact exec_wf he hs
  · rw [State.complete_mem, illegalPending, State.raise_mem]
    exact hs

/-! ## The sine table -/

@[simp] theorem quarterSine_zero (t : Nat) : quarterSine t 0 = Fp.zero := rfl

theorem quarterSine_quarter {t : Nat} (h4 : 4 ≤ t) : quarterSine t (t / 4) = Fp.one := by
  unfold quarterSine
  rw [if_neg (by omega), if_pos rfl]

theorem quarterSine_inside {t k : Nat} (h0 : 0 < k) (h : k < t / 4) :
    quarterSine t k = Config.numSin (Fp.div (Fp.mul (Fp.mul Fp.two Fp.pi) (Fp.ofNat k)) (Fp.ofNat t)) := by
  unfold quarterSine
  rw [if_neg (by omega), if_neg (by omega)]

theorem qsin_getElem? {t k : Nat} (h : k < 5 * t / 4) : (qsin t)[k]? = some (sineEntry t k) := by
  simp [qsin, h]

/-- The table is read mod T (R160). -/
theorem sineEntry_mod (t k : Nat) : sineEntry t (k % t) = sineEntry t k := by
  unfold sineEntry
  rw [Nat.mod_mod]

section Quarters
variable {t k : Nat} (h4 : 4 ≤ t) (hm : t % 4 = 0)
include h4 hm

theorem sineEntry_first (h : k ≤ t / 4) : sineEntry t k = quarterSine t k := by
  unfold sineEntry
  rw [Nat.mod_eq_of_lt (by omega), if_pos h]

/-- The second quarter, from its left end on: at the point T/4 both quarters give the same word. -/
theorem sineEntry_second (h1 : t / 4 ≤ k) (h2 : k ≤ t / 2) : sineEntry t k = quarterSine t (t / 2 - k) := by
  rcases Nat.eq_or_lt_of_le h1 with rfl | h1
  · rw [sineEntry_first h4 hm (Nat.le_refl _), show t / 2 - t / 4 = t / 4 by omega]
  · unfold sineEntry
    rw [Nat.mod_eq_of_lt (by omega), if_neg (by omega), if_pos h2]

theorem sineEntry_third (h1 : t / 2 < k) (h2 : k ≤ 3 * t / 4) : sineEntry t k = Fp.neg (quarterSine t (k - t / 2)) := by
  unfold sineEntry
  rw [Nat.mod_eq_of_lt (by omega), if_neg (by omega), if_neg (by omega), if_pos h2]

/-- The fourth quarter, from its left end on: at the point 3T/4 both quarters give the same word. -/
theorem sineEntry_fourth (h1 : 3 * t / 4 ≤ k) (h2 : k < t) : sineEntry t k = Fp.neg (quarterSine t (t - k)) := by
  rcases Nat.eq_or_lt_of_le h1 with rfl | h1
  · rw [sineEntry_third h4 hm (by omega) (Nat.le_refl _), show 3 * t / 4 - t / 2 = t - 3 * t / 4 by omega]
  · unfold sineEntry
    rw [Nat.mod_eq_of_lt h2, if_neg (by omega), if_neg (by omega), if_neg (by omega)]

theorem sineEntry_zero : sineEntry t 0 = Fp.zero := by
  rw [sineEntry_first h4 hm (Nat.zero_le _), quarterSine_zero]

theorem sineEntry_quarter : sineEntry t (t / 4) = Fp.one := by
  rw [sineEntry_first h4 hm (Nat.le_refl _), quarterSine_quarter h4]

theorem sineEntry_half : sineEntry t (t / 2) = Fp.zero := by
  rw [sineEntry_second h4 hm (by omega) (Nat.le_refl _), Nat.sub_self, quarterSine_zero]

theorem sineEntry_threeQuarters : sineEntry t (3 * t / 4) = Fp.negOne := by
  rw [sineEntry_fourth h4 hm (Nat.le_refl _) (by omega), show t - 3 * t / 4 = t / 4 by omega, quarterSine_quarter h4]
  decide

/-- The table is odd below T/2; the other half follows by `Fp.neg_neg`. -/
theorem sineEntry_odd_low (h0 : 0 < k) (h : k < t / 2) : sineEntry t (t - k) = Fp.neg (sineEntry t k) := by
  rcases Nat.le_total k (t / 4) with hk | hk
  · rw [sineEntry_fourth h4 hm (by omega) (by omega), sineEntry_first h4 hm hk, show t - (t - k) = k by omega]
  · rw [sineEntry_third h4 hm (by omega) (by omega), sineEntry_second h4 hm hk (by omega),
      show t - k - t / 2 = t / 2 - k by omega]

theorem sineEntry_odd (h0 : 0 < k) (h : k < t) (hh : k ≠ t / 2) : sineEntry t (t - k) = Fp.neg (sineEntry t k) := by
  rcases Nat.lt_or_gt_of_ne hh with hk | hk
  · exact sineEntry_odd_low h4 hm h0 hk
  · have low := sineEntry_odd_low h4 hm (k := t - k) (by omega) (by omega)
    rw [show t - (t - k) = k by omega] at low
    rw [low, Fp.neg_neg]

theorem sineEntry_symmetric (h : k ≤ t / 2) : sineEntry t (t / 2 - k) = sineEntry t k := by
  rcases Nat.le_total k (t / 4) with hk | hk
  · rw [sineEntry_first h4 hm hk, sineEntry_second h4 hm (by omega) (by omega), show t / 2 - (t / 2 - k) = k by omega]
  · rw [sineEntry_second h4 hm hk h, sineEntry_first h4 hm (by omega)]

end Quarters

/-- Settles O30: the exact points and the symmetries are those of `sineEntry`, quarter by quarter. -/
theorem sineTable : Obligations.SineTable := by
  intro t h4 hm
  refine ⟨qsin_length t, fun k hk => ⟨?zeros, ?one, ?negOne⟩, ?inside, ?odd, ?symmetric, ?repeats⟩
  case zeros =>
    rw [qsin_getElem? hk, ← sineEntry_mod]
    rintro (h | h) <;> rw [h]
    · rw [sineEntry_zero h4 hm]
    · rw [sineEntry_half h4 hm]
  case one =>
    intro h
    rw [qsin_getElem? hk, ← sineEntry_mod, h, sineEntry_quarter h4 hm]
  case negOne =>
    intro h
    rw [qsin_getElem? hk, ← sineEntry_mod, h, sineEntry_threeQuarters h4 hm]
  case inside =>
    intro k h0 hk
    rw [qsin_getElem? (by omega), sineEntry_first h4 hm (by omega), quarterSine_inside h0 hk]
    rfl
  case odd =>
    intro k h0 hk hh
    rw [qsin_getElem? (by omega), qsin_getElem? (by omega), sineEntry_odd h4 hm h0 hk hh, Option.map_some]
  case symmetric =>
    intro k hk
    rw [qsin_getElem? (by omega), qsin_getElem? (by omega), sineEntry_symmetric h4 hm hk]
  case repeats =>
    intro k hk
    rw [qsin_getElem? (by omega), qsin_getElem? (by omega), ← sineEntry_mod t (t + k), Nat.add_mod_left, sineEntry_mod]

/-! ## The invariants at reset -/

/-- The invariants hold after every power-on reset (R58, R380): no word is written and no unit is ready. -/
theorem memInv_powerOn (p : Params) (h : HostSide) (n : Nat) : Safety.MemInv (State.powerOn p h n) := by
  refine ⟨Memory.wf_empty, fun b i hw => absurd (Memory.word_empty b i) hw, ?cl, ?map, ?oa⟩ <;>
    exact fun ready => absurd ready (by simp [State.powerOn])

/-- Settles O20. -/
theorem resetInvariants : Obligations.ResetInvariants :=
  ⟨memInv_powerOn _ _ _, rfl, by decide, Params.wf_iff⟩

/-! ## The tables of OA_INIT -/

theorem sincTable_getElem? {a ll i : Nat} (h : i < ll) : (sincTable a ll)[i]? = some (sincEntry a ll i) := by
  simp [sincTable, h]

theorem window_getElem? {n i : Nat} (h : i < n) (tw : List F64) (type : Word) (coef : F64) :
    (window tw n type coef)[i]? = some (windowEntry tw n type coef i) := by
  simp [window, h]

/-- The inverse coherent gain fails exactly on a zero sum or a gain that is not finite (R272). -/
theorem icg_eq (n : Nat) (w : List F64) :
    icg n w =
      if Fp.eq (sumList w) Fp.zero = true ∨ Fp.isFinite (Fp.div (Fp.ofNat n) (sumList w)) = false then none
      else some (Fp.div (Fp.ofNat n) (sumList w)) := by
  simp [icg]

/-- Settles O40: the constants by evaluation, every entry by the equation of its table, the six window types being the six arms
of `windowEntry`. -/
theorem tableFormulas : Obligations.TableFormulas := by
  refine ⟨fun a ll i hi => ⟨rfl, sincTable_getElem? hi⟩, ?constants, fun tw n coef i hi => ?windows, fun n w => ⟨?fails, ?gain⟩⟩
  case constants => decide +kernel
  case windows =>
    refine ⟨?_, ?_, ?_, ?_, ?_, ?_⟩ <;> exact window_getElem? hi tw _ coef
  case fails =>
    intro h
    rw [icg_eq]
    exact if_pos h
  case gain =>
    intro hs hg
    rw [icg_eq]
    refine if_neg ?_
    rintro (h | h)
    · exact absurd (hs.symm.trans h) (by decide)
    · exact absurd (hg.symm.trans h) (by decide)

end Sys2Proof.Machine
end

section
/-! PROOFS. What a step leaves unchanged, unit by unit, and which records it keeps: UnitsIndependent, RecordsKept. -/

namespace Sys2Proof.Machine

open Safety

/-! ## The records a rule keeps -/

/-- From `s` to `u` an error stays recorded with its code (R341), and a pending event stays pending (R345). -/
structure KeepsRecords (s u : State) : Prop where
  err : s.err = true → u.err = true ∧ u.errcode = s.errcode
  irq : ∀ n, s.irqStatus.getLsbD n = true → u.irqStatus.getLsbD n = true

namespace KeepsRecords

theorem refl (s : State) : KeepsRecords s s := ⟨fun h => ⟨h, rfl⟩, fun _ h => h⟩

theorem trans {s u v : State} (h : KeepsRecords s u) (h' : KeepsRecords u v) : KeepsRecords s v := by
  refine ⟨fun he => ?_, fun n hn => h'.irq n (h.irq n hn)⟩
  obtain ⟨hu, hc⟩ := h.err he
  obtain ⟨hv, hc'⟩ := h'.err hu
  exact ⟨hv, hc'.trans hc⟩

/-- Events may be added while the error record stays as it is. -/
theorem of_or {s u : State} (he : u.err = s.err) (hc : u.errcode = s.errcode) {m : BitVec 8}
    (hi : u.irqStatus = s.irqStatus ||| m) : KeepsRecords s u :=
  ⟨fun h => ⟨he.trans h, hc⟩, fun n hn => by simp [hi, hn]⟩

theorem of_same {s u : State} (he : u.err = s.err) (hc : u.errcode = s.errcode) (hi : u.irqStatus = s.irqStatus) :
    KeepsRecords s u :=
  of_or (m := 0) he hc (by simp [hi])

/-- Raising an error keeps the first one (R341). -/
theorem raise (c : ErrCode) {s u : State} (h : KeepsRecords s u) : KeepsRecords s (u.raise c) :=
  h.trans ⟨fun he => by simp [he], fun n hn => by simp [hn]⟩

theorem fire (e : Irq) {s u : State} (h : KeepsRecords s u) : KeepsRecords s (u.fire e) :=
  h.trans (of_or rfl rfl rfl)

theorem complete {s u : State} (h : KeepsRecords s u) : KeepsRecords s u.complete :=
  h.trans (of_or rfl rfl rfl)

end KeepsRecords

/-! ## The early-late gate as a relation on its unit -/

/-- The unit with the counter of samples, the matched filter's sum and the filter indices moved on by one sample, before the
decisions of R209. -/
def elgMoved (c : ClConfig) (m : F64) (u : ElgUnit) : ElgUnit :=
  { u with
    samples := satInc u.samples
    mfSum := m
    mfIdx := (u.mfIdx + 1) % c.elgMfLen.toNat
    egIdx := (u.egIdx + 1) % c.elgDelay.toNat
    elfIdx := (u.elfIdx + 1) % c.elgLfLen.toNat }

/-- One ELG sample takes the unit `u` to `u'` (R209). -/
def ElgNext (c : ClConfig) (u u' : ElgUnit) : Prop := ∃ m f, u' = (elgDecide c m f (elgMoved c m u)).unit

theorem elgCore_next {x : F64} {s : State} {g : ElgOut} (h : elgCore x s = .ok g) :
    ElgNext s.clCfg s.elg g.state.elg := by
  obtain ⟨v, w, z, f, k, hk, -, ht⟩ := elgCore_frame h
  exact ⟨g.m, f, by rw [ht, hk]; rfl⟩

theorem clStepBody_elgNext {s t : State} (h : clStepBody s = .ok t) : ElgNext s.clCfg s.elg t.elg := by
  obtain ⟨m, f, k, hk, ht, -, -⟩ := clStepBody_frame h
  exact ⟨m, f, by rw [ht, hk]; rfl⟩

/-! ## What the commands of a unit write -/

/-- A memory that moved in some banks is the same outside any list that has them all. -/
theorem Memory.Moves.sameExcept {bs cs : List Bank} {m m' : Memory} (h : m.Moves bs m') (hs : ∀ b ∈ bs, b ∈ cs) :
    SameExcept (fun b _ => b ∈ cs) m m' :=
  fun b i hb => (h.mono hs).other b i hb

theorem SameExcept.refl (p : Bank → Nat → Prop) (m : Memory) : SameExcept p m m := fun _ _ _ => rfl

theorem SameExcept.trans {p : Bank → Nat → Prop} {m m' m'' : Memory} (h : SameExcept p m m') (h' : SameExcept p m' m'') :
    SameExcept p m m'' :=
  fun b i hb => (h' b i hb).trans (h b i hb)

theorem SameExcept.storeAt {bs : List Bank} {m m' : Memory} (h : SameExcept (fun b _ => b ∈ bs) m m') {b : Bank} (hb : b ∈ bs)
    (i : Nat) (vs : List Word) : SameExcept (fun b _ => b ∈ bs) m (m'.storeAt b i vs) :=
  SameExcept.trans h (((Memory.Moves.refl _ m').storeAt hb i vs).sameExcept fun _ => id)

theorem SameExcept.clear {bs : List Bank} {m m' : Memory} (h : SameExcept (fun b _ => b ∈ bs) m m') {b : Bank} (hb : b ∈ bs)
    (n : Nat) : SameExcept (fun b _ => b ∈ bs) m (m'.clear b n) := by
  refine SameExcept.trans h fun b' i hn => ?_
  rw [Memory.word_clear, if_neg]
  rintro rfl
  exact hn hb

theorem clInitMemory_sameExcept (p : Params) (t : Nat) (m : Memory) :
    SameExcept (fun b _ => b ∈ clBanks) m (clInitMemory p t m) := by
  unfold clInitMemory elgResetMemory
  iterate 7 refine SameExcept.clear ?_ (by simp) _
  exact SameExcept.storeAt (SameExcept.refl _ _) (by simp) _ _

theorem mapInitMemory_sameExcept (p : Params) (t : Nat) (m : Memory) :
    SameExcept (fun b _ => b ∈ mapBanks) m (mapInitMemory p t m) := by
  unfold mapInitMemory
  iterate 4 refine SameExcept.clear ?_ (by simp) _
  exact SameExcept.storeAt (SameExcept.refl _ _) (by simp) _ _

/-- From `s` to `u` only the elements of the CL and ELG units, the flags, the event latches, the error record and DOUT were
written, the last three as `KeepsRecords` allows. -/
structure ClWrites (s u : State) : Prop where
  state :
    u =
      { s with
        clReady := u.clReady
        clCfg := u.clCfg
        cl := u.cl
        elg := u.elg
        mem := u.mem
        symValid := u.symValid
        numeric := u.numeric
        irqStatus := u.irqStatus
        err := u.err
        errcode := u.errcode
        dout0 := u.dout0
        dout1 := u.dout1
        dout2 := u.dout2
        dout3 := u.dout3 }
  memory : SameExcept (fun b _ => b ∈ clBanks) s.mem u.mem
  records : KeepsRecords s u

namespace ClWrites

theorem refl (s : State) : ClWrites s s := ⟨rfl, SameExcept.refl _ _, .refl s⟩

theorem trans {s u v : State} (h : ClWrites s u) (h' : ClWrites u v) : ClWrites s v :=
  ⟨by rw [h'.state, h.state], SameExcept.trans h.memory h'.memory, h.records.trans h'.records⟩

theorem raise (c : ErrCode) {s u : State} (h : ClWrites s u) : ClWrites s (u.raise c) :=
  h.trans ⟨by rw [State.raise_eq], by simp [SameExcept], .raise c (.refl u)⟩

end ClWrites

theorem clInitRule_writes (s : State) : ClWrites s (clInitRule s) := by
  rcases clInitRule_cases s with ⟨e, -, hr⟩ | ⟨-, hr⟩
  · rw [hr]
    exact .raise e (u := { s with clReady := false }) ⟨rfl, SameExcept.refl _ _, .of_same rfl rfl rfl⟩
  · rw [hr]
    exact ⟨rfl, clInitMemory_sameExcept _ _ _, .of_same rfl rfl rfl⟩

theorem clStepBody_writes {s t : State} (h : clStepBody s = .ok t) : ClWrites s t := by
  obtain ⟨m, f, k, -, ht, -, moves⟩ := clStepBody_frame h
  refine ⟨by rw [ht], moves.sameExcept (by simp), ?_⟩
  rw [ht]
  exact .of_or (m := (if Fp.isFinite (vcoAdvance s) then 0 else Irq.mask .numeric) ||| elgIrq s.elg.state k.unit.state k.trig)
    rfl rfl (by cases Fp.isFinite (vcoAdvance s) <;> simp [BitVec.or_assoc])

theorem elgCore_writes {x : F64} {s : State} {g : ElgOut} (h : elgCore x s = .ok g) : ClWrites s g.state := by
  obtain ⟨v, w, z, f, k, -, -, ht⟩ := elgCore_frame h
  exact ⟨by rw [ht], (elgCore_moves h).sameExcept (by simp), by rw [ht]; exact .of_or rfl rfl rfl⟩

theorem clCommand_writes {i : Instr} {s u : State} (hi : i ∈ clCommands) (h : ruleOf i s = .ok u) : ClWrites s u := by
  have hi : i = .clInit ∨ i = .clStep ∨ i = .elgStep := by simpa using hi
  rcases hi with rfl | rfl | rfl
  · obtain rfl := Except.ok.inj h
    exact clInitRule_writes s
  · rcases clStepRule_cases h with ⟨-, rfl⟩ | ⟨-, h⟩
    · exact .raise _ (.refl s)
    · exact clStepBody_writes h
  · rcases elgStepRule_cases h with ⟨-, rfl⟩ | ⟨-, g, hg, rfl⟩
    · exact .raise _ (.refl s)
    · exact (elgCore_writes hg).trans ⟨rfl, SameExcept.refl _ _, .of_same rfl rfl rfl⟩

/-- One sub-sample of MOD_SYM keeps the records: its numeric guard adds an event (R162). -/
theorem modSample_keepsRecords {u : Point} {s t : State} {k : Nat} (h : modSample u s k = .ok t) : KeepsRecords s t := by
  obtain ⟨sh, c, d, hs, -, -, rfl⟩ := modSample_eq_ok.mp h
  obtain ⟨he, -, -, -⟩ := modShape_frame hs
  refine .of_or (m := if Fp.isFinite (Fp.add s.map.modPhase s.mapCfg.modInc) then 0 else Irq.mask .numeric) ?_ ?_ ?_
  · simp only [State.wrapGuard_err]; rw [he]
  · simp only [State.wrapGuard_errcode]; rw [he]
  · simp only [State.wrapGuard_irqStatus]
    rw [he]
    cases Fp.isFinite (Fp.add s.map.modPhase s.mapCfg.modInc) <;> simp

theorem modSamples_keepsRecords {u : Point} {n : Nat} {s t : State} (h : modSamples u n s = .ok t) : KeepsRecords s t :=
  foldlM_keeps (P := KeepsRecords s) (fun _ _ _ _ hc h => hc.trans (modSample_keepsRecords h)) (.refl s) h

/-- DEMAP_ACC's tick sets SYM_EV at a symbol boundary and no other event (R240). -/
theorem demapTick_irqStatus (a : Pointed) :
    (demapTick a).irqStatus = a.state.irqStatus ∨ (demapTick a).irqStatus = a.state.irqStatus ||| Irq.mask .sym := by
  unfold demapTick
  dsimp only
  split
  · exact .inl rfl
  · right
    unfold demapDecide demapBoundary
    dsimp only
    split <;> rfl

/-- The same of the MAP unit. -/
structure MapWrites (s u : State) : Prop where
  state :
    u =
      { s with
        mapReady := u.mapReady
        mapCfg := u.mapCfg
        map := u.map
        mem := u.mem
        symValid := u.symValid
        numeric := u.numeric
        irqStatus := u.irqStatus
        err := u.err
        errcode := u.errcode
        dout0 := u.dout0
        dout1 := u.dout1
        dout2 := u.dout2
        dout3 := u.dout3 }
  memory : SameExcept (fun b _ => b ∈ mapBanks) s.mem u.mem
  records : KeepsRecords s u

namespace MapWrites

theorem refl (s : State) : MapWrites s s := ⟨rfl, SameExcept.refl _ _, .refl s⟩

theorem trans {s u v : State} (h : MapWrites s u) (h' : MapWrites u v) : MapWrites s v :=
  ⟨by rw [h'.state, h.state], SameExcept.trans h.memory h'.memory, h.records.trans h'.records⟩

theorem raise (c : ErrCode) {s u : State} (h : MapWrites s u) : MapWrites s (u.raise c) :=
  h.trans ⟨by rw [State.raise_eq], by simp [SameExcept], .raise c (.refl u)⟩

end MapWrites

theorem mapInitRule_writes (s : State) : MapWrites s (mapInitRule s) := by
  rcases mapInitRule_cases s with ⟨e, -, hr⟩ | ⟨-, hr⟩
  · rw [hr]
    exact .raise e (u := { s with mapReady := false }) ⟨rfl, SameExcept.refl _ _, .of_same rfl rfl rfl⟩
  · rw [hr]
    exact ⟨rfl, mapInitMemory_sameExcept _ _ _, .of_same rfl rfl rfl⟩

theorem demapAccumulate_writes {s : State} {a : Pointed} (h : demapAccumulate s = .ok a) : MapWrites s a.state := by
  obtain ⟨he, -, moves, -⟩ := demapAccumulate_frame h
  exact ⟨by rw [he], moves.sameExcept (by simp), by rw [he]; exact .of_same rfl rfl rfl⟩

theorem demapTick_writes (a : Pointed) : MapWrites a.state (demapTick a) := by
  have ht := demapTick_frame a
  refine ⟨by rw [ht], by rw [demapTick_mem]; exact SameExcept.refl _ _, ?_⟩
  rcases demapTick_irqStatus a with hq | hq
  · exact .of_same (by rw [ht]) (by rw [ht]) hq
  · exact .of_or (by rw [ht]) (by rw [ht]) hq

theorem modSamples_writes {u : Point} {n : Nat} {s t : State} (h : modSamples u n s = .ok t) : MapWrites s t := by
  obtain ⟨he, moves⟩ := modSamples_frame h
  exact ⟨by rw [he], moves.sameExcept (by simp), modSamples_keepsRecords h⟩

theorem mapCommand_writes {i : Instr} {s u : State} (hi : i ∈ mapCommands) (h : ruleOf i s = .ok u) : MapWrites s u := by
  have hi : i = .mapInit ∨ i = .mapEnc ∨ i = .mapDec ∨ i = .demapAcc ∨ i = .modSym := by simpa using hi
  rcases hi with rfl | rfl | rfl | rfl | rfl
  · obtain rfl := Except.ok.inj h
    exact mapInitRule_writes s
  · obtain rfl := Except.ok.inj h
    rcases mapEncRule_cases s with ⟨-, hr⟩ | ⟨-, hr⟩
    · rw [hr]
      exact .raise _ (.refl s)
    · rw [hr]
      exact ⟨rfl, SameExcept.refl _ _, .of_same rfl rfl rfl⟩
  · obtain rfl := Except.ok.inj h
    rcases mapDecRule_cases s with ⟨-, hr⟩ | ⟨-, hr⟩
    · rw [hr]
      exact .raise _ (.refl s)
    · rw [hr]
      exact ⟨rfl, SameExcept.refl _ _, .of_same rfl rfl rfl⟩
  · rcases demapAccRule_cases h with ⟨-, rfl⟩ | ⟨-, a, ha, rfl⟩
    · exact .raise _ (.refl s)
    · exact (demapAccumulate_writes ha).trans (demapTick_writes a)
  · rcases modSymRule_cases h with ⟨-, rfl⟩ | ⟨-, t, ht, rfl⟩
    · exact .raise _ (.refl s)
    · have encoded : MapWrites s (encodeSymbol s.din0 s).state := ⟨rfl, SameExcept.refl _ _, .of_same rfl rfl rfl⟩
      exact (encoded.trans (modSamples_writes ht)).trans ⟨rfl, SameExcept.refl _ _, .of_same rfl rfl rfl⟩

/-- The same of the OA unit, with the counter of free values and DOUT0 and DOUT1. -/
structure OaWrites (s u : State) : Prop where
  state :
    u =
      { s with
        oaReady := u.oaReady
        oaCfg := u.oaCfg
        oa := u.oa
        mem := u.mem
        freeNext := u.freeNext
        irqStatus := u.irqStatus
        err := u.err
        errcode := u.errcode
        dout0 := u.dout0
        dout1 := u.dout1 }
  memory : SameExcept (fun b _ => b ∈ oaBanks) s.mem u.mem
  records : KeepsRecords s u

namespace OaWrites

theorem refl (s : State) : OaWrites s s := ⟨rfl, SameExcept.refl _ _, .refl s⟩

theorem trans {s u v : State} (h : OaWrites s u) (h' : OaWrites u v) : OaWrites s v :=
  ⟨by rw [h'.state, h.state], SameExcept.trans h.memory h'.memory, h.records.trans h'.records⟩

theorem raise (c : ErrCode) {s u : State} (h : OaWrites s u) : OaWrites s (u.raise c) :=
  h.trans ⟨by rw [State.raise_eq], by simp [SameExcept], .raise c (.refl u)⟩

end OaWrites

theorem oaInitRule_writes (s : State) : OaWrites s (oaInitRule s) := by
  have moves := oaInitRule_moves s
  rcases oaInitRule_cases s with ⟨e, hr⟩ | ⟨-, g, -, hr⟩
  · rw [hr]
    exact .raise e (u := { s with oaReady := false }) ⟨rfl, SameExcept.refl _ _, .of_same rfl rfl rfl⟩
  · rw [hr] at moves ⊢
    exact ⟨rfl, moves.sameExcept fun _ => id, .of_same rfl rfl rfl⟩

theorem oaAppend_writes (s : State) : OaWrites s (oaAppend s) := by
  refine ⟨?_, (oaAppend_moves s).sameExcept (by simp), ?_⟩ <;> unfold oaAppend <;> dsimp only <;> split
  · rfl
  · rfl
  · exact .of_or rfl rfl rfl
  · exact .of_same rfl rfl rfl

theorem oaAdvance_writes {s t : State} (h : oaAdvance s = .ok t) : OaWrites s t := by
  obtain ⟨he, moves⟩ := oaAdvance_frame h
  exact ⟨by rw [he], moves.sameExcept (by simp), by rw [he]; exact .of_same rfl rfl rfl⟩

theorem frameProcess_writes {rho : F64} {s t : State} (h : frameProcess rho s = .ok t) : OaWrites s t := by
  obtain ⟨he, moves⟩ := frameProcess_frame h
  exact ⟨by rw [he], moves.sameExcept (by simp), by rw [he]; exact .of_same rfl rfl rfl⟩

theorem oaCommand_writes {i : Instr} {s u : State} (hi : i ∈ oaCommands) (h : ruleOf i s = .ok u) : OaWrites s u := by
  have hi : i = .oaInit ∨ i = .oaPush ∨ i = .oaFlush ∨ i = .oaFrame ∨ i = .oaFinal ∨ i = .fft ∨ i = .wingen ∨ i = .sincRs := by
    simpa using hi
  rcases hi with rfl | rfl | rfl | rfl | rfl | rfl | rfl | rfl
  · obtain rfl := Except.ok.inj h
    exact oaInitRule_writes s
  · obtain rfl := Except.ok.inj h
    rcases oaPushRule_cases s with ⟨e, hr⟩ | ⟨-, -, hr⟩
    · rw [hr]
      exact .raise e (.refl s)
    · rw [hr]
      exact oaAppend_writes s
  · obtain rfl := Except.ok.inj h
    rcases oaFlushRule_cases s with ⟨e, hr⟩ | hr | ⟨-, -, -, hr⟩
    · rw [hr]
      exact .raise e (.refl s)
    · rw [hr]
      exact .refl s
    · rw [hr]
      exact ⟨rfl, (oaZeroFill_moves s).sameExcept (by simp), .of_or rfl rfl rfl⟩
  · rcases oaFrameRule_cases h with ⟨e, rfl⟩ | ⟨-, -, ⟨t, ht, rfl⟩ | ⟨rho, t, v, ht, hv, rfl⟩⟩
    · exact .raise e (.refl s)
    · exact .raise _ (oaAdvance_writes ht)
    · exact ((frameProcess_writes ht).trans (oaAdvance_writes hv)).trans ⟨rfl, SameExcept.refl _ _, .of_or rfl rfl rfl⟩
  · rcases oaFinalRule_cases h with ⟨e, rfl⟩ | ⟨-, -, he, xs, ys, -, -, hmem⟩
    · exact .raise e (.refl s)
    · refine ⟨by rw [he], ?_, by rw [he]; exact .of_same rfl rfl rfl⟩
      rw [hmem]
      exact SameExcept.storeAt (SameExcept.storeAt (SameExcept.refl _ _) (by simp) _ _) (by simp) _ _
  · rcases fftRule_cases h with ⟨e, rfl⟩ | ⟨-, h⟩
    · exact .raise e (.refl s)
    · obtain ⟨he, moves⟩ := fftRun_frame h
      exact ⟨by rw [he], moves.sameExcept (by simp), by rw [he]; exact .of_same rfl rfl rfl⟩
  · rcases wingenRule_cases h with ⟨e, rfl⟩ | ⟨-, -, -, tw, g, -, -, rfl⟩
    · exact .raise e (.refl s)
    · exact ⟨rfl, SameExcept.storeAt (SameExcept.refl _ _) (by simp) _ _, .of_same rfl rfl rfl⟩
  · rcases sincRsRule_cases h with ⟨e, rfl⟩ | ⟨-, h⟩
    · exact .raise e (.refl s)
    · obtain ⟨he, moves⟩ := oaResample_frame h
      exact ⟨by rw [he], moves.sameExcept (by simp), by rw [he]; exact .of_same rfl rfl rfl⟩

/-- The commands of no unit, SOFT_RESET apart, are NOP and CLR_ERR (R133). -/
theorem unitless_cases {i : Instr} (hc : i ∉ clCommands) (hm : i ∉ mapCommands) (ho : i ∉ oaCommands)
    (hs : i ≠ .softReset) : i = .nop ∨ i = .clrErr := by
  cases i <;> simp_all

/-- Every command but SOFT_RESET is one of a unit and writes what that unit's commands write, or it is NOP, or CLR_ERR. -/
theorem ruleOf_writes {i : Instr} {s u : State} (h : ruleOf i s = .ok u) (hs : i ≠ .softReset) :
    (i ∈ clCommands ∧ ClWrites s u) ∨ (i ∈ mapCommands ∧ MapWrites s u) ∨ (i ∈ oaCommands ∧ OaWrites s u)
      ∨ (i = .nop ∧ u = s) ∨ (i = .clrErr ∧ u = s.clearError) := by
  by_cases hc : i ∈ clCommands
  · exact .inl ⟨hc, clCommand_writes hc h⟩
  by_cases hm : i ∈ mapCommands
  · exact .inr (.inl ⟨hm, mapCommand_writes hm h⟩)
  by_cases ho : i ∈ oaCommands
  · exact .inr (.inr (.inl ⟨ho, oaCommand_writes ho h⟩))
  rcases unitless_cases hc hm ho hs with rfl | rfl
  · exact .inr (.inr (.inr (.inl ⟨rfl, (Except.ok.inj h).symm⟩)))
  · exact .inr (.inr (.inr (.inr ⟨rfl, (Except.ok.inj h).symm⟩)))

end Sys2Proof.Machine
end

section
/-! PROOFS. One step as a whole: a move of the host, a command of some unit, or a reset; UnitsIndependent and RecordsKept. -/

namespace Sys2Proof.Machine

open Safety

/-! ## What a move of the host writes -/

theorem Reg.offset_of_ofOffset {o : BitVec 12} {r : Reg} (h : Reg.ofOffset o = some r) : r.offset = o := by
  simpa using List.find?_some h

/-- A host write while BUSY = 0, with the register at the offset where it is a register write. -/
theorem hostWrite_idle_cases {o : BitVec 12} {v : Word} {s : State} (hb : s.busy = false) :
    hostWrite o v s = s ∨ hostWrite o v s = issue v s ∨ hostWrite o v s = ramWrite v s
      ∨ ∃ r, r.offset = o ∧ hostWrite o v s = s.writeReg r v := by
  unfold hostWrite
  rw [hb]
  simp only [Bool.false_eq_true, if_false]
  split
  · exact .inl rfl
  · exact .inr (.inl rfl)
  · exact .inr (.inr (.inl rfl))
  · rename_i r _ _ hr
    exact .inr (.inr (.inr ⟨r, Reg.offset_of_ofOffset hr, rfl⟩))

/-- From `s` to `t` only what the host's accesses reach was written: the registers of the window, the coefficient and work RAMs,
the command in progress, the error record as R341 allows, and the host's own side. A pending event is cleared only by the operation
`op` being a write of 1 to its bit of IRQ_STATUS (R34). -/
structure HostWrites (op : Option HostOp) (s t : State) : Prop where
  state :
    t =
      { s with
        cmd := t.cmd
        err := t.err
        errcode := t.errcode
        irqStatus := t.irqStatus
        irqEnable := t.irqEnable
        din0 := t.din0
        din1 := t.din1
        ramSel := t.ramSel
        ramAddr := t.ramAddr
        clReg := t.clReg
        mapReg := t.mapReg
        oaReg := t.oaReg
        mem := t.mem
        host := t.host }
  memory : SameExcept (fun b _ => b ∈ hostBanks) s.mem t.mem
  err : s.err = true → t.err = true ∧ t.errcode = s.errcode
  irq : ∀ n,
    (∀ (v : Word) (k : Nat), s.busy = false → op = some (.bus ⟨.write, 0x018#12, k, v⟩) → v.getLsbD n = false) →
      s.irqStatus.getLsbD n = true → t.irqStatus.getLsbD n = true

namespace HostWrites

theorem refl (op : Option HostOp) (s : State) : HostWrites op s s :=
  ⟨rfl, SameExcept.refl _ _, (KeepsRecords.refl s).err, fun _ _ h => h⟩

/-- The host's own side does not matter to what is written. -/
theorem of_host {op : Option HostOp} {s t : State} {x : HostSide} (h : HostWrites op { s with host := x } t) :
    HostWrites op s t :=
  ⟨h.state, h.memory, h.err, h.irq⟩

theorem raise (op : Option HostOp) (c : ErrCode) (s : State) : HostWrites op s (s.raise c) := by
  have records := KeepsRecords.raise c (.refl s)
  exact ⟨by rw [State.raise_eq], by simp [SameExcept], records.err, fun n _ => records.irq n⟩

end HostWrites

theorem issue_hostWrites (op : Option HostOp) (w : Word) (s : State) : HostWrites op s (issue w s) := by
  unfold issue
  split
  · have records := KeepsRecords.raise .illegalCmd (KeepsRecords.fire .cmdDone (.refl s))
    exact ⟨by rw [State.raise_eq]; rfl, by simp [SameExcept], records.err, fun n _ => records.irq n⟩
  · exact ⟨rfl, SameExcept.refl _ _, fun h => ⟨h, rfl⟩, fun _ _ h => h⟩

theorem ramWrite_hostWrites (op : Option HostOp) (v : Word) (s : State) : HostWrites op s (ramWrite v s) := by
  have moves := ramWrite_moves v s
  rcases ramWrite_cases v s with h | ⟨r, -, -, h⟩
  · rw [h]
    exact .raise op _ s
  · rw [h] at moves ⊢
    exact ⟨rfl, moves.sameExcept fun _ => id, fun h => ⟨h, rfl⟩, fun _ _ h => h⟩

/-- A register write changes the error record never and the pending events at IRQ_STATUS alone (R34, R106). -/
theorem writeReg_hostWrites {a : Access} {s : State} {r : Reg} (hb : s.busy = false) (hd : a.dir = .write)
    (ho : r.offset = a.offset) : HostWrites (some (.bus a)) s (s.writeReg r a.data) := by
  obtain ⟨dir, offset, bits, data⟩ := a
  obtain rfl : dir = .write := hd
  obtain rfl : r.offset = offset := ho
  refine ⟨by cases r <;> rfl, by rw [State.writeReg_mem]; exact SameExcept.refl _ _, fun h => by cases r <;> exact ⟨h, rfl⟩, ?_⟩
  intro n ack pending
  cases r with
  | irqStatus =>
    have hn := ack data bits hb rfl
    have h8 : n < 8 := BitVec.lt_of_getLsbD pending
    simp [State.writeReg, pending, hn, h8]
  | _ => exact pending

theorem hostWrite_hostWrites {a : Access} {s : State} (hd : a.dir = .write) :
    HostWrites (some (.bus a)) s (hostWrite a.offset a.data s) := by
  rcases hostWrite_cases a.offset a.data s with ⟨-, h⟩ | ⟨hb, -⟩
  · rw [h]
    exact .raise _ _ s
  · rcases hostWrite_idle_cases (o := a.offset) (v := a.data) hb with h | h | h | ⟨r, ho, h⟩ <;> rw [h]
    · exact .refl _ s
    · exact issue_hostWrites _ _ s
    · exact ramWrite_hostWrites _ _ s
    · exact writeReg_hostWrites hb hd ho

theorem hostRead_hostWrites {op : Option HostOp} {o : BitVec 12} {s t : State} (h : hostRead o s = .ok t) :
    HostWrites op s t := by
  obtain ⟨v, u, rfl, hu⟩ := hostRead_cases h
  have recorded : HostWrites op s u := by
    rcases hu with rfl | ⟨-, rfl⟩ | ⟨-, rfl | rfl⟩
    · exact .refl _ u
    · exact .raise _ _ s
    · exact .raise _ _ s
    · exact ⟨rfl, SameExcept.refl _ _, fun h => ⟨h, rfl⟩, fun _ _ h => h⟩
  refine ⟨?_, recorded.memory, recorded.err, recorded.irq⟩
  conv_lhs => rw [recorded.state]
  rfl

/-- One operation of the host: a power-on reset, or writes where the host's accesses reach. -/
theorem hostOp_hostWrites {op : HostOp} {s t : State} (h : hostOp op s = .ok t) :
    (op = .powerOn ∧ t = platformReset s) ∨ HostWrites (some op) s t := by
  cases op with
  | bus a =>
    right
    obtain ⟨-, ⟨-, hr⟩ | ⟨hd, rfl⟩⟩ := busAccess_eq_ok.mp h
    · exact hostRead_hostWrites hr
    · exact hostWrite_hostWrites hd
  | wait =>
    right
    obtain rfl := Except.ok.inj h
    rw [waitTurn_eq]
    exact ⟨rfl, SameExcept.refl _ _, fun h => ⟨h, rfl⟩, fun _ _ h => h⟩
  | chkerr =>
    right
    obtain rfl := Except.ok.inj h
    rw [chkerrTurn_eq]
    exact ⟨rfl, SameExcept.refl _ _, fun h => ⟨h, rfl⟩, fun _ _ h => h⟩
  | powerOn =>
    left
    exact ⟨rfl, (Except.ok.inj h).symm⟩

theorem hostMove_hostWrites {s t : State} (h : hostMove s = .ok t) :
    (s.host.queue.head? = some .powerOn ∧ ∃ x, t = State.powerOn s.par x s.freeNext)
      ∨ HostWrites s.host.queue.head? s t := by
  rcases hostMove_eq_ok.mp h with ⟨-, rfl⟩ | ⟨op, rest, hq, h⟩
  · exact .inr (.refl _ t)
  · rw [hq]
    rcases hostOp_hostWrites h with ⟨rfl, rfl⟩ | hw
    · exact .inl ⟨rfl, _, rfl⟩
    · exact .inr hw.of_host

/-! ## One step -/

/-- What a step can do, in the terms of `nextOp` and `nextCommand`: a power-on reset, another move of the host, the rule of a command
and its completion, or the error of a pending word that is no command. -/
theorem step_writes {s t : State} (h : step s = .next t) :
    (nextOp s = some .powerOn ∧ ∃ x, t = State.powerOn s.par x s.freeNext)
      ∨ HostWrites (nextOp s) s t
      ∨ (∃ i u, nextCommand s = some i ∧ ruleOf i s = .ok u ∧ t = u.complete)
      ∨ t = (s.raise .illegalCmd).complete := by
  rcases step_eq_next.mp h with ⟨hc, hm⟩ | ⟨w, -, hf, hm⟩ | ⟨w, i, hc, hf, hd, he⟩ | ⟨w, r, -, -, -, rfl⟩
  · have hop : nextOp s = s.host.queue.head? := if_pos (.inl hc)
    rw [hop]
    rcases hostMove_hostWrites hm with hr | hw
    · exact .inl hr
    · exact .inr (.inl hw)
  · have hop : nextOp s = s.host.queue.head? := if_pos (.inr hf)
    rw [hop]
    rcases hostMove_hostWrites hm with hr | hw
    · exact .inl hr
    · exact .inr (.inl hw.of_host)
  · obtain ⟨u, hu, rfl⟩ := exec_eq_next.mp he
    exact .inr (.inr (.inl ⟨i, u, by simp [nextCommand, hc, hf, hd, Except.toOption], hu, rfl⟩))
  · exact .inr (.inr (.inr rfl))

/-! ## A unit left alone -/

theorem SameExcept.off {bs cs : List Bank} {m m' : Memory} (h : SameExcept (fun b _ => b ∈ bs) m m')
    (hd : ∀ b ∈ cs, b ∉ bs) : SameExcept (fun b _ => b ∉ cs) m m' :=
  fun b i hb => h b i (hd b (not_not.mp hb))

/-- The CL and ELG units have in `t` the elements, the words and the capacities they have in `s`. -/
structure ClSame (s t : State) : Prop where
  ready : t.clReady = s.clReady
  cfg : t.clCfg = s.clCfg
  unit : t.cl = s.cl
  gate : t.elg = s.elg
  par : t.par = s.par
  memory : SameExcept (fun b _ => b ∉ clBanks) s.mem t.mem

/-- The same of the MAP unit. -/
structure MapSame (s t : State) : Prop where
  ready : t.mapReady = s.mapReady
  cfg : t.mapCfg = s.mapCfg
  unit : t.map = s.map
  par : t.par = s.par
  memory : SameExcept (fun b _ => b ∉ mapBanks) s.mem t.mem

/-- The banks of the OA unit that the host cannot write (R56): all but the work RAMs RS_RE and RS_IM. -/
abbrev oaOwnBanks : List Bank :=
  [.ram .sincLut, .ram .win, .ram .fftTw, .ram .bitrev, .ram .frameBuf, .ram .speedBuf, .ram .mag, .ram .orders, .ram .avgRe,
   .ram .avgIm, .ram .avgSpec, .ram .avgPhase, .line .lin]

/-- The same of the OA unit, its work RAMs left open. -/
structure OaSame (s t : State) : Prop where
  ready : t.oaReady = s.oaReady
  cfg : t.oaCfg = s.oaCfg
  unit : t.oa = s.oa
  par : t.par = s.par
  memory : SameExcept (fun b _ => b ∉ oaOwnBanks) s.mem t.mem

theorem ClSame.complete {s u : State} (h : ClSame s u) : ClSame s u.complete :=
  ⟨h.ready, h.cfg, h.unit, h.gate, h.par, h.memory⟩

theorem MapSame.complete {s u : State} (h : MapSame s u) : MapSame s u.complete := ⟨h.ready, h.cfg, h.unit, h.par, h.memory⟩

theorem OaSame.complete {s u : State} (h : OaSame s u) : OaSame s u.complete := ⟨h.ready, h.cfg, h.unit, h.par, h.memory⟩

theorem ClWrites.mapSame {s u : State} (h : ClWrites s u) : MapSame s u := by
  refine ⟨?_, ?_, ?_, ?_, SameExcept.off h.memory (by decide)⟩ <;> rw [h.state]

theorem ClWrites.oaSame {s u : State} (h : ClWrites s u) : OaSame s u := by
  refine ⟨?_, ?_, ?_, ?_, SameExcept.off h.memory (by decide)⟩ <;> rw [h.state]

theorem MapWrites.clSame {s u : State} (h : MapWrites s u) : ClSame s u := by
  refine ⟨?_, ?_, ?_, ?_, ?_, SameExcept.off h.memory (by decide)⟩ <;> rw [h.state]

theorem MapWrites.oaSame {s u : State} (h : MapWrites s u) : OaSame s u := by
  refine ⟨?_, ?_, ?_, ?_, SameExcept.off h.memory (by decide)⟩ <;> rw [h.state]

theorem OaWrites.clSame {s u : State} (h : OaWrites s u) : ClSame s u := by
  refine ⟨?_, ?_, ?_, ?_, ?_, SameExcept.off h.memory (by decide)⟩ <;> rw [h.state]

theorem OaWrites.mapSame {s u : State} (h : OaWrites s u) : MapSame s u := by
  refine ⟨?_, ?_, ?_, ?_, SameExcept.off h.memory (by decide)⟩ <;> rw [h.state]

theorem HostWrites.clSame {op : Option HostOp} {s u : State} (h : HostWrites op s u) : ClSame s u := by
  refine ⟨?_, ?_, ?_, ?_, ?_, SameExcept.off h.memory (by decide)⟩ <;> rw [h.state]

theorem HostWrites.mapSame {op : Option HostOp} {s u : State} (h : HostWrites op s u) : MapSame s u := by
  refine ⟨?_, ?_, ?_, ?_, SameExcept.off h.memory (by decide)⟩ <;> rw [h.state]

theorem HostWrites.oaSame {op : Option HostOp} {s u : State} (h : HostWrites op s u) : OaSame s u := by
  refine ⟨?_, ?_, ?_, ?_, SameExcept.off h.memory (by decide)⟩ <;> rw [h.state]

/-! ## What every command leaves alone -/

/-- What only the host writes (R36, R37, R133): DIN, the RAM window's registers, IRQ_ENABLE, the configuration registers and the
coefficient RAMs. -/
structure HostSame (s t : State) : Prop where
  din0 : t.din0 = s.din0
  din1 : t.din1 = s.din1
  ramSel : t.ramSel = s.ramSel
  ramAddr : t.ramAddr = s.ramAddr
  irqEnable : t.irqEnable = s.irqEnable
  clReg : t.clReg = s.clReg
  mapReg : t.mapReg = s.mapReg
  oaReg : t.oaReg = s.oaReg
  memory : SameExcept (fun b _ => b ∉ [Bank.ram .lpfCoef, .ram .elgLfCoef, .ram .rrcCoef]) s.mem t.mem

theorem ClWrites.hostSame {s u : State} (h : ClWrites s u) : HostSame s u := by
  refine ⟨?_, ?_, ?_, ?_, ?_, ?_, ?_, ?_, SameExcept.off h.memory (by decide)⟩ <;> rw [h.state]

theorem MapWrites.hostSame {s u : State} (h : MapWrites s u) : HostSame s u := by
  refine ⟨?_, ?_, ?_, ?_, ?_, ?_, ?_, ?_, SameExcept.off h.memory (by decide)⟩ <;> rw [h.state]

theorem OaWrites.hostSame {s u : State} (h : OaWrites s u) : HostSame s u := by
  refine ⟨?_, ?_, ?_, ?_, ?_, ?_, ?_, ?_, SameExcept.off h.memory (by decide)⟩ <;> rw [h.state]

/-- Settles O60: a command of a unit writes only what `ClWrites`, `MapWrites` or `OaWrites` lists; NOP and CLR_ERR write no unit. -/
theorem unitsIndependent : Obligations.UnitsIndependent := by
  intro i s t h hs
  obtain ⟨u, hu, rfl⟩ := exec_eq_next.mp h
  have all : (i ∉ clCommands → ClSame s u) ∧ (i ∉ mapCommands → MapSame s u)
      ∧ (i ∉ oaCommands → OaSame s u ∧ SameExcept (fun b _ => b ∉ oaBanks) s.mem u.mem) ∧ HostSame s u := by
    rcases ruleOf_writes hu hs with ⟨hi, w⟩ | ⟨hi, w⟩ | ⟨hi, w⟩ | ⟨-, rfl⟩ | ⟨-, rfl⟩
    · exact ⟨absurd hi, fun _ => w.mapSame, fun _ => ⟨w.oaSame, SameExcept.off w.memory (by decide)⟩, w.hostSame⟩
    · exact ⟨fun _ => w.clSame, absurd hi, fun _ => ⟨w.oaSame, SameExcept.off w.memory (by decide)⟩, w.hostSame⟩
    · exact ⟨fun _ => w.clSame, fun _ => w.mapSame, absurd hi, w.hostSame⟩
    · have same := SameExcept.refl (m := u.mem)
      exact ⟨fun _ => ⟨rfl, rfl, rfl, rfl, rfl, same _⟩, fun _ => ⟨rfl, rfl, rfl, rfl, same _⟩,
        fun _ => ⟨⟨rfl, rfl, rfl, rfl, same _⟩, same _⟩, ⟨rfl, rfl, rfl, rfl, rfl, rfl, rfl, rfl, same _⟩⟩
    · have same := SameExcept.refl (m := s.mem)
      exact ⟨fun _ => ⟨rfl, rfl, rfl, rfl, rfl, same _⟩, fun _ => ⟨rfl, rfl, rfl, rfl, same _⟩,
        fun _ => ⟨⟨rfl, rfl, rfl, rfl, same _⟩, same _⟩, ⟨rfl, rfl, rfl, rfl, rfl, rfl, rfl, rfl, same _⟩⟩
  obtain ⟨cl, map, oa, host⟩ := all
  exact ⟨fun hi => ⟨(cl hi).ready, (cl hi).cfg, (cl hi).unit, (cl hi).gate, (cl hi).memory⟩,
    fun hi => ⟨(map hi).ready, (map hi).cfg, (map hi).unit, (map hi).memory⟩,
    fun hi => ⟨(oa hi).1.ready, (oa hi).1.cfg, (oa hi).1.unit, (oa hi).2⟩,
    host.din0, host.din1, host.ramSel, host.ramAddr, host.irqEnable, host.clReg, host.mapReg, host.oaReg, host.memory⟩

/-! ## The records of a whole step -/

theorem ruleOf_irq {i : Instr} {s u : State} (h : ruleOf i s = .ok u) (hs : i ≠ .softReset) {n : Nat}
    (hn : s.irqStatus.getLsbD n = true) : u.irqStatus.getLsbD n = true := by
  rcases ruleOf_writes h hs with ⟨-, w⟩ | ⟨-, w⟩ | ⟨-, w⟩ | ⟨-, rfl⟩ | ⟨-, rfl⟩
  · exact w.records.irq n hn
  · exact w.records.irq n hn
  · exact w.records.irq n hn
  · exact hn
  · exact hn

theorem ruleOf_err {i : Instr} {s u : State} (h : ruleOf i s = .ok u) (hs : i ≠ .softReset) (hc : i ≠ .clrErr)
    (he : s.err = true) : u.err = true ∧ u.errcode = s.errcode := by
  rcases ruleOf_writes h hs with ⟨-, w⟩ | ⟨-, w⟩ | ⟨-, w⟩ | ⟨-, rfl⟩ | ⟨hi, -⟩
  · exact w.records.err he
  · exact w.records.err he
  · exact w.records.err he
  · exact ⟨he, rfl⟩
  · exact absurd hi hc

/-- What no ELG sample undoes (R207, R208): LOCKED, NOLOCK, and having left IDLE. -/
structure KeepsLock (u u' : ElgState) : Prop where
  locked : u = .locked → u' = .locked
  nolock : u = .nolock → u' = .nolock
  started : u ≠ .idle → u' ≠ .idle

namespace KeepsLock

theorem refl (u : ElgState) : KeepsLock u u := ⟨id, id, id⟩

theorem trans {u v w : ElgState} (h : KeepsLock u v) (h' : KeepsLock v w) : KeepsLock u w :=
  ⟨fun e => h'.locked (h.locked e), fun e => h'.nolock (h.nolock e), fun e => h'.started (h.started e)⟩

/-- A transition out of IDLE or ACQUIRING to another state than IDLE. -/
theorem of_early {u v : ElgState} (h : u = .idle ∨ u = .acquiring) (hv : v ≠ .idle) : KeepsLock u v := by
  refine ⟨?_, ?_, fun _ => hv⟩ <;> rintro rfl <;> simp at h

end KeepsLock

theorem enter_keepsLock (u : ElgUnit) : KeepsLock u.state (enter u).state := by
  unfold enter
  split
  · rename_i h
    exact .of_early (.inl h.1) (by simp)
  · exact .refl _

theorem counter_state (ns : Nat) (zc : Bool) (u : ElgUnit) : (counter ns zc u).unit.state = u.state := by
  by_cases h : u.state = .acquiring ∨ u.state = .locked
  · rw [(counter_running h).2.2]
  · rw [counter_resting h]

theorem lock_keepsLock (ns : Nat) (zc trig correct : Bool) (u : ElgUnit) :
    KeepsLock u.state (lock ns zc trig correct u).state := by
  unfold lock
  split
  · rename_i h
    dsimp only
    split
    · exact .of_early (.inr h.1) (by simp)
    · exact .refl _
  · exact .refl _

theorem limit_keepsLock (n : Nat) (u : ElgUnit) : KeepsLock u.state (limit n u).state := by
  unfold limit
  split
  · rename_i h
    exact .of_early h.2.1 (by simp)
  · exact .refl _

/-- One ELG sample: DETECT and COUNTER leave the state as it is, the three transitions keep what `KeepsLock` says. -/
theorem ElgNext.keepsLock {c : ClConfig} {u u' : ElgUnit} (h : ElgNext c u u') : KeepsLock u.state u'.state := by
  obtain ⟨m, f, rfl⟩ := h
  have entered := enter_keepsLock (detect c.elgThresh m f (elgMoved c m u))
  have counted := counter_state c.elgSymlen.toNat (zeroCross c.elgThresh m f (elgMoved c m u))
    (enter (detect c.elgThresh m f (elgMoved c m u)))
  refine KeepsLock.trans entered ?_
  rw [← counted]
  exact (lock_keepsLock _ _ _ _ _).trans (limit_keepsLock _ _)

theorem ruleOf_keepsLock {i : Instr} {s u : State} (h : ruleOf i s = .ok u) (hs : i ≠ .softReset) (hc : i ≠ .clInit) :
    KeepsLock s.elg.state u.elg.state := by
  have same : ClSame s u → KeepsLock s.elg.state u.elg.state := fun w => by rw [w.gate]; exact .refl _
  rcases ruleOf_writes h hs with ⟨hi, -⟩ | ⟨-, w⟩ | ⟨-, w⟩ | ⟨-, rfl⟩ | ⟨-, rfl⟩
  · have hi : i = .clInit ∨ i = .clStep ∨ i = .elgStep := by simpa using hi
    rcases hi with rfl | rfl | rfl
    · exact absurd rfl hc
    · rcases clStepRule_cases h with ⟨-, rfl⟩ | ⟨-, hb⟩
      · rw [State.raise_elg]
        exact .refl _
      · exact (clStepBody_elgNext hb).keepsLock
    · rcases elgStepRule_cases h with ⟨-, rfl⟩ | ⟨-, g, hg, rfl⟩
      · rw [State.raise_elg]
        exact .refl _
      · exact (elgCore_next hg).keepsLock
  · exact same w.clSame
  · exact same w.clSame
  · exact .refl _
  · exact .refl _

/-- Settles O58: of the four kinds of step the reset is excluded, and the others keep the records by `HostWrites`, `KeepsRecords`
and `KeepsLock`. -/
theorem recordsKept : Obligations.RecordsKept := by
  refine ⟨?err, ?irq, ?lock⟩
  case err =>
    intro s t h he ⟨noPower, noSoft⟩ hc
    rcases step_writes h with ⟨hop, -⟩ | w | ⟨i, u, hi, hu, rfl⟩ | rfl
    · exact absurd hop noPower
    · exact w.err he
    · rw [hi] at noSoft hc
      rw [State.complete_err, State.complete_errcode]
      exact ruleOf_err hu (fun e => noSoft (by rw [e])) (fun e => hc (by rw [e])) he
    · exact ((KeepsRecords.refl s).raise .illegalCmd).complete.err he
  case irq =>
    intro s t n h hn ⟨noPower, noSoft⟩ ack
    rcases step_writes h with ⟨hop, -⟩ | w | ⟨i, u, hi, hu, rfl⟩ | rfl
    · exact absurd hop noPower
    · exact w.irq n (fun v k hb hop => ack v k hb hop) hn
    · rw [hi] at noSoft
      exact (KeepsRecords.refl u).complete.irq n (ruleOf_irq hu (fun e => noSoft (by rw [e])) hn)
    · exact ((KeepsRecords.refl s).raise .illegalCmd).complete.irq n hn
  case lock =>
    intro s t h ⟨noPower, noSoft⟩ hc
    suffices kept : KeepsLock s.elg.state t.elg.state from ⟨kept.locked, kept.nolock, kept.started⟩
    rcases step_writes h with ⟨hop, -⟩ | w | ⟨i, u, hi, hu, rfl⟩ | rfl
    · exact absurd hop noPower
    · rw [w.clSame.gate]
      exact .refl _
    · rw [hi] at noSoft hc
      rw [State.complete_elg]
      exact ruleOf_keepsLock hu (fun e => noSoft (by rw [e])) (fun e => hc (by rw [e]))
    · rw [State.complete_elg, State.raise_elg]
      exact .refl _

end Sys2Proof.Machine
end

section
/-! PROOFS. The phase wrap stays in its table (R162): what is needed of the binary64 of a table size. -/

namespace Sys2Proof.Fp

/-- Rounding away `d` bits of a number of `d + k` bits leaves at most `2 ^ k`. -/
theorem shiftRne_le {m d k : Nat} (h : m < 2 ^ (d + k)) : shiftRne m d ≤ 2 ^ k := by
  have quotient : m >>> d < 2 ^ k := by
    rw [Nat.shiftRight_eq_div_pow]
    exact Nat.div_lt_of_lt_mul (by rwa [← Nat.pow_add])
  unfold shiftRne
  split
  · rename_i hd
    subst hd
    simpa using Nat.le_of_lt h
  · dsimp only
    split <;> omega

/-- The significand of a positive integer below 2 ^ 64, on the unit 2 ^ (log2 n - 52). -/
def ofNatMant (n : Nat) : Nat := if n.log2 ≤ 52 then n <<< (52 - n.log2) else shiftRne n (n.log2 - 52)

theorem ofNatMant_le (n : Nat) : ofNatMant n ≤ 2 ^ 53 := by
  have hn : n < 2 ^ (n.log2 + 1) := Nat.lt_log2_self
  unfold ofNatMant
  split
  · rename_i hl
    rw [Nat.shiftLeft_eq]
    calc n * 2 ^ (52 - n.log2) ≤ 2 ^ (n.log2 + 1) * 2 ^ (52 - n.log2) := Nat.mul_le_mul_right _ (Nat.le_of_lt hn)
      _ = 2 ^ 53 := by rw [← Nat.pow_add]; congr 1; omega
  · rename_i hl
    exact shiftRne_le (Nat.lt_of_lt_of_le hn (Nat.pow_le_pow_right (by decide) (by omega)))

theorem log2_lt_64 {n : Nat} (h0 : 0 < n) (h : n < 18446744073709551616) : n.log2 < 64 :=
  (Nat.log2_lt (by omega)).mpr h

/-- The pattern of a positive integer below 2 ^ 64: the exponent field and the significand added. -/
theorem toNat_ofNat {n : Nat} (h0 : 0 < n) (h : n < 18446744073709551616) :
    (ofNat n).toNat = (n.log2 + 1022) * 4503599627370496 + ofNatMant n := by
  have hl := log2_lt_64 h0 h
  have hm := ofNatMant_le n
  have unit : max ((0 : Int) + (n.log2 : Int) - 52) (-1074) = (n.log2 : Int) - 52 := by omega
  have exponent : ((n.log2 : Int) - 52 + 1074).toNat = n.log2 + 1022 := by omega
  have rounded :
      (if (n.log2 : Int) - 52 ≤ 0 then n <<< (0 - ((n.log2 : Int) - 52)).toNat
        else shiftRne n ((n.log2 : Int) - 52 - 0).toNat) = ofNatMant n := by
    unfold ofNatMant
    by_cases h52 : n.log2 ≤ 52
    · rw [if_pos h52, if_pos (by omega), show (0 - ((n.log2 : Int) - 52)).toNat = 52 - n.log2 by omega]
    · rw [if_neg h52, if_neg (by omega), show ((n.log2 : Int) - 52 - 0).toNat = n.log2 - 52 by omega]
  unfold ofNat round
  rw [if_neg (by omega)]
  dsimp only
  rw [unit, exponent, rounded, if_neg (by omega), toNat_signed (by omega)]
  rfl

/-- A positive integer below 2 ^ 64 is in binary64 finite, above +0.0, and at most 2 ^ 64. -/
theorem ofNat_range {n : Nat} (h0 : 0 < n) (h : n < 18446744073709551616) :
    0 < (ofNat n).toNat ∧ (ofNat n).toNat ≤ 4895412794951729152 := by
  have hl := log2_lt_64 h0 h
  have hm := ofNatMant_le n
  rw [toNat_ofNat h0 h]
  omega

/-- A pattern below infinity's is a finite value of positive sign, ordered by its bits. -/
theorem finite_of_toNat_lt {v : F64} (h : v.toNat < 9218868437227405312) :
    isFinite v = true ∧ sign v = false ∧ key v = v.toNat := by
  have hs : sign v = false := by
    unfold sign
    rw [BitVec.msb_eq_decide]
    simp
    omega
  refine ⟨?_, hs, by unfold key; rw [hs]; rfl⟩
  unfold isFinite
  rw [expField_eq]
  simp
  omega

theorem isFinite_ofNat {n : Nat} (h0 : 0 < n) (h : n < 18446744073709551616) : isFinite (ofNat n) = true :=
  (finite_of_toNat_lt (by have := ofNat_range h0 h; omega)).1

theorem zero_lt_ofNat {n : Nat} (h0 : 0 < n) (h : n < 18446744073709551616) : lt zero (ofNat n) = true := by
  obtain ⟨hp, hle⟩ := ofNat_range h0 h
  have hk := (finite_of_toNat_lt (v := ofNat n) (by omega)).2.2
  have hz : key zero = 0 := by decide
  unfold lt
  rw [isNaN_ofNat, show isNaN zero = false by decide, hk, hz]
  simp
  omega

theorem isZero_of_zero_lt {v : F64} (h : lt zero v = true) : isZero v = false := by
  by_contra hz
  have hz : isZero v = true := by simpa using hz
  have bits : v.toNat = 0 ∨ v.toNat = 9223372036854775808 := by
    unfold isZero at hz
    rw [expField_eq, frac] at hz
    simp only [Bool.and_eq_true, beq_iff_eq] at hz
    have := v.isLt
    omega
  have : v = zero ∨ v = neg zero := by
    rcases bits with hb | hb
    · exact .inl (BitVec.eq_of_toNat_eq (by rw [hb]; rfl))
    · exact .inr (BitVec.eq_of_toNat_eq (by rw [hb]; rfl))
  rcases this with rfl | rfl <;> revert h <;> decide

end Sys2Proof.Fp

namespace Sys2Proof.Machine

open Safety

theorem inTable_zero {t : Nat} (h0 : 0 < t) (h : t < 18446744073709551616) : InTable Fp.zero t :=
  ⟨by decide, Fp.zero_lt_ofNat h0 h⟩

/-- The remainder that WRAP tests is no NaN where the phase is finite (R162, R17). -/
theorem wrap_remainder_not_nan {v : F64} (hv : Fp.isFinite v = true) {t : Nat} (h0 : 0 < t)
    (h : t < 18446744073709551616) (n : Int) :
    Fp.isNaN (Fp.sub v (Fp.mul (Fp.ofNat t) (Fp.ofInt n))) = false := by
  have hf := Fp.not_inf_of_finite (Fp.isFinite_ofNat h0 h)
  have hz := Fp.isZero_of_zero_lt (Fp.zero_lt_ofNat h0 h)
  refine Fp.isNaN_sub_of_finite hv (Fp.isNaN_mul (Fp.isNaN_ofNat t) (Fp.isNaN_ofInt n) ?_)
  by_cases hi : Fp.isInf (Fp.ofInt n) = true
  · right
    rw [hz, Bool.false_or]
    unfold Fp.isInf Fp.isZero at *
    simp only [Bool.and_eq_true, beq_iff_eq] at hi
    simp [hi.1]
  · left
    rw [hf, Bool.false_or]
    simpa using hi

/-- The wrapped phase lies in the table, whatever was wrapped (R162). -/
theorem wrap_inTable (v : F64) {t : Nat} (h0 : 0 < t) (h : t < 18446744073709551616) : InTable (wrap v t) t := by
  unfold wrap
  split
  · rename_i hv
    dsimp only
    have hr := wrap_remainder_not_nan hv h0 h (Fp.floor (Fp.div v (Fp.ofNat t)))
    generalize Fp.sub v (Fp.mul (Fp.ofNat t) (Fp.ofInt (Fp.floor (Fp.div v (Fp.ofNat t))))) = r at hr ⊢
    split
    · exact inTable_zero h0 h
    · rename_i hin
      simp only [Bool.or_eq_true, not_or, Bool.not_eq_true] at hin
      obtain ⟨⟨below, nonneg⟩, -⟩ := hin
      exact ⟨Fp.le_of_not_lt hr (by decide) nonneg, Fp.lt_of_not_le (Fp.isNaN_ofNat t) hr below⟩
  · exact inTable_zero h0 h

/-- A table size that an INIT admits is a positive 64-bit number, so its phases wrap into the table. -/
theorem wrap_inTable_word (v : F64) {t : Word} (h0 : 0 < t.toNat) : InTable (wrap v t.toNat) t.toNat :=
  wrap_inTable v h0 t.isLt

end Sys2Proof.Machine
end

section
/-! PROOFS. The invariant of the CL and ELG units: ClInvariant. -/

namespace Sys2Proof.Machine

open Safety

/-! ## What CL_INIT admits -/

/-- The checks of CL_INIT, each written out (R168). -/
theorem clCheck_eq_none {p : Params} {c : ClConfig} :
    clCheck p c = none ↔ TableOk p c.vcoTsize ∧ ClLengthsOk p c ∧ c.fbMode.toNat ≤ 2 ∧ ClValuesOk c := by
  unfold clCheck
  dsimp only
  constructor
  · intro h
    split at h
    · cases h
    split at h
    · cases h
    split at h
    · cases h
    split at h
    · cases h
    rename_i table lengths mode values
    simp only [Bool.not_eq_true', Bool.not_eq_false, Bool.or_eq_true, Bool.and_eq_true, decide_eq_true_eq, not_or,
      Bool.not_eq_true] at lengths values
    obtain ⟨⟨⟨⟨⟨lpf, elf⟩, sym⟩, mf⟩, eg⟩, comp⟩ := lengths
    obtain ⟨⟨⟨⟨⟨inc, idx⟩, thresh⟩, alpha⟩, low⟩, high⟩ := values
    exact ⟨⟨by omega, by omega, by omega⟩, ⟨lpf, elf, sym, mf, eg, comp.2⟩, by omega, inc, idx, thresh, alpha, low, high⟩
  · rintro ⟨⟨t4, tmax, tmod⟩, ⟨lpf, elf, sym, mf, eg, comp⟩, mode, inc, idx, thresh, alpha, low, high⟩
    rw [if_neg (by omega), if_neg (by simp [lpf, elf, sym, mf, eg, comp]), if_neg (by omega),
      if_neg (by simp [inc, idx, thresh, alpha, low, high])]

/-! ## The early-late gate -/

/-- `ElgGood` but for its last clause, which LIMIT restores at the end of each sample (R208). -/
structure ElgBounded (c : ClConfig) (u : ElgUnit) : Prop where
  mf : u.mfIdx < c.elgMfLen.toNat
  eg : u.egIdx < c.elgDelay.toNat
  elf : u.elfIdx < c.elgLfLen.toNat
  cnt : u.trigCnt < c.elgSymlen.toNat
  samples : u.samples ≤ 18446744073709551615
  acquiring : u.state = .acquiring → u.good < c.elgSymlen.toNat
  locked : u.state = .locked → u.good = c.elgSymlen.toNat ∧ u.trigLat ≤ u.samples
  nolock : u.state = .nolock → c.acqLimit ≠ 0

theorem satInc_le (n : Nat) : satInc n ≤ 18446744073709551615 := Nat.min_le_right _ _

theorem le_satInc {n : Nat} (h : n ≤ 18446744073709551615) : n ≤ satInc n := by
  unfold satInc
  omega

/-- Moving the filters on keeps their indices below their lengths (R58, R201 to R203). -/
theorem elgMoved_bounded {p : Params} {c : ClConfig} {u : ElgUnit} (hc : ClLengthsOk p c) (h : ElgGood c u) (m : F64) :
    ElgBounded c (elgMoved c m u) := by
  obtain ⟨-, elf, -, mf, eg, -⟩ := hc
  obtain ⟨-, -, -, cnt, samples, acquiring, locked, nolock, -⟩ := h
  exact
    { mf := Nat.mod_lt _ mf.1
      eg := Nat.mod_lt _ eg.1
      elf := Nat.mod_lt _ elf.1
      cnt := cnt
      samples := satInc_le _
      acquiring := acquiring
      locked := fun hs => ⟨(locked hs).1, Nat.le_trans (locked hs).2 (le_satInc samples)⟩
      nolock := nolock }

theorem enter_bounded {c : ClConfig} {u : ElgUnit} (h1 : 1 ≤ c.elgSymlen.toNat) (h : ElgBounded c u) :
    ElgBounded c (enter u) := by
  unfold enter
  split
  · exact { h with cnt := h1, acquiring := fun _ => h1, locked := by simp, nolock := by simp }
  · exact h

/-- The trigger counter stays below the symbol length (R206). -/
theorem counter_bounded {c : ClConfig} {u : ElgUnit} (h1 : 1 ≤ c.elgSymlen.toNat) (zc : Bool) (h : ElgBounded c u) :
    ElgBounded c (counter c.elgSymlen.toNat zc u).unit := by
  by_cases hs : u.state = .acquiring ∨ u.state = .locked
  · rw [(counter_running hs).2.2]
    refine { h with cnt := ?_ }
    dsimp only
    split
    · exact h1
    · rename_i running
      simp only [Bool.or_eq_true, decide_eq_true_eq, not_or] at running
      omega
  · rw [counter_resting hs]
    exact { h with }

/-- LOCK counts one good period at most, so it locks at exactly Ns of them (R207). -/
theorem lock_bounded {c : ClConfig} {u : ElgUnit} (zc trig correct : Bool) (h : ElgBounded c u) :
    ElgBounded c (lock c.elgSymlen.toNat zc trig correct u) := by
  unfold lock
  split
  · rename_i ha
    have below := h.acquiring ha.1
    have counted : goodAfter zc correct u ≤ u.good + 1 := by unfold goodAfter; split <;> omega
    dsimp only
    split
    · rename_i full
      exact { h with acquiring := by simp, locked := fun _ => ⟨by dsimp only; omega, Nat.le_refl _⟩, nolock := by simp }
    · rename_i low
      exact { h with acquiring := fun _ => by dsimp only; omega, locked := by simp [ha.1] }
  · exact h

/-- LIMIT gives up at the acquisition bound, so below NOLOCK the bound has not been reached (R208). -/
theorem limit_good {c : ClConfig} {u : ElgUnit} (h : ElgBounded c u) : ElgGood c (limit c.acqLimit.toNat u) := by
  have positive : c.acqLimit ≠ 0 ↔ c.acqLimit.toNat ≠ 0 := by
    rw [ne_eq, ne_eq, ← BitVec.toNat_inj]
    simp
  unfold limit
  split
  · rename_i hl
    exact ⟨h.mf, h.eg, h.elf, h.cnt, h.samples, by simp, by simp, fun _ => positive.mpr hl.1, by simp⟩
  · rename_i hl
    refine ⟨h.mf, h.eg, h.elf, h.cnt, h.samples, h.acquiring, h.locked, h.nolock, fun h0 hs => ?_⟩
    by_contra reached
    exact hl ⟨positive.mp h0, hs, by omega⟩

/-- One ELG sample keeps the invariant of the unit (R209). -/
theorem ElgNext.good {p : Params} {c : ClConfig} {u u' : ElgUnit} (hc : ClLengthsOk p c) (h : ElgNext c u u')
    (hu : ElgGood c u) : ElgGood c u' := by
  obtain ⟨m, f, rfl⟩ := h
  obtain ⟨-, -, ⟨h1, -⟩, -⟩ := id hc
  have moved : ElgBounded c (detect c.elgThresh m f (elgMoved c m u)) := { elgMoved_bounded hc hu m with }
  exact limit_good (lock_bounded _ _ _ (counter_bounded h1 _ (enter_bounded h1 moved)))

theorem elgGood_zero {p : Params} {c : ClConfig} (hc : ClLengthsOk p c) : ElgGood c .zero := by
  obtain ⟨-, ⟨elf, -⟩, ⟨sym, -⟩, ⟨mf, -⟩, ⟨eg, -⟩, -⟩ := hc
  refine ⟨mf, eg, elf, sym, Nat.zero_le _, by simp [ElgUnit.zero], by simp [ElgUnit.zero], by simp [ElgUnit.zero], ?_⟩
  intro h0 _
  have : c.acqLimit.toNat ≠ 0 := fun e => h0 (BitVec.eq_of_toNat_eq (by simpa using e))
  show 0 < c.acqLimit.toNat
  omega

/-! ## The unit -/

theorem Memory.Moves.keepsWritten {bs : List Bank} {m m' : Memory} (h : m.Moves bs m') {b : Bank} {n : Nat}
    (hw : Written m b n) : Written m' b n :=
  fun i hi => Option.isSome_iff_ne_none.mpr (h.written b i (Option.isSome_iff_ne_none.mp (hw i hi)))

theorem Memory.Moves.keepsHolds {bs : List Bank} {m m' : Memory} (h : m.Moves bs m') {b : Bank} {vs : List Word} (hb : b ∉ bs)
    (hw : Holds m b vs) : Holds m' b vs :=
  fun i hi => (h.other b i hb).trans (hw i hi)

theorem SameExcept.keepsWritten {bs : List Bank} {m m' : Memory} (h : SameExcept (fun b _ => b ∉ bs) m m') {b : Bank}
    (hb : b ∈ bs) {n : Nat} (hw : Written m b n) : Written m' b n := by
  intro i hi
  rw [h b i (not_not.mpr hb)]
  exact hw i hi

theorem SameExcept.keepsHolds {bs : List Bank} {m m' : Memory} (h : SameExcept (fun b _ => b ∉ bs) m m') {b : Bank}
    (hb : b ∈ bs) {vs : List Word} (hw : Holds m b vs) : Holds m' b vs :=
  fun i hi => (h b i (not_not.mpr hb)).trans (hw i hi)

/-- The invariant speaks of the elements and the words of the unit alone. -/
theorem ClSame.inv {s t : State} (h : ClSame s t) (hs : ClInv s) : ClInv t := by
  intro ready
  obtain ⟨check, phase, lpf1, lpf2, cd, gate, table, w1, w2, w3, w4, w5, w6, w7⟩ := hs (h.ready.symm.trans ready)
  unfold ClGood
  rw [h.par, h.cfg, h.unit, h.gate]
  have keep := fun {b} (hb : b ∈ clBanks) {n} (hw : Written s.mem b n) => SameExcept.keepsWritten h.memory hb hw
  exact ⟨check, phase, lpf1, lpf2, cd, gate, SameExcept.keepsHolds h.memory (by simp) table, keep (by simp) w1,
    keep (by simp) w2, keep (by simp) w3, keep (by simp) w4, keep (by simp) w5, keep (by simp) w6, keep (by simp) w7⟩

/-- The delay lines CL_INIT clears, each over its capacity (R168, R200). -/
abbrev clLines : List Line := [.lpf1, .lpf2, .cdI, .cdQ, .mf, .eg, .elf]

theorem clInitMemory_line {p : Params} {l : Line} (hl : l ∈ clLines) (t : Nat) (m : Memory) (i : Nat) :
    (clInitMemory p t m).word (.line l) i = if i < l.capacity p then some Fp.zero else none := by
  unfold clInitMemory elgResetMemory
  cases l <;> simp at hl <;> simp [Line.capacity] <;> rfl

theorem clInitMemory_vtab (p : Params) (t : Nat) (m : Memory) (i : Nat) :
    (clInitMemory p t m).word (.ram .vtab) i = if i < 5 * t / 4 then (qsin t)[i]? else m.word (.ram .vtab) i := by
  simp [clInitMemory, elgResetMemory]

theorem clInitMemory_written {p : Params} {l : Line} (hl : l ∈ clLines) (t : Nat) (m : Memory) :
    Written (clInitMemory p t m) (.line l) (l.capacity p) := by
  intro i hi
  rw [clInitMemory_line hl, if_pos hi]
  rfl

theorem clInitMemory_holds (p : Params) (t : Nat) (m : Memory) : Holds (clInitMemory p t m) (.ram .vtab) (qsin t) := by
  intro i hi
  rw [clInitMemory_vtab, if_pos (by rwa [qsin_length] at hi)]

theorem clInitDone_good {s : State} (h : clCheck s.par s.clReg = none) : ClGood (clInitDone s) := by
  obtain ⟨⟨t4, -, -⟩, lengths, -, -⟩ := clCheck_eq_none.mp h
  obtain ⟨⟨lpf, -⟩, -, -, -, -, -⟩ := id lengths
  refine ⟨h, inTable_zero (Nat.lt_of_lt_of_le (by decide) t4) s.clReg.vcoTsize.isLt, lpf, lpf, ?_, elgGood_zero lengths, ?_, ?_⟩
  · split
    · rfl
    · rename_i h0
      exact Nat.pos_of_ne_zero fun e => h0 (BitVec.eq_of_toNat_eq (by simpa using e))
  · exact clInitMemory_holds _ _ _
  · have written := fun {l : Line} (hl : l ∈ clLines) => clInitMemory_written (p := s.par) hl s.clReg.vcoTsize.toNat s.mem
    exact ⟨written (l := .lpf1) (by simp), written (l := .lpf2) (by simp), written (l := .cdI) (by simp),
      written (l := .cdQ) (by simp), written (l := .mf) (by simp), written (l := .eg) (by simp),
      written (l := .elf) (by simp)⟩

/-! ### CL_STEP, stage by stage -/

/-- The phase advances and wraps into the table (R167). -/
theorem vco_good {s : State} {r : Rails} (hs : ClGood s) (h : vco s = .ok r) : ClGood r.state := by
  obtain ⟨check, -, rest⟩ := hs
  obtain ⟨⟨t4, -, -⟩, -, -, -⟩ := clCheck_eq_none.mp check
  rw [vco_frame h]
  exact ⟨check, wrap_inTable_word _ (Nat.lt_of_lt_of_le (by decide) t4), rest⟩

/-- The arm filters' indices are taken modulo LPF_LEN (R163, R169). -/
theorem armFilters_good {mI mQ : F64} {s : State} {r : Rails} (hs : ClGood s) (h : armFilters mI mQ s = .ok r) :
    ClGood r.state := by
  obtain ⟨check, phase, -, -, cd, gate, table, w1, w2, w3, w4, w5, w6, w7⟩ := hs
  obtain ⟨-, ⟨⟨lpf, -⟩, -⟩, -, -⟩ := clCheck_eq_none.mp check
  have moves := ((Memory.Moves.refl [.line .lpf1, .line .lpf2] s.mem).write (b := .line .lpf1) (by simp) s.cl.lpf1Idx mI).write
    (b := .line .lpf2) (by simp) s.cl.lpf2Idx mQ
  have keep := fun {b} {n} (hw : Written s.mem b n) => moves.keepsWritten hw
  rw [armFilters_frame h]
  exact ⟨check, phase, Nat.mod_lt _ lpf, Nat.mod_lt _ lpf, cd, gate, moves.keepsHolds (by simp) table, keep w1, keep w2, keep w3,
    keep w4, keep w5, keep w6, keep w7⟩

/-- The compensating delay's index is taken modulo COMP_DELAY, and rests at 0 with none (R166). -/
theorem compDelay_good {yI yQ : F64} {s : State} {r : Rails} (hs : ClGood s) (h : compDelay yI yQ s = .ok r) :
    ClGood r.state := by
  obtain ⟨he, moves, hcd⟩ := compDelay_frame h
  obtain ⟨check, phase, lpf1, lpf2, cd, gate, table, w1, w2, w3, w4, w5, w6, w7⟩ := hs
  have keep := fun {b} {n} (hw : Written s.mem b n) => moves.keepsWritten hw
  have index : if s.clCfg.compDelay = 0 then r.state.cl.cdIdx = 0 else r.state.cl.cdIdx < s.clCfg.compDelay.toNat := by
    rw [hcd]
    by_cases h0 : s.clCfg.compDelay = 0
    · rw [if_pos h0] at cd ⊢
      rw [h0]
      exact cd
    · have hn : s.clCfg.compDelay.toNat ≠ 0 := fun e => h0 (BitVec.eq_of_toNat_eq (by simpa using e))
      rw [if_neg h0, if_neg hn]
      exact Nat.mod_lt _ (Nat.pos_of_ne_zero hn)
  rw [he]
  exact ⟨check, phase, lpf1, lpf2, index, gate, moves.keepsHolds (by simp) table, keep w1, keep w2, keep w3, keep w4, keep w5,
    keep w6, keep w7⟩

/-- One ELG sample keeps the invariant of the loop it runs in (R209). -/
theorem elgCore_good {x : F64} {s : State} {g : ElgOut} (hs : ClGood s) (h : elgCore x s = .ok g) : ClGood g.state := by
  have next := elgCore_next h
  have moves := elgCore_moves h
  obtain ⟨v, w, z, f, k, -, -, ht⟩ := elgCore_frame h
  obtain ⟨check, phase, lpf1, lpf2, cd, gate, table, w1, w2, w3, w4, w5, w6, w7⟩ := hs
  obtain ⟨-, lengths, -, -⟩ := clCheck_eq_none.mp check
  have hpar : g.state.par = s.par := by rw [ht]
  have hcfg : g.state.clCfg = s.clCfg := by rw [ht]
  have hcl : g.state.cl = s.cl := by rw [ht]
  unfold ClGood
  rw [hpar, hcfg, hcl]
  have keep := fun {b} {n} (hw : Written s.mem b n) => moves.keepsWritten hw
  exact ⟨check, phase, lpf1, lpf2, cd, next.good lengths gate, moves.keepsHolds (by simp) table, keep w1, keep w2, keep w3,
    keep w4, keep w5, keep w6, keep w7⟩

/-- The steps (a) to (g) of CL_STEP (R169). -/
theorem clStepBody_eq_ok {s t : State} :
    clStepBody s = .ok t ↔
      ∃ v y g o, vco s = .ok v ∧ armFilters (Fp.mul s.in0 v.i) (Fp.mul s.in0 v.q) v.state = .ok y
        ∧ elgCore y.i y.state = .ok g ∧ compDelay y.i y.q g.state = .ok o
        ∧ t = (o.state.clResults g.trig (o.i, o.q) (y.i, y.q)).loopf (feedback s.clCfg.fbMode y.i y.q) := by
  simp only [clStepBody, Run.bind_eq_ok, Except.ok.injEq, eq_comm (b := t), exists_and_left]

/-- The results and the loop filter write nothing the invariant speaks of (R165, R169). -/
theorem clResults_loopf_good {s : State} (hs : ClGood s) (trig : Bool) (o y : F64 × F64) (e : F64) :
    ClGood ((s.clResults trig o y).loopf e) := by
  rw [State.clResults_eq]
  exact hs

/-- CL_STEP keeps the invariant, since each of its stages does. -/
theorem clStepBody_good {s t : State} (hs : ClGood s) (h : clStepBody s = .ok t) : ClGood t := by
  obtain ⟨v, y, g, o, hv, hy, hg, ho, rfl⟩ := clStepBody_eq_ok.mp h
  exact clResults_loopf_good (compDelay_good (elgCore_good (armFilters_good (vco_good hs hv) hy) hg) ho) _ _ _ _

theorem raise_clSame (c : ErrCode) (s : State) : ClSame s (s.raise c) := by
  refine ⟨?_, ?_, ?_, ?_, ?_, by simp [SameExcept]⟩ <;> simp

theorem clInitRule_inv (s : State) : ClInv (clInitRule s) := by
  rcases clInitRule_cases s with ⟨e, -, hr⟩ | ⟨check, hr⟩
  · rw [hr]
    exact fun ready => absurd ready (by simp)
  · rw [hr]
    exact fun _ => clInitDone_good check

theorem ruleOf_clInv {i : Instr} {s u : State} (h : ruleOf i s = .ok u) (hs : ClInv s) : ClInv u := by
  by_cases soft : i = .softReset
  · subst soft
    obtain rfl := Except.ok.inj h
    exact fun ready => absurd ready (by simp [softResetRule, State.powerOn])
  rcases ruleOf_writes h soft with ⟨hi, -⟩ | ⟨-, w⟩ | ⟨-, w⟩ | ⟨-, rfl⟩ | ⟨-, rfl⟩
  · have hi : i = .clInit ∨ i = .clStep ∨ i = .elgStep := by simpa using hi
    rcases hi with rfl | rfl | rfl
    · obtain rfl := Except.ok.inj h
      exact clInitRule_inv s
    · rcases clStepRule_cases h with ⟨-, rfl⟩ | ⟨ready, hb⟩
      · exact (raise_clSame _ s).inv hs
      · exact fun _ => clStepBody_good (hs ready) hb
    · rcases elgStepRule_cases h with ⟨-, rfl⟩ | ⟨ready, g, hg, rfl⟩
      · exact (raise_clSame _ s).inv hs
      · exact fun _ => elgCore_good (hs ready) hg
  · exact w.clSame.inv hs
  · exact w.clSame.inv hs
  · exact hs
  · exact hs

/-- Settles O53: a move of the host and the commands of the other units leave the unit alone, a reset makes it not ready, and each
of its own commands keeps its invariant. -/
theorem clInvariant : Obligations.ClInvariant := by
  intro s t hs h
  rcases step_writes h with ⟨-, x, rfl⟩ | w | ⟨i, u, -, hu, rfl⟩ | rfl
  · exact fun ready => absurd ready (by simp [State.powerOn])
  · exact w.clSame.inv hs
  · have inv := ruleOf_clInv hu hs
    exact inv
  · exact (raise_clSame _ s).complete.inv hs

end Sys2Proof.Machine
end

section
/-! PROOFS. The invariant of the MAP unit: MapInvariant. -/

namespace Sys2Proof.Machine

open Safety

/-! ## What MAP_INIT admits -/

/-- The checks of MAP_INIT, each written out (R237). -/
theorem mapCheck_eq_none {p : Params} {c : MapConfig} :
    mapCheck p c = none ↔ TableOk p c.modTsize ∧ MapLengthsOk p c ∧ MapModesOk c ∧ MapValuesOk c := by
  unfold mapCheck
  dsimp only
  constructor
  · intro h
    split at h
    · cases h
    split at h
    · cases h
    split at h
    · cases h
    split at h
    · cases h
    rename_i table lengths modes values
    simp only [Bool.or_eq_true, Bool.and_eq_true, Bool.not_eq_true', Bool.not_eq_false, decide_eq_true_eq, not_or, beq_iff_eq,
      not_and] at lengths values
    exact ⟨⟨by omega, by omega, by omega⟩, ⟨lengths.1, lengths.2⟩, ⟨by omega, by omega, by omega⟩, values⟩
  · rintro ⟨⟨t4, tmax, tmod⟩, ⟨sps, rrc⟩, ⟨mode, diff, en⟩, thresh, inc⟩
    rw [if_neg (by omega), if_neg (by simpa [sps, Nat.one_le_iff_ne_zero] using rrc), if_neg (by omega), if_neg (by simp [thresh, inc])]

/-! ## The retained symbol indices -/

theorem prevGood_zero (dm : Nat) : PrevGood dm 0 := by
  unfold PrevGood
  split <;> omega

/-- The retained index after a symbol whose phase index is below the modulus, where there is one (R235, R236). -/
theorem diffNext_good {dm prev p : Nat} (hp : dm ≠ 0 → p < dm) (h : PrevGood dm prev) : PrevGood dm (diffNext dm prev p) := by
  unfold diffNext PrevGood at *
  by_cases h0 : dm = 0
  · simpa [h0] using h
  · simpa [h0] using hp h0

/-- DIFF_ENC takes the index modulo DM (R235). -/
theorem diffEnc_lt {dm : Nat} (h0 : dm ≠ 0) (prev pd : Nat) : diffEnc dm prev pd < dm := by
  unfold diffEnc
  rw [if_neg h0]
  exact Nat.mod_lt _ (Nat.pos_of_ne_zero h0)

theorem quadrant_lt (i q : F64) : quadrant i q < 4 := by
  unfold quadrant
  split <;> decide

/-- DECIDE gives an index below the modulus of its mode (R230, R234). -/
theorem decideSymbol_lt {c : MapConfig} (h0 : diffModulus c ≠ 0) (thresh i q : F64) :
    (decideSymbol (modMode c) thresh i q).p < diffModulus c := by
  have turned : (if c.diffEn = 1 then 4 else 0) ≠ 0 → quadrant i q < if c.diffEn = 1 then 4 else 0 := by
    split
    · exact fun _ => quadrant_lt i q
    · exact fun h => absurd rfl h
  unfold diffModulus at *
  cases hm : modMode c with
  | bpsk => rw [hm] at h0; exact absurd rfl h0
  | dpsk => exact Bool.toNat_lt _
  | qpsk => rw [hm] at h0; exact turned h0
  | qam16 => rw [hm] at h0; exact turned h0

/-! ## The scalars of the unit -/

/-- R58 for the scalars of the MAP unit under the latched configuration `c`. -/
structure MapBounded (c : MapConfig) (u : MapUnit) : Prop where
  phase : InTable u.modPhase c.modTsize.toNat
  tick : u.tick < c.sps.toNat
  tx : PrevGood (diffModulus c) u.txPrev
  rx : PrevGood (diffModulus c) u.rxPrev
  idx : c.rrcEn = 1 → u.txiIdx < c.rrcLen.toNat ∧ u.txqIdx < c.rrcLen.toNat ∧ u.rxiIdx < c.rrcLen.toNat
    ∧ u.rxqIdx < c.rrcLen.toNat

theorem mapBounded_zero {p : Params} {c : MapConfig} (h : mapCheck p c = none) : MapBounded c .zero := by
  obtain ⟨⟨t4, -, -⟩, ⟨⟨sps, -⟩, rrc⟩, -, -⟩ := mapCheck_eq_none.mp h
  refine ⟨inTable_zero (Nat.lt_of_lt_of_le (by decide) t4) c.modTsize.isLt, sps, prevGood_zero _, prevGood_zero _, fun h1 => ?_⟩
  have positive := (rrc h1).1
  exact ⟨positive, positive, positive, positive⟩

/-- ENCODE retains a transmitted index below the modulus (R242). -/
theorem encodeSymbol_bounded {s : State} (h : MapBounded s.mapCfg s.map) (w : Word) :
    MapBounded s.mapCfg (encodeSymbol w s).state.map :=
  { h with tx := diffNext_good (fun h0 => diffEnc_lt h0 _ _) h.tx }

/-- DECODE retains a received index below the modulus (R242). -/
theorem decodeSymbol_bounded {s : State} (h : MapBounded s.mapCfg s.map) (i q : F64) :
    MapBounded s.mapCfg (decodeSymbol i q s).state.map :=
  { h with rx := diffNext_good (fun h0 => decideSymbol_lt h0 _ _ _) h.rx }

theorem demapAccumulate_bounded {p : Params} {s : State} {a : Pointed} (check : mapCheck p s.mapCfg = none)
    (h : MapBounded s.mapCfg s.map) (ha : demapAccumulate s = .ok a) : MapBounded s.mapCfg a.state.map := by
  obtain ⟨-, ⟨-, rrc⟩, -, -⟩ := mapCheck_eq_none.mp check
  obtain ⟨-, hm, -, -⟩ := demapAccumulate_frame ha
  rw [hm]
  refine { h with idx := fun h1 => ?_ }
  obtain ⟨txi, txq, -, -⟩ := h.idx h1
  dsimp only
  rw [if_pos h1, if_pos h1]
  exact ⟨txi, txq, Nat.mod_lt _ (rrc h1).1, Nat.mod_lt _ (rrc h1).1⟩

/-- The symbol boundary of DEMAP_ACC returns the tick to 0 and decodes (R240). -/
theorem demapDecide_bounded {s : State} (h : MapBounded s.mapCfg s.map) (pt : Point) :
    MapBounded s.mapCfg (demapDecide pt s).map := by
  have start : MapBounded s.mapCfg { s.map with tick := 0 } := { h with tick := Nat.zero_lt_of_lt h.tick }
  unfold demapDecide demapBoundary
  dsimp only
  split
  · exact decodeSymbol_bounded (s := { s with map := { s.map with tick := 0 } }) start _ _
  · exact decodeSymbol_bounded
      (s := { s with map := { s.map with tick := 0, accI := Fp.zero, accQ := Fp.zero } }) { start with } _ _

theorem demapTick_bounded {a : Pointed} (h : MapBounded a.state.mapCfg a.state.map) :
    MapBounded a.state.mapCfg (demapTick a).map := by
  unfold demapTick
  dsimp only
  split
  · rename_i below
    exact { h with tick := below }
  · exact demapDecide_bounded h _

theorem modSample_bounded {p : Params} {u : Point} {s t : State} {k : Nat} (check : mapCheck p s.mapCfg = none)
    (h : MapBounded s.mapCfg s.map) (ht : modSample u s k = .ok t) : MapBounded s.mapCfg t.map := by
  obtain ⟨⟨t4, -, -⟩, ⟨-, rrc⟩, -, -⟩ := mapCheck_eq_none.mp check
  obtain ⟨-, hm, -, -⟩ := modSample_frame ht
  rw [hm]
  refine { h with phase := wrap_inTable_word _ (Nat.lt_of_lt_of_le (by decide) t4), idx := fun h1 => ?_ }
  obtain ⟨-, -, rxi, rxq⟩ := h.idx h1
  dsimp only
  rw [if_pos h1, if_pos h1]
  exact ⟨Nat.mod_lt _ (rrc h1).1, Nat.mod_lt _ (rrc h1).1, rxi, rxq⟩

/-! ## The unit -/

/-- What the invariant says of the unit's words: MTAB the table of the latched size, the RRC lines written. -/
structure MapWords (p : Params) (c : MapConfig) (m : Memory) : Prop where
  table : Holds m (.ram .mtab) (qsin c.modTsize.toNat)
  txi : Written m (.line .txi) p.maxFir
  txq : Written m (.line .txq) p.maxFir
  rxi : Written m (.line .rxi) p.maxFir
  rxq : Written m (.line .rxq) p.maxFir

theorem mapGood_iff {s : State} :
    MapGood s ↔ mapCheck s.par s.mapCfg = none ∧ MapBounded s.mapCfg s.map ∧ MapWords s.par s.mapCfg s.mem := by
  constructor
  · rintro ⟨check, phase, tick, tx, rx, idx, table, txi, txq, rxi, rxq⟩
    exact ⟨check, ⟨phase, tick, tx, rx, idx⟩, ⟨table, txi, txq, rxi, rxq⟩⟩
  · rintro ⟨check, ⟨phase, tick, tx, rx, idx⟩, ⟨table, txi, txq, rxi, rxq⟩⟩
    exact ⟨check, phase, tick, tx, rx, idx, table, txi, txq, rxi, rxq⟩

/-- The words are kept where written words stay written and MTAB is left alone. -/
theorem MapWords.moves {p : Params} {c : MapConfig} {bs : List Bank} {m m' : Memory} (h : MapWords p c m)
    (moves : m.Moves bs m') (hb : .ram .mtab ∉ bs) : MapWords p c m' :=
  ⟨moves.keepsHolds hb h.table, moves.keepsWritten h.txi, moves.keepsWritten h.txq, moves.keepsWritten h.rxi,
    moves.keepsWritten h.rxq⟩

theorem MapSame.inv {s t : State} (h : MapSame s t) (hs : MapInv s) : MapInv t := by
  intro ready
  obtain ⟨check, bounded, words⟩ := mapGood_iff.mp (hs (h.ready.symm.trans ready))
  rw [mapGood_iff, h.par, h.cfg, h.unit]
  have keep := fun {b} (hb : b ∈ mapBanks) {n} (hw : Written s.mem b n) => SameExcept.keepsWritten h.memory hb hw
  exact ⟨check, bounded, SameExcept.keepsHolds h.memory (by simp) words.table, keep (by simp) words.txi,
    keep (by simp) words.txq, keep (by simp) words.rxi, keep (by simp) words.rxq⟩

/-- The delay lines MAP_INIT clears, each over its capacity (R237). -/
abbrev mapLines : List Line := [.txi, .txq, .rxi, .rxq]

theorem mapInitMemory_line {p : Params} {l : Line} (hl : l ∈ mapLines) (t : Nat) (m : Memory) (i : Nat) :
    (mapInitMemory p t m).word (.line l) i = if i < l.capacity p then some Fp.zero else none := by
  unfold mapInitMemory
  cases l <;> simp at hl <;> simp [Line.capacity] <;> rfl

theorem mapInitMemory_mtab (p : Params) (t : Nat) (m : Memory) (i : Nat) :
    (mapInitMemory p t m).word (.ram .mtab) i = if i < 5 * t / 4 then (qsin t)[i]? else m.word (.ram .mtab) i := by
  simp [mapInitMemory]

theorem mapInitMemory_written {p : Params} {l : Line} (hl : l ∈ mapLines) (t : Nat) (m : Memory) :
    Written (mapInitMemory p t m) (.line l) (l.capacity p) := by
  intro i hi
  rw [mapInitMemory_line hl, if_pos hi]
  rfl

theorem mapInitDone_good {s : State} (h : mapCheck s.par s.mapReg = none) : MapGood (mapInitDone s) := by
  have written := fun {l : Line} (hl : l ∈ mapLines) => mapInitMemory_written (p := s.par) hl s.mapReg.modTsize.toNat s.mem
  refine mapGood_iff.mpr ⟨h, mapBounded_zero h, fun i hi => ?_, written (l := .txi) (by simp), written (l := .txq) (by simp),
    written (l := .rxi) (by simp), written (l := .rxq) (by simp)⟩
  exact (mapInitMemory_mtab _ _ _ _).trans (if_pos (by rwa [qsin_length] at hi))

/-- DEMAP_ACC keeps the invariant: the accumulation, then the tick (R240). -/
theorem demapAcc_good {s : State} {a : Pointed} (hs : MapGood s) (ha : demapAccumulate s = .ok a) : MapGood (demapTick a) := by
  obtain ⟨check, bounded, words⟩ := mapGood_iff.mp hs
  have accumulated := demapAccumulate_bounded check bounded ha
  obtain ⟨he, -, moves, -⟩ := demapAccumulate_frame ha
  have hcfg : a.state.mapCfg = s.mapCfg := by rw [he]
  have hcfg' : (demapTick a).mapCfg = s.mapCfg := by rw [demapTick_frame, he]
  have hpar' : (demapTick a).par = s.par := by rw [demapTick_frame, he]
  rw [← hcfg] at accumulated
  have ticked := demapTick_bounded accumulated
  rw [hcfg] at ticked
  rw [mapGood_iff, hpar', hcfg', demapTick_mem]
  exact ⟨check, ticked, words.moves moves (by simp)⟩

theorem modSample_good {u : Point} {s t : State} {k : Nat} (hs : MapGood s) (h : modSample u s k = .ok t) : MapGood t := by
  obtain ⟨check, bounded, words⟩ := mapGood_iff.mp hs
  have next := modSample_bounded check bounded h
  obtain ⟨he, -, moves, -⟩ := modSample_frame h
  have hcfg : t.mapCfg = s.mapCfg := by rw [he]
  have hpar : t.par = s.par := by rw [he]
  rw [mapGood_iff, hpar, hcfg]
  exact ⟨check, next, words.moves moves (by simp)⟩

theorem modSamples_good {u : Point} {n : Nat} {s t : State} (hs : MapGood s) (h : modSamples u n s = .ok t) : MapGood t :=
  foldlM_keeps (P := MapGood) (fun _ _ _ _ hc h => modSample_good hc h) hs h

theorem encodeSymbol_good {s : State} (hs : MapGood s) (w : Word) : MapGood (encodeSymbol w s).state := by
  obtain ⟨check, bounded, words⟩ := mapGood_iff.mp hs
  exact mapGood_iff.mpr ⟨check, encodeSymbol_bounded bounded w, words⟩

theorem decodeSymbol_good {s : State} (hs : MapGood s) (i q : F64) : MapGood (decodeSymbol i q s).state := by
  obtain ⟨check, bounded, words⟩ := mapGood_iff.mp hs
  exact mapGood_iff.mpr ⟨check, decodeSymbol_bounded bounded i q, words⟩

theorem raise_mapSame (c : ErrCode) (s : State) : MapSame s (s.raise c) := by
  refine ⟨?_, ?_, ?_, ?_, by simp [SameExcept]⟩ <;> simp

theorem mapCommand_inv {i : Instr} {s u : State} (hi : i ∈ mapCommands) (h : ruleOf i s = .ok u) (hs : MapInv s) :
    MapInv u := by
  have hi : i = .mapInit ∨ i = .mapEnc ∨ i = .mapDec ∨ i = .demapAcc ∨ i = .modSym := by simpa using hi
  rcases hi with rfl | rfl | rfl | rfl | rfl
  · obtain rfl := Except.ok.inj h
    rcases mapInitRule_cases s with ⟨e, -, hr⟩ | ⟨check, hr⟩
    · rw [hr]
      exact fun ready => absurd ready (by simp)
    · rw [hr]
      exact fun _ => mapInitDone_good check
  · obtain rfl := Except.ok.inj h
    rcases mapEncRule_cases s with ⟨-, hr⟩ | ⟨ready, hr⟩
    · rw [hr]
      exact (raise_mapSame _ s).inv hs
    · rw [hr]
      exact fun _ => encodeSymbol_good (hs ready) _
  · obtain rfl := Except.ok.inj h
    rcases mapDecRule_cases s with ⟨-, hr⟩ | ⟨ready, hr⟩
    · rw [hr]
      exact (raise_mapSame _ s).inv hs
    · rw [hr]
      exact fun _ => decodeSymbol_good (hs ready) _ _
  · rcases demapAccRule_cases h with ⟨-, rfl⟩ | ⟨ready, a, ha, rfl⟩
    · exact (raise_mapSame _ s).inv hs
    · exact fun _ => demapAcc_good (hs ready) ha
  · rcases modSymRule_cases h with ⟨-, rfl⟩ | ⟨ready, t, ht, rfl⟩
    · exact (raise_mapSame _ s).inv hs
    · have good := modSamples_good (encodeSymbol_good (hs ready) _) ht
      exact fun _ => good

theorem ruleOf_mapInv {i : Instr} {s u : State} (h : ruleOf i s = .ok u) (hs : MapInv s) : MapInv u := by
  by_cases soft : i = .softReset
  · subst soft
    obtain rfl := Except.ok.inj h
    exact fun ready => absurd ready (by simp [softResetRule, State.powerOn])
  rcases ruleOf_writes h soft with ⟨-, w⟩ | ⟨hi, -⟩ | ⟨-, w⟩ | ⟨-, rfl⟩ | ⟨-, rfl⟩
  · exact w.mapSame.inv hs
  · exact mapCommand_inv hi h hs
  · exact w.mapSame.inv hs
  · exact hs
  · exact hs

/-- Settles O54, as `clInvariant` settles O53. -/
theorem mapInvariant : Obligations.MapInvariant := by
  intro s t hs h
  rcases step_writes h with ⟨-, x, rfl⟩ | w | ⟨i, u, -, hu, rfl⟩ | rfl
  · exact fun ready => absurd ready (by simp [State.powerOn])
  · exact w.mapSame.inv hs
  · have inv := ruleOf_mapInv hu hs
    exact inv
  · exact (raise_mapSame _ s).complete.inv hs

end Sys2Proof.Machine
end

section
/-! PROOFS. The invariant of the OA unit: OaInvariant. -/

namespace Sys2Proof.Machine

open Safety

/-! ## What OA_INIT admits -/

theorem isPow2_word_iff (w : Word) : isPow2 w.toNat = true ↔ ∃ k, k < 64 ∧ w.toNat = 2 ^ k := by
  rw [isPow2_iff]
  constructor
  · rintro ⟨k, hk⟩
    exact ⟨k, (Nat.pow_lt_pow_iff_right (by decide)).mp (hk ▸ w.isLt), hk⟩
  · rintro ⟨k, -, hk⟩
    exact ⟨k, hk⟩

/-- The checks of OA_INIT, each written out (R270). -/
theorem oaCheck_eq_none {p : Params} {c : OaConfig} :
    oaCheck p c = none ↔ OaFftOk p c ∧ OaLengthsOk p c ∧ OaModesOk c ∧ OaValuesOk c := by
  unfold oaCheck
  dsimp only
  constructor
  · intro h
    split at h
    · cases h
    split at h
    · cases h
    split at h
    · cases h
    split at h
    · cases h
    rename_i fft lengths modes values
    simp only [Bool.or_eq_true, Bool.and_eq_true, Bool.not_eq_true', Bool.not_eq_false, decide_eq_true_eq, not_or]
      at fft lengths values
    obtain ⟨⟨pow, low⟩, high⟩ := fft
    obtain ⟨⟨⟨⟨⟨⟨sample, overlap⟩, na⟩, lut⟩, orders⟩, sum⟩, adj⟩ := lengths
    obtain ⟨⟨⟨⟨⟨coef, fof⟩, rate⟩, scale⟩, floor⟩, base⟩ := values
    exact ⟨⟨(isPow2_word_iff _).mp pow, by omega, by omega⟩, ⟨sample, overlap, na, lut, orders, sum, adj⟩,
      ⟨by omega, by omega, by omega, by omega⟩, coef, fof, rate, scale, floor, base⟩
  · rintro ⟨⟨pow, low, high⟩, ⟨sample, overlap, na, lut, orders, sum, adj⟩, ⟨win, log, avg, coh⟩, coef, fof, rate, scale, floor,
      base⟩
    rw [if_neg (by simp [(isPow2_word_iff _).mpr pow, low, high]),
      if_neg (by simp [sample, overlap, na, lut, orders, sum, adj]), if_neg (by omega),
      if_neg (by simp [coef, fof, rate, scale, floor, base])]

/-! ## Blocks of words -/

theorem storeAt_holds (m : Memory) (b : Bank) (vs : List Word) : Holds (m.storeAt b 0 vs) b vs := by
  intro i hi
  simp [hi]

theorem storeAt_written (m : Memory) (b : Bank) (vs : List Word) : Written (m.storeAt b 0 vs) b vs.length := by
  intro i hi
  rw [storeAt_holds m b vs i hi]
  simp [hi]

/-- A block read over words that are held gives them (R62). -/
theorem load_of_holds {m : Memory} {b : Bank} {vs : List Word} (h : Holds m b vs) : m.load b 0 vs.length = .ok vs :=
  Memory.load_eq_ok.mpr ⟨rfl, fun k hk => by simpa using h k hk⟩

/-! ## The scalars of the unit -/

/-- R58 and R274 for the scalars of the OA unit under the latched configuration `c`. -/
structure OaBounded (c : OaConfig) (u : OaUnit) : Prop where
  start : u.start = 0 ∨ u.start = c.overlap.toNat
  counted : u.frameCount ≠ 0 → u.start = c.overlap.toNat
  begun : u.start ≤ u.wp
  fill : u.wp ≤ c.sampleLen.toNat
  full : u.frameReady = true ↔ u.wp = c.sampleLen.toNat
  count : u.frameCount ≤ 18446744073709551615
  gain : u.phaseGain = phaseGain c.sincNa.toNat c.sincLutlen.toNat
  icg : icg c.fftLen.toNat (oaInitWindow c) = some u.icg

/-- A frame that is not ready has room for a sample (R275). -/
theorem oaRoom {c : OaConfig} {u : OaUnit} (h : OaBounded c u) (hr : u.frameReady = false) : u.wp < c.sampleLen.toNat := by
  refine Nat.lt_of_le_of_ne h.fill fun e => ?_
  rw [h.full.mpr e] at hr
  cases hr

theorem oaAppend_bounded {s : State} (h : OaBounded s.oaCfg s.oa) (hr : s.oa.frameReady = false) :
    OaBounded s.oaCfg (oaAppend s).oa := by
  have room := oaRoom h hr
  unfold oaAppend
  dsimp only
  split
  · rename_i filled
    exact { h with
      begun := Nat.le_succ_of_le h.begun
      fill := Nat.le_of_eq filled
      full := ⟨fun _ => filled, fun _ => rfl⟩ }
  · rename_i open'
    exact { h with
      begun := Nat.le_succ_of_le h.begun
      fill := room
      full := ⟨fun e => absurd (hr.symm.trans e) (by decide), fun e => absurd e open'⟩ }

theorem oaZeroFill_bounded {s : State} (h : OaBounded s.oaCfg s.oa) : OaBounded s.oaCfg (oaZeroFill s).oa :=
  { h with
    begun := Nat.le_trans h.begun h.fill
    fill := Nat.le_refl _
    full := ⟨fun _ => rfl, fun _ => rfl⟩ }

/-- ADVANCE begins the next frame with the overlap, which is shorter than a frame (R277, R270). -/
theorem advanced_bounded {p : Params} {c : OaConfig} {u : OaUnit} (check : oaCheck p c = none) (h : OaBounded c u) :
    OaBounded c { u with wp := c.overlap.toNat, start := c.overlap.toNat, frameReady := false } := by
  obtain ⟨-, ⟨-, overlap, -⟩, -, -⟩ := oaCheck_eq_none.mp check
  exact { h with
    start := .inr rfl
    counted := fun _ => rfl
    begun := Nat.le_refl _
    fill := Nat.le_of_lt overlap
    full := ⟨fun e => absurd e (by simp), fun e => absurd e (Nat.ne_of_lt overlap)⟩ }

/-- A processed frame is counted and consumed in one command (R286). -/
theorem consumed_bounded {p : Params} {c : OaConfig} {u : OaUnit} (check : oaCheck p c = none) (h : OaBounded c u) :
    OaBounded c
      { u with frameCount := satInc u.frameCount, wp := c.overlap.toNat, start := c.overlap.toNat, frameReady := false } :=
  { advanced_bounded check h with counted := fun _ => rfl, count := satInc_le _ }

/-! ## The words of the unit -/

/-- What the invariant says of the unit's words: the tables and the window those of the latched configuration, the buffers and the
averages written. -/
structure OaWords (c : OaConfig) (m : Memory) : Prop where
  sincLut : Holds m (.ram .sincLut) (sincTable c.sincNa.toNat c.sincLutlen.toNat)
  fftTw : Holds m (.ram .fftTw) (fftTwiddles c.fftLen.toNat)
  bitrev : Holds m (.ram .bitrev) (bitrevTable c.fftLen.toNat)
  win : Holds m (.ram .win) (oaInitWindow c)
  avgRe : Written m (.ram .avgRe) (c.fftLen.toNat / 2)
  avgIm : Written m (.ram .avgIm) (c.fftLen.toNat / 2)
  frameBuf : Written m (.ram .frameBuf) c.sampleLen.toNat
  speedBuf : Written m (.ram .speedBuf) c.sampleLen.toNat

theorem oaGood_iff {s : State} :
    OaGood s ↔ oaCheck s.par s.oaCfg = none ∧ OaBounded s.oaCfg s.oa ∧ OaWords s.oaCfg s.mem := by
  constructor
  · rintro ⟨check, start, counted, begun, fill, full, count, gain, icg, lut, tw, br, win, re, im, frame, speed⟩
    exact ⟨check, ⟨start, counted, begun, fill, full, count, gain, icg⟩, ⟨lut, tw, br, win, re, im, frame, speed⟩⟩
  · rintro ⟨check, ⟨start, counted, begun, fill, full, count, gain, icg⟩, ⟨lut, tw, br, win, re, im, frame, speed⟩⟩
    exact ⟨check, start, counted, begun, fill, full, count, gain, icg, lut, tw, br, win, re, im, frame, speed⟩

/-- The RAMs whose words the invariant gives one by one. -/
abbrev oaTables : List Bank := [.ram .sincLut, .ram .fftTw, .ram .bitrev, .ram .win]

/-- The words are kept where written words stay written and the tables are left alone. -/
theorem OaWords.moves {c : OaConfig} {bs : List Bank} {m m' : Memory} (h : OaWords c m) (moves : m.Moves bs m')
    (hb : ∀ b ∈ oaTables, b ∉ bs) : OaWords c m' :=
  ⟨moves.keepsHolds (hb _ (by simp)) h.sincLut, moves.keepsHolds (hb _ (by simp)) h.fftTw,
    moves.keepsHolds (hb _ (by simp)) h.bitrev, moves.keepsHolds (hb _ (by simp)) h.win, moves.keepsWritten h.avgRe,
    moves.keepsWritten h.avgIm, moves.keepsWritten h.frameBuf, moves.keepsWritten h.speedBuf⟩

theorem OaSame.inv {s t : State} (h : OaSame s t) (hs : OaInv s) : OaInv t := by
  intro ready
  obtain ⟨check, bounded, words⟩ := oaGood_iff.mp (hs (h.ready.symm.trans ready))
  rw [oaGood_iff, h.par, h.cfg, h.unit]
  have held := fun {b} (hb : b ∈ oaOwnBanks) {vs} (hw : Holds s.mem b vs) => SameExcept.keepsHolds h.memory hb hw
  have keep := fun {b} (hb : b ∈ oaOwnBanks) {n} (hw : Written s.mem b n) => SameExcept.keepsWritten h.memory hb hw
  exact ⟨check, bounded, held (by simp) words.sincLut, held (by simp) words.fftTw, held (by simp) words.bitrev,
    held (by simp) words.win, keep (by simp) words.avgRe, keep (by simp) words.avgIm, keep (by simp) words.frameBuf,
    keep (by simp) words.speedBuf⟩

/-- OA_INIT writes each of the unit's tables and buffers in a bank of its own (R274). -/
theorem oaInitMemory_words (c : OaConfig) (m : Memory) : OaWords c (oaInitMemory c (oaInitWindow c) m) := by
  have length : (oaInitWindow c).length = c.fftLen.toNat := window_length _ _ _ _
  refine ⟨?_, ?_, ?_, ?_, ?_, ?_, ?_, ?_⟩ <;> intro i hi
  · rw [sincTable_length] at hi
    simp [oaInitMemory, hi]
  · rw [fftTwiddles_length] at hi
    simp [oaInitMemory, hi]
  · rw [bitrevTable_length] at hi
    simp [oaInitMemory, hi]
  · simp [oaInitMemory, hi]
  all_goals simp [oaInitMemory, hi]

theorem oaInitDone_good {s : State} {g : F64} (check : oaCheck s.par s.oaReg = none)
    (gain : icg s.oaReg.fftLen.toNat (oaInitWindow s.oaReg) = some g) : OaGood (oaInitDone (oaInitWindow s.oaReg) g s) := by
  obtain ⟨-, ⟨⟨sample, -⟩, -⟩, -, -⟩ := oaCheck_eq_none.mp check
  refine oaGood_iff.mpr ⟨check, ?_, oaInitMemory_words _ _⟩
  exact
    { start := .inl rfl
      counted := fun h => absurd rfl h
      begun := Nat.le_refl _
      fill := Nat.zero_le _
      full := ⟨fun h => absurd h (by simp [oaInitDone]), fun h => absurd h (Nat.ne_of_lt sample)⟩
      count := Nat.zero_le _
      gain := rfl
      icg := gain }

/-! ## The commands -/

/-- A command that changes neither the latched configuration nor the tables keeps the invariant by its scalars alone. -/
theorem oaGood_of_moves {s t : State} {bs : List Bank} (hs : OaGood s) (hpar : t.par = s.par) (hcfg : t.oaCfg = s.oaCfg)
    (moves : s.mem.Moves bs t.mem) (hb : ∀ b ∈ oaTables, b ∉ bs)
    (hu : OaBounded s.oaCfg s.oa → OaBounded s.oaCfg t.oa) : OaGood t := by
  obtain ⟨check, bounded, words⟩ := oaGood_iff.mp hs
  rw [oaGood_iff, hpar, hcfg]
  exact ⟨check, hu bounded, words.moves moves hb⟩

theorem oaGood_check {s : State} (hs : OaGood s) : oaCheck s.par s.oaCfg = none := (oaGood_iff.mp hs).1

theorem oaAppend_good {s : State} (hs : OaGood s) (hr : s.oa.frameReady = false) : OaGood (oaAppend s) := by
  have state := (oaAppend_writes s).state
  have hcfg : (oaAppend s).oaCfg = s.oaCfg := by unfold oaAppend; dsimp only; split <;> rfl
  exact oaGood_of_moves hs (by rw [state]) hcfg (oaAppend_moves s) (by decide) fun h => oaAppend_bounded h hr

theorem oaZeroFill_good {s : State} (hs : OaGood s) : OaGood (oaZeroFill s) :=
  oaGood_of_moves hs rfl rfl (oaZeroFill_moves s) (by decide) oaZeroFill_bounded

theorem oaAdvance_good {s t : State} (hs : OaGood s) (h : oaAdvance s = .ok t) : OaGood t := by
  obtain ⟨he, moves⟩ := oaAdvance_frame h
  refine oaGood_of_moves hs (by rw [he]) (by rw [he]) moves (by decide) fun hu => ?_
  rw [he]
  exact advanced_bounded (oaGood_check hs) hu

/-- OA_FRAME's frame is counted and consumed (R286). -/
theorem oaFrameConsumed_good {rho : F64} {s t v : State} (hs : OaGood s) (ht : frameProcess rho s = .ok t)
    (hv : oaAdvance t = .ok v) : OaGood v := by
  obtain ⟨he, moves⟩ := frameProcess_frame ht
  obtain ⟨he', moves'⟩ := oaAdvance_frame hv
  refine oaGood_of_moves hs (by rw [he', he]) (by rw [he', he]) ((moves.mono ?_).trans (moves'.mono ?_))
    (bs := [.ram .rsRe, .ram .rsIm, .ram .avgRe, .ram .avgIm, .line .lin, .ram .mag, .ram .orders, .ram .frameBuf, .ram .speedBuf])
    (by decide) fun hu => ?_
  · simp
  · simp
  · rw [he', he]
    exact consumed_bounded (oaGood_check hs) hu

/-- WINGEN builds its window from the FFT table that OA_INIT left, so it is the window OA_INIT would build (R312). -/
theorem wingenDone_good {s : State} {tw : List F64} {g : F64} (hs : OaGood s) (hw : s.oaReg.winType.toNat ≤ 5)
    (hc : Fp.isFinite s.oaReg.winCoef = true) (htw : s.mem.load (.ram .fftTw) 0 s.oaCfg.fftLen.toNat = .ok tw)
    (hg : icg s.oaCfg.fftLen.toNat (window tw s.oaCfg.fftLen.toNat s.oaReg.winType s.oaReg.winCoef) = some g) :
    OaGood (wingenDone (window tw s.oaCfg.fftLen.toNat s.oaReg.winType s.oaReg.winCoef) g s) := by
  obtain ⟨check, bounded, words⟩ := oaGood_iff.mp hs
  have table := load_of_holds words.fftTw
  rw [fftTwiddles_length, htw] at table
  obtain rfl := Except.ok.inj table
  obtain ⟨fft, lengths, ⟨-, modes⟩, -, values⟩ := oaCheck_eq_none.mp check
  have moves := (Memory.Moves.refl [.ram .win] s.mem).storeAt (b := .ram .win) (by simp) 0
    (window (fftTwiddles s.oaCfg.fftLen.toNat) s.oaCfg.fftLen.toNat s.oaReg.winType s.oaReg.winCoef)
  refine oaGood_iff.mpr ⟨oaCheck_eq_none.mpr ⟨fft, lengths, ⟨hw, modes⟩, hc, values⟩, { bounded with icg := hg }, ?_⟩
  exact
    { sincLut := moves.keepsHolds (by simp) words.sincLut
      fftTw := moves.keepsHolds (by simp) words.fftTw
      bitrev := moves.keepsHolds (by simp) words.bitrev
      win := storeAt_holds _ _ _
      avgRe := moves.keepsWritten words.avgRe
      avgIm := moves.keepsWritten words.avgIm
      frameBuf := moves.keepsWritten words.frameBuf
      speedBuf := moves.keepsWritten words.speedBuf }

theorem raise_oaSame (c : ErrCode) (s : State) : OaSame s (s.raise c) := by
  refine ⟨?_, ?_, ?_, ?_, by simp [SameExcept]⟩ <;> simp

theorem oaCommand_inv {i : Instr} {s u : State} (hi : i ∈ oaCommands) (h : ruleOf i s = .ok u) (hs : OaInv s) :
    OaInv u := by
  have raised := fun e => (raise_oaSame e s).inv hs
  have hi : i = .oaInit ∨ i = .oaPush ∨ i = .oaFlush ∨ i = .oaFrame ∨ i = .oaFinal ∨ i = .fft ∨ i = .wingen ∨ i = .sincRs := by
    simpa using hi
  rcases hi with rfl | rfl | rfl | rfl | rfl | rfl | rfl | rfl
  · obtain rfl := Except.ok.inj h
    rcases oaInitRule_cases s with ⟨e, hr⟩ | ⟨check, g, gain, hr⟩
    · rw [hr]
      exact fun ready => absurd ready (by simp [oaInitFail])
    · rw [hr]
      exact fun _ => oaInitDone_good check gain
  · obtain rfl := Except.ok.inj h
    rcases oaPushRule_cases s with ⟨e, hr⟩ | ⟨ready, notFull, hr⟩
    · rw [hr]
      exact raised e
    · rw [hr]
      exact fun _ => oaAppend_good (hs ready) notFull
  · obtain rfl := Except.ok.inj h
    rcases oaFlushRule_cases s with ⟨e, hr⟩ | hr | ⟨ready, -, -, hr⟩
    · rw [hr]
      exact raised e
    · rw [hr]
      exact hs
    · rw [hr]
      exact fun _ => oaZeroFill_good (hs ready)
  · rcases oaFrameRule_cases h with ⟨e, rfl⟩ | ⟨ready, -, ⟨t, ht, rfl⟩ | ⟨rho, t, v, ht, hv, rfl⟩⟩
    · exact raised e
    · exact (raise_oaSame _ t).inv fun _ => oaAdvance_good (hs ready) ht
    · have good := oaFrameConsumed_good (hs ready) ht hv
      exact fun _ => good
  · rcases oaFinalRule_cases h with ⟨e, rfl⟩ | ⟨ready, -, he, xs, ys, -, -, hmem⟩
    · exact raised e
    · have moves : s.mem.Moves [.ram .avgSpec, .ram .avgPhase] u.mem := by
        rw [hmem]
        exact ((Memory.Moves.refl _ _).storeAt (by simp) _ _).storeAt (by simp) _ _
      exact fun _ => oaGood_of_moves (hs ready) (by rw [he]) (by rw [he]) moves (by decide) (by rw [he]; exact id)
  · rcases fftRule_cases h with ⟨e, rfl⟩ | ⟨ready, h⟩
    · exact raised e
    · obtain ⟨he, moves⟩ := fftRun_frame h
      exact fun _ => oaGood_of_moves (hs ready) (by rw [he]) (by rw [he]) moves (by decide) (by rw [he]; exact id)
  · rcases wingenRule_cases h with ⟨e, rfl⟩ | ⟨ready, type, coef, tw, g, htw, hg, rfl⟩
    · exact raised e
    · exact fun _ => wingenDone_good (hs ready) type coef htw hg
  · rcases sincRsRule_cases h with ⟨e, rfl⟩ | ⟨ready, h⟩
    · exact raised e
    · obtain ⟨he, moves⟩ := oaResample_frame h
      exact fun _ => oaGood_of_moves (hs ready) (by rw [he]) (by rw [he]) moves (by decide) (by rw [he]; exact id)

theorem ruleOf_oaInv {i : Instr} {s u : State} (h : ruleOf i s = .ok u) (hs : OaInv s) : OaInv u := by
  by_cases soft : i = .softReset
  · subst soft
    obtain rfl := Except.ok.inj h
    exact fun ready => absurd ready (by simp [softResetRule, State.powerOn])
  rcases ruleOf_writes h soft with ⟨-, w⟩ | ⟨-, w⟩ | ⟨hi, -⟩ | ⟨-, rfl⟩ | ⟨-, rfl⟩
  · exact w.oaSame.inv hs
  · exact w.oaSame.inv hs
  · exact oaCommand_inv hi h hs
  · exact hs
  · exact hs

/-- Settles O55, as `clInvariant` settles O53. -/
theorem oaInvariant : Obligations.OaInvariant := by
  intro s t hs h
  rcases step_writes h with ⟨-, x, rfl⟩ | w | ⟨i, u, -, hu, rfl⟩ | rfl
  · exact fun ready => absurd ready (by simp [State.powerOn])
  · exact w.oaSame.inv hs
  · have inv := ruleOf_oaInv hu hs
    exact inv
  · exact (raise_oaSame _ s).complete.inv hs

end Sys2Proof.Machine
end

section
/-! PROOFS. No step writes beyond the capacity of a bank: CapacityKept. -/

namespace Sys2Proof.Machine

open Safety

/-! ## Memories within capacities -/

/-- No word at or beyond the capacity of its bank has been written: `WithinCapacity` of a memory. -/
def Memory.Within (p : Params) (m : Memory) : Prop := ∀ b i, m.word b i ≠ none → i < b.capacity p

theorem withinCapacity_iff (s : State) : WithinCapacity s ↔ s.mem.Within s.par := Iff.rfl

namespace Memory.Within

theorem empty (p : Params) : Memory.empty.Within p := fun b i h => absurd (Memory.word_empty b i) h

theorem write {p : Params} {m : Memory} (h : m.Within p) {b : Bank} {i : Nat} (hi : i < b.capacity p) (w : Word) :
    (m.write b i w).Within p := by
  intro b' j hw
  rw [Memory.word_write] at hw
  split at hw
  · rename_i e
    rw [e.1, e.2]
    exact hi
  · exact h b' j hw

theorem storeAt {p : Params} {m : Memory} (h : m.Within p) {b : Bank} {i : Nat} {vs : List Word}
    (hi : i + vs.length ≤ b.capacity p) : (m.storeAt b i vs).Within p := by
  intro b' j hw
  rw [Memory.word_storeAt] at hw
  split at hw
  · rename_i e
    rw [e.1]
    omega
  · exact h b' j hw

theorem clear {p : Params} {m : Memory} (h : m.Within p) {b : Bank} {n : Nat} (hn : n ≤ b.capacity p) :
    (m.clear b n).Within p := by
  intro b' j hw
  rw [Memory.word_clear] at hw
  split at hw
  · rename_i e
    split at hw
    · rw [e]
      omega
    · exact absurd rfl hw
  · exact h b' j hw

/-- A block stored from the first word on. -/
theorem store {p : Params} {m : Memory} (h : m.Within p) {b : Bank} {vs : List Word} (hn : vs.length ≤ b.capacity p) :
    (m.storeAt b 0 vs).Within p :=
  h.storeAt (by omega)

end Memory.Within

/-! ## The capacities are kept -/

theorem ruleOf_par {i : Instr} {s u : State} (h : ruleOf i s = .ok u) : u.par = s.par := by
  by_cases soft : i = .softReset
  · subst soft
    obtain rfl := Except.ok.inj h
    rfl
  rcases ruleOf_writes h soft with ⟨-, w⟩ | ⟨-, w⟩ | ⟨-, w⟩ | ⟨-, rfl⟩ | ⟨-, rfl⟩
  · exact w.mapSame.par
  · exact w.clSame.par
  · exact w.clSame.par
  · rfl
  · rfl

/-! ## The CL and ELG units -/

theorem clInitMemory_within {p : Params} {t : Nat} (ht : t ≤ p.maxTab) {m : Memory} (h : m.Within p) :
    (clInitMemory p t m).Within p := by
  unfold clInitMemory elgResetMemory
  iterate 7 refine Memory.Within.clear ?_ (Nat.le_refl _)
  refine h.store ?_
  rw [qsin_length]
  exact Nat.div_le_div_right (Nat.mul_le_mul_left _ ht)

theorem elgCore_within {x : F64} {s : State} {g : ElgOut} (hs : ClGood s) (hm : s.mem.Within s.par)
    (h : elgCore x s = .ok g) : g.state.mem.Within s.par := by
  obtain ⟨check, -, -, -, -, ⟨mf, eg, elf, -⟩, -⟩ := hs
  obtain ⟨-, ⟨-, ⟨-, lfMax⟩, -, ⟨-, mfMax⟩, ⟨-, egMax⟩, -⟩, -, -⟩ := clCheck_eq_none.mp check
  obtain ⟨v, w, z, f, k, -, -, ht⟩ := elgCore_frame h
  rw [ht]
  exact ((hm.write (b := .line .mf) (Nat.lt_of_lt_of_le mf mfMax) v).write (b := .line .eg) (Nat.lt_of_lt_of_le eg egMax) w).write
    (b := .line .elf) (Nat.lt_of_lt_of_le elf lfMax) z

theorem armFilters_within {mI mQ : F64} {s : State} {r : Rails} (hs : ClGood s) (hm : s.mem.Within s.par)
    (h : armFilters mI mQ s = .ok r) : r.state.mem.Within s.par := by
  obtain ⟨check, -, lpf1, lpf2, -⟩ := hs
  obtain ⟨-, ⟨⟨-, lpfMax⟩, -⟩, -, -⟩ := clCheck_eq_none.mp check
  rw [armFilters_frame h]
  exact (hm.write (b := .line .lpf1) (Nat.lt_of_lt_of_le lpf1 lpfMax) mI).write (b := .line .lpf2)
    (Nat.lt_of_lt_of_le lpf2 lpfMax) mQ

theorem compDelay_within {yI yQ : F64} {s : State} {r : Rails} (hs : ClGood s) (hm : s.mem.Within s.par)
    (h : compDelay yI yQ s = .ok r) : r.state.mem.Within s.par := by
  obtain ⟨check, -, -, -, cd, -⟩ := hs
  obtain ⟨-, ⟨-, -, -, -, -, comp⟩, -, -⟩ := clCheck_eq_none.mp check
  rcases compDelay_eq_ok.mp h with ⟨-, rfl⟩ | ⟨h0, oI, oQ, -, -, rfl⟩
  · exact hm
  · have running : s.clCfg.compDelay ≠ 0 := fun e => h0 (by rw [e]; rfl)
    rw [if_neg running] at cd
    exact (hm.write (b := .line .cdI) (Nat.lt_of_lt_of_le cd comp) yI).write (b := .line .cdQ) (Nat.lt_of_lt_of_le cd comp) yQ

/-- CL_STEP: each stage finds its indices below its lengths, as the stages before it leave the invariant. -/
theorem clStepBody_within {s t : State} (hs : ClGood s) (hm : s.mem.Within s.par) (h : clStepBody s = .ok t) :
    t.mem.Within s.par := by
  obtain ⟨v, y, g, o, hv, hy, hg, ho, rfl⟩ := clStepBody_eq_ok.mp h
  have good1 := vco_good hs hv
  have good2 := armFilters_good good1 hy
  have good3 := elgCore_good good2 hg
  have par1 : v.state.par = s.par := by rw [vco_frame hv]
  have par2 : y.state.par = s.par := by rw [armFilters_frame hy, par1]
  have par3 : g.state.par = s.par := by rw [(elgCore_writes hg).state, par2]
  have mem1 : v.state.mem.Within s.par := by rw [vco_frame hv]; exact hm
  have mem2 := armFilters_within good1 (par1 ▸ mem1) hy
  have mem3 := elgCore_within good2 (par2 ▸ par1 ▸ mem2) hg
  have mem4 := compDelay_within good3 (par3 ▸ par2 ▸ mem3) ho
  rw [par3] at mem4
  rw [State.loopf_mem, State.clResults_mem]
  exact mem4

/-! ## The MAP unit -/

theorem mapInitMemory_within {p : Params} {t : Nat} (ht : t ≤ p.maxTab) {m : Memory} (h : m.Within p) :
    (mapInitMemory p t m).Within p := by
  unfold mapInitMemory
  iterate 4 refine Memory.Within.clear ?_ (Nat.le_refl _)
  refine h.store ?_
  rw [qsin_length]
  exact Nat.div_le_div_right (Nat.mul_le_mul_left _ ht)

theorem demapAccumulate_within {s : State} {a : Pointed} (hs : MapGood s) (hm : s.mem.Within s.par)
    (h : demapAccumulate s = .ok a) : a.state.mem.Within s.par := by
  obtain ⟨check, bounded, -⟩ := mapGood_iff.mp hs
  obtain ⟨-, ⟨-, rrc⟩, -, -⟩ := mapCheck_eq_none.mp check
  obtain ⟨-, -, -, words⟩ := demapAccumulate_frame h
  intro b i hw
  rcases words b i hw with hw | ⟨h1, ⟨rfl, rfl⟩ | ⟨rfl, rfl⟩⟩
  · exact hm b i hw
  · exact Nat.lt_of_lt_of_le (bounded.idx h1).2.2.1 (rrc h1).2
  · exact Nat.lt_of_lt_of_le (bounded.idx h1).2.2.2 (rrc h1).2

/-- Sub-sample `k` of MOD_SYM writes word `k` of MOD_OUT, and `k` is below SPS (R241). -/
theorem modSample_within {u : Point} {s t : State} {k : Nat} (hs : MapGood s) (hk : k < s.mapCfg.sps.toNat)
    (hm : s.mem.Within s.par) (h : modSample u s k = .ok t) : t.mem.Within s.par := by
  obtain ⟨check, bounded, -⟩ := mapGood_iff.mp hs
  obtain ⟨-, ⟨⟨-, spsMax⟩, rrc⟩, -, -⟩ := mapCheck_eq_none.mp check
  obtain ⟨-, -, -, words⟩ := modSample_frame h
  intro b i hw
  rcases words b i hw with hw | ⟨rfl, rfl⟩ | ⟨h1, ⟨rfl, rfl⟩ | ⟨rfl, rfl⟩⟩
  · exact hm b i hw
  · exact Nat.lt_of_lt_of_le hk spsMax
  · exact Nat.lt_of_lt_of_le (bounded.idx h1).1 (rrc h1).2
  · exact Nat.lt_of_lt_of_le (bounded.idx h1).2.1 (rrc h1).2

theorem modSamples_within {u : Point} {s t : State} (hs : MapGood s) (hm : s.mem.Within s.par)
    (h : modSamples u s.mapCfg.sps.toNat s = .ok t) : t.mem.Within s.par := by
  refine (foldlM_keeps (P := fun c => MapGood c ∧ c.mapCfg = s.mapCfg ∧ c.par = s.par ∧ c.mem.Within s.par) ?_
    ⟨hs, rfl, rfl, hm⟩ h).2.2.2
  rintro c k c' hk ⟨good, hcfg, hpar, within⟩ hc
  obtain ⟨he, -⟩ := modSample_frame hc
  have next := modSample_within good (by rw [hcfg]; exact List.mem_range.mp hk) (hpar ▸ within) hc
  exact ⟨modSample_good good hc, by rw [he, hcfg], by rw [he, hpar], hpar ▸ next⟩

/-! ## The OA unit -/

/-- A latched configuration that OA_INIT admits, and no word beyond a capacity: what each stage of the pipeline needs of its lengths,
and keeps. -/
structure OaFits (s : State) : Prop where
  check : oaCheck s.par s.oaCfg = none
  within : s.mem.Within s.par

/-- The lengths of the OA unit's blocks fit their banks (R56, R270). -/
theorem oaLengths_fit {p : Params} {c : OaConfig} (h : oaCheck p c = none) :
    c.fftLen.toNat ≤ p.maxFft ∧ c.fftLen.toNat / 2 ≤ p.maxFft / 2 ∧ c.sampleLen.toNat ≤ p.maxSampleLen
      ∧ c.overlap.toNat ≤ p.maxSampleLen ∧ c.sincLutlen.toNat ≤ p.maxSincLut ∧ c.numOrders.toNat ≤ p.maxOrders := by
  obtain ⟨⟨-, -, fft⟩, ⟨⟨-, sample⟩, overlap, -, ⟨-, lut⟩, ⟨-, orders⟩, -⟩, -, -⟩ := oaCheck_eq_none.mp h
  exact ⟨fft, Nat.div_le_div_right fft, sample, by omega, lut, orders⟩

theorem oaInitMemory_within {p : Params} {c : OaConfig} (hc : oaCheck p c = none) {m : Memory} (h : m.Within p) :
    (oaInitMemory c (oaInitWindow c) m).Within p := by
  obtain ⟨fft, half, sample, -, lut, -⟩ := oaLengths_fit hc
  have zeros : ∀ {b : Bank} {n : Nat}, n ≤ b.capacity p → (List.replicate n Fp.zero).length ≤ b.capacity p := fun hn => by
    rwa [List.length_replicate]
  unfold oaInitMemory
  dsimp only
  refine (((((((h.store ?lut).store ?tw).store ?br).store ?win).store (zeros ?_)).store (zeros ?_)).store (zeros ?_)).store
    (zeros ?_)
  case lut => rw [sincTable_length]; exact lut
  case tw => rw [fftTwiddles_length]; exact fft
  case br => rw [bitrevTable_length]; exact fft
  case win => rw [oaInitWindow, window_length]; exact fft
  · exact half
  · exact half
  · exact sample
  · exact sample

theorem oaAppend_fits {s : State} (hs : OaFits s) (h : s.oa.wp < s.oaCfg.sampleLen.toNat) : OaFits (oaAppend s) := by
  obtain ⟨-, -, sample, -⟩ := oaLengths_fit hs.check
  have within := (hs.within.write (b := .ram .frameBuf) (Nat.lt_of_lt_of_le h sample) s.in0).write (b := .ram .speedBuf)
    (Nat.lt_of_lt_of_le h sample) s.in1
  unfold oaAppend
  dsimp only
  split <;> exact ⟨hs.check, within⟩

theorem oaZeroFill_fits {s : State} (hs : OaFits s) (h : s.oa.wp ≤ s.oaCfg.sampleLen.toNat) : OaFits (oaZeroFill s) := by
  obtain ⟨-, -, sample, -⟩ := oaLengths_fit hs.check
  have filled : s.oa.wp + (List.replicate (s.oaCfg.sampleLen.toNat - s.oa.wp) Fp.zero).length ≤ s.par.maxSampleLen := by
    rw [List.length_replicate]
    omega
  exact ⟨hs.check, (hs.within.storeAt (b := .ram .frameBuf) filled).storeAt (b := .ram .speedBuf) filled⟩

theorem oaAdvance_fits {s t : State} (hs : OaFits s) (h : oaAdvance s = .ok t) : OaFits t := by
  obtain ⟨-, -, -, overlap, -⟩ := oaLengths_fit hs.check
  obtain ⟨xs, vs, hx, hv, rfl⟩ := oaAdvance_eq_ok.mp h
  refine ⟨hs.check, (hs.within.store (b := .ram .frameBuf) ?_).store (b := .ram .speedBuf) ?_⟩
  · rw [Memory.load_length hx]; exact overlap
  · rw [Memory.load_length hv]; exact overlap

theorem oaResample_fits {rho : F64} {s t : State} (hs : OaFits s) (h : oaResample rho s = .ok t) : OaFits t := by
  obtain ⟨fft, -⟩ := oaLengths_fit hs.check
  obtain ⟨frame, lut, -, -, rfl⟩ := oaResample_eq_ok.mp h
  refine ⟨hs.check, (hs.within.store (b := .ram .rsRe) ?_).store (b := .ram .rsIm) ?_⟩
  · rw [resample_length]; exact fft
  · rw [List.length_replicate]; exact fft

theorem oaWindow_fits {s t : State} (hs : OaFits s) (h : oaWindow s = .ok t) : OaFits t := by
  obtain ⟨fft, -⟩ := oaLengths_fit hs.check
  obtain ⟨xs, w, hx, -, rfl⟩ := oaWindow_eq_ok.mp h
  refine ⟨hs.check, hs.within.store (b := .ram .rsRe) ?_⟩
  rw [applyWindow, List.length_zipWith, Memory.load_length hx]
  exact Nat.le_trans (Nat.min_le_left _ _) fft

theorem fftRun_fits {s t : State} (hs : OaFits s) (h : fftRun s = .ok t) : OaFits t := by
  obtain ⟨fft, -⟩ := oaLengths_fit hs.check
  obtain ⟨re, im, tw, br, hre, him, -, -, rfl⟩ := fftRun_eq_ok.mp h
  have lengths := fftCore_lengths tw br s.oaCfg.fftLen.toNat ⟨re, im⟩
  refine ⟨hs.check, (hs.within.store (b := .ram .rsRe) ?_).store (b := .ram .rsIm) ?_⟩
  · rw [lengths.1, Memory.load_length hre]; exact fft
  · rw [lengths.2, Memory.load_length him]; exact fft

theorem accumulate_fits {v : Spectrum} {s t : State} (hs : OaFits s) (h : accumulate v s = .ok t) : OaFits t := by
  obtain ⟨-, half, -⟩ := oaLengths_fit hs.check
  obtain ⟨ar, har, ⟨-, ai, hai, rfl⟩ | ⟨-, rfl⟩⟩ := accumulate_eq_ok.mp h
  · refine ⟨hs.check, (hs.within.store (b := .ram .avgRe) ?_).store (b := .ram .avgIm) ?_⟩
    · rw [List.length_zipWith, Memory.load_length har]
      exact Nat.le_trans (Nat.min_le_left _ _) half
    · rw [List.length_zipWith, Memory.load_length hai]
      exact Nat.le_trans (Nat.min_le_left _ _) half
  · refine ⟨hs.check, hs.within.store (b := .ram .avgRe) ?_⟩
    rw [List.length_zipWith, Memory.load_length har]
    exact Nat.le_trans (Nat.min_le_left _ _) half

theorem linOf_length_le {s : State} {v : Spectrum} (h : halfSpectrum s = .ok v) :
    (linOf v).length ≤ s.oaCfg.fftLen.toNat / 2 := by
  obtain ⟨re, im, hre, -, rfl⟩ := halfSpectrum_eq_ok.mp h
  rw [linOf, List.length_zipWith, scaled_length (Memory.load_length hre)]
  exact Nat.min_le_left _ _

theorem frameLevels_fits {v : Spectrum} {s : State} (hs : OaFits s) (hv : (linOf v).length ≤ s.oaCfg.fftLen.toNat / 2) :
    OaFits (frameLevels v s) := by
  obtain ⟨-, half, -, -, -, orders⟩ := oaLengths_fit hs.check
  refine ⟨hs.check, ((hs.within.store (b := .line .lin) ?_).store (b := .ram .mag) ?_).store (b := .ram .orders) ?_⟩
  · exact Nat.le_trans hv half
  · rw [List.length_map]
    exact Nat.le_trans hv half
  · rw [orderList_length]; exact orders

/-- The pipeline of OA_FRAME, stage by stage (R286). -/
theorem frameProcess_fits {rho : F64} {s t : State} (hs : OaFits s) (h : frameProcess rho s = .ok t) : OaFits t := by
  obtain ⟨s1, s2, s3, v, s4, h1, h2, h3, hv, h4, rfl⟩ := frameProcess_eq_ok.mp h
  have fits3 := fftRun_fits (oaWindow_fits (oaResample_fits hs h1) h2) h3
  have lin := linOf_length_le hv
  have cfg4 : s4.oaCfg = s3.oaCfg := by rw [(accumulate_frame h4).1]
  rw [← cfg4] at lin
  have fits := frameLevels_fits (accumulate_fits fits3 h4) lin
  exact ⟨fits.check, fits.within⟩

/-! ## Every command -/

theorem clCommand_within {i : Instr} {s u : State} (hi : i ∈ clCommands) (h : ruleOf i s = .ok u) (inv : ClInv s)
    (hm : s.mem.Within s.par) : u.mem.Within s.par := by
  have hi : i = .clInit ∨ i = .clStep ∨ i = .elgStep := by simpa using hi
  rcases hi with rfl | rfl | rfl
  · obtain rfl := Except.ok.inj h
    rcases clInitRule_cases s with ⟨e, -, hr⟩ | ⟨check, hr⟩
    · rw [hr, State.raise_mem]
      exact hm
    · rw [hr]
      obtain ⟨⟨-, table, -⟩, -⟩ := clCheck_eq_none.mp check
      exact clInitMemory_within table hm
  · rcases clStepRule_cases h with ⟨-, rfl⟩ | ⟨ready, hb⟩
    · rw [State.raise_mem]
      exact hm
    · exact clStepBody_within (inv ready) hm hb
  · rcases elgStepRule_cases h with ⟨-, rfl⟩ | ⟨ready, g, hg, rfl⟩
    · rw [State.raise_mem]
      exact hm
    · exact elgCore_within (inv ready) hm hg

theorem mapCommand_within {i : Instr} {s u : State} (hi : i ∈ mapCommands) (h : ruleOf i s = .ok u) (inv : MapInv s)
    (hm : s.mem.Within s.par) : u.mem.Within s.par := by
  have hi : i = .mapInit ∨ i = .mapEnc ∨ i = .mapDec ∨ i = .demapAcc ∨ i = .modSym := by simpa using hi
  rcases hi with rfl | rfl | rfl | rfl | rfl
  · obtain rfl := Except.ok.inj h
    rcases mapInitRule_cases s with ⟨e, -, hr⟩ | ⟨check, hr⟩
    · rw [hr, State.raise_mem]
      exact hm
    · rw [hr]
      obtain ⟨⟨-, table, -⟩, -⟩ := mapCheck_eq_none.mp check
      exact mapInitMemory_within table hm
  · obtain rfl := Except.ok.inj h
    rcases mapEncRule_cases s with ⟨-, hr⟩ | ⟨-, hr⟩
    · rw [hr, State.raise_mem]
      exact hm
    · rw [hr]
      exact hm
  · obtain rfl := Except.ok.inj h
    rcases mapDecRule_cases s with ⟨-, hr⟩ | ⟨-, hr⟩
    · rw [hr, State.raise_mem]
      exact hm
    · rw [hr]
      exact hm
  · rcases demapAccRule_cases h with ⟨-, rfl⟩ | ⟨ready, a, ha, rfl⟩
    · rw [State.raise_mem]
      exact hm
    · rw [demapTick_mem]
      exact demapAccumulate_within (inv ready) hm ha
  · rcases modSymRule_cases h with ⟨-, rfl⟩ | ⟨ready, t, ht, rfl⟩
    · rw [State.raise_mem]
      exact hm
    · rw [State.pointResults_mem]
      exact modSamples_within (s := (encodeSymbol s.din0 s).state) (encodeSymbol_good (inv ready) s.din0) hm ht

theorem oaCommand_within {i : Instr} {s u : State} (hi : i ∈ oaCommands) (h : ruleOf i s = .ok u) (inv : OaInv s)
    (hm : s.mem.Within s.par) : u.mem.Within s.par := by
  have raised : ∀ e, (s.raise e).mem.Within s.par := fun e => by rw [State.raise_mem]; exact hm
  have fits := fun ready => OaFits.mk (oaGood_check (inv ready)) hm
  have kept : OaFits u → u.mem.Within s.par := fun hu => by
    rw [← ruleOf_par h]
    exact hu.within
  have hi : i = .oaInit ∨ i = .oaPush ∨ i = .oaFlush ∨ i = .oaFrame ∨ i = .oaFinal ∨ i = .fft ∨ i = .wingen ∨ i = .sincRs := by
    simpa using hi
  rcases hi with rfl | rfl | rfl | rfl | rfl | rfl | rfl | rfl
  · obtain rfl := Except.ok.inj h
    rcases oaInitRule_cases s with ⟨e, hr⟩ | ⟨check, g, -, hr⟩
    · rw [hr, oaInitFail, State.raise_mem]
      exact hm
    · rw [hr]
      exact oaInitMemory_within check hm
  · obtain rfl := Except.ok.inj h
    rcases oaPushRule_cases s with ⟨e, hr⟩ | ⟨ready, notFull, hr⟩
    · rw [hr]
      exact raised e
    · obtain ⟨-, bounded, -⟩ := oaGood_iff.mp (inv ready)
      have room := oaRoom bounded notFull
      have appended := oaAppend_fits (fits ready) room
      rw [← hr] at appended
      exact kept appended
  · obtain rfl := Except.ok.inj h
    rcases oaFlushRule_cases s with ⟨e, hr⟩ | hr | ⟨ready, -, -, hr⟩
    · rw [hr]
      exact raised e
    · rw [hr]
      exact hm
    · obtain ⟨-, bounded, -⟩ := oaGood_iff.mp (inv ready)
      have filled := oaZeroFill_fits (fits ready) bounded.fill
      rw [← hr] at filled
      exact kept filled
  · rcases oaFrameRule_cases h with ⟨e, rfl⟩ | ⟨ready, -, ⟨t, ht, rfl⟩ | ⟨rho, t, v, ht, hv, rfl⟩⟩
    · exact raised e
    · have advanced := oaAdvance_fits (fits ready) ht
      exact kept ⟨by rw [State.raise_par, State.raise_oaCfg]; exact advanced.check,
        by rw [State.raise_par, State.raise_mem]; exact advanced.within⟩
    · have consumed := oaAdvance_fits (frameProcess_fits (fits ready) ht) hv
      exact kept ⟨consumed.check, consumed.within⟩
  · rcases oaFinalRule_cases h with ⟨e, rfl⟩ | ⟨ready, -, -, xs, ys, hx, hy, hmem⟩
    · exact raised e
    · obtain ⟨-, half, -⟩ := oaLengths_fit (fits ready).check
      rw [hmem]
      exact (hm.store (b := .ram .avgSpec) (Nat.le_trans hx half)).store (b := .ram .avgPhase) (Nat.le_trans hy half)
  · rcases fftRule_cases h with ⟨e, rfl⟩ | ⟨ready, h'⟩
    · exact raised e
    · exact kept (fftRun_fits (fits ready) h')
  · rcases wingenRule_cases h with ⟨e, rfl⟩ | ⟨ready, -, -, tw, g, -, -, rfl⟩
    · exact raised e
    · obtain ⟨fft, -⟩ := oaLengths_fit (fits ready).check
      refine hm.store (b := .ram .win) ?_
      rw [window_length]
      exact fft
  · rcases sincRsRule_cases h with ⟨e, rfl⟩ | ⟨ready, h'⟩
    · exact raised e
    · exact kept (oaResample_fits (fits ready) h')

theorem ruleOf_within {i : Instr} {s u : State} (h : ruleOf i s = .ok u) (inv : MemInv s) : u.mem.Within u.par := by
  obtain ⟨-, within, cl, map, oa⟩ := inv
  have hm : s.mem.Within s.par := within
  rw [ruleOf_par h]
  by_cases soft : i = .softReset
  · subst soft
    obtain rfl := Except.ok.inj h
    exact hm
  rcases ruleOf_writes h soft with ⟨hi, -⟩ | ⟨hi, -⟩ | ⟨hi, -⟩ | ⟨-, rfl⟩ | ⟨-, rfl⟩
  · exact clCommand_within hi h cl hm
  · exact mapCommand_within hi h map hm
  · exact oaCommand_within hi h oa hm
  · exact hm
  · exact hm

/-! ## A move of the host -/

theorem ramWrite_within {s : State} (hm : s.mem.Within s.par) (v : Word) : (ramWrite v s).mem.Within s.par := by
  rcases ramWrite_cases v s with h | ⟨r, hr, -, h⟩
  · rw [h, State.raise_mem]
    exact hm
  · rw [h]
    exact hm.write (b := .ram r) hr v

theorem hostWrite_within {s : State} (hm : s.mem.Within s.par) (o : BitVec 12) (v : Word) :
    (hostWrite o v s).mem.Within s.par := by
  rcases hostWrite_cases o v s with ⟨-, h⟩ | ⟨-, h | h | h | ⟨r, h⟩⟩ <;> rw [h]
  · rw [State.raise_mem]
    exact hm
  · exact hm
  · rw [issue_mem]
    exact hm
  · exact ramWrite_within hm v
  · rw [State.writeReg_mem]
    exact hm

theorem hostOp_within {op : HostOp} {s t : State} (hm : s.mem.Within s.par) (h : hostOp op s = .ok t) :
    t.mem.Within s.par := by
  cases op with
  | bus a =>
    obtain ⟨-, ⟨-, hr⟩ | ⟨-, rfl⟩⟩ := busAccess_eq_ok.mp h
    · rw [hostRead_mem hr]
      exact hm
    · exact hostWrite_within hm _ _
  | wait =>
    obtain rfl := Except.ok.inj h
    rw [waitTurn_eq]
    exact hm
  | chkerr =>
    obtain rfl := Except.ok.inj h
    rw [chkerrTurn_eq]
    exact hm
  | powerOn =>
    obtain rfl := Except.ok.inj h
    exact Memory.Within.empty _

theorem hostMove_within {s t : State} (hm : s.mem.Within s.par) (h : hostMove s = .ok t) : t.mem.Within t.par := by
  have hpar : t.par = s.par := by
    rcases hostMove_hostWrites h with ⟨-, x, rfl⟩ | w
    · rfl
    · exact w.clSame.par
  rw [hpar]
  rcases hostMove_eq_ok.mp h with ⟨-, rfl⟩ | ⟨op, rest, -, h⟩
  · exact hm
  · exact hostOp_within (s := { s with host := { s.host with queue := rest } }) hm h

theorem step_within {s t : State} (inv : MemInv s) (h : step s = .next t) : t.mem.Within t.par := by
  obtain ⟨-, within, -⟩ := id inv
  rcases step_eq_next.mp h with ⟨-, hm⟩ | ⟨w, -, -, hm⟩ | ⟨w, i, -, -, -, he⟩ | ⟨w, r, -, -, -, rfl⟩
  · exact hostMove_within within hm
  · exact hostMove_within (s := s.spendLag) within hm
  · obtain ⟨u, hu, rfl⟩ := exec_eq_next.mp he
    rw [State.complete_mem, State.complete_par]
    exact ruleOf_within hu inv
  · rw [State.complete_mem, State.complete_par, illegalPending, State.raise_mem, State.raise_par]
    exact within

/-- Settles O56: the capacities by their definition, and every step by `step_within`. -/
theorem capacityKept : Obligations.CapacityKept := by
  refine ⟨fun p => ⟨fun _ => rfl, ?fir, ?delay, rfl⟩, fun s t inv h b i hw => step_within inv h b i hw⟩
  case fir => simp [Bank.capacity, Line.capacity]
  case delay => simp [Bank.capacity, Line.capacity]

end Sys2Proof.Machine
end

section
/-! PROOFS. FIR is its convolution sum, and every command completes where the words it reads are written: FirConvolution,
ReadyCompletes. -/

namespace Sys2Proof.Fp

/-! ## The floor of a phase below a table size -/

/-- The floor of a value of positive sign whose unit is 2 ^ (-e) (R12). -/
theorem floor_eq_div {v : F64} {e : Nat} (hf : isFinite v = true) (hs : sign v = false) (he : expo v = -(e : Int)) :
    floor v = ((mant v / 2 ^ e : Nat) : Int) := by
  have hm : smant v = (mant v : Int) := by unfold smant; rw [hs]; rfl
  unfold floor
  rw [if_pos hf, hm, he]
  split
  · rename_i h0
    obtain rfl : e = 0 := by omega
    simp
  · rw [show (-(-(e : Int))).toNat = e by omega, Nat.one_shiftLeft]
    exact (Int.natCast_div _ _).symm

/-- The floor of a value below the binary64 of a table size up to 2 ^ 53 is below the size: the sizes are exact there. -/
theorem floor_lt_of_lt_ofNat {v : F64} {t : Nat} (h0 : 0 < t) (ht : t ≤ 9007199254740992) (hv : v.toNat < (ofNat t).toNat) :
    (floor v).toNat < t := by
  have hT := toNat_ofNat h0 (show t < 18446744073709551616 by omega)
  have hlow : 2 ^ t.log2 ≤ t := Nat.log2_self_le (by omega)
  have hpat := ofNat_range h0 (show t < 18446744073709551616 by omega)
  obtain ⟨hf, hs, -⟩ := finite_of_toNat_lt (v := v) (by omega)
  have hE : expField v = v.toNat / 4503599627370496 := by
    rw [expField_eq]
    exact Nat.mod_eq_of_lt (by omega)
  have hF : frac v < 4503599627370496 := Nat.mod_lt _ (by decide)
  have split : v.toNat = expField v * 4503599627370496 + frac v := by
    rw [hE, frac]
    omega
  have hmant : mant v < 2 ^ 53 := by
    unfold mant
    split <;> omega
  -- it is enough to know the unit 2 ^ (-e) of `v` and that its significand lies below `t` in that unit
  suffices unit : ∃ e : Nat, expo v = -(e : Int) ∧ mant v < t * 2 ^ e by
    obtain ⟨e, he, hlt⟩ := unit
    rw [floor_eq_div hf hs he, Int.toNat_natCast]
    exact Nat.div_lt_of_lt_mul (by rwa [Nat.mul_comm] at hlt)
  have wide : ∀ e, 53 ≤ e → mant v < t * 2 ^ e := fun e he => by
    calc mant v < 2 ^ 53 := hmant
      _ ≤ 1 * 2 ^ e := by rw [Nat.one_mul]; exact Nat.pow_le_pow_right (by decide) he
      _ ≤ t * 2 ^ e := Nat.mul_le_mul_right _ h0
  by_cases hsub : expField v = 0
  · exact ⟨1074, by unfold expo; rw [if_pos hsub]; rfl, wide 1074 (by decide)⟩
  have hexpo : expo v = (expField v : Int) - 1075 := by unfold expo; rw [if_neg hsub]
  have hmv : mant v = frac v + 4503599627370496 := by unfold mant; rw [if_neg hsub]
  by_cases hfull : t = 9007199254740992
  · subst hfull
    have h53 : Nat.log2 9007199254740992 = 53 := by decide
    have hM : ofNatMant 9007199254740992 = 4503599627370496 := by decide
    rw [h53, hM] at hT
    refine ⟨1075 - expField v, by omega, ?_⟩
    exact Nat.lt_of_lt_of_le hmant (Nat.le_mul_of_pos_right _ (Nat.two_pow_pos _))
  · have hL : t.log2 ≤ 52 := by
      have : t.log2 < 53 := (Nat.log2_lt (by omega)).mpr (by omega)
      omega
    have hM : ofNatMant t = t * 2 ^ (52 - t.log2) := by
      unfold ofNatMant
      rw [if_pos hL, Nat.shiftLeft_eq]
    have hM2 : ofNatMant t < 9007199254740992 := by
      rw [hM]
      calc t * 2 ^ (52 - t.log2) < 2 ^ (t.log2 + 1) * 2 ^ (52 - t.log2) :=
            Nat.mul_lt_mul_of_pos_right Nat.lt_log2_self (Nat.two_pow_pos _)
        _ = 9007199254740992 := by rw [← Nat.pow_add, show t.log2 + 1 + (52 - t.log2) = 53 by omega]
    refine ⟨1075 - expField v, by omega, ?_⟩
    by_cases heq : expField v = t.log2 + 1023
    · rw [show 1075 - expField v = 52 - t.log2 by omega, ← hM]
      omega
    · calc mant v < 2 ^ 53 := hmant
        _ = 2 ^ t.log2 * 2 ^ (53 - t.log2) := by rw [← Nat.pow_add]; congr 1; omega
        _ ≤ t * 2 ^ (1075 - expField v) := Nat.mul_le_mul hlow (Nat.pow_le_pow_right (by decide) (by omega))

end Sys2Proof.Fp

namespace Sys2Proof.Machine

open Safety

/-- A phase in its table indexes the first `t` words of it (R161, R167): of the values that are not negative only -0.0 has the sign
bit. -/
theorem floor_lt_of_inTable {v : F64} {t : Nat} (h0 : 0 < t) (ht : t ≤ 9007199254740992) (h : InTable v t) :
    (Fp.floor v).toNat < t := by
  obtain ⟨nonneg, below⟩ := h
  have hpat := Fp.ofNat_range h0 (show t < 18446744073709551616 by omega)
  have hkey := (Fp.finite_of_toNat_lt (v := Fp.ofNat t) (by omega)).2.2
  unfold Fp.le at nonneg
  unfold Fp.lt at below
  simp only [Bool.and_eq_true, decide_eq_true_eq] at nonneg below
  have hz : Fp.key Fp.zero = 0 := by decide
  rw [hz] at nonneg
  rw [hkey] at below
  cases hs : Fp.sign v with
  | false =>
    have hk : Fp.key v = v.toNat := by unfold Fp.key; rw [hs]; rfl
    exact Fp.floor_lt_of_lt_ofNat h0 ht (by omega)
  | true =>
    have hk : Fp.key v = -((v.toNat : Int) - 9223372036854775808) := by unfold Fp.key; rw [hs]; rfl
    have hb : 9223372036854775808 ≤ v.toNat := by
      unfold Fp.sign at hs
      rw [BitVec.msb_eq_decide] at hs
      simpa using hs
    have hv : v = Fp.neg Fp.zero := BitVec.eq_of_toNat_eq (by
      have : (Fp.neg Fp.zero).toNat = 9223372036854775808 := by decide
      omega)
    rw [hv, show (Fp.floor (Fp.neg Fp.zero)).toNat = 0 by decide +kernel]
    exact h0

/-! ## Folds and blocks -/

/-- A fold whose steps all answer is the pure fold of the answers. -/
theorem foldlM_eq_foldl {α β : Type} {f : β → α → Run β} {g : β → α → β} {xs : List α}
    (h : ∀ b a, a ∈ xs → f b a = .ok (g b a)) (b : β) : xs.foldlM f b = .ok (xs.foldl g b) := by
  induction xs generalizing b with
  | nil => rfl
  | cons a xs ih =>
    rw [List.foldlM_cons, h b a (by simp)]
    exact ih (fun b' a' ha => h b' a' (List.mem_cons_of_mem _ ha)) _

/-- A fold that answers has run every one of its steps. -/
theorem foldlM_step_isOk {α β : Type} {f : β → α → Run β} {xs : List α} {b r : β} (h : xs.foldlM f b = .ok r) {a : α}
    (ha : a ∈ xs) : ∃ c c', f c a = .ok c' := by
  induction xs generalizing b with
  | nil => cases ha
  | cons x xs ih =>
    rw [List.foldlM_cons] at h
    obtain ⟨c, hc, h⟩ := Run.bind_eq_ok.mp h
    rcases List.mem_cons.mp ha with rfl | ha
    · exact ⟨b, c, hc⟩
    · exact ih h ha

/-- A fold answers where each of its steps does from a state that has `P`, and leaves one. -/
theorem foldlM_isOk {α β : Type} {f : β → α → Run β} (P : β → Prop) {xs : List α} {b : β}
    (hf : ∀ c a, a ∈ xs → P c → ∃ c', f c a = .ok c' ∧ P c') (hb : P b) : ∃ r, xs.foldlM f b = .ok r := by
  induction xs generalizing b with
  | nil => exact ⟨b, rfl⟩
  | cons a xs ih =>
    obtain ⟨c, hc, hp⟩ := hf b a (by simp) hb
    rw [List.foldlM_cons, hc]
    exact ih (fun c a ha => hf c a (List.mem_cons_of_mem _ ha)) hp

theorem Written.mono {m : Memory} {b : Bank} {n k : Nat} (h : Written m b n) (hk : k ≤ n) : Written m b k :=
  fun i hi => h i (Nat.lt_of_lt_of_le hi hk)

theorem Written.word {m : Memory} {b : Bank} {n i : Nat} (h : Written m b n) (hi : i < n) : ∃ w, m.word b i = some w :=
  Option.isSome_iff_exists.mp (h i hi)

theorem Written.of_holds {m : Memory} {b : Bank} {vs : List Word} (h : Holds m b vs) : Written m b vs.length := by
  intro i hi
  rw [h i hi]
  simp [hi]

theorem Written.load {m : Memory} {b : Bank} {n : Nat} (h : Written m b n) : ∃ vs, m.load b 0 n = .ok vs :=
  Memory.load_isOk.mpr fun k hk => by rw [Nat.zero_add]; exact h k hk

/-- Words that have been written are the words of some list. -/
theorem Written.holds {m : Memory} {b : Bank} {n : Nat} (h : Written m b n) :
    ∃ vs : List Word, vs.length = n ∧ Holds m b vs := by
  obtain ⟨vs, hvs⟩ := Written.load h
  obtain ⟨hl, hw⟩ := Memory.load_eq_ok.mp hvs
  exact ⟨vs, hl, fun i hi => by simpa using hw i (hl ▸ hi)⟩

/-! ## FIR -/

theorem nth_eq {xs : List F64} {i : Nat} {w : F64} (h : xs[i]? = some w) : nth xs i = w := by
  rw [nth, List.getD_eq_getElem?_getD, h]
  rfl

/-- The delay line with the new sample in it (R163). -/
theorem write_holds {m : Memory} {b : Bank} {vs : List Word} (h : Holds m b vs) {idx : Nat} (hi : idx < vs.length) (x : Word) :
    Holds (m.write b idx x) b (vs.set idx x) := by
  intro j hj
  rw [List.length_set] at hj
  rw [Memory.word_write, List.getElem?_set]
  by_cases e : j = idx
  · subst e
    simp [hj]
  · have e' : ¬ idx = j := fun e' => e e'.symm
    simp [e, e', h j hj]

/-- FIR on held coefficients and a held delay line is the convolution sum of R163. -/
theorem fir_eq_firValue {m : Memory} {line : Line} {coef : RamId} {idx : Nat} {cs vs : List F64} (x : F64)
    (hl : vs.length = cs.length) (hi : idx < cs.length) (hc : Holds m (.ram coef) cs) (hv : Holds m (.line line) vs) :
    fir m line idx coef cs.length x =
      .ok { y := firValue cs vs idx x, mem := m.write (.line line) idx x, idx := (idx + 1) % cs.length } := by
  have line' := write_holds hv (hl ▸ hi) x
  refine fir_eq_ok.mpr ⟨firValue cs vs idx x, foldlM_eq_foldl (fun acc k hk => ?_) _, rfl⟩
  have hk : k < cs.length := List.mem_range.mp hk
  have hj : (idx + cs.length - k) % cs.length < (vs.set idx x).length := by
    rw [List.length_set, hl]
    exact Nat.mod_lt _ (Nat.zero_lt_of_lt hk)
  have readC : (m.write (.line line) idx x).read (.ram coef) k = .ok (nth cs k) := by
    rw [Memory.read_eq_ok, Memory.word_write, if_neg (by simp), hc k hk, List.getElem?_eq_getElem hk,
      nth_eq (List.getElem?_eq_getElem hk)]
  have readV : (m.write (.line line) idx x).read (.line line) ((idx + cs.length - k) % cs.length) =
      .ok (nth (vs.set idx x) ((idx + cs.length - k) % cs.length)) := by
    rw [Memory.read_eq_ok, line' _ hj, List.getElem?_eq_getElem hj, nth_eq (List.getElem?_eq_getElem hj)]
  rw [readC, readV]
  rfl

/-- FIR that answers has read every coefficient (R62, R163). -/
theorem fir_coef_written {m : Memory} {line : Line} {coef : RamId} {idx len : Nat} {x : F64} {r : Filtered}
    (h : fir m line idx coef len x = .ok r) {k : Nat} (hk : k < len) : m.word (.ram coef) k ≠ none := by
  obtain ⟨y, hy, -⟩ := fir_eq_ok.mp h
  obtain ⟨c, c', hstep⟩ := foldlM_step_isOk hy (List.mem_range.mpr hk)
  obtain ⟨w, hw, -⟩ := Run.bind_eq_ok.mp hstep
  rw [Memory.read_eq_ok, Memory.word_write, if_neg (by simp)] at hw
  simp [hw]

/-- Settles O28. -/
theorem firConvolution : Obligations.FirConvolution := by
  refine ⟨fun m line coef idx cs vs x hl hi hc hv => ?sum, fun m line coef idx len k x hk hw => ?unwritten⟩
  case sum =>
    refine ⟨_, fir_eq_firValue x hl hi hc hv, rfl, rfl, write_holds hv (hl ▸ hi) x, fun b i hb => ?_⟩
    rw [Memory.word_write, if_neg hb]
  case unwritten =>
    cases hr : fir m line idx coef len x with
    | ok r => exact absurd hw (fir_coef_written hr hk)
    | error f => rw [fir_onlyUnwritten _ _ _ _ _ _ f hr]

/-- FIR answers on written coefficients and a written delay line. -/
theorem fir_isOk {m : Memory} {line : Line} {coef : RamId} {idx len : Nat} (x : F64) (hi : idx < len)
    (hc : Written m (.ram coef) len) (hv : Written m (.line line) len) : ∃ r, fir m line idx coef len x = .ok r := by
  obtain ⟨cs, hlen, hcs⟩ := Written.holds hc
  obtain ⟨vs, hlen', hvs⟩ := Written.holds hv
  subst hlen
  exact ⟨_, fir_eq_firValue x hlen' hi hcs hvs⟩

end Sys2Proof.Machine
end

section
/-! PROOFS. Every command completes where the words it reads are written: ReadyCompletes. -/

namespace Sys2Proof.Machine

open Safety

/-- Both reads of a sine table at an index below its size answer, the cosine a quarter further on (R160, R161). -/
theorem qsin_word {m : Memory} {r : RamId} {t i : Nat} (h : Holds m (.ram r) (qsin t)) (hm : t % 4 = 0) (hi : i < t) :
    (∃ w, m.word (.ram r) (i + t / 4) = some w) ∧ ∃ w, m.word (.ram r) i = some w := by
  have table := Written.of_holds h
  rw [qsin_length] at table
  exact ⟨Written.word table (by omega), Written.word table (by omega)⟩

/-! ## The CL and ELG units -/

theorem vco_isOk {s : State} (hs : ClGood s) (hp : s.par.maxTab ≤ 9007199254740992) : ∃ r, vco s = .ok r := by
  obtain ⟨check, phase, -, -, -, -, table, -⟩ := hs
  obtain ⟨⟨t4, tmax, tmod⟩, -⟩ := clCheck_eq_none.mp check
  obtain ⟨⟨vI, hI⟩, ⟨vQ, hQ⟩⟩ := qsin_word table tmod (floor_lt_of_inTable (by omega) (by omega) phase)
  exact ⟨_, vco_eq_ok.mpr ⟨vI, vQ, hI, hQ, rfl⟩⟩

theorem armFilters_isOk {s : State} (hs : ClGood s) (hc : Written s.mem (.ram .lpfCoef) s.clCfg.lpfLen.toNat) (mI mQ : F64) :
    ∃ r, armFilters mI mQ s = .ok r := by
  obtain ⟨check, -, lpf1, lpf2, -, -, -, w1, w2, -⟩ := hs
  obtain ⟨-, ⟨⟨-, lpfMax⟩, -⟩, -, -⟩ := clCheck_eq_none.mp check
  obtain ⟨a, ha⟩ := fir_isOk mI lpf1 hc (Written.mono w1 lpfMax)
  have moves : s.mem.Moves [.line .lpf1] a.mem := by
    rw [(fir_moves ha).1]
    exact (Memory.Moves.refl _ _).write (by simp) _ _
  obtain ⟨b, hb⟩ := fir_isOk mQ lpf2 (moves.keepsWritten hc) (Written.mono (moves.keepsWritten w2) lpfMax)
  exact ⟨_, armFilters_eq_ok.mpr ⟨a, b, ha, hb, rfl⟩⟩

theorem matchedFilter_frame {x : F64} {s : State} {r : Staged} (h : matchedFilter x s = .ok r) :
    r.state.clCfg = s.clCfg ∧ r.state.elg.egIdx = s.elg.egIdx ∧ r.state.elg.elfIdx = s.elg.elfIdx
      ∧ s.mem.Moves [.line .mf] r.state.mem := by
  obtain ⟨old, -, rfl⟩ := matchedFilter_eq_ok.mp h
  exact ⟨rfl, rfl, rfl, (Memory.Moves.refl _ _).write (by simp) _ _⟩

theorem earlyLate_frame {x : F64} {s : State} {r : Staged} (h : earlyLate x s = .ok r) :
    r.state.clCfg = s.clCfg ∧ r.state.elg.elfIdx = s.elg.elfIdx ∧ s.mem.Moves [.line .eg] r.state.mem := by
  obtain ⟨e, -, rfl⟩ := earlyLate_eq_ok.mp h
  exact ⟨rfl, rfl, (Memory.Moves.refl _ _).write (by simp) _ _⟩

theorem matchedFilter_isOk {s : State} {n : Nat} (hw : Written s.mem (.line .mf) n) (hi : s.elg.mfIdx < n) (x : F64) :
    ∃ r, matchedFilter x s = .ok r := by
  obtain ⟨old, hold⟩ := Written.word hw hi
  exact ⟨_, matchedFilter_eq_ok.mpr ⟨old, hold, rfl⟩⟩

theorem earlyLate_isOk {s : State} {n : Nat} (hw : Written s.mem (.line .eg) n) (hi : s.elg.egIdx < n) (x : F64) :
    ∃ r, earlyLate x s = .ok r := by
  obtain ⟨e, he⟩ := Written.word hw hi
  exact ⟨_, earlyLate_eq_ok.mpr ⟨e, he, rfl⟩⟩

theorem elgFilter_isOk {s : State} (hi : s.elg.elfIdx < s.clCfg.elgLfLen.toNat)
    (hc : Written s.mem (.ram .elgLfCoef) s.clCfg.elgLfLen.toNat) (hw : Written s.mem (.line .elf) s.clCfg.elgLfLen.toNat)
    (d : F64) : ∃ r, elgFilter d s = .ok r := by
  obtain ⟨a, ha⟩ := fir_isOk d hi hc hw
  exact ⟨_, elgFilter_eq_ok.mpr ⟨a, ha, rfl⟩⟩

theorem elgCore_isOk {s : State} (hs : ClGood s) (hc : Written s.mem (.ram .elgLfCoef) s.clCfg.elgLfLen.toNat) (x : F64) :
    ∃ g, elgCore x s = .ok g := by
  obtain ⟨check, -, -, -, -, ⟨mf, eg, elf, -⟩, -, -, -, -, -, w5, w6, w7⟩ := hs
  obtain ⟨-, ⟨-, ⟨-, lfMax⟩, -, ⟨-, mfMax⟩, ⟨-, egMax⟩, -⟩, -, -⟩ := clCheck_eq_none.mp check
  obtain ⟨m, hm⟩ := matchedFilter_isOk (s := { s with elg := { s.elg with samples := satInc s.elg.samples } }) w5
    (Nat.lt_of_lt_of_le mf mfMax) x
  obtain ⟨cfg1, eg1, elf1, moves1⟩ := matchedFilter_frame hm
  obtain ⟨d, hd⟩ := earlyLate_isOk (moves1.keepsWritten w6) (eg1.symm ▸ Nat.lt_of_lt_of_le eg egMax) m.y
  obtain ⟨cfg2, elf2, moves2⟩ := earlyLate_frame hd
  have cfg : d.state.clCfg = s.clCfg := cfg2.trans cfg1
  have moved : ∀ {b n}, Written s.mem b n → Written d.state.mem b n := fun hw =>
    moves2.keepsWritten (moves1.keepsWritten hw)
  obtain ⟨f, hf⟩ := elgFilter_isOk (s := d.state) (by rw [cfg, elf2, elf1]; exact elf) (by rw [cfg]; exact moved hc)
    (by rw [cfg]; exact moved (Written.mono w7 lfMax)) d.y
  exact ⟨_, elgCore_eq_ok.mpr ⟨m, d, f, hm, hd, hf, rfl⟩⟩

theorem compDelay_isOk {s : State} (hs : ClGood s) (yI yQ : F64) : ∃ r, compDelay yI yQ s = .ok r := by
  obtain ⟨check, -, -, -, cd, -, -, -, -, w3, w4, -⟩ := hs
  obtain ⟨-, ⟨-, -, -, -, -, comp⟩, -, -⟩ := clCheck_eq_none.mp check
  by_cases h0 : s.clCfg.compDelay.toNat = 0
  · exact ⟨_, compDelay_eq_ok.mpr (.inl ⟨h0, rfl⟩)⟩
  · have running : s.clCfg.compDelay ≠ 0 := fun e => h0 (by rw [e]; rfl)
    rw [if_neg running] at cd
    obtain ⟨oI, hI⟩ := Written.word w3 (Nat.lt_of_lt_of_le cd comp)
    obtain ⟨oQ, hQ⟩ := Written.word w4 (Nat.lt_of_lt_of_le cd comp)
    exact ⟨_, compDelay_eq_ok.mpr (.inr ⟨h0, oI, oQ, hI, hQ, rfl⟩)⟩

/-- CL_STEP: the coefficients stay written from stage to stage, and each stage leaves the invariant for the next. -/
theorem clStepBody_isOk {s : State} (hs : ClGood s) (hp : s.par.maxTab ≤ 9007199254740992)
    (hc : Written s.mem (.ram .lpfCoef) s.clCfg.lpfLen.toNat)
    (hc' : Written s.mem (.ram .elgLfCoef) s.clCfg.elgLfLen.toNat) : ∃ t, clStepBody s = .ok t := by
  obtain ⟨v, hv⟩ := vco_isOk hs hp
  have good1 := vco_good hs hv
  have cfg1 : v.state.clCfg = s.clCfg := by rw [vco_frame hv]
  have mem1 : v.state.mem = s.mem := by rw [vco_frame hv]
  obtain ⟨y, hy⟩ := armFilters_isOk good1 (by rw [mem1, cfg1]; exact hc) (Fp.mul s.in0 v.i) (Fp.mul s.in0 v.q)
  have good2 := armFilters_good good1 hy
  have cfg2 : y.state.clCfg = s.clCfg := by rw [armFilters_frame hy, cfg1]
  have moves2 : s.mem.Moves [.line .lpf1, .line .lpf2] y.state.mem := by
    rw [armFilters_frame hy, mem1]
    exact ((Memory.Moves.refl _ _).write (by simp) _ _).write (by simp) _ _
  obtain ⟨g, hg⟩ := elgCore_isOk good2 (by rw [cfg2]; exact moves2.keepsWritten hc') y.i
  obtain ⟨o, ho⟩ := compDelay_isOk (elgCore_good good2 hg) y.i y.q
  exact ⟨_, clStepBody_eq_ok.mpr ⟨v, y, g, o, hv, hy, hg, ho, rfl⟩⟩

/-! ## The MAP unit -/

theorem rrcPair_isOk {m : Memory} {li lq : Line} {ii iq len : Nat} (hi : ii < len) (hq : iq < len)
    (hc : Written m (.ram .rrcCoef) len) (hli : Written m (.line li) len) (hlq : Written m (.line lq) len) (x : Point) :
    ∃ r, rrcPair m li lq ii iq len x = .ok r := by
  obtain ⟨a, ha⟩ := fir_isOk x.i hi hc hli
  have moves : m.Moves [.line li] a.mem := by
    rw [(fir_moves ha).1]
    exact (Memory.Moves.refl _ _).write (by simp) _ _
  obtain ⟨b, hb⟩ := fir_isOk x.q hq (moves.keepsWritten hc) (moves.keepsWritten hlq)
  exact ⟨_, rrcPair_eq_ok.mpr ⟨a, b, ha, hb, rfl⟩⟩

/-- The RRC coefficients a MAP unit reads are written. -/
abbrev RrcWritten (s : State) : Prop := s.mapCfg.rrcEn = 1 → Written s.mem (.ram .rrcCoef) s.mapCfg.rrcLen.toNat

theorem demapAccumulate_isOk {s : State} (hs : MapGood s) (hc : RrcWritten s) : ∃ a, demapAccumulate s = .ok a := by
  obtain ⟨check, bounded, words⟩ := mapGood_iff.mp hs
  obtain ⟨-, ⟨-, rrc⟩, -, -⟩ := mapCheck_eq_none.mp check
  by_cases h1 : s.mapCfg.rrcEn = 1
  · obtain ⟨-, -, rxi, rxq⟩ := bounded.idx h1
    obtain ⟨-, rrcMax⟩ := rrc h1
    obtain ⟨p, hp⟩ := rrcPair_isOk rxi rxq (hc h1) (Written.mono words.rxi rrcMax) (Written.mono words.rxq rrcMax) ⟨s.in0, s.in1⟩
    exact ⟨_, demapAccumulate_eq_ok.mpr (.inl ⟨h1, p, hp, rfl⟩)⟩
  · exact ⟨_, demapAccumulate_eq_ok.mpr (.inr ⟨h1, rfl⟩)⟩

theorem modShape_isOk {s : State} (hs : MapGood s) (hc : RrcWritten s) (u : Point) (k : Nat) :
    ∃ a, modShape u k s = .ok a := by
  obtain ⟨check, bounded, words⟩ := mapGood_iff.mp hs
  obtain ⟨-, ⟨-, rrc⟩, -, -⟩ := mapCheck_eq_none.mp check
  by_cases h1 : s.mapCfg.rrcEn = 1
  · obtain ⟨txi, txq, -, -⟩ := bounded.idx h1
    obtain ⟨-, rrcMax⟩ := rrc h1
    obtain ⟨p, hp⟩ := rrcPair_isOk txi txq (hc h1) (Written.mono words.txi rrcMax) (Written.mono words.txq rrcMax)
      (if k = 0 then u else ⟨Fp.zero, Fp.zero⟩)
    exact ⟨_, modShape_eq_ok.mpr (.inl ⟨h1, p, hp, rfl⟩)⟩
  · exact ⟨_, modShape_eq_ok.mpr (.inr ⟨h1, rfl⟩)⟩

theorem modSample_isOk {s : State} (hs : MapGood s) (hp : s.par.maxTab ≤ 9007199254740992) (hc : RrcWritten s) (u : Point)
    (k : Nat) : ∃ t, modSample u s k = .ok t := by
  obtain ⟨sh, hsh⟩ := modShape_isOk hs hc u k
  obtain ⟨-, -, moves, -⟩ := modShape_frame hsh
  obtain ⟨check, bounded, words⟩ := mapGood_iff.mp hs
  obtain ⟨⟨t4, tmax, tmod⟩, -⟩ := mapCheck_eq_none.mp check
  obtain ⟨⟨c, hcos⟩, ⟨d, hsin⟩⟩ := qsin_word (moves.keepsHolds (by simp) words.table) tmod
    (floor_lt_of_inTable (by omega) (by omega) bounded.phase)
  exact ⟨_, modSample_eq_ok.mpr ⟨sh, c, d, hsh, hcos, hsin, rfl⟩⟩

theorem modSamples_isOk {s : State} (hs : MapGood s) (hp : s.par.maxTab ≤ 9007199254740992) (hc : RrcWritten s) (u : Point)
    (n : Nat) : ∃ t, modSamples u n s = .ok t := by
  refine foldlM_isOk (fun c => MapGood c ∧ c.par.maxTab ≤ 9007199254740992 ∧ RrcWritten c) ?_ ⟨hs, hp, hc⟩
  rintro c k - ⟨good, bound, coefs⟩
  obtain ⟨c', hc'⟩ := modSample_isOk good bound coefs u k
  obtain ⟨he, -, moves, -⟩ := modSample_frame hc'
  have hcfg : c'.mapCfg = c.mapCfg := by rw [he]
  refine ⟨c', hc', modSample_good good hc', by rw [he]; exact bound, fun h1 => ?_⟩
  rw [hcfg] at h1 ⊢
  exact moves.keepsWritten (coefs h1)

/-! ## The OA unit -/

theorem OaWords.load_fftTw {c : OaConfig} {m : Memory} (h : OaWords c m) : ∃ tw, m.load (.ram .fftTw) 0 c.fftLen.toNat = .ok tw :=
  ⟨_, by simpa using load_of_holds h.fftTw⟩

theorem OaWords.load_bitrev {c : OaConfig} {m : Memory} (h : OaWords c m) :
    ∃ br, m.load (.ram .bitrev) 0 c.fftLen.toNat = .ok br :=
  ⟨_, by simpa using load_of_holds h.bitrev⟩

theorem OaWords.load_win {c : OaConfig} {m : Memory} (h : OaWords c m) : ∃ w, m.load (.ram .win) 0 c.fftLen.toNat = .ok w :=
  ⟨_, by simpa [oaInitWindow] using load_of_holds h.win⟩

theorem OaWords.load_sincLut {c : OaConfig} {m : Memory} (h : OaWords c m) :
    ∃ lut, m.load (.ram .sincLut) 0 c.sincLutlen.toNat = .ok lut :=
  ⟨_, by simpa using load_of_holds h.sincLut⟩

/-- ADVANCE reads the tail of both buffers, inside the frame (R277). -/
theorem oaAdvance_isOk {p : Params} {s : State} (check : oaCheck p s.oaCfg = none) (h : OaWords s.oaCfg s.mem) :
    ∃ t, oaAdvance s = .ok t := by
  obtain ⟨-, ⟨-, overlap, -⟩, -, -⟩ := oaCheck_eq_none.mp check
  obtain ⟨xs, hx⟩ := Memory.load_isOk.mpr fun k (hk : k < s.oaCfg.overlap.toNat) =>
    h.frameBuf (s.oaCfg.sampleLen.toNat - s.oaCfg.overlap.toNat + k) (by omega)
  obtain ⟨vs, hv⟩ := Memory.load_isOk.mpr fun k (hk : k < s.oaCfg.overlap.toNat) =>
    h.speedBuf (s.oaCfg.sampleLen.toNat - s.oaCfg.overlap.toNat + k) (by omega)
  exact ⟨_, oaAdvance_eq_ok.mpr ⟨xs, vs, hx, hv, rfl⟩⟩

theorem oaResample_isOk {s : State} (h : OaWords s.oaCfg s.mem) (rho : F64) : ∃ t, oaResample rho s = .ok t := by
  obtain ⟨frame, hframe⟩ := Written.load h.frameBuf
  obtain ⟨lut, hlut⟩ := h.load_sincLut
  exact ⟨_, oaResample_eq_ok.mpr ⟨frame, lut, hframe, hlut, rfl⟩⟩

/-- RESAMPLE writes the work RAMs over the whole FFT length (R280). -/
theorem oaResample_written {rho : F64} {s t : State} (h : oaResample rho s = .ok t) :
    Written t.mem (.ram .rsRe) s.oaCfg.fftLen.toNat ∧ Written t.mem (.ram .rsIm) s.oaCfg.fftLen.toNat := by
  obtain ⟨frame, lut, -, -, rfl⟩ := oaResample_eq_ok.mp h
  constructor
  · have moves := (Memory.Moves.refl [.ram .rsIm] (s.mem.storeAt (.ram .rsRe) 0
      (resample frame lut s.oa.phaseGain s.oaCfg.sincNa.toNat s.oaCfg.fftLen.toNat rho s.freeNext))).storeAt
        (b := .ram .rsIm) (by simp) 0 (List.replicate s.oaCfg.fftLen.toNat Fp.zero)
    exact moves.keepsWritten (by simpa using storeAt_written s.mem (.ram .rsRe) (resample frame lut _ _ _ rho _))
  · simpa using storeAt_written (s.mem.storeAt (.ram .rsRe) 0 _) (.ram .rsIm) (List.replicate s.oaCfg.fftLen.toNat Fp.zero)

theorem oaWindow_isOk {s : State} (h : OaWords s.oaCfg s.mem) (hre : Written s.mem (.ram .rsRe) s.oaCfg.fftLen.toNat) :
    ∃ t, oaWindow s = .ok t := by
  obtain ⟨xs, hx⟩ := Written.load hre
  obtain ⟨w, hw⟩ := h.load_win
  exact ⟨_, oaWindow_eq_ok.mpr ⟨xs, w, hx, hw, rfl⟩⟩

theorem fftRun_isOk {s : State} (h : OaWords s.oaCfg s.mem) (hre : Written s.mem (.ram .rsRe) s.oaCfg.fftLen.toNat)
    (him : Written s.mem (.ram .rsIm) s.oaCfg.fftLen.toNat) : ∃ t, fftRun s = .ok t := by
  obtain ⟨re, h1⟩ := Written.load hre
  obtain ⟨im, h2⟩ := Written.load him
  obtain ⟨tw, h3⟩ := h.load_fftTw
  obtain ⟨br, h4⟩ := h.load_bitrev
  exact ⟨_, fftRun_eq_ok.mpr ⟨re, im, tw, br, h1, h2, h3, h4, rfl⟩⟩

theorem halfSpectrum_isOk {s : State} (hre : Written s.mem (.ram .rsRe) s.oaCfg.fftLen.toNat)
    (him : Written s.mem (.ram .rsIm) s.oaCfg.fftLen.toNat) : ∃ v, halfSpectrum s = .ok v := by
  obtain ⟨re, h1⟩ := Written.load hre
  obtain ⟨im, h2⟩ := Written.load him
  exact ⟨_, halfSpectrum_eq_ok.mpr ⟨re, im, h1, h2, rfl⟩⟩

theorem accumulate_isOk {s : State} (h : OaWords s.oaCfg s.mem) (v : Spectrum) : ∃ t, accumulate v s = .ok t := by
  obtain ⟨ar, h1⟩ := Written.load h.avgRe
  obtain ⟨ai, h2⟩ := Written.load h.avgIm
  by_cases h0 : s.oaCfg.avgMode = 0
  · exact ⟨_, accumulate_eq_ok.mpr ⟨ar, h1, .inl ⟨h0, ai, h2, rfl⟩⟩⟩
  · exact ⟨_, accumulate_eq_ok.mpr ⟨ar, h1, .inr ⟨h0, rfl⟩⟩⟩

/-- What the stages of OA_FRAME after RESAMPLE read, under the latched configuration `c`. -/
structure FrameReadable (c : OaConfig) (s : State) : Prop where
  cfg : s.oaCfg = c
  words : OaWords c s.mem
  re : Written s.mem (.ram .rsRe) c.fftLen.toNat
  im : Written s.mem (.ram .rsIm) c.fftLen.toNat

theorem FrameReadable.moves {c : OaConfig} {s t : State} {bs : List Bank} (h : FrameReadable c s) (hcfg : t.oaCfg = s.oaCfg)
    (moves : s.mem.Moves bs t.mem) (hb : ∀ b ∈ oaTables, b ∉ bs) : FrameReadable c t :=
  ⟨hcfg.trans h.cfg, h.words.moves moves hb, moves.keepsWritten h.re, moves.keepsWritten h.im⟩

theorem frameProcess_isOk {s : State} (h : OaWords s.oaCfg s.mem) (rho : F64) : ∃ t, frameProcess rho s = .ok t := by
  obtain ⟨s1, h1⟩ := oaResample_isOk h rho
  obtain ⟨e1, m1⟩ := oaResample_frame h1
  obtain ⟨re, im⟩ := oaResample_written h1
  have r1 : FrameReadable s.oaCfg s1 := ⟨by rw [e1], h.moves m1 (by decide), re, im⟩
  obtain ⟨s2, h2⟩ := oaWindow_isOk (s := s1) (by rw [r1.cfg]; exact r1.words) (by rw [r1.cfg]; exact r1.re)
  obtain ⟨e2, m2⟩ := oaWindow_frame h2
  have r2 := r1.moves (t := s2) (by rw [e2]) m2 (by decide)
  obtain ⟨s3, h3⟩ := fftRun_isOk (s := s2) (by rw [r2.cfg]; exact r2.words) (by rw [r2.cfg]; exact r2.re)
    (by rw [r2.cfg]; exact r2.im)
  obtain ⟨e3, m3⟩ := fftRun_frame h3
  have r3 := r2.moves (t := s3) (by rw [e3]) m3 (by decide)
  obtain ⟨v, hv⟩ := halfSpectrum_isOk (s := s3) (by rw [r3.cfg]; exact r3.re) (by rw [r3.cfg]; exact r3.im)
  obtain ⟨s4, h4⟩ := accumulate_isOk (s := s3) (by rw [r3.cfg]; exact r3.words) v
  exact ⟨_, frameProcess_eq_ok.mpr ⟨s1, s2, s3, v, s4, h1, h2, h3, hv, h4, rfl⟩⟩

/-- OA_FRAME on a ready frame: consumed with a bad speed, processed and consumed with a good one (R286). -/
theorem oaFrameBody_isOk {s : State} (hs : OaGood s) : ∃ t, oaFrameBody s = .ok t := by
  obtain ⟨check, -, words⟩ := oaGood_iff.mp hs
  obtain ⟨-, ⟨⟨sample, -⟩, -⟩, -, -⟩ := oaCheck_eq_none.mp check
  obtain ⟨speed, hspeed⟩ := Written.word words.speedBuf sample
  unfold oaFrameBody
  rw [Memory.read_eq_ok.mpr hspeed]
  dsimp only [bind, Except.bind]
  split
  · obtain ⟨t, ht⟩ := oaAdvance_isOk check words
    exact ⟨_, Run.bind_eq_ok.mpr ⟨t, ht, rfl⟩⟩
  · rename_i rho _
    obtain ⟨t, ht⟩ := frameProcess_isOk words rho
    obtain ⟨he, moves⟩ := frameProcess_frame ht
    have hcfg : t.oaCfg = s.oaCfg := by rw [he]
    obtain ⟨u, hu⟩ := oaAdvance_isOk (s := t) (hcfg.symm ▸ check) (hcfg.symm ▸ words.moves moves (by decide))
    exact ⟨_, Run.bind_eq_ok.mpr ⟨t, ht, Run.bind_eq_ok.mpr ⟨u, hu, rfl⟩⟩⟩

theorem oaFinalBody_isOk {s : State} (h : OaWords s.oaCfg s.mem) : ∃ t, oaFinalBody s = .ok t := by
  obtain ⟨ar, h1⟩ := Written.load h.avgRe
  obtain ⟨ai, h2⟩ := Written.load h.avgIm
  exact ⟨_, Run.bind_eq_ok.mpr ⟨ar, h1, Run.bind_eq_ok.mpr ⟨ai, h2, rfl⟩⟩⟩

theorem wingenBody_isOk {s : State} (h : OaWords s.oaCfg s.mem) : ∃ t, wingenBody s = .ok t := by
  obtain ⟨tw, htw⟩ := h.load_fftTw
  unfold wingenBody
  dsimp only
  rw [htw]
  dsimp only [bind, Except.bind]
  split <;> exact ⟨_, rfl⟩

/-! ## Every command -/

/-- A rule that raises an error where its unit is not ready answers where its operation does on a ready one. -/
theorem ite_isOk {α : Type} {b : Bool} {x y : Run α} (hx : b = true → ∃ r, x = .ok r) (hy : ∃ r, y = .ok r) :
    ∃ r, (if b = true then x else y) = .ok r := by
  split
  · rename_i h
    exact hx h
  · exact hy

/-- Settles O57: command by command, the words a ready unit reads are written by its INIT or by the host. -/
theorem readyCompletes : Obligations.ReadyCompletes := by
  rintro i s ⟨-, -, cl, map, oa⟩ hp lpf elgLf rrc work
  suffices answers : ∃ u, ruleOf i s = .ok u by
    obtain ⟨u, hu⟩ := answers
    exact ⟨_, exec_eq_next.mpr ⟨u, hu, rfl⟩⟩
  have words := fun ready => (oaGood_iff.mp (oa ready)).2.2
  cases i with
  | nop | clInit | mapInit | mapEnc | mapDec | oaInit | oaPush | oaFlush | clrErr | softReset => exact ⟨_, rfl⟩
  | clStep =>
    exact ite_isOk (fun ready => clStepBody_isOk (cl ready) hp (lpf rfl ready) (elgLf (.inl rfl) ready)) ⟨_, rfl⟩
  | elgStep =>
    refine ite_isOk (fun ready => ?_) ⟨_, rfl⟩
    obtain ⟨g, hg⟩ := elgCore_isOk (cl ready) (elgLf (.inr rfl) ready) s.in0
    exact ⟨_, Run.bind_eq_ok.mpr ⟨g, hg, rfl⟩⟩
  | demapAcc =>
    refine ite_isOk (fun ready => ?_) ⟨_, rfl⟩
    obtain ⟨a, ha⟩ := demapAccumulate_isOk (map ready) (rrc (.inl rfl) ready)
    exact ⟨_, Run.bind_eq_ok.mpr ⟨a, ha, rfl⟩⟩
  | modSym =>
    refine ite_isOk (fun ready => ?_) ⟨_, rfl⟩
    obtain ⟨t, ht⟩ := modSamples_isOk (encodeSymbol_good (map ready) s.din0) hp (rrc (.inr rfl) ready)
      (encodeSymbol s.din0 s).pt s.mapCfg.sps.toNat
    exact ⟨_, Run.bind_eq_ok.mpr ⟨t, ht, rfl⟩⟩
  | oaFrame => exact ite_isOk (fun ready => ite_isOk (fun _ => oaFrameBody_isOk (oa ready)) ⟨_, rfl⟩) ⟨_, rfl⟩
  | oaFinal =>
    refine ite_isOk (fun ready => ?_) ⟨_, rfl⟩
    split
    · exact ⟨_, rfl⟩
    · exact oaFinalBody_isOk (words ready)
  | fft => exact ite_isOk (fun ready => fftRun_isOk (words ready) (work rfl ready).1 (work rfl ready).2) ⟨_, rfl⟩
  | wingen =>
    refine ite_isOk (fun ready => ?_) ⟨_, rfl⟩
    split
    · exact ⟨_, rfl⟩
    · exact ite_isOk (fun _ => wingenBody_isOk (words ready)) ⟨_, rfl⟩
  | sincRs => exact ite_isOk (fun ready => ite_isOk (fun _ => ⟨_, rfl⟩) (oaResample_isOk (words ready) s.in0)) ⟨_, rfl⟩

end Sys2Proof.Machine
end

section
/-! PROOFS. The commands but the INITs, WINGEN and SOFT_RESET read latched configuration only: LatchedOnly. -/

namespace Sys2Proof.Machine

/-- The state with other values in the configuration registers. -/
def State.withRegs (a : ClConfig) (b : MapConfig) (c : OaConfig) (s : State) : State :=
  { s with clReg := a, mapReg := b, oaReg := c }

section Registers
variable (a : ClConfig) (b : MapConfig) (c : OaConfig)

/-! ## Updates and combinators -/

theorem raise_withRegs (e : ErrCode) (s : State) : (s.withRegs a b c).raise e = (s.raise e).withRegs a b c := by
  rw [State.raise_eq, State.raise_eq]
  rfl

theorem raise_ok_withRegs {e : ErrCode} {s u : State} (h : (.ok (s.raise e) : Run State) = .ok u) :
    (.ok ((s.withRegs a b c).raise e) : Run State) = .ok (u.withRegs a b c) := by
  rw [raise_withRegs, Except.ok.inj h]

/-- A test made on both sides alike: each branch of the one answers as that of the other. -/
theorem ite_ok_imp {α β : Type} {p : Prop} [Decidable p] {x y : Run α} {x' y' : Run β} {u : α} {u' : β}
    (h : (if p then x else y) = .ok u) (hx : x = .ok u → x' = .ok u') (hy : y = .ok u → y' = .ok u') :
    (if p then x' else y') = .ok u' := by
  split at h
  · rename_i hp
    rw [if_pos hp]
    exact hx h
  · rename_i hp
    rw [if_neg hp]
    exact hy h

/-- A fold follows a map that each of its steps follows. -/
theorem foldlM_follows {α β : Type} {f : β → α → Run β} {g : β → β} (hf : ∀ s k t, f s k = .ok t → f (g s) k = .ok (g t))
    {xs : List α} {s t : β} (h : xs.foldlM f s = .ok t) : xs.foldlM f (g s) = .ok (g t) := by
  induction xs generalizing s with
  | nil =>
    obtain rfl := Except.ok.inj h
    rfl
  | cons k xs ih =>
    rw [List.foldlM_cons] at h ⊢
    obtain ⟨s', hs, h⟩ := Run.bind_eq_ok.mp h
    rw [hf s k s' hs]
    exact ih h

/-! ## The CL and ELG units -/

theorem vco_withRegs {s : State} {r : Rails} (h : vco s = .ok r) :
    vco (s.withRegs a b c) = .ok { r with state := r.state.withRegs a b c } := by
  obtain ⟨vI, vQ, hI, hQ, rfl⟩ := vco_eq_ok.mp h
  refine vco_eq_ok.mpr ⟨vI, vQ, hI, hQ, ?_⟩
  simp only [State.wrapGuard_eq]
  rfl

theorem armFilters_withRegs {mI mQ : F64} {s : State} {r : Rails} (h : armFilters mI mQ s = .ok r) :
    armFilters mI mQ (s.withRegs a b c) = .ok { r with state := r.state.withRegs a b c } := by
  obtain ⟨x, y, hx, hy, rfl⟩ := armFilters_eq_ok.mp h
  exact armFilters_eq_ok.mpr ⟨x, y, hx, hy, rfl⟩

theorem elgCore_withRegs {x : F64} {s : State} {g : ElgOut} (h : elgCore x s = .ok g) :
    elgCore x (s.withRegs a b c) = .ok { g with state := g.state.withRegs a b c } := by
  obtain ⟨m, d, f, hm, hd, hf, rfl⟩ := elgCore_eq_ok.mp h
  obtain ⟨old, hold, rfl⟩ := matchedFilter_eq_ok.mp hm
  obtain ⟨e, he, rfl⟩ := earlyLate_eq_ok.mp hd
  obtain ⟨y, hy, rfl⟩ := elgFilter_eq_ok.mp hf
  refine elgCore_eq_ok.mpr ⟨_, _, _, matchedFilter_eq_ok.mpr ⟨old, hold, rfl⟩, earlyLate_eq_ok.mpr ⟨e, he, rfl⟩,
    elgFilter_eq_ok.mpr ⟨y, hy, rfl⟩, ?_⟩
  simp only [State.elgEvents_eq]
  rfl

theorem compDelay_withRegs {yI yQ : F64} {s : State} {r : Rails} (h : compDelay yI yQ s = .ok r) :
    compDelay yI yQ (s.withRegs a b c) = .ok { r with state := r.state.withRegs a b c } := by
  rcases compDelay_eq_ok.mp h with ⟨h0, rfl⟩ | ⟨h0, oI, oQ, hI, hQ, rfl⟩
  · exact compDelay_eq_ok.mpr (.inl ⟨h0, rfl⟩)
  · exact compDelay_eq_ok.mpr (.inr ⟨h0, oI, oQ, hI, hQ, rfl⟩)

theorem clStepBody_withRegs {s t : State} (h : clStepBody s = .ok t) :
    clStepBody (s.withRegs a b c) = .ok (t.withRegs a b c) := by
  obtain ⟨v, y, g, o, hv, hy, hg, ho, rfl⟩ := clStepBody_eq_ok.mp h
  refine clStepBody_eq_ok.mpr ⟨_, _, _, _, vco_withRegs a b c hv, armFilters_withRegs a b c hy, elgCore_withRegs a b c hg,
    compDelay_withRegs a b c ho, ?_⟩
  simp only [State.clResults_eq]
  rfl

/-! ## The MAP unit -/

theorem mapEncRule_withRegs (s : State) : mapEncRule (s.withRegs a b c) = (mapEncRule s).withRegs a b c := by
  unfold mapEncRule
  rw [apply_ite (State.withRegs a b c), ← raise_withRegs]
  rfl

theorem mapDecRule_withRegs (s : State) : mapDecRule (s.withRegs a b c) = (mapDecRule s).withRegs a b c := by
  unfold mapDecRule
  rw [apply_ite (State.withRegs a b c), ← raise_withRegs]
  rfl

theorem demapAccumulate_withRegs {s : State} {r : Pointed} (h : demapAccumulate s = .ok r) :
    demapAccumulate (s.withRegs a b c) = .ok { r with state := r.state.withRegs a b c } := by
  rcases demapAccumulate_eq_ok.mp h with ⟨h1, p, hp, rfl⟩ | ⟨h1, rfl⟩
  · exact demapAccumulate_eq_ok.mpr (.inl ⟨h1, p, hp, rfl⟩)
  · exact demapAccumulate_eq_ok.mpr (.inr ⟨h1, rfl⟩)

theorem demapDecide_withRegs (pt : Point) (s : State) :
    demapDecide pt (s.withRegs a b c) = (demapDecide pt s).withRegs a b c := by
  unfold demapDecide demapBoundary
  dsimp only
  by_cases h : s.mapCfg.rrcEn = 1
  · rw [if_pos h, if_pos (show (s.withRegs a b c).mapCfg.rrcEn = 1 from h)]
    rfl
  · rw [if_neg h, if_neg (show ¬ (s.withRegs a b c).mapCfg.rrcEn = 1 from h)]
    rfl

theorem demapTick_withRegs (r : Pointed) :
    demapTick { r with state := r.state.withRegs a b c } = (demapTick r).withRegs a b c := by
  unfold demapTick
  dsimp only
  rw [apply_ite (State.withRegs a b c), ← demapDecide_withRegs]
  rfl

theorem modShape_withRegs {u : Point} {k : Nat} {s : State} {r : Pointed} (h : modShape u k s = .ok r) :
    modShape u k (s.withRegs a b c) = .ok { r with state := r.state.withRegs a b c } := by
  rcases modShape_eq_ok.mp h with ⟨h1, p, hp, rfl⟩ | ⟨h1, rfl⟩
  · exact modShape_eq_ok.mpr (.inl ⟨h1, p, hp, rfl⟩)
  · exact modShape_eq_ok.mpr (.inr ⟨h1, rfl⟩)

theorem modSample_withRegs {u : Point} {s t : State} {k : Nat} (h : modSample u s k = .ok t) :
    modSample u (s.withRegs a b c) k = .ok (t.withRegs a b c) := by
  obtain ⟨sh, x, y, hs, hx, hy, rfl⟩ := modSample_eq_ok.mp h
  refine modSample_eq_ok.mpr ⟨_, x, y, modShape_withRegs a b c hs, hx, hy, ?_⟩
  simp only [State.wrapGuard_eq]
  rfl

theorem modSamples_withRegs {u : Point} {n : Nat} {s t : State} (h : modSamples u n s = .ok t) :
    modSamples u n (s.withRegs a b c) = .ok (t.withRegs a b c) :=
  foldlM_follows (g := State.withRegs a b c) (fun _ _ _ h => modSample_withRegs a b c h) h

/-! ## The OA unit -/

theorem oaAppend_withRegs (s : State) : oaAppend (s.withRegs a b c) = (oaAppend s).withRegs a b c := by
  unfold oaAppend
  dsimp only
  rw [apply_ite (State.withRegs a b c)]
  rfl

theorem oaPushRule_withRegs (s : State) : oaPushRule (s.withRegs a b c) = (oaPushRule s).withRegs a b c := by
  unfold oaPushRule
  rw [apply_ite (State.withRegs a b c), apply_ite (State.withRegs a b c), ← raise_withRegs, ← raise_withRegs,
    ← oaAppend_withRegs]
  rfl

theorem oaFlushRule_withRegs (s : State) : oaFlushRule (s.withRegs a b c) = (oaFlushRule s).withRegs a b c := by
  unfold oaFlushRule
  rw [apply_ite (State.withRegs a b c), apply_ite (State.withRegs a b c), ← raise_withRegs]
  rfl

theorem oaAdvance_withRegs {s t : State} (h : oaAdvance s = .ok t) :
    oaAdvance (s.withRegs a b c) = .ok (t.withRegs a b c) := by
  obtain ⟨x, y, hx, hy, rfl⟩ := oaAdvance_eq_ok.mp h
  exact oaAdvance_eq_ok.mpr ⟨x, y, hx, hy, rfl⟩

theorem oaResample_withRegs {rho : F64} {s t : State} (h : oaResample rho s = .ok t) :
    oaResample rho (s.withRegs a b c) = .ok (t.withRegs a b c) := by
  obtain ⟨x, y, hx, hy, rfl⟩ := oaResample_eq_ok.mp h
  exact oaResample_eq_ok.mpr ⟨x, y, hx, hy, rfl⟩

theorem oaWindow_withRegs {s t : State} (h : oaWindow s = .ok t) :
    oaWindow (s.withRegs a b c) = .ok (t.withRegs a b c) := by
  obtain ⟨x, y, hx, hy, rfl⟩ := oaWindow_eq_ok.mp h
  exact oaWindow_eq_ok.mpr ⟨x, y, hx, hy, rfl⟩

theorem fftRun_withRegs {s t : State} (h : fftRun s = .ok t) : fftRun (s.withRegs a b c) = .ok (t.withRegs a b c) := by
  obtain ⟨x, y, z, w, hx, hy, hz, hw, rfl⟩ := fftRun_eq_ok.mp h
  exact fftRun_eq_ok.mpr ⟨x, y, z, w, hx, hy, hz, hw, rfl⟩

theorem accumulate_withRegs {v : Spectrum} {s t : State} (h : accumulate v s = .ok t) :
    accumulate v (s.withRegs a b c) = .ok (t.withRegs a b c) := by
  obtain ⟨x, hx, ⟨h0, y, hy, rfl⟩ | ⟨h0, rfl⟩⟩ := accumulate_eq_ok.mp h
  · exact accumulate_eq_ok.mpr ⟨x, hx, .inl ⟨h0, y, hy, rfl⟩⟩
  · exact accumulate_eq_ok.mpr ⟨x, hx, .inr ⟨h0, rfl⟩⟩

theorem frameProcess_withRegs {rho : F64} {s t : State} (h : frameProcess rho s = .ok t) :
    frameProcess rho (s.withRegs a b c) = .ok (t.withRegs a b c) := by
  obtain ⟨s1, s2, s3, v, s4, h1, h2, h3, hv, h4, rfl⟩ := frameProcess_eq_ok.mp h
  exact frameProcess_eq_ok.mpr ⟨_, _, _, v, _, oaResample_withRegs a b c h1, oaWindow_withRegs a b c h2,
    fftRun_withRegs a b c h3, hv, accumulate_withRegs a b c h4, rfl⟩

theorem oaFrameBody_withRegs {s t : State} (h : oaFrameBody s = .ok t) :
    oaFrameBody (s.withRegs a b c) = .ok (t.withRegs a b c) := by
  unfold oaFrameBody at h ⊢
  obtain ⟨speed, hspeed, h⟩ := Run.bind_eq_ok.mp h
  refine Run.bind_eq_ok.mpr ⟨speed, hspeed, ?_⟩
  rw [show (s.withRegs a b c).oaCfg = s.oaCfg from rfl]
  cases hr : ratio s.oaCfg.fof speed with
  | none =>
    rw [hr] at h
    obtain ⟨u, hu, h⟩ := Run.bind_eq_ok.mp h
    exact Run.bind_eq_ok.mpr ⟨_, oaAdvance_withRegs a b c hu, raise_ok_withRegs a b c h⟩
  | some rho =>
    rw [hr] at h
    obtain ⟨u, hu, h⟩ := Run.bind_eq_ok.mp h
    obtain ⟨w, hw, h⟩ := Run.bind_eq_ok.mp h
    obtain rfl := Except.ok.inj h
    exact Run.bind_eq_ok.mpr ⟨_, frameProcess_withRegs a b c hu, Run.bind_eq_ok.mpr ⟨_, oaAdvance_withRegs a b c hw, rfl⟩⟩

theorem oaFinalBody_withRegs {s t : State} (h : oaFinalBody s = .ok t) :
    oaFinalBody (s.withRegs a b c) = .ok (t.withRegs a b c) := by
  obtain ⟨x, hx, h⟩ := Run.bind_eq_ok.mp h
  obtain ⟨y, hy, h⟩ := Run.bind_eq_ok.mp h
  obtain rfl := Except.ok.inj h
  exact Run.bind_eq_ok.mpr ⟨x, hx, Run.bind_eq_ok.mpr ⟨y, hy, rfl⟩⟩

/-! ## Every command -/

/-- The answer of a rule follows the configuration registers and depends on them in nothing else (R52, R387). -/
theorem ruleOf_withRegs {i : Instr} (hi : i ∉ [Instr.clInit, .mapInit, .oaInit, .wingen, .softReset]) {s u : State}
    (h : ruleOf i s = .ok u) : ruleOf i (s.withRegs a b c) = .ok (u.withRegs a b c) := by
  have raised := fun {e} {u} (h : (.ok (s.raise e) : Run State) = .ok u) => raise_ok_withRegs a b c h
  cases i with
  | clInit | mapInit | oaInit | wingen | softReset => simp at hi
  | nop | clrErr =>
    obtain rfl := Except.ok.inj h
    rfl
  | clStep => exact ite_ok_imp h (clStepBody_withRegs a b c) raised
  | elgStep =>
    refine ite_ok_imp h (fun h => ?_) raised
    obtain ⟨g, hg, h⟩ := Run.bind_eq_ok.mp h
    obtain rfl := Except.ok.inj h
    exact Run.bind_eq_ok.mpr ⟨_, elgCore_withRegs a b c hg, rfl⟩
  | mapEnc =>
    obtain rfl := Except.ok.inj h
    exact congrArg _ (mapEncRule_withRegs a b c s)
  | mapDec =>
    obtain rfl := Except.ok.inj h
    exact congrArg _ (mapDecRule_withRegs a b c s)
  | demapAcc =>
    refine ite_ok_imp h (fun h => ?_) raised
    obtain ⟨r, hr, h⟩ := Run.bind_eq_ok.mp h
    obtain rfl := Except.ok.inj h
    exact Run.bind_eq_ok.mpr ⟨_, demapAccumulate_withRegs a b c hr, congrArg _ (demapTick_withRegs a b c r)⟩
  | modSym =>
    refine ite_ok_imp h (fun h => ?_) raised
    obtain ⟨t, ht, h⟩ := Run.bind_eq_ok.mp h
    obtain rfl := Except.ok.inj h
    exact Run.bind_eq_ok.mpr ⟨_, modSamples_withRegs a b c ht, rfl⟩
  | oaPush =>
    obtain rfl := Except.ok.inj h
    exact congrArg _ (oaPushRule_withRegs a b c s)
  | oaFlush =>
    obtain rfl := Except.ok.inj h
    exact congrArg _ (oaFlushRule_withRegs a b c s)
  | oaFrame => exact ite_ok_imp h (fun h => ite_ok_imp h (oaFrameBody_withRegs a b c) raised) raised
  | oaFinal => exact ite_ok_imp h (fun h => ite_ok_imp h raised (oaFinalBody_withRegs a b c)) raised
  | fft => exact ite_ok_imp h (fftRun_withRegs a b c) raised
  | sincRs => exact ite_ok_imp h (fun h => ite_ok_imp h raised (oaResample_withRegs a b c)) raised

theorem exec_withRegs {i : Instr} (hi : i ∉ [Instr.clInit, .mapInit, .oaInit, .wingen, .softReset]) {s t : State}
    (h : exec i s = .next t) : exec i (s.withRegs a b c) = .next (t.withRegs a b c) := by
  obtain ⟨u, hu, rfl⟩ := exec_eq_next.mp h
  exact exec_eq_next.mpr ⟨_, ruleOf_withRegs a b c hi hu, rfl⟩

end Registers

/-- Settles O59: a next state follows the registers by `exec_withRegs`, and so does a fault, since a command that answered with the
registers changed would answer with them changed back. -/
theorem latchedOnly : Obligations.LatchedOnly := by
  intro i s a b c hi
  refine ⟨fun t h => exec_withRegs a b c hi h, fun f h => ?_⟩
  obtain rfl := exec_fault h
  refine exec_unwritten fun u hu => ?_
  have back := exec_withRegs s.clReg s.mapReg s.oaReg hi (exec_eq_next.mpr ⟨u, hu, rfl⟩)
  have answered : exec i s = .next (u.complete.withRegs s.clReg s.mapReg s.oaReg) := back
  rw [h] at answered
  cases answered

end Sys2Proof.Machine
end

section
/-! PROOFS. The registers of the window, STATUS, the interrupt output and the resets: RegisterReads, UnmappedAndReadOnly,
StatusFields, IrqOutput, ResetValues, SoftReset. -/

namespace Sys2Proof

/-! ## The offsets of the window -/

/-- The window read off the offsets (R101): five runs of registers, one every 8 bytes. -/
theorem Reg.offsets_eq :
    Reg.all.map Reg.offset =
      (List.range' 0 14 ++ (List.range' 16 15 ++ (List.range' 32 13 ++ (List.range' 64 8 ++ List.range' 96 18)))).map
        fun k => BitVec.ofNat 12 (8 * k) := by decide

theorem Reg.mem_all (r : Reg) : r ∈ Reg.all := by
  cases r with
  | obs r => cases r <;> decide
  | cl r => cases r <;> decide
  | map r => cases r <;> decide
  | oa r => cases r <;> decide
  | _ => decide

theorem Reg.ofOffset_eq_none {o : BitVec 12} : Reg.ofOffset o = none ↔ o ∉ Reg.all.map Reg.offset := by
  unfold Reg.ofOffset
  simp

/-- No two registers share an offset (R101). -/
theorem Reg.ofOffset_offset (r : Reg) : Reg.ofOffset r.offset = some r := by
  cases r with
  | obs r => cases r <;> decide
  | cl r => cases r <;> decide
  | map r => cases r <;> decide
  | oa r => cases r <;> decide
  | _ => decide

/-- The unmapped offsets among the aligned ones (R43). -/
theorem Reg.ofOffset_eq_none_iff {o : BitVec 12} (ho : o.toNat % 8 = 0) :
    Reg.ofOffset o = none ↔
      o = 0x070#12 ∨ o = 0x078#12 ∨ o = 0x0F8#12 ∨ (0x168 ≤ o.toNat ∧ o.toNat ≤ 0x1F8)
        ∨ (0x240 ≤ o.toNat ∧ o.toNat ≤ 0x2F8) ∨ (0x390 ≤ o.toNat ∧ o.toNat ≤ 0xFF8) := by
  have bound := o.isLt
  have mapped : o ∈ Reg.all.map Reg.offset ↔
      o.toNat < 0x070 ∨ (0x080 ≤ o.toNat ∧ o.toNat < 0x0F8) ∨ (0x100 ≤ o.toNat ∧ o.toNat < 0x168)
        ∨ (0x200 ≤ o.toNat ∧ o.toNat < 0x240) ∨ (0x300 ≤ o.toNat ∧ o.toNat < 0x390) := by
    rw [Reg.offsets_eq, List.mem_map]
    simp only [List.mem_append, List.mem_range'_1]
    constructor
    · rintro ⟨k, hk, rfl⟩
      rw [BitVec.toNat_ofNat]
      omega
    · intro h
      exact ⟨o.toNat / 8, by omega, BitVec.eq_of_toNat_eq (by rw [BitVec.toNat_ofNat]; omega)⟩
  rw [Reg.ofOffset_eq_none, mapped, ← BitVec.toNat_inj, ← BitVec.toNat_inj, ← BitVec.toNat_inj]
  simp only [BitVec.toNat_ofNat]
  omega

end Sys2Proof

namespace Sys2Proof.Machine

/-! ## Host reads and writes by register -/

/-- A host read of a register but RAM_DATA returns its value (R104). -/
theorem hostRead_offset {r : Reg} (hr : r ≠ .ramData) (s : State) : hostRead r.offset s = .ok (s.record (s.readReg r)) := by
  unfold hostRead
  rw [Reg.ofOffset_offset]
  cases r with
  | ramData => exact absurd rfl hr
  | _ => rfl

/-- A host write of a register but CMD and RAM_DATA, while BUSY = 0 (R104, R106). -/
theorem hostWrite_offset {r : Reg} (hc : r ≠ .cmd) (hr : r ≠ .ramData) {s : State} (hb : s.busy = false) (v : Word) :
    hostWrite r.offset v s = s.writeReg r v := by
  unfold hostWrite
  rw [Reg.ofOffset_offset, hb]
  cases r with
  | cmd => exact absurd rfl hc
  | ramData => exact absurd rfl hr
  | _ => rfl

/-- Settles O11: group by group, each register at its offset. -/
theorem registerReads : Obligations.RegisterReads := by
  intro s
  have plain := fun (r : Reg) (hr : r ≠ .ramData) => hostRead_offset hr s
  have obs := fun r : ObsReg => hostRead_offset (r := .obs r) (by simp) s
  have cl := fun r : ClReg => hostRead_offset (r := .cl r) (by simp) s
  have map := fun r : MapReg => hostRead_offset (r := .map r) (by simp) s
  have oa := fun r : OaReg => hostRead_offset (r := .oa r) (by simp) s
  exact
    ⟨⟨plain .id (by simp), plain .cmd (by simp), plain .status (by simp), plain .irqStatus (by simp), plain .irqEnable (by simp),
        plain .din0 (by simp), plain .din1 (by simp), plain .dout0 (by simp), plain .dout1 (by simp), plain .dout2 (by simp),
        plain .dout3 (by simp), plain .ramSel (by simp), plain .ramAddr (by simp)⟩,
      ⟨obs .clPhase, obs .clFb, obs .clLf, obs .elgTrigCnt, obs .elgGoodCnt, obs .elgSamples, obs .elgTrigLat, obs .mapTxPrev,
        obs .mapRxPrev, obs .modPhase, obs .demapTick, obs .oaFill, obs .oaFrameCount, obs .oaIcg, obs .oaPhaseGain⟩,
      ⟨cl .vcoTsize, cl .carInc, cl .vcoModidx, cl .lpfLen, cl .loopAlpha, cl .fbMode, cl .elgSymlen, cl .elgMfLen, cl .elgDelay,
        cl .elgLfLen, cl .elgThresh, cl .compDelay, cl .acqLimit⟩,
      ⟨map .modMode, map .diffEn, map .sps, map .rrcEn, map .rrcLen, map .qamThresh, map .modTsize, map .modInc⟩,
      oa .sampleLen, oa .overlap, oa .fftLen, oa .sincNa, oa .sincLutlen, oa .winType, oa .winCoef, oa .fof, oa .sampleRate,
      oa .logMode, oa .avgMode, oa .cohType, oa .dbScale, oa .baseOrder, oa .numOrders, oa .orderAdj, oa .numSum, oa .logFloor⟩

/-- Settles O10. -/
theorem unmappedAndReadOnly : Obligations.UnmappedAndReadOnly := by
  refine ⟨fun o ho => Reg.ofOffset_eq_none_iff ho, fun o s ho => ⟨?read, fun hb v => ?write⟩, fun r s v hb hr => ?readOnly⟩
  case read =>
    unfold hostRead
    rw [ho]
  case write =>
    unfold hostWrite
    rw [ho, hb]
    rfl
  case readOnly =>
    have kept : r ≠ .cmd ∧ r ≠ .ramData ∧ s.writeReg r v = s := by
      rcases hr with hr | ⟨x, rfl⟩
      · simp only [List.mem_cons, List.not_mem_nil, or_false] at hr
        rcases hr with rfl | rfl | rfl | rfl | rfl | rfl <;> exact ⟨by simp, by simp, rfl⟩
      · exact ⟨by simp, by simp, rfl⟩
    obtain ⟨hc, hd, same⟩ := kept
    rw [hostWrite_offset hc hd hb, same]

/-! ## STATUS -/

theorem getLsbD_bitAt (b : Bool) {n : Nat} (hn : n < 64) (i : Nat) : (bitAt b n).getLsbD i = (decide (i = n) && b) := by
  unfold bitAt
  cases b
  · simp
  · by_cases h : i = n
    · subst h
      simp [hn]
    · simp [h]
      omega

/-- Bit `i` of STATUS: the field that has it (R33). -/
theorem status_getLsbD (s : State) (i : Nat) :
    s.status.getLsbD i =
      (decide (i = 0) && s.busy || decide (i = 1) && s.err || (decide (i < 64) && !decide (i < 8) && s.errcode.getLsbD (i - 8))
        || decide (i = 16) && s.clReady || decide (i = 17) && s.mapReady || decide (i = 18) && s.oaReady
        || decide (i = 19) && s.symValid || (decide (i < 64) && !decide (i < 20) && s.elg.state.code.getLsbD (i - 20))
        || decide (i = 22) && (s.elg.state == .locked) || decide (i = 23) && s.oa.frameReady || decide (i = 24) && s.numeric) := by
  have code : ∀ j, (s.errcode.setWidth 64).getLsbD j = s.errcode.getLsbD j := fun j => by
    rw [BitVec.getLsbD_setWidth]
    by_cases h : j < 64
    · simp [h]
    · rw [BitVec.getLsbD_of_ge s.errcode j (by omega)]
      simp
  unfold State.status
  simp only [BitVec.getLsbD_or, BitVec.getLsbD_shiftLeft, code, getLsbD_bitAt _ (show 0 < 64 by decide),
    getLsbD_bitAt _ (show 1 < 64 by decide), getLsbD_bitAt _ (show 16 < 64 by decide), getLsbD_bitAt _ (show 17 < 64 by decide),
    getLsbD_bitAt _ (show 18 < 64 by decide), getLsbD_bitAt _ (show 19 < 64 by decide), getLsbD_bitAt _ (show 22 < 64 by decide),
    getLsbD_bitAt _ (show 23 < 64 by decide), getLsbD_bitAt _ (show 24 < 64 by decide)]

/-- ELG_STATE has two bits (R33). -/
theorem code_getLsbD_high (x : ElgState) {j : Nat} (hj : 2 ≤ j) : x.code.getLsbD j = false := by
  have small : x.code.toNat < 2 ^ 2 := by cases x <;> decide
  exact Nat.testBit_lt_two_pow (Nat.lt_of_lt_of_le small (Nat.pow_le_pow_right (by decide) hj))

/-- STATUS outside its fields (R33, R106). -/
theorem status_reserved (s : State) {i : Nat} (hi : (2 ≤ i ∧ i < 8) ∨ 25 ≤ i) : s.status.getLsbD i = false := by
  rw [status_getLsbD]
  have others : i ≠ 0 ∧ i ≠ 1 ∧ i ≠ 16 ∧ i ≠ 17 ∧ i ≠ 18 ∧ i ≠ 19 ∧ i ≠ 22 ∧ i ≠ 23 ∧ i ≠ 24 := by omega
  rcases hi with hi | hi
  · simp [others, hi, show i < 20 by omega]
  · simp [others, BitVec.getLsbD_of_ge s.errcode (i - 8) (by omega), code_getLsbD_high s.elg.state (j := i - 20) (by omega)]

theorem status_errcode (s : State) : s.status.extractLsb' 8 8 = s.errcode := by
  refine BitVec.eq_of_getLsbD_eq fun i hi => ?_
  rw [BitVec.getLsbD_extractLsb', status_getLsbD]
  have others : 8 + i ≠ 0 ∧ 8 + i ≠ 1 ∧ 8 + i ≠ 16 ∧ 8 + i ≠ 17 ∧ 8 + i ≠ 18 ∧ 8 + i ≠ 19 ∧ 8 + i ≠ 22 ∧ 8 + i ≠ 23
      ∧ 8 + i ≠ 24 := by omega
  simp [others, hi, show 8 + i < 64 by omega, show 8 + i < 20 by omega]

theorem status_elgState (s : State) : s.status.extractLsb' 20 2 = s.elg.state.code.setWidth 2 := by
  refine BitVec.eq_of_getLsbD_eq fun i hi => ?_
  rw [BitVec.getLsbD_extractLsb', BitVec.getLsbD_setWidth, status_getLsbD]
  have others : 20 + i ≠ 0 ∧ 20 + i ≠ 1 ∧ 20 + i ≠ 16 ∧ 20 + i ≠ 17 ∧ 20 + i ≠ 18 ∧ 20 + i ≠ 19 ∧ 20 + i ≠ 22 ∧ 20 + i ≠ 23
      ∧ 20 + i ≠ 24 := by omega
  simp [others, hi, show 20 + i < 64 by omega, BitVec.getLsbD_of_ge s.errcode (20 + i - 8) (by omega)]

/-- A flag of STATUS above the error code and ELG_STATE (R33). -/
theorem status_flag (s : State) {i : Nat} (hi : i = 0 ∨ i = 1 ∨ (16 ≤ i ∧ i < 20) ∨ (22 ≤ i ∧ i < 25)) :
    s.status.getLsbD i =
      (decide (i = 0) && s.busy || decide (i = 1) && s.err || decide (i = 16) && s.clReady || decide (i = 17) && s.mapReady
        || decide (i = 18) && s.oaReady || decide (i = 19) && s.symValid || decide (i = 22) && (s.elg.state == .locked)
        || decide (i = 23) && s.oa.frameReady || decide (i = 24) && s.numeric) := by
  have code : (decide (i < 64) && !decide (i < 8) && s.errcode.getLsbD (i - 8)) = false := by
    by_cases h : i < 8
    · simp [h]
    · rw [BitVec.getLsbD_of_ge s.errcode (i - 8) (by omega)]
      simp
  have gate : (decide (i < 64) && !decide (i < 20) && s.elg.state.code.getLsbD (i - 20)) = false := by
    by_cases h : i < 20
    · simp [h]
    · rw [code_getLsbD_high s.elg.state (by omega)]
      simp
  rw [status_getLsbD, code, gate, Bool.or_false, Bool.or_false]

/-- Settles O14: field by field, from the bits of STATUS. -/
theorem statusFields : Obligations.StatusFields := by
  intro s
  have low : s.status.extractLsb' 2 6 = 0 := BitVec.eq_of_getLsbD_eq fun i hi => by
    rw [BitVec.getLsbD_extractLsb', status_reserved s (i := 2 + i) (by omega)]
    simp
  have high : s.status.extractLsb' 25 39 = 0 := BitVec.eq_of_getLsbD_eq fun i hi => by
    rw [BitVec.getLsbD_extractLsb', status_reserved s (i := 25 + i) (by omega)]
    simp
  refine ⟨?_, ?_, low, status_errcode s, ?_, ?_, ?_, ?_, ?state, ?locked, ?_, ?_, high⟩
  case state =>
    rw [status_elgState]
    cases s.elg.state <;> rfl
  case locked =>
    rw [status_elgState, status_flag s (i := 22) (by decide)]
    cases s.elg.state <;> simp [ElgState.code]
  all_goals
    rw [status_flag s (by decide)]
    simp

/-! ## The interrupt output -/

/-- Two bytes with no bit in common, and two that share one (R346). -/
theorem and_ne_zero_iff (x y : BitVec 8) : x &&& y ≠ 0#8 ↔ ∃ i, i < 8 ∧ x.getLsbD i = true ∧ y.getLsbD i = true := by
  constructor
  · intro h
    by_contra none
    refine h (BitVec.eq_of_getLsbD_eq fun i hi => ?_)
    rw [BitVec.getLsbD_and, BitVec.getLsbD_zero, Bool.and_eq_false_iff]
    by_contra both
    simp only [not_or, Bool.not_eq_false] at both
    exact none ⟨i, hi, both⟩
  · rintro ⟨i, -, hx, hy⟩ h
    have bit : (x &&& y).getLsbD i = false := by rw [h, BitVec.getLsbD_zero]
    rw [BitVec.getLsbD_and, hx, hy] at bit
    cases bit

theorem irq_iff (s : State) : s.irq = true ↔ ∃ i, i < 8 ∧ s.irqStatus.getLsbD i = true ∧ s.irqEnable.getLsbD i = true := by
  rw [← and_ne_zero_iff]
  unfold State.irq
  simp

/-- With every source masked the output is low (R346). -/
theorem irq_low_of_masked {s : State} (h : s.irqEnable = 0) : s.irq = false := by
  unfold State.irq
  simp [h]

theorem hostWrite_irqEnable {s : State} (hb : s.busy = false) (v : Word) :
    hostWrite 0x020#12 v s = { s with irqEnable := v.setWidth 8 } :=
  hostWrite_offset (r := .irqEnable) (by simp) (by simp) hb v

/-- A write to IRQ_STATUS acknowledges (R34). -/
theorem hostWrite_irqStatus {s : State} (hb : s.busy = false) (v : Word) : hostWrite 0x018#12 v s = s.ackIrq v :=
  hostWrite_offset (r := .irqStatus) (by simp) (by simp) hb v

/-- Settles O15. -/
theorem irqOutput : Obligations.IrqOutput := by
  refine ⟨irq_iff, fun s v hb => ⟨?enable, ?frame, fun i hi => ?bits⟩, fun s hb => ?low⟩
  case enable => rw [hostWrite_irqEnable hb]
  case frame =>
    rw [hostWrite_irqStatus hb]
    rfl
  case bits =>
    rw [hostWrite_irqStatus hb, State.ackIrq_irqStatus]
    simp [hi]
  case low =>
    rw [hostWrite_irqStatus hb]
    unfold State.irq
    simp [State.ackIrq]

/-! ## Resets -/

/-- Settles O19: every element of `State.reset` is the literal of R60, and no bank of the empty memory has a word. -/
theorem resetValues : Obligations.ResetValues := by
  refine ⟨fun r => ?_, rfl, rfl, rfl, rfl, rfl, rfl, rfl, rfl, rfl, Memory.word_empty⟩
  cases r with
  | obs r => cases r <;> rfl
  | cl r => cases r <;> rfl
  | map r => cases r <;> rfl
  | oa r => cases r <;> rfl
  | _ => rfl

/-- The completion of SOFT_RESET sets CMD_DONE_EV alone, in the IRQ_STATUS that the reset left 0 (R61, R131). -/
theorem softReset_complete (s : State) :
    (softResetRule s).complete = { softResetRule s with irqStatus := 0x80#8 } := by
  have done : (0 : BitVec 8) ||| Irq.mask .cmdDone = 0x80#8 := by decide
  show ({ softResetRule s with irqStatus := 0 ||| Irq.mask .cmdDone } : State) = _
  rw [done]

/-- Settles O23: the perform always answers, and its answer is the reset state with what SOFT_RESET keeps. -/
theorem softReset : Obligations.SoftReset := fun s =>
  ⟨{ softResetRule s with irqStatus := 0x80#8 }, exec_eq_next.mpr ⟨softResetRule s, rfl, (softReset_complete s).symm⟩, rfl, rfl,
    irq_low_of_masked rfl⟩

end Sys2Proof.Machine
end

section
/-! PROOFS. The stored and the reserved bits of the registers, and RAM_DATA: ReservedAndStored, RamRead, RamWrite. -/

namespace Sys2Proof

/-! ## RAM_SEL -/

theorem RamId.mem_all (r : RamId) : r ∈ RamId.all := by cases r <;> decide

/-- The RAM selected is the one with the id in RAM_SEL (R56). -/
theorem RamId.id_of_ofSel {sel : BitVec 8} {r : RamId} (h : RamId.ofSel sel = some r) : r.id = sel.toNat := by
  simpa using List.find?_some h

/-- Ids 20 to 255 select no RAM (R56). -/
theorem RamId.ofSel_eq_none_iff (sel : BitVec 8) : RamId.ofSel sel = none ↔ 19 < sel.toNat := by
  have ids : RamId.all.map RamId.id = List.range 20 := by decide
  have unused : RamId.ofSel sel = none ↔ sel.toNat ∉ RamId.all.map RamId.id := by
    unfold RamId.ofSel
    simp
  rw [unused, ids, List.mem_range]
  omega

end Sys2Proof

namespace Sys2Proof.Machine

open Safety

theorem busy_eq_false {s : State} (h : s.cmd = none) : s.busy = false := by
  unfold State.busy
  rw [h]
  rfl

theorem busy_eq_true {s : State} {w : Word} (h : s.cmd = some w) : s.busy = true := by
  unfold State.busy
  rw [h]
  rfl

/-! ## RAM_DATA -/

/-- An access of RAM_DATA while BUSY = 0 is the read of R107. -/
theorem hostRead_ramData {s : State} (h : s.cmd = none) : hostRead 0x068#12 s = ramRead s := by
  unfold hostRead
  rw [show Reg.ofOffset 0x068#12 = some .ramData from Reg.ofOffset_offset .ramData, busy_eq_false h]
  rfl

/-- An access of RAM_DATA while BUSY = 0 is the write of R108. -/
theorem hostWrite_ramData {s : State} (h : s.cmd = none) (v : Word) : hostWrite 0x068#12 v s = ramWrite v s := by
  unfold hostWrite
  rw [show Reg.ofOffset 0x068#12 = some .ramData from Reg.ofOffset_offset .ramData, busy_eq_false h]
  rfl

theorem ramRead_unselected {s : State} (h : RamId.ofSel s.ramSel = none) :
    ramRead s = .ok ((s.raise .ramAccess).record 0) := by
  unfold ramRead
  rw [h]

theorem ramRead_beyond {s : State} {r : RamId} (h : RamId.ofSel s.ramSel = some r)
    (ha : ramCapacity s.par r ≤ s.ramAddr.toNat) : ramRead s = .ok ((s.raise .ramAccess).record 0) := by
  unfold ramRead
  rw [h]
  exact if_neg (Nat.not_lt.mpr ha)

theorem ramRead_inside {s : State} {r : RamId} (h : RamId.ofSel s.ramSel = some r)
    (ha : s.ramAddr.toNat < ramCapacity s.par r) :
    ramRead s =
      s.mem.read (.ram r) s.ramAddr.toNat >>= fun v => .ok (({ s with ramAddr := s.ramAddr + 1 } : State).record v) := by
  unfold ramRead
  rw [h]
  exact if_pos ha

theorem ramWrite_unselected {s : State} (h : RamId.ofSel s.ramSel = none) (v : Word) :
    ramWrite v s = s.raise .ramAccess := by
  unfold ramWrite
  rw [h]

theorem ramWrite_refused {s : State} {r : RamId} (h : RamId.ofSel s.ramSel = some r)
    (hr : ramCapacity s.par r ≤ s.ramAddr.toNat ∨ ramHostWritable r = false) (v : Word) :
    ramWrite v s = s.raise .ramAccess := by
  have failed : ¬ (s.ramAddr.toNat < ramCapacity s.par r ∧ ramHostWritable r = true) := by
    rintro ⟨inside, writable⟩
    rcases hr with beyond | readOnly
    · omega
    · rw [readOnly] at writable
      cases writable
  unfold ramWrite
  rw [h]
  exact if_neg failed

theorem ramWrite_inside {s : State} {r : RamId} (h : RamId.ofSel s.ramSel = some r)
    (ha : s.ramAddr.toNat < ramCapacity s.par r) (hw : ramHostWritable r = true) (v : Word) :
    ramWrite v s = { s with mem := s.mem.write (.ram r) s.ramAddr.toNat v, ramAddr := s.ramAddr + 1 } := by
  unfold ramWrite
  rw [h]
  exact if_pos ⟨ha, hw⟩

/-- A write of one word leaves every other word (R11). -/
theorem Memory.write_sameExcept (m : Memory) (b : Bank) (i : Nat) (v : Word) :
    SameExcept (fun b' j => b' = b ∧ j = i) m (m.write b i v) := by
  intro b' j outside
  rw [Memory.word_write, if_neg outside]

/-- The host access column of R56, by id (R108). -/
theorem ramHostWritable_iff (r : RamId) : ramHostWritable r = true ↔ r.id ∈ [0, 1, 2, 12, 13] := by cases r <;> decide

/-! ## Reserved bits -/

/-- A word with a zero at every bit of a mask (R106). -/
theorem and_mask_eq_zero {v m : Word} (h : ∀ i, i < 64 → m.getLsbD i = true → v.getLsbD i = false) : v &&& m = 0 := by
  refine BitVec.eq_of_getLsbD_eq fun i hi => ?_
  rw [BitVec.getLsbD_and]
  cases hm : m.getLsbD i
  · simp
  · simp [h i hi hm]

/-- The view of an eight-bit register reads 0 in its reserved bits 63:8 (R34, R35, R38, R106). -/
theorem setWidth_and_reserved (b : BitVec 8) : b.setWidth 64 &&& 0xFFFFFFFFFFFFFF00#64 = 0 := by
  have reserved : ∀ i, i < 64 → (0xFFFFFFFFFFFFFF00#64).getLsbD i = true → 8 ≤ i := by decide
  refine and_mask_eq_zero fun i hi hm => ?_
  rw [BitVec.getLsbD_setWidth, BitVec.getLsbD_of_ge b i (reserved i hi hm), Bool.and_false]

theorem byteMask_getLsbD (i : Nat) : (0xFF#64).getLsbD i = decide (i < 8) := by
  rw [show 0xFF#64 = (BitVec.allOnes 8).setWidth 64 by decide, BitVec.getLsbD_setWidth, BitVec.getLsbD_allOnes]
  by_cases h : i < 8
  · simp [h, show i < 64 by omega]
  · simp [h]

theorem setWidth_byte (v : Word) : (v.setWidth 8).setWidth 64 = v &&& 0xFF#64 := by
  refine BitVec.eq_of_getLsbD_eq fun i hi => ?_
  rw [BitVec.getLsbD_and, byteMask_getLsbD, BitVec.getLsbD_setWidth, BitVec.getLsbD_setWidth]
  simp [hi, Bool.and_comm]

theorem setWidth_and_byte (v : Word) : (v &&& 0xFF#64).setWidth 8 = v.setWidth 8 := by
  refine BitVec.eq_of_getLsbD_eq fun i hi => ?_
  rw [BitVec.getLsbD_setWidth, BitVec.getLsbD_setWidth, BitVec.getLsbD_and, byteMask_getLsbD]
  simp [hi]

theorem status_and_reserved (s : State) : s.status &&& 0xFFFFFFFFFE0000FC#64 = 0 := by
  have reserved : ∀ i, i < 64 → (0xFFFFFFFFFE0000FC#64).getLsbD i = true → (2 ≤ i ∧ i < 8) ∨ 25 ≤ i := by decide
  exact and_mask_eq_zero fun i hi hm => status_reserved s (reserved i hi hm)

/-- The eight-bit registers see the low byte written and no other bit (R106). -/
theorem State.writeReg_and_byte {r : Reg} (hr : r = .irqStatus ∨ r = .irqEnable ∨ r = .ramSel) (s : State) (v : Word) :
    s.writeReg r (v &&& 0xFF#64) = s.writeReg r v := by
  rcases hr with rfl | rfl | rfl <;> simp only [State.writeReg, State.ackIrq, setWidth_and_byte]

/-! ## Stored bits -/

/-- A CL or ELG configuration register after a write to one of them (R40). -/
theorem ClConfig.get_set (c : ClConfig) (r r' : ClReg) (v : Word) : (c.set r v).get r' = if r' = r then v else c.get r' := by
  cases r <;> cases r' <;> rfl

/-- A MAP configuration register after a write to one of them (R41). -/
theorem MapConfig.get_set (c : MapConfig) (r r' : MapReg) (v : Word) :
    (c.set r v).get r' = if r' = r then v else c.get r' := by
  cases r <;> cases r' <;> rfl

/-- An OA configuration register after a write to one of them (R42). -/
theorem OaConfig.get_set (c : OaConfig) (r r' : OaReg) (v : Word) : (c.set r v).get r' = if r' = r then v else c.get r' := by
  cases r <;> cases r' <;> rfl

/-- The registers that keep all 64 bits written (R106): DIN0, DIN1, RAM_ADDR and the configuration registers. -/
def Reg.Stored (r : Reg) : Prop := r ∈ [.din0, .din1, .ramAddr] ∨ (∃ x, r = .cl x) ∨ (∃ x, r = .map x) ∨ (∃ x, r = .oa x)

theorem Reg.Stored.plain {r : Reg} (h : Reg.Stored r) : r ≠ .cmd ∧ r ≠ .ramData := by
  constructor <;> rintro rfl <;> simp [Reg.Stored] at h

theorem Reg.Stored.readReg_writeReg {r : Reg} (h : Reg.Stored r) (s : State) (v : Word) :
    (s.writeReg r v).readReg r = v := by
  rcases h with h | ⟨x, rfl⟩ | ⟨x, rfl⟩ | ⟨x, rfl⟩
  · simp only [List.mem_cons, List.not_mem_nil, or_false] at h
    rcases h with rfl | rfl | rfl <;> rfl
  · exact (ClConfig.get_set s.clReg x x v).trans (if_pos rfl)
  · exact (MapConfig.get_set s.mapReg x x v).trans (if_pos rfl)
  · exact (OaConfig.get_set s.oaReg x x v).trans (if_pos rfl)

theorem State.readReg_writeReg_byte {r : Reg} (h : r = .irqEnable ∨ r = .ramSel) (s : State) (v : Word) :
    (s.writeReg r v).readReg r = v &&& 0xFF#64 := by
  rcases h with rfl | rfl <;> exact setWidth_byte v

/-- A register read after it was written returns what the write left in it (R104). -/
theorem hostRead_hostWrite {r : Reg} (hr : r ≠ .cmd ∧ r ≠ .ramData) {s : State} (hb : s.busy = false) {v x : Word}
    (h : (s.writeReg r v).readReg r = x) :
    hostRead r.offset (hostWrite r.offset v s) = .ok ((hostWrite r.offset v s).record x) := by
  rw [hostRead_offset hr.2, hostWrite_offset hr.1 hr.2 hb, h]

/-- Settles O12: the reserved bits by their masks, the stored ones by the read after the write. -/
theorem reservedAndStored : Obligations.ReservedAndStored := by
  refine ⟨fun s => ⟨status_and_reserved s, setWidth_and_reserved _, setWidth_and_reserved _, setWidth_and_reserved _⟩,
    fun s v hb => hostWrite_offset (r := .status) (by simp) (by simp) hb v, fun s r v hb hr => ?bytes,
    fun s v hb => ?control, fun s r v hb => ⟨fun hr => ?stored, fun hr => ?byteRead⟩,
    fun s r v hb => ⟨hostWrite_offset (r := .cl r) (by simp) (by simp) hb v, fun r' => ClConfig.get_set _ r r' v⟩,
    fun s r v hb => ⟨hostWrite_offset (r := .map r) (by simp) (by simp) hb v, fun r' => MapConfig.get_set _ r r' v⟩,
    fun s r v hb => ⟨hostWrite_offset (r := .oa r) (by simp) (by simp) hb v, fun r' => OaConfig.get_set _ r r' v⟩⟩
  case bytes =>
    have plain : r ≠ .cmd ∧ r ≠ .ramData := by rcases hr with rfl | rfl | rfl <;> simp
    rw [hostWrite_offset plain.1 plain.2 hb, hostWrite_offset plain.1 plain.2 hb, State.writeReg_and_byte hr]
  case control =>
    exact
      ⟨hostWrite_offset (r := .din0) (by simp) (by simp) hb v, hostWrite_offset (r := .din1) (by simp) (by simp) hb v,
        hostWrite_offset (r := .ramAddr) (by simp) (by simp) hb v, hostWrite_irqEnable hb v,
        hostWrite_offset (r := .ramSel) (by simp) (by simp) hb v⟩
  case stored =>
    have stored : Reg.Stored r := hr
    exact hostRead_hostWrite stored.plain hb (stored.readReg_writeReg s v)
  case byteRead =>
    have plain : r ≠ .cmd ∧ r ≠ .ramData := by rcases hr with rfl | rfl <;> simp
    exact hostRead_hostWrite plain hb (State.readReg_writeReg_byte hr s v)

end Sys2Proof.Machine

namespace Sys2Proof.Laws

open Machine

/-- Settles O16: the read of RAM_DATA outcome by outcome, the word from the memory's own read. -/
theorem ramRead : Obligations.RamRead := by
  refine ⟨RamId.ofSel_eq_none_iff, fun _ _ => RamId.id_of_ofSel, fun p => rfl, fun s idle => ?_⟩
  rw [hostRead_ramData idle]
  refine ⟨ramRead_unselected, fun r sel => ⟨ramRead_beyond sel, fun inside => ⟨fun unwritten => ?_, fun v written => ?_⟩⟩⟩
  · rw [ramRead_inside sel inside, Memory.read_eq_error.mpr ⟨rfl, unwritten⟩]
    rfl
  · rw [ramRead_inside sel inside, Memory.read_eq_ok.mpr written]
    rfl

/-- Settles O17: refused with RAM_ACCESS, or the one word and its frame. -/
theorem ramWrite : Obligations.RamWrite := by
  refine ⟨ramHostWritable_iff, fun s v idle => ?_⟩
  rw [hostWrite_ramData idle]
  refine ⟨fun sel => ramWrite_unselected sel v, fun r sel => ⟨fun refused => ramWrite_refused sel refused v, ?_⟩⟩
  intro inside writable
  refine ⟨_, ramWrite_inside sel inside writable v, rfl, rfl, ?_, Memory.write_sameExcept _ _ _ _⟩
  show (s.mem.write (.ram r) s.ramAddr.toNat v).word (.ram r) s.ramAddr.toNat = some v
  simp

end Sys2Proof.Laws
end

section
/-! PROOFS. The step of the host at the head of its program, and the accesses that are bus errors: HostStep, BusError. -/

namespace Sys2Proof

/-- An access that is not legal has another width or alignment (R103). -/
theorem Access.legal_eq_false_iff (a : Access) : a.legal = false ↔ a.bits ≠ 64 ∨ a.offset.toNat % 8 ≠ 0 := by
  unfold Access.legal
  rw [Bool.and_eq_false_iff, beq_eq_false_iff_ne, beq_eq_false_iff_ne]

end Sys2Proof

namespace Sys2Proof.Machine

/-! ## Accesses -/

theorem busAccess_write {a : Access} (hl : a.legal = true) (hd : a.dir = .write) (s : State) :
    busAccess a s = .ok (hostWrite a.offset a.data s) := by
  unfold busAccess
  rw [hl, hd]
  rfl

theorem busAccess_read {a : Access} (hl : a.legal = true) (hd : a.dir = .read) (s : State) :
    busAccess a s = hostRead a.offset s := by
  unfold busAccess
  rw [hl, hd]
  rfl

theorem busAccess_illegal {a : Access} (hl : a.legal = false) (s : State) : busAccess a s = .error .busError := by
  unfold busAccess
  rw [hl]
  rfl

theorem hostWrite_busy {s : State} (hb : s.busy = true) (o : BitVec 12) (v : Word) : hostWrite o v s = s.raise .busyWrite := by
  unfold hostWrite
  rw [hb]
  rfl

/-- While BUSY = 1 a read answers, and the command stays in progress (R384). -/
theorem hostRead_busy {s : State} (hb : s.busy = true) (o : BitVec 12) : ∃ t, hostRead o s = .ok t ∧ t.cmd = s.cmd := by
  unfold hostRead
  split
  · exact ⟨_, rfl, rfl⟩
  · rw [hb]
    exact ⟨_, rfl, State.raise_cmd _ _⟩
  · exact ⟨_, rfl, rfl⟩

theorem ramRead_onlyUnwritten (s : State) : (ramRead s).OnlyUnwritten := by
  unfold ramRead
  split
  · exact .ok _
  · split
    · exact .bind (Memory.read_onlyUnwritten _ _ _) fun _ => .ok _
    · exact .ok _

/-- A legal read stops at an unwritten word of RAM_DATA or nowhere (R344). -/
theorem hostRead_onlyUnwritten (o : BitVec 12) (s : State) : (hostRead o s).OnlyUnwritten := by
  unfold hostRead
  split
  · exact .ok _
  · split
    · exact .ok _
    · exact ramRead_onlyUnwritten s
  · exact .ok _

/-- BUS_ERROR is the answer to the accesses that are not legal, and to no other (R103). -/
theorem busAccess_eq_busError_iff (a : Access) (s : State) : busAccess a s = .error .busError ↔ a.legal = false := by
  refine ⟨fun h => ?_, fun hl => busAccess_illegal hl s⟩
  rw [Bool.eq_false_iff]
  intro hl
  cases hd : a.dir with
  | read =>
    rw [busAccess_read hl hd] at h
    cases hostRead_onlyUnwritten _ _ _ h
  | write =>
    rw [busAccess_write hl hd] at h
    cases h

/-! ## The host's step -/

theorem step_idle_nil {s : State} (hc : s.cmd = none) (hq : s.host.queue = []) : step s = .next s := by
  unfold step hostMove
  rw [hc, hq]
  rfl

/-- With no command in progress the step is the operation at the head of the host's program (R385). -/
theorem step_idle_cons {s : State} {op : HostOp} {rest : List HostOp} (hc : s.cmd = none) (hq : s.host.queue = op :: rest) :
    step s = settle (hostOp op { s with host := { s.host with queue := rest } }) := by
  unfold step hostMove
  rw [hc, hq]

/-- With a command in progress it is so while the schedule leaves the host a move (R384, R385). -/
theorem step_busy_cons {s : State} {w : Word} {op : HostOp} {rest : List HostOp} (hc : s.cmd = some w) (hl : 0 < s.host.lag)
    (hq : s.host.queue = op :: rest) :
    step s = settle (hostOp op { s with host := { s.host with queue := rest, lag := s.host.lag - 1 } }) := by
  have first : hostFirst s = true := by
    unfold hostFirst
    simp [hl, hq]
  have head : hostMove s.spendLag = hostOp op { s with host := { s.host with queue := rest, lag := s.host.lag - 1 } } := by
    unfold hostMove
    rw [show s.spendLag.host.queue = op :: rest from hq]
    rfl
  unfold step
  simp only [hc, first, if_true, head]

/-- Settles O9: the access by its legality, the step by the operation at the head of the program. -/
theorem busError : Obligations.BusError := by
  refine ⟨fun a s => (busAccess_eq_busError_iff a s).trans a.legal_eq_false_iff, fun a rest s turn hq forbidden => ?_⟩
  have illegal : ∀ t : State, settle (hostOp (.bus a) t) = .fault .busError := fun t => by
    rw [show hostOp (.bus a) t = busAccess a t from rfl, busAccess_illegal (a.legal_eq_false_iff.mpr forbidden)]
    rfl
  cases hc : s.cmd with
  | none => rw [step_idle_cons hc hq, illegal]
  | some w =>
    have lag : 0 < s.host.lag := by simpa [hc] using turn
    rw [step_busy_cons hc lag hq, illegal]

theorem settle_bus_write {a : Access} (hl : a.legal = true) (hd : a.dir = .write) (s : State) :
    settle (hostOp (.bus a) s) = .next (hostWrite a.offset a.data s) :=
  congrArg settle (busAccess_write hl hd s)

theorem settle_bus_read {a : Access} (hl : a.legal = true) (hd : a.dir = .read) (s : State) :
    settle (hostOp (.bus a) s) = settle (hostRead a.offset s) :=
  congrArg settle (busAccess_read hl hd s)

/-- Bit 1 of STATUS is ERR (R33). -/
theorem status_err (s : State) : s.status.getLsbD 1 = s.err := by
  rw [status_flag s (by decide)]
  simp

/-- Settles O5: the operation at the head of the program, with no command in progress and with one. -/
theorem hostStep : Obligations.HostStep := by
  intro s rest idle busy
  have idleBusy : s.cmd = none → idle.busy = false := fun hc => busy_eq_false (s := idle) hc
  have stillBusy : ∀ {w}, s.cmd = some w → busy.busy = true := fun hc => busy_eq_true (s := busy) hc
  refine ⟨step_idle_nil, fun a legal hc hq => ⟨fun hd => ?write, fun hd => ?read⟩,
    fun a w legal hc lag hq => ⟨fun hd => ?dropped, fun hd => ?answered⟩,
    fun hq => ⟨fun hc => ?waited, fun w hc lag => ?waiting⟩, fun hq => ⟨fun hc => ?checked, fun w hc lag => ?checkedBusy⟩⟩
  case write => rw [step_idle_cons hc hq, settle_bus_write legal hd]
  case read =>
    rw [step_idle_cons hc hq, settle_bus_read legal hd]
    exact ⟨fun t ht => congrArg settle ht, fun f hf => congrArg settle hf⟩
  case dropped => rw [step_busy_cons hc lag hq, settle_bus_write legal hd, hostWrite_busy (stillBusy hc)]
  case answered =>
    obtain ⟨t, ht, same⟩ := hostRead_busy (stillBusy hc) a.offset
    refine ⟨t, ht, ?_, same.trans hc⟩
    rw [step_busy_cons hc lag hq, settle_bus_read legal hd]
    exact congrArg settle ht
  case waited =>
    rw [step_idle_cons hc hq]
    show Host.Outcome.next (waitTurn idle) = _
    rw [waitTurn_eq, idleBusy hc]
    rfl
  case waiting =>
    rw [step_busy_cons hc lag hq]
    show Host.Outcome.next (waitTurn busy) = _
    rw [waitTurn_eq, stillBusy hc]
    simp only [hq]
    rfl
  case checked =>
    rw [step_idle_cons hc hq]
    show Host.Outcome.next (chkerrTurn idle) = _
    rw [chkerrTurn_eq, status_err]
    rfl
  case checkedBusy =>
    rw [step_busy_cons hc lag hq]
    show Host.Outcome.next (chkerrTurn busy) = _
    rw [chkerrTurn_eq, status_err]
    rfl

end Sys2Proof.Machine
end

section
/-! PROOFS. The command words, their issue and their perform: DecodeEncode, IllegalWords, PerformEnds, SampleWords, StepRunsDecoded,
IssueCommand. -/

namespace Sys2Proof

/-! ## The opcode map -/

theorem decodeOpcode_opcode (i : Instr) : decodeOpcode (opcode i) = .ok i := by cases i <;> rfl

/-- A command is read from its own opcode only (R133). -/
theorem opcode_of_decodeOpcode {op : BitVec 8} {i : Instr} (h : decodeOpcode op = .ok i) : opcode i = op := by
  unfold decodeOpcode at h
  split at h <;> cases h <;> rfl

/-- The opcodes outside the table of R133 are the five ranges of R134. -/
theorem decodeOpcode_error_iff (op : BitVec 8) :
    (∃ r, decodeOpcode op = .error r) ↔
      (0x04 ≤ op.toNat ∧ op.toNat ≤ 0x0F) ∨ (0x15 ≤ op.toNat ∧ op.toNat ≤ 0x1F) ∨ (0x25 ≤ op.toNat ∧ op.toNat ≤ 0x2F)
        ∨ (0x33 ≤ op.toNat ∧ op.toNat ≤ 0xEF) ∨ (0xF1 ≤ op.toNat ∧ op.toNat ≤ 0xFE) := by
  unfold decodeOpcode
  split
  -- the last arm: an opcode that is none of the nineteen
  case h_20 =>
    simp only [Except.error.injEq, exists_eq', true_iff]
    simp only [imp_false] at *
    bv_omega
  all_goals simp

/-! ## Words -/

/-- Bits 63:8 of a word are zero where its value is below 256 (R130). -/
theorem reservedZero_iff (w : Word) : reservedZero w = true ↔ w.toNat < 256 := by
  unfold reservedZero
  rw [beq_iff_eq, ← BitVec.toNat_inj, BitVec.toNat_ushiftRight, Nat.shiftRight_eq_div_pow]
  exact Nat.div_eq_zero_iff_lt (by decide)

theorem decode_of_lt {w : Word} (h : w.toNat < 256) : decode w = decodeOpcode (w.setWidth 8) :=
  if_pos ((reservedZero_iff w).mpr h)

theorem decode_of_le {w : Word} (h : 256 ≤ w.toNat) : decode w = .error (.reservedBits w) :=
  if_neg fun zero => Nat.not_lt.mpr h ((reservedZero_iff w).mp zero)

theorem toNat_setWidth_byte {w : Word} (h : w.toNat < 256) : (w.setWidth 8).toNat = w.toNat := by
  rw [BitVec.toNat_setWidth]
  exact Nat.mod_eq_of_lt h

theorem encode_toNat (i : Instr) : (encode i).toNat = (opcode i).toNat :=
  BitVec.toNat_setWidth_of_le (by decide)

theorem decode_encode (i : Instr) : decode (encode i) = .ok i := by
  have small : (encode i).toNat < 256 := by
    rw [encode_toNat]
    exact (opcode i).isLt
  have low : (encode i).setWidth 8 = opcode i := BitVec.eq_of_toNat_eq (by rw [toNat_setWidth_byte small, encode_toNat])
  rw [decode_of_lt small, low, decodeOpcode_opcode]

/-- A word with a meaning is the word of its command: bits 63:8 are zero, and the low byte is the opcode. -/
theorem eq_encode_of_decode {w : Word} {i : Instr} (h : decode w = .ok i) : w = encode i := by
  have small : w.toNat < 256 := by
    by_contra big
    rw [decode_of_le (Nat.not_lt.mp big)] at h
    cases h
  rw [decode_of_lt small] at h
  refine BitVec.eq_of_toNat_eq ?_
  rw [encode_toNat, opcode_of_decodeOpcode h, toNat_setWidth_byte small]

/-- The illegal words (R134): a reserved bit set, or an unassigned opcode. -/
theorem decode_error_iff (w : Word) :
    (∃ r, decode w = .error r) ↔
      256 ≤ w.toNat ∨ (0x04 ≤ w.toNat ∧ w.toNat ≤ 0x0F) ∨ (0x15 ≤ w.toNat ∧ w.toNat ≤ 0x1F)
        ∨ (0x25 ≤ w.toNat ∧ w.toNat ≤ 0x2F) ∨ (0x33 ≤ w.toNat ∧ w.toNat ≤ 0xEF) ∨ (0xF1 ≤ w.toNat ∧ w.toNat ≤ 0xFE) := by
  rcases Nat.lt_or_ge w.toNat 256 with small | big
  · rw [decode_of_lt small, decodeOpcode_error_iff, toNat_setWidth_byte small]
    exact (or_iff_right (Nat.not_le.mpr small)).symm
  · rw [decode_of_le big]
    exact ⟨fun _ => .inl big, fun _ => ⟨_, rfl⟩⟩

/-- Settles O1: the decoder and the encoder are inverse on the opcode and on the reserved bits. -/
theorem decodeEncode : Obligations.DecodeEncode := ⟨fun i _ => decode_encode i, fun _ _ => eq_encode_of_decode⟩

/-- Settles O2: each word written out is the word of its command. -/
theorem sampleWords : Obligations.SampleWords :=
  ⟨decode_encode .nop, decode_encode .clStep, decode_encode .elgStep, decode_encode .mapDec, decode_encode .modSym,
    decode_encode .oaFrame, decode_encode .wingen, decode_encode .clrErr, decode_encode .softReset⟩

end Sys2Proof

namespace Sys2Proof.Machine

/-! ## The issue -/

/-- A write to CMD while BUSY = 0 is the issue of the word (R131). -/
theorem hostWrite_cmd {s : State} (h : s.cmd = none) (w : Word) : hostWrite 0x008#12 w s = issue w s := by
  unfold hostWrite
  rw [show Reg.ofOffset 0x008#12 = some .cmd from Reg.ofOffset_offset .cmd, busy_eq_false h]
  rfl

/-- The issue of an illegal word is CMD_DONE_EV and `Error(ILLEGAL_CMD)` (R131), all of it. -/
theorem issue_of_error {w : Word} {r : Reject} (h : decode w = .error r) (s : State) :
    issue w s =
      { s with
        err := true
        errcode := if s.err then s.errcode else 0x01#8
        irqStatus := s.irqStatus ||| 0x81#8 } := by
  have events : (s.fire .cmdDone).irqStatus ||| Irq.mask .err = s.irqStatus ||| 0x81#8 := BitVec.or_assoc _ _ _
  unfold issue
  rw [h]
  show (s.fire .cmdDone).raise .illegalCmd = _
  rw [State.raise_eq, events]
  rfl

/-- The issue of a command's word puts it in progress, with the schedule of its perform (R131, R385). -/
theorem issue_of_ok {w : Word} {i : Instr} (h : decode w = .ok i) (s : State) :
    issue w s = { s with cmd := some w, host := { s.host with lag := s.host.lags.headD 0, lags := s.host.lags.tail } } := by
  unfold issue
  rw [h]

/-- Settles O3: the ranges, and the issue of a word that does not decode. -/
theorem illegalWords : Obligations.IllegalWords :=
  ⟨decode_error_iff, fun w _ s illegal idle => (hostWrite_cmd idle w).trans (issue_of_error illegal s)⟩

/-- Settles O6: the word of a command decodes, so its issue is that of a legal word. -/
theorem issueCommand : Obligations.IssueCommand := by
  intro s i idle
  have issued := (hostWrite_cmd idle (encode i)).trans (issue_of_ok (decode_encode i) s)
  exact ⟨issued, busy_eq_true (w := encode i) (by rw [issued])⟩

/-! ## The perform -/

/-- The host moves before the perform exactly where the schedule leaves it a move and it has one to make (R385). -/
theorem hostFirst_iff (s : State) : hostFirst s = true ↔ 0 < s.host.lag ∧ s.host.queue ≠ [] := by
  unfold hostFirst
  rw [Bool.and_eq_true, decide_eq_true_iff, Bool.not_eq_true', List.isEmpty_eq_false_iff]

theorem step_perform {s : State} {w : Word} {i : Instr} (hc : s.cmd = some w) (hd : decode w = .ok i)
    (hf : hostFirst s = false) : step s = exec i s := by
  unfold step
  simp only [hc, hf, hd, Bool.false_eq_true, if_false]

theorem step_hostFirst {s : State} {w : Word} (hc : s.cmd = some w) (hf : hostFirst s = true) :
    step s = settle (hostMove s.spendLag) := by
  unfold step
  simp only [hc, hf, if_true]

/-- Settles O4: the two sides of `hostFirst`. -/
theorem stepRunsDecoded : Obligations.StepRunsDecoded := by
  intro s w i hc hd
  refine ⟨fun done => step_perform hc hd ?_, fun lag queue => step_hostFirst hc ((hostFirst_iff s).mpr ⟨lag, queue⟩)⟩
  rw [Bool.eq_false_iff, ne_eq, hostFirst_iff]
  rintro ⟨lag, queue⟩
  exact done.elim (Nat.ne_of_gt lag) queue

/-- No rule of a command reaches the host's side (R131, R385). -/
theorem ruleOf_host {i : Instr} {s u : State} (h : ruleOf i s = .ok u) : u.host = s.host := by
  by_cases hs : i = .softReset
  · subst hs
    obtain rfl := Except.ok.inj h
    rfl
  · rcases ruleOf_writes h hs with ⟨-, w⟩ | ⟨-, w⟩ | ⟨-, w⟩ | ⟨-, rfl⟩ | ⟨-, rfl⟩
    · rw [w.state]
    · rw [w.state]
    · rw [w.state]
    · rfl
    · rfl

theorem complete_busy (s : State) : s.complete.busy = false := rfl

theorem complete_cmdDone (s : State) : s.complete.irqStatus.getLsbD 7 = true := by
  show (s.irqStatus ||| Irq.mask .cmdDone).getLsbD 7 = true
  rw [BitVec.getLsbD_or, show (Irq.mask .cmdDone).getLsbD 7 = true from rfl, Bool.or_true]

/-- Settles O7: a next state is a completed one, and no rule touches the capacities or the host. -/
theorem performEnds : Obligations.PerformEnds := by
  intro i s t h
  obtain ⟨u, hu, rfl⟩ := exec_eq_next.mp h
  exact ⟨complete_busy u, complete_cmdDone u, (State.complete_par u).trans (ruleOf_par hu),
    (State.complete_host u).trans (ruleOf_host hu)⟩

end Sys2Proof.Machine
end

section
/-! PROOFS. A command whose unit is not ready, CL_INIT, and the formulas of the Costas loop: NotInit, ClInit, CostasFormulas. -/

namespace Sys2Proof.Machine

open Safety

/-! ## The answer of a command -/

theorem exec_of_rule {i : Instr} {s u : State} (h : ruleOf i s = .ok u) : exec i s = .next u.complete :=
  exec_eq_next.mpr ⟨u, h, rfl⟩

/-- A rule that asks whether its unit is ready raises NOT_INIT where it is not (R342). -/
theorem ite_ready_of_false {α : Type} {b : Bool} (h : b = false) (x y : α) : (if b = true then x else y) = y :=
  if_neg (by simp [h])

/-- NOT_INIT recorded and the command completed (R131, R341), all of it. -/
theorem raise_notInit_complete (s : State) :
    (s.raise .notInit).complete =
      { s with
        cmd := none
        err := true
        errcode := if s.err then s.errcode else 0x03#8
        irqStatus := s.irqStatus ||| 0x81#8 } := by
  have events : s.irqStatus ||| Irq.mask .err ||| Irq.mask .cmdDone = s.irqStatus ||| 0x81#8 := BitVec.or_assoc _ _ _
  rw [← events, State.raise_eq]
  rfl

/-- The rule of a command but the INITs, NOP and the resets, in a unit that is not ready. -/
theorem ruleOf_notReady {i : Instr} {s : State}
    (h : (i ∈ [.clStep, .elgStep] ∧ s.clReady = false) ∨ (i ∈ [.mapEnc, .mapDec, .demapAcc, .modSym] ∧ s.mapReady = false)
      ∨ (i ∈ [.oaPush, .oaFlush, .oaFrame, .oaFinal, .fft, .wingen, .sincRs] ∧ s.oaReady = false)) :
    ruleOf i s = .ok (s.raise .notInit) := by
  simp only [List.mem_cons, List.not_mem_nil, or_false] at h
  rcases h with ⟨hi, idle⟩ | ⟨hi, idle⟩ | ⟨hi, idle⟩
  · rcases hi with rfl | rfl <;> exact ite_ready_of_false idle _ _
  · rcases hi with rfl | rfl | hi
    · exact congrArg Except.ok (ite_ready_of_false idle _ _)
    · exact congrArg Except.ok (ite_ready_of_false idle _ _)
    · rcases hi with rfl | rfl <;> exact ite_ready_of_false idle _ _
  · rcases hi with rfl | rfl | hi
    · exact congrArg Except.ok (ite_ready_of_false idle _ _)
    · exact congrArg Except.ok (ite_ready_of_false idle _ _)
    · rcases hi with rfl | rfl | rfl | rfl | rfl <;> exact ite_ready_of_false idle _ _

/-- Settles O24. -/
theorem notInit : Obligations.NotInit := fun i s h => by
  rw [exec_of_rule (ruleOf_notReady h), raise_notInit_complete]

/-! ## CL_INIT -/

/-- The checks of CL_INIT in their order (R168), each written out. -/
theorem clCheck_eq (p : Params) (c : ClConfig) :
    clCheck p c =
      if ¬ TableOk p c.vcoTsize then some .cfgTable
      else if ¬ ClLengthsOk p c then some .cfgLength
      else if 2 < c.fbMode.toNat then some .cfgMode
      else if ¬ ClValuesOk c then some .cfgValue
      else none := by
  unfold clCheck
  refine if_congr (by omega) rfl (if_congr ?lengths rfl (if_congr Iff.rfl rfl (if_congr ?values rfl rfl)))
  case lengths =>
    simp only [Bool.not_eq_true', Bool.and_eq_false_iff, decide_eq_false_iff_not]
    omega
  case values =>
    simp only [Bool.or_eq_true, Bool.not_eq_true', Bool.and_eq_false_iff, not_and_or, Bool.not_eq_true, Bool.not_eq_false]
    tauto

theorem exec_clInit_of_fail {s : State} {e : ErrCode} (h : clCheck s.par s.clReg = some e) :
    exec .clInit s = .next (({ s with clReady := false } : State).raise e).complete := by
  refine exec_of_rule (congrArg Except.ok ?_)
  unfold clInitRule
  rw [h]

theorem exec_clInit_of_pass {s : State} (h : clCheck s.par s.clReg = none) :
    exec .clInit s = .next (clInitDone s).complete := by
  refine exec_of_rule (congrArg Except.ok ?_)
  unfold clInitRule
  rw [h]

/-- CL_INIT clears its delay lines over their whole capacity (R168, R200). -/
theorem clInitMemory_line_holds {p : Params} {l : Line} (hl : l ∈ clLines) (t : Nat) (m : Memory) :
    Holds (clInitMemory p t m) (.line l) (List.replicate (l.capacity p) Fp.zero) := by
  intro i hi
  rw [List.length_replicate] at hi
  rw [clInitMemory_line hl, if_pos hi, List.getElem?_replicate, if_pos hi]

/-- CL_INIT writes the words of VTAB below 5·T/4 and its delay lines, and no other (R168). -/
theorem clInitMemory_frame (p : Params) (t : Nat) (m : Memory) :
    SameExcept (fun b i => (b = .ram .vtab ∧ i < 5 * t / 4) ∨ ∃ l ∈ clLines, b = .line l) m (clInitMemory p t m) := by
  intro b i outside
  rw [not_or] at outside
  obtain ⟨table, lines⟩ := outside
  by_cases hb : b = .ram .vtab
  · subst hb
    rw [clInitMemory_vtab, if_neg fun hi => table ⟨rfl, hi⟩]
  · refine clInitMemory_sameExcept p t m b i fun hm => lines ?_
    simpa [hb] using hm

/-- Settles O25: the checks in their order, and what passing them all writes. -/
theorem clInit : Obligations.ClInit := by
  intro s
  have check := clCheck_eq s.par s.clReg
  refine ⟨fun table => ?table, fun table lengths => ?lengths, fun table lengths mode => ?mode,
    fun table lengths mode values => ?values, fun table lengths mode values => ?pass⟩
  case table =>
    rw [if_pos table] at check
    exact exec_clInit_of_fail check
  case lengths =>
    rw [if_neg (not_not.mpr table), if_pos lengths] at check
    exact exec_clInit_of_fail check
  case mode =>
    rw [if_neg (not_not.mpr table), if_neg (not_not.mpr lengths), if_pos mode] at check
    exact exec_clInit_of_fail check
  case values =>
    rw [if_neg (not_not.mpr table), if_neg (not_not.mpr lengths), if_neg (Nat.not_lt.mpr mode), if_pos values] at check
    exact exec_clInit_of_fail check
  case pass =>
    have cleared := fun {l : Line} (hl : l ∈ clLines) =>
      clInitMemory_line_holds (p := s.par) hl s.clReg.vcoTsize.toNat s.mem
    refine ⟨_, exec_clInit_of_pass (clCheck_eq_none.mpr ⟨table, lengths, mode, values⟩), rfl, rfl, rfl, rfl, rfl, rfl, rfl,
      rfl, clInitMemory_holds _ _ _, ?fir, ?delay, clInitMemory_frame _ _ _⟩
    case fir =>
      simp only [List.forall_mem_cons]
      exact ⟨cleared (l := .lpf1) (by simp), cleared (l := .lpf2) (by simp), cleared (l := .elf) (by simp), by simp⟩
    case delay =>
      simp only [List.forall_mem_cons]
      exact ⟨cleared (l := .cdI) (by simp), cleared (l := .cdQ) (by simp), cleared (l := .mf) (by simp),
        cleared (l := .eg) (by simp), by simp⟩

/-! ## The formulas of the Costas loop -/

theorem wrapGuard_of_finite {v : F64} (h : Fp.isFinite v = true) (s : State) : s.wrapGuard v = s := if_pos h

theorem wrapGuard_of_not_finite {v : F64} (h : Fp.isFinite v = false) (s : State) : s.wrapGuard v = s.guard :=
  if_neg (by simp [h])

theorem wrap_of_not_finite {v : F64} (h : Fp.isFinite v = false) (t : Nat) : wrap v t = Fp.zero := if_neg (by simp [h])

/-- WRAP of a finite value: the rounded remainder, +0.0 where it has left the table or is a zero (R162). -/
theorem wrap_of_finite {v : F64} (h : Fp.isFinite v = true) (t : Nat) :
    wrap v t =
      (let r := Fp.sub v (Fp.mul (Fp.ofNat t) (Fp.ofInt (Fp.floor (Fp.div v (Fp.ofNat t)))))
       if Fp.le (Fp.ofNat t) r = true ∨ Fp.lt r Fp.zero = true ∨ Fp.eq r Fp.zero = true then Fp.zero else r) := by
  unfold wrap
  rw [if_pos h]
  exact if_congr (by simp only [Bool.or_eq_true, or_assoc]) rfl rfl

/-- Settles O29: WRAP by whether its argument is finite, FB by its mode, LOOPF by definition. -/
theorem costasFormulas : Obligations.CostasFormulas := by
  refine ⟨fun v t s positive bound => ⟨wrap_inTable v positive bound, fun infinite => ?_, fun finite => ?_⟩,
    fun yI yQ => ⟨rfl, rfl, rfl⟩, fun e s => ⟨rfl, rfl⟩⟩
  · exact ⟨wrap_of_not_finite infinite t, wrapGuard_of_not_finite infinite s⟩
  · exact ⟨wrapGuard_of_finite finite s, wrap_of_finite finite t⟩

end Sys2Proof.Machine
end

section
/-! PROOFS. CL_STEP, stage by stage on the words it reads: ClStep. -/

namespace Sys2Proof.Machine

open Safety

/-! ## The memory between two stages -/

theorem SameExcept.mono {p q : Bank → Nat → Prop} {m m' : Memory} (h : SameExcept p m m') (hp : ∀ b i, p b i → q b i) :
    SameExcept q m m' :=
  fun b i outside => h b i fun inside => outside (hp b i inside)

/-- A bank of which no word was touched holds what it held. -/
theorem SameExcept.holds {p : Bank → Nat → Prop} {m m' : Memory} (h : SameExcept p m m') {b : Bank} {vs : List Word}
    (hb : ∀ i, ¬ p b i) (hv : Holds m b vs) : Holds m' b vs :=
  fun i hi => (h b i (hb i)).trans (hv i hi)

theorem Memory.write_write_frame (m : Memory) (b c : Bank) (i j : Nat) (v w : Word) :
    SameExcept (fun b' k => (b' = b ∧ k = i) ∨ (b' = c ∧ k = j)) m ((m.write b i v).write c j w) :=
  SameExcept.trans (SameExcept.mono (Memory.write_sameExcept m b i v) fun _ _ h => .inl h)
    (SameExcept.mono (Memory.write_sameExcept _ c j w) fun _ _ h => .inr h)

/-! ## The early-late gate -/

/-- The three words one ELG sample writes (R201 to R203): the square of the input, the matched-filter output and the gate
error. -/
def elgMemory (u : ElgUnit) (x m d : F64) (mem : Memory) : Memory :=
  ((mem.write (.line .mf) u.mfIdx (Fp.mul x x)).write (.line .eg) u.egIdx m).write (.line .elf) u.elfIdx d

theorem elgMemory_frame (u : ElgUnit) (x m d : F64) (mem : Memory) :
    SameExcept
      (fun b i => (b = .line .mf ∧ i = u.mfIdx) ∨ (b = .line .eg ∧ i = u.egIdx) ∨ (b = .line .elf ∧ i = u.elfIdx)) mem
      (elgMemory u x m d mem) :=
  SameExcept.trans (SameExcept.mono (Memory.write_write_frame _ _ _ _ _ _ _) fun _ _ h => h.imp_right .inl)
    (SameExcept.mono (Memory.write_sameExcept _ _ _ _) fun _ _ h => .inr (.inr h))

theorem elgMemory_words (u : ElgUnit) (x m d : F64) (mem : Memory) :
    (elgMemory u x m d mem).word (.line .mf) u.mfIdx = some (Fp.mul x x)
      ∧ (elgMemory u x m d mem).word (.line .eg) u.egIdx = some m
      ∧ (elgMemory u x m d mem).word (.line .elf) u.elfIdx = some d := by
  simp [elgMemory]

/-- One ELG sample on readable words (R209): its outputs, its decisions and all it writes. -/
theorem elgCore_of_words {x oldM oldE : F64} {elf pe : List F64} {s : State}
    (hc : elf.length = s.clCfg.elgLfLen.toNat) (coefs : Holds s.mem (.ram .elgLfCoef) elf)
    (hl : pe.length = s.clCfg.elgLfLen.toNat) (line : Holds s.mem (.line .elf) pe)
    (idx : s.elg.elfIdx < s.clCfg.elgLfLen.toNat)
    (hm : s.mem.word (.line .mf) s.elg.mfIdx = some oldM) (he : s.mem.word (.line .eg) s.elg.egIdx = some oldE) :
    let m := Fp.sub (Fp.add s.elg.mfSum (Fp.mul x x)) oldM
    let f := firValue elf pe s.elg.elfIdx (Fp.sub m oldE)
    let k := elgDecide s.clCfg m f (elgMoved s.clCfg m s.elg)
    elgCore x s =
      .ok
        { trig := k.trig
          f := f
          m := m
          state :=
            { s with
              mem := elgMemory s.elg x m (Fp.sub m oldE) s.mem
              elg := k.unit
              irqStatus := s.irqStatus ||| elgIrq s.elg.state k.unit.state k.trig } } := by
  intro m f k
  let filled := (s.mem.write (.line .mf) s.elg.mfIdx (Fp.mul x x)).write (.line .eg) s.elg.egIdx m
  have first := Memory.write_sameExcept s.mem (.line .mf) s.elg.mfIdx (Fp.mul x x)
  have both : SameExcept (fun b _ => b = .line .mf ∨ b = .line .eg) s.mem filled :=
    SameExcept.trans (SameExcept.mono first fun _ _ h => .inl h.1)
      (SameExcept.mono (Memory.write_sameExcept _ _ _ _) fun _ _ h => .inr h.1)
  have filter := fir_eq_firValue (Fp.sub m oldE) (hl.trans hc.symm) (hc.symm ▸ idx)
    (SameExcept.holds both (by simp) coefs) (SameExcept.holds both (by simp) line)
  rw [hc] at filter
  refine elgCore_eq_ok.mpr ⟨_, _, _, matchedFilter_eq_ok.mpr ⟨oldM, hm, rfl⟩,
    earlyLate_eq_ok.mpr ⟨oldE, (first _ _ (by simp)).trans he, rfl⟩, elgFilter_eq_ok.mpr ⟨_, filter, rfl⟩, ?_⟩
  rw [State.elgEvents_eq]
  rfl

/-- An ELG sample that answers has read every coefficient of its loop filter (R62, R203). -/
theorem elgCore_coef_written {x : F64} {s : State} {g : ElgOut} (h : elgCore x s = .ok g) {k : Nat}
    (hk : k < s.clCfg.elgLfLen.toNat) : s.mem.word (.ram .elgLfCoef) k ≠ none := by
  obtain ⟨m, d, f, hm, hd, hf, -⟩ := elgCore_eq_ok.mp h
  obtain ⟨cfg1, -, -, moves1⟩ := matchedFilter_frame hm
  obtain ⟨cfg2, -, moves2⟩ := earlyLate_frame hd
  obtain ⟨a, ha, -⟩ := elgFilter_eq_ok.mp hf
  have written := fir_coef_written ha (k := k) (by rw [cfg2, cfg1]; exact hk)
  rwa [moves2.other _ _ (by simp), moves1.other _ _ (by simp)] at written

/-! ## The arm filters and the compensating delay -/

/-- The two words the arm filters write (R169 (c)). -/
def armMemory (u : ClUnit) (mI mQ : F64) (mem : Memory) : Memory :=
  (mem.write (.line .lpf1) u.lpf1Idx mI).write (.line .lpf2) u.lpf2Idx mQ

theorem armMemory_frame (u : ClUnit) (mI mQ : F64) (mem : Memory) :
    SameExcept (fun b i => (b = .line .lpf1 ∧ i = u.lpf1Idx) ∨ (b = .line .lpf2 ∧ i = u.lpf2Idx)) mem
      (armMemory u mI mQ mem) :=
  Memory.write_write_frame _ _ _ _ _ _ _

theorem armMemory_words (u : ClUnit) (mI mQ : F64) (mem : Memory) :
    (armMemory u mI mQ mem).word (.line .lpf1) u.lpf1Idx = some mI
      ∧ (armMemory u mI mQ mem).word (.line .lpf2) u.lpf2Idx = some mQ := by
  simp [armMemory]

/-- The arm filters on readable words (R169 (c)). -/
theorem armFilters_of_words {mI mQ : F64} {lpf p1 p2 : List F64} {s : State} (hc : lpf.length = s.clCfg.lpfLen.toNat)
    (coefs : Holds s.mem (.ram .lpfCoef) lpf)
    (hl1 : p1.length = s.clCfg.lpfLen.toNat) (line1 : Holds s.mem (.line .lpf1) p1)
    (idx1 : s.cl.lpf1Idx < s.clCfg.lpfLen.toNat)
    (hl2 : p2.length = s.clCfg.lpfLen.toNat) (line2 : Holds s.mem (.line .lpf2) p2)
    (idx2 : s.cl.lpf2Idx < s.clCfg.lpfLen.toNat) :
    armFilters mI mQ s =
      .ok
        { i := firValue lpf p1 s.cl.lpf1Idx mI
          q := firValue lpf p2 s.cl.lpf2Idx mQ
          state :=
            { s with
              mem := armMemory s.cl mI mQ s.mem
              cl :=
                { s.cl with
                  lpf1Idx := (s.cl.lpf1Idx + 1) % s.clCfg.lpfLen.toNat
                  lpf2Idx := (s.cl.lpf2Idx + 1) % s.clCfg.lpfLen.toNat } } } := by
  have first := Memory.write_sameExcept s.mem (.line .lpf1) s.cl.lpf1Idx mI
  have a := fir_eq_firValue mI (hl1.trans hc.symm) (hc.symm ▸ idx1) coefs line1
  have b := fir_eq_firValue mQ (hl2.trans hc.symm) (hc.symm ▸ idx2) (SameExcept.holds first (by simp) coefs)
    (SameExcept.holds first (by simp) line2)
  rw [hc] at a b
  exact armFilters_eq_ok.mpr ⟨_, _, a, b, rfl⟩

theorem armFilters_coef_written {mI mQ : F64} {s : State} {r : Rails} (h : armFilters mI mQ s = .ok r) {k : Nat}
    (hk : k < s.clCfg.lpfLen.toNat) : s.mem.word (.ram .lpfCoef) k ≠ none := by
  obtain ⟨a, b, ha, -, -⟩ := armFilters_eq_ok.mp h
  exact fir_coef_written ha hk

/-- The words CDELAY writes: none where COMP_DELAY is 0 (R166). -/
def delayMemory (c : ClConfig) (u : ClUnit) (yI yQ : F64) (mem : Memory) : Memory :=
  if c.compDelay = 0 then mem else (mem.write (.line .cdI) u.cdIdx yI).write (.line .cdQ) u.cdIdx yQ

theorem delayMemory_frame (c : ClConfig) (u : ClUnit) (yI yQ : F64) (mem : Memory) :
    SameExcept (fun b i => c.compDelay ≠ 0 ∧ (b = .line .cdI ∨ b = .line .cdQ) ∧ i = u.cdIdx) mem
      (delayMemory c u yI yQ mem) := by
  intro b i outside
  unfold delayMemory
  split
  · rfl
  · rename_i running
    refine Memory.write_write_frame _ _ _ _ _ _ _ b i fun touched => outside ⟨running, ?_⟩
    exact touched.elim (fun h => ⟨.inl h.1, h.2⟩) fun h => ⟨.inr h.1, h.2⟩

theorem delayMemory_words {c : ClConfig} (running : c.compDelay ≠ 0) (u : ClUnit) (yI yQ : F64) (mem : Memory) :
    (delayMemory c u yI yQ mem).word (.line .cdI) u.cdIdx = some yI
      ∧ (delayMemory c u yI yQ mem).word (.line .cdQ) u.cdIdx = some yQ := by
  rw [delayMemory, if_neg running]
  simp

/-- CDELAY on readable words, with or without a delay (R166). -/
theorem compDelay_of_words {yI yQ cI cQ : F64} {s : State}
    (h : s.clCfg.compDelay ≠ 0 →
      s.mem.word (.line .cdI) s.cl.cdIdx = some cI ∧ s.mem.word (.line .cdQ) s.cl.cdIdx = some cQ) :
    compDelay yI yQ s =
      .ok
        { i := if s.clCfg.compDelay = 0 then yI else cI
          q := if s.clCfg.compDelay = 0 then yQ else cQ
          state :=
            { s with
              mem := delayMemory s.clCfg s.cl yI yQ s.mem
              cl :=
                { s.cl with
                  cdIdx :=
                    if s.clCfg.compDelay = 0 then s.cl.cdIdx else (s.cl.cdIdx + 1) % s.clCfg.compDelay.toNat } } } := by
  unfold delayMemory
  by_cases h0 : s.clCfg.compDelay = 0
  · simp only [if_pos h0]
    exact compDelay_eq_ok.mpr (.inl ⟨by rw [h0]; rfl, rfl⟩)
  · obtain ⟨hI, hQ⟩ := h h0
    simp only [if_neg h0]
    exact compDelay_eq_ok.mpr (.inr ⟨fun e => h0 (BitVec.eq_of_toNat_eq (by simpa using e)), cI, cQ, hI, hQ, rfl⟩)

/-! ## The oscillator -/

/-- VCO on readable words (R167): the guard in IRQ_STATUS as one more set of bits. -/
theorem vco_of_words {vI vQ : F64} {s : State}
    (hI : s.mem.word (.ram .vtab) ((Fp.floor s.cl.phase).toNat + s.clCfg.vcoTsize.toNat / 4) = some vI)
    (hQ : s.mem.word (.ram .vtab) (Fp.floor s.cl.phase).toNat = some vQ) :
    vco s =
      .ok
        { i := vI
          q := vQ
          state :=
            { s with
              numeric := s.numeric || !Fp.isFinite (vcoAdvance s)
              irqStatus := s.irqStatus ||| if Fp.isFinite (vcoAdvance s) then 0#8 else 0x40#8
              cl := { s.cl with phase := wrap (vcoAdvance s) s.clCfg.vcoTsize.toNat } } } := by
  have events : (if Fp.isFinite (vcoAdvance s) then s.irqStatus else s.irqStatus ||| Irq.mask .numeric) =
      s.irqStatus ||| if Fp.isFinite (vcoAdvance s) then 0#8 else 0x40#8 := by
    split
    · exact BitVec.or_zero.symm
    · rfl
  refine vco_eq_ok.mpr ⟨vI, vQ, hI, hQ, ?_⟩
  rw [State.wrapGuard_eq, events]

/-! ## The command -/

/-- The words one CL_STEP reads: the table at the phase, the oldest words of the gate's and the compensating delay's lines, the
coefficients and the filters' delay lines. -/
structure ClWords where
  vI : F64
  vQ : F64
  oldM : F64
  oldE : F64
  cI : F64
  cQ : F64
  lpf : List F64
  elf : List F64
  p1 : List F64
  p2 : List F64
  pe : List F64

/-- The words stand in the memory where CL_STEP reads them. -/
structure ClWords.In (w : ClWords) (s : State) : Prop where
  vI : s.mem.word (.ram .vtab) ((Fp.floor s.cl.phase).toNat + s.clCfg.vcoTsize.toNat / 4) = some w.vI
  vQ : s.mem.word (.ram .vtab) (Fp.floor s.cl.phase).toNat = some w.vQ
  lpf_length : w.lpf.length = s.clCfg.lpfLen.toNat
  lpf : Holds s.mem (.ram .lpfCoef) w.lpf
  p1_length : w.p1.length = s.clCfg.lpfLen.toNat
  p1 : Holds s.mem (.line .lpf1) w.p1
  lpf1Idx : s.cl.lpf1Idx < s.clCfg.lpfLen.toNat
  p2_length : w.p2.length = s.clCfg.lpfLen.toNat
  p2 : Holds s.mem (.line .lpf2) w.p2
  lpf2Idx : s.cl.lpf2Idx < s.clCfg.lpfLen.toNat
  elf_length : w.elf.length = s.clCfg.elgLfLen.toNat
  elf : Holds s.mem (.ram .elgLfCoef) w.elf
  pe_length : w.pe.length = s.clCfg.elgLfLen.toNat
  pe : Holds s.mem (.line .elf) w.pe
  elfIdx : s.elg.elfIdx < s.clCfg.elgLfLen.toNat
  oldM : s.mem.word (.line .mf) s.elg.mfIdx = some w.oldM
  oldE : s.mem.word (.line .eg) s.elg.egIdx = some w.oldE
  delay : s.clCfg.compDelay ≠ 0 →
    s.mem.word (.line .cdI) s.cl.cdIdx = some w.cI ∧ s.mem.word (.line .cdQ) s.cl.cdIdx = some w.cQ

namespace ClWords

/-- The mixer outputs (R169 (b)). -/
def mI (w : ClWords) (s : State) : F64 := Fp.mul s.din0 w.vI
def mQ (w : ClWords) (s : State) : F64 := Fp.mul s.din0 w.vQ

/-- The arm-filter outputs (R169 (c)). -/
def yI (w : ClWords) (s : State) : F64 := firValue w.lpf w.p1 s.cl.lpf1Idx (w.mI s)
def yQ (w : ClWords) (s : State) : F64 := firValue w.lpf w.p2 s.cl.lpf2Idx (w.mQ s)

/-- The matched-filter and loop-filter outputs of the gate (R201, R203). -/
def m (w : ClWords) (s : State) : F64 := Fp.sub (Fp.add s.elg.mfSum (Fp.mul (w.yI s) (w.yI s))) w.oldM
def f (w : ClWords) (s : State) : F64 := firValue w.elf w.pe s.elg.elfIdx (Fp.sub (w.m s) w.oldE)

/-- The decisions of the gate (R204 to R208). -/
def k (w : ClWords) (s : State) : Counted := elgDecide s.clCfg (w.m s) (w.f s) (elgMoved s.clCfg (w.m s) s.elg)

/-- The feedback sample (R164, R165). -/
def fb (w : ClWords) (s : State) : F64 :=
  loopFilter s.clCfg.loopAlpha s.cl.lf (feedback s.clCfg.fbMode (w.yI s) (w.yQ s))

/-- The memory CL_STEP leaves. -/
def memory (w : ClWords) (s : State) : Memory :=
  delayMemory s.clCfg s.cl (w.yI s) (w.yQ s)
    (elgMemory s.elg (w.yI s) (w.m s) (Fp.sub (w.m s) w.oldE) (armMemory s.cl (w.mI s) (w.mQ s) s.mem))

/-- The state after the oscillator (R169 (a)). -/
def afterVco (s : State) : State :=
  { s with
    numeric := s.numeric || !Fp.isFinite (vcoAdvance s)
    irqStatus := s.irqStatus ||| if Fp.isFinite (vcoAdvance s) then 0#8 else 0x40#8
    cl := { s.cl with phase := wrap (vcoAdvance s) s.clCfg.vcoTsize.toNat } }

/-- The state after the arm filters (R169 (c)). -/
def afterArms (w : ClWords) (s : State) : State :=
  { afterVco s with
    mem := armMemory s.cl (w.mI s) (w.mQ s) s.mem
    cl :=
      { (afterVco s).cl with
        lpf1Idx := (s.cl.lpf1Idx + 1) % s.clCfg.lpfLen.toNat
        lpf2Idx := (s.cl.lpf2Idx + 1) % s.clCfg.lpfLen.toNat } }

/-- The state after the early-late gate (R169 (e)). -/
def afterGate (w : ClWords) (s : State) : State :=
  { w.afterArms s with
    mem := elgMemory s.elg (w.yI s) (w.m s) (Fp.sub (w.m s) w.oldE) (armMemory s.cl (w.mI s) (w.mQ s) s.mem)
    elg := (w.k s).unit
    irqStatus := (afterVco s).irqStatus ||| elgIrq s.elg.state (w.k s).unit.state (w.k s).trig }

/-- The state the steps (a) to (g) of CL_STEP leave (R169). -/
def after (w : ClWords) (s : State) : State :=
  { s with
    mem := w.memory s
    cl :=
      { phase := wrap (vcoAdvance s) s.clCfg.vcoTsize.toNat
        fb := w.fb s
        lf := w.fb s
        lpf1Idx := (s.cl.lpf1Idx + 1) % s.clCfg.lpfLen.toNat
        lpf2Idx := (s.cl.lpf2Idx + 1) % s.clCfg.lpfLen.toNat
        cdIdx := if s.clCfg.compDelay = 0 then s.cl.cdIdx else (s.cl.cdIdx + 1) % s.clCfg.compDelay.toNat }
    elg := (w.k s).unit
    numeric := s.numeric || !Fp.isFinite (vcoAdvance s)
    irqStatus :=
      s.irqStatus ||| (if Fp.isFinite (vcoAdvance s) then 0#8 else 0x40#8)
        ||| elgIrq s.elg.state (w.k s).unit.state (w.k s).trig
    dout0 := if (w.k s).trig then (if s.clCfg.compDelay = 0 then w.yI s else w.cI) else s.dout0
    dout1 := if (w.k s).trig then (if s.clCfg.compDelay = 0 then w.yQ s else w.cQ) else s.dout1
    dout2 := w.yI s
    dout3 := w.yQ s
    symValid := (w.k s).trig }

/-- CL_STEP on readable words: each stage answers on what the stages before it have left alone (R169). -/
theorem clStepBody_eq {w : ClWords} {s : State} (h : w.In s) : clStepBody s = .ok (w.after s) := by
  have arm := armMemory_frame s.cl (w.mI s) (w.mQ s) s.mem
  have gate := elgMemory_frame s.elg (w.yI s) (w.m s) (Fp.sub (w.m s) w.oldE) (armMemory s.cl (w.mI s) (w.mQ s) s.mem)
  have vcoStage : vco s = .ok ⟨w.vI, w.vQ, afterVco s⟩ := vco_of_words h.vI h.vQ
  have armStage : armFilters (w.mI s) (w.mQ s) (afterVco s) = .ok ⟨w.yI s, w.yQ s, w.afterArms s⟩ :=
    armFilters_of_words (s := afterVco s) h.lpf_length h.lpf h.p1_length h.p1 h.lpf1Idx h.p2_length h.p2 h.lpf2Idx
  have gateStage : elgCore (w.yI s) (w.afterArms s) = .ok ⟨(w.k s).trig, w.f s, w.m s, w.afterGate s⟩ :=
    elgCore_of_words (s := w.afterArms s) h.elf_length (SameExcept.holds arm (by simp) h.elf) h.pe_length
      (SameExcept.holds arm (by simp) h.pe) h.elfIdx ((arm _ _ (by simp)).trans h.oldM) ((arm _ _ (by simp)).trans h.oldE)
  have delayStage := compDelay_of_words (yI := w.yI s) (yQ := w.yQ s) (cI := w.cI) (cQ := w.cQ) (s := w.afterGate s)
    fun running =>
      ⟨(gate _ _ (by simp)).trans ((arm _ _ (by simp)).trans (h.delay running).1),
        (gate _ _ (by simp)).trans ((arm _ _ (by simp)).trans (h.delay running).2)⟩
  refine clStepBody_eq_ok.mpr ⟨_, _, _, _, vcoStage, armStage, gateStage, delayStage, ?_⟩
  rw [State.clResults_eq]
  rfl

/-- The words CL_STEP writes in the filters' lines, which CDELAY and then the gate leave alone. -/
theorem memory_words (w : ClWords) (s : State) :
    (w.memory s).word (.line .lpf1) s.cl.lpf1Idx = some (w.mI s) ∧ (w.memory s).word (.line .lpf2) s.cl.lpf2Idx = some (w.mQ s)
      ∧ (w.memory s).word (.line .mf) s.elg.mfIdx = some (Fp.mul (w.yI s) (w.yI s))
      ∧ (w.memory s).word (.line .eg) s.elg.egIdx = some (w.m s)
      ∧ (w.memory s).word (.line .elf) s.elg.elfIdx = some (Fp.sub (w.m s) w.oldE) := by
  have delay := delayMemory_frame s.clCfg s.cl (w.yI s) (w.yQ s)
    (elgMemory s.elg (w.yI s) (w.m s) (Fp.sub (w.m s) w.oldE) (armMemory s.cl (w.mI s) (w.mQ s) s.mem))
  have gate := elgMemory_frame s.elg (w.yI s) (w.m s) (Fp.sub (w.m s) w.oldE) (armMemory s.cl (w.mI s) (w.mQ s) s.mem)
  obtain ⟨lpf1, lpf2⟩ := armMemory_words s.cl (w.mI s) (w.mQ s) s.mem
  obtain ⟨mf, eg, elf⟩ := elgMemory_words s.elg (w.yI s) (w.m s) (Fp.sub (w.m s) w.oldE)
    (armMemory s.cl (w.mI s) (w.mQ s) s.mem)
  exact ⟨(delay _ _ (by simp)).trans ((gate _ _ (by simp)).trans lpf1),
    (delay _ _ (by simp)).trans ((gate _ _ (by simp)).trans lpf2), (delay _ _ (by simp)).trans mf,
    (delay _ _ (by simp)).trans eg, (delay _ _ (by simp)).trans elf⟩

theorem memory_frame (w : ClWords) (s : State) :
    SameExcept
      (fun b i =>
        (b = .line .lpf1 ∧ i = s.cl.lpf1Idx) ∨ (b = .line .lpf2 ∧ i = s.cl.lpf2Idx) ∨ (b = .line .mf ∧ i = s.elg.mfIdx)
          ∨ (b = .line .eg ∧ i = s.elg.egIdx) ∨ (b = .line .elf ∧ i = s.elg.elfIdx)
          ∨ (s.clCfg.compDelay ≠ 0 ∧ (b = .line .cdI ∨ b = .line .cdQ) ∧ i = s.cl.cdIdx))
      s.mem (w.memory s) :=
  SameExcept.trans (SameExcept.mono (armMemory_frame _ _ _ _) fun _ _ h => h.imp_right .inl)
    (SameExcept.trans (SameExcept.mono (elgMemory_frame _ _ _ _ _) fun _ _ h => .inr (.inr (h.imp_right (·.imp_right .inl))))
      (SameExcept.mono (delayMemory_frame _ _ _ _ _) fun _ _ h => .inr (.inr (.inr (.inr (.inr h))))))

end ClWords

/-- CL_STEP that answers has read every coefficient of its three filters (R62, R169). -/
theorem clStepBody_coef_written {s t : State} (h : clStepBody s = .ok t) {k : Nat} :
    (k < s.clCfg.lpfLen.toNat → s.mem.word (.ram .lpfCoef) k ≠ none)
      ∧ (k < s.clCfg.elgLfLen.toNat → s.mem.word (.ram .elgLfCoef) k ≠ none) := by
  obtain ⟨v, y, g, o, hv, hy, hg, -, -⟩ := clStepBody_eq_ok.mp h
  have armed := armFilters_frame hy
  rw [vco_frame hv] at hy armed
  refine ⟨fun hk => armFilters_coef_written hy hk, fun hk => ?_⟩
  have written := elgCore_coef_written hg (k := k) (by rw [armed]; exact hk)
  rw [armed] at written
  exact fun unwritten => written ((armMemory_frame s.cl _ _ s.mem _ _ (by simp)).trans unwritten)

/-- Settles O26: the closed form of the next state, and the coefficients that every answer has read. -/
theorem clStep : Obligations.ClStep := by
  constructor
  · intro s vI vQ oldM oldE cI cQ lpf elf p1 p2 pe ready hvI hvQ hlpf lpf' hp1 p1' i1 hp2 p2' i2 helf elf' hpe pe' ie hm he hd
    let w : ClWords := ⟨vI, vQ, oldM, oldE, cI, cQ, lpf, elf, p1, p2, pe⟩
    have readable : w.In s :=
      ⟨hvI, hvQ, hlpf, lpf', hp1, p1', i1, hp2, p2', i2, helf, elf', hpe, pe', ie, hm, he, hd⟩
    have rule : ruleOf .clStep s = .ok (w.after s) := (if_pos ready).trans (ClWords.clStepBody_eq readable)
    obtain ⟨lpf1, lpf2, mf, eg, elfWord⟩ := w.memory_words s
    exact ⟨_, exec_of_rule rule, rfl, rfl, rfl, rfl, rfl, rfl, rfl, rfl, rfl, rfl, lpf1, lpf2, mf, eg, elfWord,
      fun running => delayMemory_words running _ _ _ _, w.memory_frame s, rfl⟩
  · intro s k ready unwritten
    refine exec_unwritten fun u answer => ?_
    have written := clStepBody_coef_written ((if_pos ready).symm.trans answer) (k := k)
    exact unwritten.elim (fun h => written.1 h.1 h.2) (fun h => written.2 h.1 h.2)

end Sys2Proof.Machine
end

section
/-! PROOFS. The RRC filter pair on the words it reads, and DEMAP_ACC in both its forms: DemapAcc. -/

namespace Sys2Proof.Machine

open Safety

/-! ## The filter pair -/

/-- The words a pair of RRC filters reads: the coefficients `cs` and the delay lines `vi`, `vq` of its rails, with their indices
(R240, R241). -/
structure RrcHeld (m : Memory) (li lq : Line) (ii iq : Nat) (cs vi vq : List F64) : Prop where
  coefs : Holds m (.ram .rrcCoef) cs
  lengthI : vi.length = cs.length
  lineI : Holds m (.line li) vi
  idxI : ii < cs.length
  lengthQ : vq.length = cs.length
  lineQ : Holds m (.line lq) vq
  idxQ : iq < cs.length

namespace RrcHeld

variable {m : Memory} {li lq : Line} {ii iq : Nat} {cs vi vq : List F64}

/-- Both rails through their filters (R163): the write on the first rail leaves the words of the second alone. -/
theorem rrcPair_eq (h : RrcHeld m li lq ii iq cs vi vq) (distinct : li ≠ lq) (x : Point) :
    rrcPair m li lq ii iq cs.length x =
      .ok
        { pt := ⟨firValue cs vi ii x.i, firValue cs vq iq x.q⟩
          mem := (m.write (.line li) ii x.i).write (.line lq) iq x.q
          iIdx := (ii + 1) % cs.length
          qIdx := (iq + 1) % cs.length } := by
  have first := Memory.write_sameExcept m (.line li) ii x.i
  have other : ∀ i, ¬ (Bank.line lq = .line li ∧ i = ii) := fun _ e => distinct (Bank.line.inj e.1).symm
  exact rrcPair_eq_ok.mpr ⟨_, _, fir_eq_firValue x.i h.lengthI h.idxI h.coefs h.lineI,
    fir_eq_firValue x.q h.lengthQ h.idxQ (SameExcept.holds first (by simp) h.coefs) (SameExcept.holds first other h.lineQ), rfl⟩

/-- The samples enter the lines, and the indices move on (R163). -/
theorem next (h : RrcHeld m li lq ii iq cs vi vq) (distinct : li ≠ lq) (x : Point) :
    RrcHeld ((m.write (.line li) ii x.i).write (.line lq) iq x.q) li lq ((ii + 1) % cs.length) ((iq + 1) % cs.length) cs
      (vi.set ii x.i) (vq.set iq x.q) := by
  have first := Memory.write_sameExcept m (.line li) ii x.i
  have second := Memory.write_sameExcept (m.write (.line li) ii x.i) (.line lq) iq x.q
  have positive := Nat.zero_lt_of_lt h.idxI
  exact
    { coefs := SameExcept.holds second (by simp) (SameExcept.holds first (by simp) h.coefs)
      lengthI := by rw [List.length_set, h.lengthI]
      lineI := SameExcept.holds second (fun _ e => distinct (Bank.line.inj e.1)) (write_holds h.lineI (h.lengthI ▸ h.idxI) x.i)
      idxI := Nat.mod_lt _ positive
      lengthQ := by rw [List.length_set, h.lengthQ]
      lineQ := write_holds (SameExcept.holds first (fun _ e => distinct (Bank.line.inj e.1).symm) h.lineQ)
        (h.lengthQ ▸ h.idxQ) x.q
      idxQ := Nat.mod_lt _ positive }

/-- What stands elsewhere is of no account. -/
theorem sameExcept {p : Bank → Nat → Prop} {m' : Memory} (h : RrcHeld m li lq ii iq cs vi vq) (frame : SameExcept p m m')
    (hc : ∀ i, ¬ p (.ram .rrcCoef) i) (hl : ∀ l i, ¬ p (.line l) i) : RrcHeld m' li lq ii iq cs vi vq :=
  { h with
    coefs := SameExcept.holds frame hc h.coefs
    lineI := SameExcept.holds frame (hl li) h.lineI
    lineQ := SameExcept.holds frame (hl lq) h.lineQ }

end RrcHeld

/-- A filter pair that answers has read every coefficient (R62, R163). -/
theorem rrcPair_coef_written {m : Memory} {li lq : Line} {ii iq len : Nat} {x : Point} {r : RrcOut}
    (h : rrcPair m li lq ii iq len x = .ok r) {k : Nat} (hk : k < len) : m.word (.ram .rrcCoef) k ≠ none := by
  obtain ⟨a, b, ha, -, -⟩ := rrcPair_eq_ok.mp h
  exact fir_coef_written ha hk

/-! ## The tick of DEMAP_ACC -/

theorem ruleOf_demapAcc {s : State} {a : Pointed} (ready : s.mapReady = true) (h : demapAccumulate s = .ok a) :
    ruleOf .demapAcc s = .ok (demapTick a) :=
  (if_pos ready).trans (Run.bind_eq_ok.mpr ⟨a, h, rfl⟩)

theorem demapTick_inside {a : Pointed} (h : a.state.map.tick + 1 < a.state.mapCfg.sps.toNat) :
    demapTick a = { a.state with map := { a.state.map with tick := a.state.map.tick + 1 }, symValid := false } := if_pos h

theorem demapTick_last {a : Pointed} (h : a.state.mapCfg.sps.toNat ≤ a.state.map.tick + 1) :
    demapTick a = demapDecide a.pt a.state := if_neg (Nat.not_lt.mpr h)

/-- The symbol boundary (R240): the decision on the point `x` that the form of the demapper gives, with the sums it leaves. -/
theorem demapDecide_of_boundary {s : State} {pt x : Point} {a b : F64}
    (h : demapBoundary pt { s with map := { s.map with tick := 0 } } =
      { pt := x, state := { s with map := { s.map with tick := 0, accI := a, accQ := b } } }) :
    let dm := diffModulus s.mapCfg
    let d := decideSymbol (modMode s.mapCfg) s.mapCfg.qamThresh x.i x.q
    demapDecide pt s =
      { s with
        map := { s.map with accI := a, accQ := b, tick := 0, rxPrev := diffNext dm s.map.rxPrev d.p }
        dout0 := u64 (symbolBits (modMode s.mapCfg) (diffDec dm s.map.rxPrev d.p) d.low)
        dout1 := x.i
        dout2 := x.q
        dout3 := u64 d.p
        symValid := true
        irqStatus := s.irqStatus ||| 0x02#8 } := by
  unfold demapDecide
  rw [h]
  rfl

/-- The raw-summed form decides on the means and returns the sums to zero (R240). -/
theorem demapBoundary_raw {s : State} (raw : s.mapCfg.rrcEn ≠ 1) (pt : Point) :
    demapBoundary pt { s with map := { s.map with tick := 0 } } =
      { pt := ⟨Fp.div pt.i (Fp.ofNat s.mapCfg.sps.toNat), Fp.div pt.q (Fp.ofNat s.mapCfg.sps.toNat)⟩
        state := { s with map := { s.map with tick := 0, accI := Fp.zero, accQ := Fp.zero } } } := if_neg raw

/-- The matched-filtered form decides on the filter outputs (R240). -/
theorem demapBoundary_filtered {s : State} (filtered : s.mapCfg.rrcEn = 1) (pt : Point) :
    demapBoundary pt { s with map := { s.map with tick := 0 } } =
      { pt := pt, state := { s with map := { s.map with tick := 0 } } } := if_pos filtered

/-- The tick of the matched-filtered form, inside a symbol and at its end (R240). -/
theorem demapTick_filtered {a : Pointed} (filtered : a.state.mapCfg.rrcEn = 1) :
    let s := a.state
    let dm := diffModulus s.mapCfg
    let d := decideSymbol (modMode s.mapCfg) s.mapCfg.qamThresh a.pt.i a.pt.q
    let last := s.mapCfg.sps.toNat ≤ s.map.tick + 1
    demapTick a =
      { s with
        map :=
          { s.map with
            tick := if last then 0 else s.map.tick + 1
            rxPrev := if last then diffNext dm s.map.rxPrev d.p else s.map.rxPrev }
        dout0 := if last then u64 (symbolBits (modMode s.mapCfg) (diffDec dm s.map.rxPrev d.p) d.low) else s.dout0
        dout1 := if last then a.pt.i else s.dout1
        dout2 := if last then a.pt.q else s.dout2
        dout3 := if last then u64 d.p else s.dout3
        symValid := decide last
        irqStatus := s.irqStatus ||| if last then 0x02#8 else 0#8 } := by
  intro s dm d last
  by_cases h : last
  · rw [demapTick_last h, demapDecide_of_boundary (demapBoundary_filtered filtered a.pt)]
    simp only [if_pos h, decide_eq_true h, s, dm, d]
  · rw [demapTick_inside (Nat.lt_of_not_le h)]
    simp only [if_neg h, decide_eq_false h, BitVec.or_zero, s]

/-! ## The command -/

/-- The sums of the raw-summed form with a sample added (R240). -/
def rawSums (s : State) : Pointed :=
  { pt := ⟨Fp.add s.map.accI s.din0, Fp.add s.map.accQ s.din1⟩
    state := { s with map := { s.map with accI := Fp.add s.map.accI s.din0, accQ := Fp.add s.map.accQ s.din1 } } }

theorem demapAccumulate_raw {s : State} (raw : s.mapCfg.rrcEn ≠ 1) : demapAccumulate s = .ok (rawSums s) :=
  demapAccumulate_eq_ok.mpr (.inr ⟨raw, rfl⟩)

/-- The accumulation of the matched-filtered form on readable words (R240). -/
theorem demapAccumulate_filtered {s : State} {cs vi vq : List F64} (filtered : s.mapCfg.rrcEn = 1)
    (hc : cs.length = s.mapCfg.rrcLen.toNat) (held : RrcHeld s.mem .rxi .rxq s.map.rxiIdx s.map.rxqIdx cs vi vq) :
    demapAccumulate s =
      .ok
        { pt := ⟨firValue cs vi s.map.rxiIdx s.din0, firValue cs vq s.map.rxqIdx s.din1⟩
          state :=
            { s with
              mem := (s.mem.write (.line .rxi) s.map.rxiIdx s.din0).write (.line .rxq) s.map.rxqIdx s.din1
              map :=
                { s.map with
                  rxiIdx := (s.map.rxiIdx + 1) % cs.length
                  rxqIdx := (s.map.rxqIdx + 1) % cs.length } } } := by
  have pair := held.rrcPair_eq (by simp) ⟨s.din0, s.din1⟩
  rw [hc] at pair ⊢
  exact demapAccumulate_eq_ok.mpr (.inl ⟨filtered, _, pair, rfl⟩)

/-- Settles O37: the raw-summed form inside a symbol and at its end, then the matched-filtered form and its coefficients. -/
theorem demapAcc : Obligations.DemapAcc := by
  refine ⟨fun s ready raw => ⟨fun inside => ?inside, fun last => ?last⟩, ?filtered,
    fun s k ready filtered hk unwritten => ?unwritten⟩
  case inside =>
    have rule := ruleOf_demapAcc ready (demapAccumulate_raw raw)
    rw [demapTick_inside (a := rawSums s) inside] at rule
    exact exec_of_rule rule
  case last =>
    have events : s.irqStatus ||| 0x02#8 ||| Irq.mask .cmdDone = s.irqStatus ||| 0x82#8 := BitVec.or_assoc _ _ _
    have rule := ruleOf_demapAcc ready (demapAccumulate_raw raw)
    rw [demapTick_last (a := rawSums s) last,
      demapDecide_of_boundary (demapBoundary_raw (s := (rawSums s).state) raw _)] at rule
    rw [exec_of_rule rule, ← events]
    rfl
  case filtered =>
    intro s cs vi vq ready filtered hc coefs lengthI lineI idxI lengthQ lineQ idxQ
    have held : RrcHeld s.mem .rxi .rxq s.map.rxiIdx s.map.rxqIdx cs vi vq :=
      ⟨coefs, lengthI, lineI, idxI, lengthQ, lineQ, idxQ⟩
    have rule := ruleOf_demapAcc ready (demapAccumulate_filtered filtered hc held)
    rw [demapTick_filtered filtered] at rule
    exact ⟨_, exec_of_rule rule, rfl, rfl, rfl, rfl, rfl, rfl, rfl, rfl, by simp, by simp,
      Memory.write_write_frame _ _ _ _ _ _ _, rfl⟩
  case unwritten =>
    refine exec_unwritten fun u answer => ?_
    rcases demapAccRule_cases answer with ⟨idle, -⟩ | ⟨-, a, ha, -⟩
    · exact absurd (idle.symm.trans ready) (by simp)
    · rcases demapAccumulate_eq_ok.mp ha with ⟨-, r, hr, -⟩ | ⟨raw, -⟩
      · exact rrcPair_coef_written hr hk unwritten
      · exact raw filtered

end Sys2Proof.Machine
end

section
/-! PROOFS. MOD_SYM, sub-sample by sub-sample: ModSym. -/

namespace Sys2Proof.Machine

open Safety

/-! ## Rows of samples -/

theorem firLine_length (len : Nat) (xs vs : List F64) (idx : Nat) : (firLine len xs vs idx).length = vs.length := by
  induction xs generalizing vs idx with
  | nil => rfl
  | cons x xs ih => rw [firLine, ih, List.length_set]

/-- One more sample enters the line at the index that the samples before it have left (R163). -/
theorem firLine_append {len idx : Nat} (hi : idx < len) (xs : List F64) (x : F64) (vs : List F64) :
    firLine len (xs ++ [x]) vs idx = (firLine len xs vs idx).set ((idx + xs.length) % len) x := by
  induction xs generalizing vs idx with
  | nil => simp [firLine, Nat.mod_eq_of_lt hi]
  | cons y ys ih =>
    have next := ih (Nat.mod_lt (idx + 1) (Nat.zero_lt_of_lt hi)) (vs.set idx y)
    rw [Nat.mod_add_mod] at next
    rw [List.cons_append, firLine, firLine, next, List.length_cons, Nat.add_assoc, Nat.add_comm 1]

/-- One more sample gives one more output, of the line that the samples before it have left (R163). -/
theorem firRun_append {cs : List F64} {idx : Nat} (hi : idx < cs.length) (xs : List F64) (x : F64) (vs : List F64) :
    firRun cs (xs ++ [x]) vs idx =
      firRun cs xs vs idx ++ [firValue cs (firLine cs.length xs vs idx) ((idx + xs.length) % cs.length) x] := by
  induction xs generalizing vs idx with
  | nil => simp [firRun, firLine, Nat.mod_eq_of_lt hi]
  | cons y ys ih =>
    have next := ih (Nat.mod_lt (idx + 1) (Nat.zero_lt_of_lt hi)) (vs.set idx y)
    rw [Nat.mod_add_mod] at next
    rw [List.cons_append, firRun, firRun, firLine, next, List.length_cons, Nat.add_assoc, Nat.add_comm 1, List.cons_append]

theorem firRun_length (cs xs vs : List F64) (idx : Nat) : (firRun cs xs vs idx).length = xs.length := by
  induction xs generalizing vs idx with
  | nil => rfl
  | cons x xs ih => rw [firRun, List.length_cons, ih, List.length_cons]

theorem nth_append_left {xs : List F64} {k : Nat} (hk : k < xs.length) (ys : List F64) : nth (xs ++ ys) k = nth xs k :=
  List.getD_append _ _ _ _ hk

theorem nth_append_last (xs : List F64) (x : F64) : nth (xs ++ [x]) xs.length = x :=
  nth_eq List.getElem?_concat_length

/-- The carrier phase moves on by one increment a sub-sample (R241). -/
theorem phaseAt_succ (inc : F64) (t k : Nat) (v : F64) :
    phaseAt inc t (k + 1) v = wrap (Fp.add (phaseAt inc t k v) inc) t := by
  induction k generalizing v with
  | zero => rfl
  | succ k ih => exact ih _

/-! ## The rails of a symbol -/

/-- The excitation of a rail over `n` sub-samples: its coordinate on the first and +0.0 after it (R241). -/
def impulse (x : F64) (n : Nat) : List F64 := (List.range n).map fun k => if k = 0 then x else Fp.zero

theorem impulse_length (x : F64) (n : Nat) : (impulse x n).length = n := by simp [impulse]

theorem impulse_succ (x : F64) (n : Nat) : impulse x (n + 1) = impulse x n ++ [if n = 0 then x else Fp.zero] := by
  simp [impulse, List.range_succ]

/-- The shaped samples of a rail: filtered with RRC_EN = 1, held otherwise (R241). -/
def shapedRail (c : MapConfig) (cs vs : List F64) (idx : Nat) (x : F64) (n : Nat) : List F64 :=
  if c.rrcEn = 1 then firRun cs (impulse x n) vs idx else List.replicate n x

/-- The index of a rail's delay line after `n` sub-samples. -/
def railIdx (c : MapConfig) (len idx n : Nat) : Nat := if c.rrcEn = 1 then (idx + n) % len else idx

theorem shapedRail_length (c : MapConfig) (cs vs : List F64) (idx : Nat) (x : F64) (n : Nat) :
    (shapedRail c cs vs idx x n).length = n := by
  unfold shapedRail
  split
  · rw [firRun_length, impulse_length]
  · exact List.length_replicate

/-- The shaped sample of sub-sample `n`. -/
theorem shapedRail_succ {c : MapConfig} {cs : List F64} {idx : Nat} (hi : c.rrcEn = 1 → idx < cs.length) (vs : List F64)
    (x : F64) (n : Nat) :
    shapedRail c cs vs idx x (n + 1) =
      shapedRail c cs vs idx x n ++
        [if c.rrcEn = 1 then
            firValue cs (firLine cs.length (impulse x n) vs idx) ((idx + n) % cs.length) (if n = 0 then x else Fp.zero)
          else x] := by
  unfold shapedRail
  by_cases h1 : c.rrcEn = 1
  · simp only [if_pos h1]
    rw [impulse_succ, firRun_append (hi h1), impulse_length]
  · simp only [if_neg h1]
    exact List.replicate_succ'

theorem nth_shapedRail_last {c : MapConfig} {cs : List F64} {idx : Nat} (hi : c.rrcEn = 1 → idx < cs.length) (vs : List F64)
    (x : F64) (n : Nat) :
    nth (shapedRail c cs vs idx x (n + 1)) n =
      if c.rrcEn = 1 then
        firValue cs (firLine cs.length (impulse x n) vs idx) ((idx + n) % cs.length) (if n = 0 then x else Fp.zero)
      else x := by
  have last := nth_append_last (shapedRail c cs vs idx x n)
  rw [shapedRail_length] at last
  rw [shapedRail_succ hi, last]

theorem nth_shapedRail_succ {c : MapConfig} {cs : List F64} {idx k n : Nat} (hi : c.rrcEn = 1 → idx < cs.length) (vs : List F64)
    (x : F64) (hk : k < n) : nth (shapedRail c cs vs idx x (n + 1)) k = nth (shapedRail c cs vs idx x n) k := by
  rw [shapedRail_succ hi, nth_append_left (by rwa [shapedRail_length])]

/-- Some phase of the first `n` sub-samples is not finite (R162). -/
def phaseLost (inc : F64) (t : Nat) (v : F64) (n : Nat) : Bool :=
  (List.range n).any fun k => !Fp.isFinite (Fp.add (phaseAt inc t k v) inc)

theorem phaseLost_succ (inc : F64) (t : Nat) (v : F64) (n : Nat) :
    phaseLost inc t v (n + 1) = (phaseLost inc t v n || !Fp.isFinite (Fp.add (phaseAt inc t n v) inc)) := by
  simp [phaseLost, List.range_succ]

/-! ## One sub-sample -/

/-- The words a symbol reads: the carrier's cosine and sine of each sub-sample, the coefficients and the two delay lines. -/
structure SymbolWords where
  c : Nat → F64
  d : Nat → F64
  cs : List F64
  vi : List F64
  vq : List F64

/-- The transmit filters find their words, with RRC_EN = 1, after `n` sub-samples of the point `u` from the state `s`. -/
abbrev SymbolWords.Lines (w : SymbolWords) (u : Point) (s : State) (n : Nat) (t : State) : Prop :=
  s.mapCfg.rrcEn = 1 →
    RrcHeld t.mem .txi .txq t.map.txiIdx t.map.txqIdx w.cs (firLine w.cs.length (impulse u.i n) w.vi s.map.txiIdx)
      (firLine w.cs.length (impulse u.q n) w.vq s.map.txqIdx)

/-- What `n` sub-samples of the point `u` make of the state `s` (R241). -/
structure Modulated (w : SymbolWords) (u : Point) (s : State) (n : Nat) (t : State) : Prop where
  rest : t = { s with mem := t.mem, map := t.map, numeric := t.numeric, irqStatus := t.irqStatus }
  map : t.map =
    { s.map with
      modPhase := phaseAt s.mapCfg.modInc s.mapCfg.modTsize.toNat n s.map.modPhase
      txiIdx := railIdx s.mapCfg w.cs.length s.map.txiIdx n
      txqIdx := railIdx s.mapCfg w.cs.length s.map.txqIdx n }
  numeric : t.numeric =
    (s.numeric || phaseLost s.mapCfg.modInc s.mapCfg.modTsize.toNat s.map.modPhase n)
  irq : t.irqStatus =
    s.irqStatus ||| if phaseLost s.mapCfg.modInc s.mapCfg.modTsize.toNat s.map.modPhase n then 0x40#8 else 0#8
  samples : ∀ k, k < n → t.mem.word (.ram .modOut) k =
    some
      (Fp.add (Fp.mul (nth (shapedRail s.mapCfg w.cs w.vi s.map.txiIdx u.i n) k) (w.c k))
        (Fp.mul (nth (shapedRail s.mapCfg w.cs w.vq s.map.txqIdx u.q n) k) (w.d k)))
  lines : w.Lines u s n t
  frame : SameExcept
    (fun b i =>
      (b = .ram .modOut ∧ i < n) ∨ (s.mapCfg.rrcEn = 1 ∧ (b = .line .txi ∨ b = .line .txq) ∧ i < w.cs.length))
    s.mem t.mem

/-- The events of two guards in a row. -/
theorem guardBit_or (i : BitVec 8) (lost finite : Bool) :
    (i ||| if lost then 0x40#8 else 0#8) ||| (if finite then 0#8 else 0x40#8) =
      i ||| if lost || !finite then 0x40#8 else 0#8 := by
  cases lost <;> cases finite <;> simp [BitVec.or_assoc]

/-- The guard of one sub-sample (R162, R241). -/
theorem modSample_guard {u : Point} {s t : State} {k : Nat} (h : modSample u s k = .ok t) :
    t.numeric = (s.numeric || !Fp.isFinite (Fp.add s.map.modPhase s.mapCfg.modInc))
      ∧ t.irqStatus = s.irqStatus ||| if Fp.isFinite (Fp.add s.map.modPhase s.mapCfg.modInc) then 0#8 else 0x40#8 := by
  obtain ⟨sh, c, d, hs, -, -, rfl⟩ := modSample_eq_ok.mp h
  obtain ⟨shaped, -⟩ := modShape_frame hs
  have hn : sh.state.numeric = s.numeric := by rw [shaped]
  have hq : sh.state.irqStatus = s.irqStatus := by rw [shaped]
  refine ⟨(State.wrapGuard_numeric _ _).trans (by rw [hn]), (State.wrapGuard_irqStatus _ _).trans ?_⟩
  rw [hq]
  split
  · exact BitVec.or_zero.symm
  · rfl

/-- What enters the transmit filters on sub-sample `k`: the point on the first, the origin after it (R241). -/
def excitation (u : Point) (k : Nat) : Point := if k = 0 then u else ⟨Fp.zero, Fp.zero⟩

theorem excitation_i (u : Point) (k : Nat) : (excitation u k).i = if k = 0 then u.i else Fp.zero := apply_ite _ _ _ _

theorem excitation_q (u : Point) (k : Nat) : (excitation u k).q = if k = 0 then u.q else Fp.zero := apply_ite _ _ _ _

/-- The line of a rail after one more sub-sample. -/
theorem firLine_impulse_succ {len idx : Nat} (hi : idx < len) (x : F64) (n : Nat) (vs : List F64) :
    firLine len (impulse x (n + 1)) vs idx =
      (firLine len (impulse x n) vs idx).set ((idx + n) % len) (if n = 0 then x else Fp.zero) := by
  rw [impulse_succ, firLine_append hi, impulse_length]

/-- The shaping of one sub-sample with RRC_EN = 1, on readable words (R241). -/
theorem modShape_filtered {t : State} {cs vi vq : List F64} (filtered : t.mapCfg.rrcEn = 1)
    (hc : cs.length = t.mapCfg.rrcLen.toNat) (held : RrcHeld t.mem .txi .txq t.map.txiIdx t.map.txqIdx cs vi vq) (u : Point)
    (k : Nat) :
    modShape u k t =
      .ok
        { pt := ⟨firValue cs vi t.map.txiIdx (excitation u k).i, firValue cs vq t.map.txqIdx (excitation u k).q⟩
          state :=
            { t with
              mem := (t.mem.write (.line .txi) t.map.txiIdx (excitation u k).i).write (.line .txq) t.map.txqIdx
                (excitation u k).q
              map :=
                { t.map with
                  txiIdx := (t.map.txiIdx + 1) % cs.length
                  txqIdx := (t.map.txqIdx + 1) % cs.length } } } := by
  have pair := held.rrcPair_eq (by simp) (excitation u k)
  rw [hc] at pair ⊢
  exact modShape_eq_ok.mpr (.inl ⟨filtered, _, pair, rfl⟩)

/-- What a symbol asks of the state it begins in with RRC_EN = 1: coefficients of the latched length, and
indices in the lines. -/
abbrev SymbolWords.Fits (w : SymbolWords) (s : State) : Prop :=
  s.mapCfg.rrcEn = 1 → w.cs.length = s.mapCfg.rrcLen.toNat ∧ s.map.txiIdx < w.cs.length ∧ s.map.txqIdx < w.cs.length

/-- The index of a rail's line moves on by one a sub-sample with RRC_EN = 1, and rests otherwise. -/
theorem railIdx_succ {w : SymbolWords} {s : State} (fits : w.Fits s) (idx n : Nat) :
    railIdx s.mapCfg w.cs.length idx (n + 1) =
      if s.mapCfg.rrcEn = 1 then (railIdx s.mapCfg w.cs.length idx n + 1) % s.mapCfg.rrcLen.toNat
      else railIdx s.mapCfg w.cs.length idx n := by
  unfold railIdx
  split
  · rename_i h1
    rw [← (fits h1).1, Nat.mod_add_mod, Nat.add_assoc]
  · rfl

section
variable {w : SymbolWords} {u : Point} {s t : State} {n : Nat}

/-- The shaped sample of sub-sample `n`, and what its filters write (R241). -/
theorem Modulated.shape (h : Modulated w u s n t) (fits : w.Fits s) :
    ∃ sh, modShape u n t = .ok sh
      ∧ sh.pt.i = nth (shapedRail s.mapCfg w.cs w.vi s.map.txiIdx u.i (n + 1)) n
      ∧ sh.pt.q = nth (shapedRail s.mapCfg w.cs w.vq s.map.txqIdx u.q (n + 1)) n
      ∧ w.Lines u s (n + 1) sh.state
      ∧ SameExcept (fun b i => s.mapCfg.rrcEn = 1 ∧ (b = .line .txi ∨ b = .line .txq) ∧ i < w.cs.length) t.mem
        sh.state.mem := by
  have hcfg : t.mapCfg = s.mapCfg := by rw [h.rest]
  rw [nth_shapedRail_last fun h1 => (fits h1).2.1, nth_shapedRail_last fun h1 => (fits h1).2.2]
  by_cases h1 : s.mapCfg.rrcEn = 1
  · have held := h.lines h1
    obtain ⟨hc, hi, hq⟩ := fits h1
    have idxI : t.map.txiIdx = (s.map.txiIdx + n) % w.cs.length := by rw [h.map]; exact if_pos h1
    have idxQ : t.map.txqIdx = (s.map.txqIdx + n) % w.cs.length := by rw [h.map]; exact if_pos h1
    rw [if_pos h1, if_pos h1, ← excitation_i, ← excitation_q, ← idxI, ← idxQ]
    refine ⟨_, modShape_filtered (hcfg.symm ▸ h1) (hcfg.symm ▸ hc) held u n, rfl, rfl, fun _ => ?_, ?_⟩
    · rw [firLine_impulse_succ hi, firLine_impulse_succ hq, ← excitation_i, ← excitation_q, ← idxI, ← idxQ]
      exact held.next (by simp) (excitation u n)
    · refine SameExcept.mono (Memory.write_write_frame _ _ _ _ _ _ _) fun b i touched => ⟨h1, ?_⟩
      rcases touched with ⟨hb, rfl⟩ | ⟨hb, rfl⟩
      · exact ⟨.inl hb, held.idxI⟩
      · exact ⟨.inr hb, held.idxQ⟩
  · rw [if_neg h1, if_neg h1]
    exact ⟨_, modShape_eq_ok.mpr (.inr ⟨hcfg.symm ▸ h1, rfl⟩), rfl, rfl, fun h => absurd h h1, SameExcept.refl _ _⟩

/-- One more sub-sample (R241): the table is where it was, since a sub-sample writes MOD_OUT and the transmit lines alone. -/
theorem Modulated.succ (h : Modulated w u s n t) (fits : w.Fits s)
    (hcos : s.mem.word (.ram .mtab)
      ((Fp.floor (phaseAt s.mapCfg.modInc s.mapCfg.modTsize.toNat n s.map.modPhase)).toNat + s.mapCfg.modTsize.toNat / 4) =
        some (w.c n))
    (hsin : s.mem.word (.ram .mtab) (Fp.floor (phaseAt s.mapCfg.modInc s.mapCfg.modTsize.toNat n s.map.modPhase)).toNat =
      some (w.d n)) :
    ∃ t', modSample u t n = .ok t' ∧ Modulated w u s (n + 1) t' := by
  obtain ⟨sh, hsh, hI, hQ, lines, frame⟩ := h.shape fits
  have hcfg : t.mapCfg = s.mapCfg := by rw [h.rest]
  have phase : t.map.modPhase = phaseAt s.mapCfg.modInc s.mapCfg.modTsize.toNat n s.map.modPhase := by rw [h.map]
  have table : ∀ i, sh.state.mem.word (.ram .mtab) i = s.mem.word (.ram .mtab) i := fun i =>
    (frame _ i (by simp)).trans (h.frame _ i (by simp))
  rw [← phase, ← hcfg, ← table] at hcos
  rw [← phase, ← table] at hsin
  obtain ⟨t', run, mem, txi, txq⟩ : ∃ t', modSample u t n = .ok t'
      ∧ t'.mem = sh.state.mem.write (.ram .modOut) n (Fp.add (Fp.mul sh.pt.i (w.c n)) (Fp.mul sh.pt.q (w.d n)))
      ∧ t'.map.txiIdx = sh.state.map.txiIdx ∧ t'.map.txqIdx = sh.state.map.txqIdx :=
    ⟨_, modSample_eq_ok.mpr ⟨sh, w.c n, w.d n, hsh, hcos, hsin, rfl⟩, rfl, rfl, rfl⟩
  obtain ⟨rest, map, -, -⟩ := modSample_frame run
  obtain ⟨numeric, irq⟩ := modSample_guard run
  have stored := Memory.write_sameExcept sh.state.mem (.ram .modOut) n
    (Fp.add (Fp.mul sh.pt.i (w.c n)) (Fp.mul sh.pt.q (w.d n)))
  rw [← mem] at stored
  refine ⟨t', run, ?rest, ?map, ?numeric, ?irq, fun k hk => ?samples, fun h1 => ?lines, ?frame⟩
  case rest => rw [rest, h.rest]
  case map => rw [map, h.map, hcfg, phaseAt_succ, railIdx_succ fits, railIdx_succ fits]
  case numeric => rw [numeric, h.numeric, phase, hcfg, phaseLost_succ, Bool.or_assoc]
  case irq => rw [irq, h.irq, phase, hcfg, phaseLost_succ, guardBit_or]
  case samples =>
    by_cases last : k = n
    · subst last
      rw [← hI, ← hQ]
      rw [mem, Memory.word_write, if_pos ⟨rfl, rfl⟩]
    · have before : k < n := Nat.lt_of_le_of_ne (Nat.le_of_lt_succ hk) last
      rw [nth_shapedRail_succ (fun h1 => (fits h1).2.1) _ _ before, nth_shapedRail_succ (fun h1 => (fits h1).2.2) _ _ before]
      exact (stored _ k fun e => last e.2).trans ((frame _ k (by simp)).trans (h.samples k before))
  case lines =>
    rw [txi, txq]
    exact (lines h1).sameExcept stored (by simp) (by simp)
  case frame =>
    refine SameExcept.trans (SameExcept.mono h.frame fun b i touched => ?_)
      (SameExcept.trans (SameExcept.mono frame fun b i touched => .inr touched)
        (SameExcept.mono stored fun b i touched => .inl ⟨touched.1, by omega⟩))
    exact touched.imp_left fun e => ⟨e.1, Nat.lt_succ_of_lt e.2⟩

end

/-! ## The command -/

theorem modSamples_succ (u : Point) (n : Nat) (s : State) :
    modSamples u (n + 1) s = modSamples u n s >>= fun t => modSample u t n := by
  unfold modSamples
  rw [List.range_succ, List.foldlM_append]
  exact bind_congr fun t => bind_pure _

/-- The sub-samples of a symbol in their order (R241): each reads the table at the phase the ones before it have left. -/
theorem modSamples_of_words {w : SymbolWords} {u : Point} {s : State} (fits : w.Fits s) (start : w.Lines u s 0 s) {n : Nat}
    (table : ∀ k, k < n →
      s.mem.word (.ram .mtab)
          ((Fp.floor (phaseAt s.mapCfg.modInc s.mapCfg.modTsize.toNat k s.map.modPhase)).toNat
            + s.mapCfg.modTsize.toNat / 4) = some (w.c k)
        ∧ s.mem.word (.ram .mtab) (Fp.floor (phaseAt s.mapCfg.modInc s.mapCfg.modTsize.toNat k s.map.modPhase)).toNat =
          some (w.d k)) :
    ∃ t, modSamples u n s = .ok t ∧ Modulated w u s n t := by
  induction n with
  | zero =>
    have idx : ∀ i, (s.mapCfg.rrcEn = 1 → i < w.cs.length) → railIdx s.mapCfg w.cs.length i 0 = i := fun i hi => by
      unfold railIdx
      split
      · rename_i h1
        exact Nat.mod_eq_of_lt (hi h1)
      · rfl
    refine ⟨s, rfl, rfl, ?_, (Bool.or_false _).symm, BitVec.or_zero.symm, fun k hk => absurd hk (Nat.not_lt_zero k), start,
      SameExcept.refl _ _⟩
    rw [idx _ fun h1 => (fits h1).2.1, idx _ fun h1 => (fits h1).2.2]
    rfl
  | succ n ih =>
    obtain ⟨t, ht, modulated⟩ := ih fun k hk => table k (Nat.lt_succ_of_lt hk)
    obtain ⟨hcos, hsin⟩ := table n (Nat.lt_succ_self n)
    obtain ⟨t', ht', modulated'⟩ := modulated.succ fits hcos hsin
    exact ⟨t', by rw [modSamples_succ, ht]; exact ht', modulated'⟩

/-- A symbol that has a sub-sample reads every coefficient with RRC_EN = 1 (R62, R241). -/
theorem modSamples_coef_written {u : Point} {n : Nat} {s t : State} (h : modSamples u n s = .ok t) (positive : 0 < n)
    (filtered : s.mapCfg.rrcEn = 1) {k : Nat} (hk : k < s.mapCfg.rrcLen.toNat) : s.mem.word (.ram .rrcCoef) k ≠ none := by
  obtain ⟨n, rfl⟩ := Nat.exists_eq_succ_of_ne_zero (Nat.ne_of_gt positive)
  unfold modSamples at h
  rw [Nat.succ_eq_add_one, List.range_succ_eq_map, List.foldlM_cons] at h
  obtain ⟨first, hfirst, -⟩ := Run.bind_eq_ok.mp h
  obtain ⟨sh, -, -, hsh, -⟩ := modSample_eq_ok.mp hfirst
  rcases modShape_eq_ok.mp hsh with ⟨-, r, hr, -⟩ | ⟨raw, -⟩
  · exact rrcPair_coef_written hr hk
  · exact absurd filtered raw

/-- Settles O38: the sub-samples by induction, from the state that ENCODE leaves; with an unwritten coefficient the first of
them does not answer. -/
theorem modSym : Obligations.ModSym := by
  constructor
  · intro s c d cs vi vq ready n tb inc table held mode dm p u eI eQ sI sQ bad
    let w : SymbolWords := ⟨c, d, cs, vi, vq⟩
    let e := encodeSymbol s.din0 s
    have fits : w.Fits e.state := fun h1 => by
      obtain ⟨hc, -, -, -, hi, -, -, hq⟩ := held h1
      exact ⟨hc, hi, hq⟩
    have start : w.Lines u e.state 0 e.state := fun h1 => by
      obtain ⟨-, coefs, lengthI, lineI, hi, lengthQ, lineQ, hq⟩ := held h1
      exact ⟨coefs, lengthI, lineI, hi, lengthQ, lineQ, hq⟩
    obtain ⟨t, ht, modulated⟩ := modSamples_of_words fits start table
    have rule : ruleOf .modSym s = .ok (t.pointResults u p) :=
      (if_pos ready).trans (Run.bind_eq_ok.mpr ⟨t, ht, rfl⟩)
    refine ⟨_, exec_of_rule rule, rfl, rfl, rfl, rfl, modulated.samples, modulated.map, modulated.numeric, ?irq,
      fun h1 => ?lines, modulated.frame, ?rest⟩
    case irq => exact congrArg (· ||| 0x80#8) modulated.irq
    case lines => exact ⟨(modulated.lines h1).lineI, (modulated.lines h1).lineQ⟩
    case rest =>
      rw [modulated.rest]
      rfl
  · intro s k ready filtered positive hk unwritten
    refine exec_unwritten fun v answer => ?_
    rcases modSymRule_cases answer with ⟨idle, -⟩ | ⟨-, t, ht, -⟩
    · exact absurd (idle.symm.trans ready) (by simp)
    · exact modSamples_coef_written ht positive filtered hk unwritten

end Sys2Proof.Machine
end

section
/-! PROOFS. ELG_STEP on the words it reads, and the decisions of one ELG sample: ElgStep, ElgDecisions. -/

namespace Sys2Proof.Machine

open Safety

/-! ## ELG_STEP -/

/-- Settles O27: one sample on DIN0 in closed form, and the coefficients that every answer has read. -/
theorem elgStep : Obligations.ElgStep := by
  constructor
  · intro s oldM oldE elf pe ready elfLen coefs peLen line idx hm he m f k
    have sample := elgCore_of_words (x := s.din0) elfLen coefs peLen line idx hm he
    have rule : ruleOf .elgStep s = .ok _ := (if_pos ready).trans (Run.bind_eq_ok.mpr ⟨_, sample, rfl⟩)
    obtain ⟨mf, eg, elfWord⟩ := elgMemory_words s.elg s.din0 m (Fp.sub m oldE) s.mem
    exact ⟨_, exec_of_rule rule, rfl, rfl, rfl, rfl, rfl, rfl, mf, eg, elfWord, elgMemory_frame _ _ _ _ _, rfl⟩
  · intro s k ready hk unwritten
    refine exec_unwritten fun u answer => ?_
    rcases elgStepRule_cases answer with ⟨idle, -⟩ | ⟨-, g, hg, -⟩
    · exact absurd (idle.symm.trans ready) (by simp)
    · exact elgCore_coef_written hg hk unwritten

/-! ## The decisions, stage by stage -/

/-- ENTER, field by field (R205). -/
theorem enter_eq (u : ElgUnit) :
    enter u =
      { u with
        state := if u.state = .idle ∧ u.thr = true then .acquiring else u.state
        trigCnt := if u.state = .idle ∧ u.thr = true then 0 else u.trigCnt
        good := if u.state = .idle ∧ u.thr = true then 0 else u.good } := by
  unfold enter
  by_cases h : u.state = .idle ∧ u.thr = true
  · simp only [if_pos h]
  · simp only [if_neg h]

/-- LOCK, field by field (R207). -/
theorem lock_eq (ns : Nat) (zc trig correct : Bool) (u : ElgUnit) :
    let good := if u.state = .acquiring ∧ trig = true then goodAfter zc correct u else u.good
    let locks := u.state = .acquiring ∧ trig = true ∧ ns ≤ good
    lock ns zc trig correct u =
      { u with
        good := good
        state := if locks then .locked else u.state
        trigLat := if locks then u.samples else u.trigLat } := by
  unfold lock
  by_cases h : u.state = .acquiring ∧ trig = true
  · by_cases full : ns ≤ goodAfter zc correct u <;> simp [h, full]
  · simp [h, ← and_assoc]

/-- COUNTER and LOCK, field by field: where the counter rests, LOCK has nothing to do (R206, R207). -/
theorem lock_counter_eq (ns : Nat) (zc : Bool) (u : ElgUnit) :
    let cnt := u.trigCnt + 1
    let runs := u.state = .acquiring ∨ u.state = .locked
    let trig := decide runs && (zc || decide (ns ≤ cnt))
    let good := if u.state = .acquiring ∧ trig = true then (if zc = true ∧ cnt = ns then u.good + 1 else 0) else u.good
    let locks := u.state = .acquiring ∧ trig = true ∧ ns ≤ good
    let k := counter ns zc u
    k.trig = trig
      ∧ lock ns zc k.trig k.correct k.unit =
        { u with
          trigCnt := if runs then (if trig = true then 0 else cnt) else u.trigCnt
          trigUpd := decide runs && zc
          trigDet := trig
          good := good
          state := if locks then .locked else u.state
          trigLat := if locks then u.samples else u.trigLat } := by
  intro cnt runs trig good locks k
  by_cases h : runs
  · obtain ⟨fires, correct, unit⟩ := counter_running (ns := ns) (zc := zc) h
    have fired : k.trig = trig := by simp [trig, h, fires, k, cnt]
    refine ⟨fired, ?_⟩
    rw [fired, correct, unit, lock_eq]
    simp [goodAfter, good, locks, trig, cnt, h]
  · obtain ⟨searching, -⟩ := not_or.mp h
    simp [k, trig, good, locks, counter_resting h, lock_eq, searching, h]

/-- LIMIT only ever writes the state (R208). -/
theorem limit_eq (n : Nat) (u : ElgUnit) :
    limit n u =
      { u with
        state :=
          if n ≠ 0 ∧ (u.state = .idle ∨ u.state = .acquiring) ∧ n ≤ u.samples then .nolock else u.state } := by
  unfold limit
  split <;> rfl

/-! ## A row of samples while LOCKED -/

/-- One sample of a LOCKED unit: it stays LOCKED, and its counter moves on by one or starts again with a trigger, at the latest
after Ns samples (R206, R212 (b)). -/
theorem elgDecide_locked {c : ClConfig} {u : ElgUnit} (h : u.state = .locked) (m f : F64) :
    let k := elgDecide c m f u
    k.unit.state = .locked ∧ (c.elgSymlen.toNat ≤ u.trigCnt + 1 → k.trig = true)
      ∧ k.unit.trigCnt = if k.trig = true then 0 else u.trigCnt + 1 := by
  have entered : enter (detect c.elgThresh m f u) = detect c.elgThresh m f u := if_neg (by simp [detect, h])
  obtain ⟨fires, -, unit⟩ := counter_running (ns := c.elgSymlen.toNat) (zc := zeroCross c.elgThresh m f u)
    (u := detect c.elgThresh m f u) (.inr h)
  simp only [elgDecide, entered, fires, unit]
  simp +contextual [lock_eq, limit_eq, detect, h]

/-- A row of samples of a LOCKED unit: it stays LOCKED with its counter below Ns, and a row long enough for the counter to
reach Ns has a trigger in it (R212 (b)). -/
theorem elgRun_locked {c : ClConfig} (xs : List (F64 × F64)) {u : ElgUnit} (h : u.state = .locked)
    (below : u.trigCnt < c.elgSymlen.toNat) :
    (c.elgSymlen.toNat ≤ u.trigCnt + xs.length → true ∈ (elgRun c xs u).1)
      ∧ (elgRun c xs u).2.state = .locked ∧ (elgRun c xs u).2.trigCnt < c.elgSymlen.toNat := by
  induction xs generalizing u with
  | nil => exact ⟨fun reached => absurd below (Nat.not_lt.mpr reached), h, below⟩
  | cons x xs ih =>
    obtain ⟨m, f⟩ := x
    obtain ⟨locked, fires, count⟩ := elgDecide_locked (c := c) h m f
    by_cases fired : (elgDecide c m f u).trig = true
    · rw [if_pos fired] at count
      obtain ⟨-, kept⟩ := ih locked (by omega)
      exact ⟨fun _ => fired ▸ List.mem_cons_self, kept⟩
    · rw [if_neg fired] at count
      obtain ⟨reaches, kept⟩ := ih locked (count ▸ Nat.lt_of_not_le fun full => fired (fires full))
      refine ⟨fun reached => List.mem_cons_of_mem _ (reaches ?_), kept⟩
      rw [List.length_cons] at reached
      omega

/-! ## The decisions -/

/-- Settles O31: the stages composed, where a unit whose counter rests was not entered by this sample and keeps its counter;
and a row of Ns samples from a LOCKED unit. -/
theorem elgDecisions : Obligations.ElgDecisions := by
  constructor
  · intro c m f u ns thr zc enters st1 good1 cnt runs trig good2 locks st2 limits
    have entered := enter_eq (detect c.elgThresh m f u)
    obtain ⟨fires, left⟩ := lock_counter_eq ns zc (enter (detect c.elgThresh m f u))
    have rested : (if runs then (if trig = true then 0 else cnt) else if enters then 0 else u.trigCnt) =
        if runs then (if trig = true then 0 else cnt) else u.trigCnt :=
      if_ctx_congr Iff.rfl (fun _ => rfl) fun rests => if_neg fun e => rests (.inl (if_pos e))
    refine ⟨fires.trans (by rw [entered]; rfl), (congrArg (limit c.acqLimit.toNat) left).trans ?_⟩
    rw [limit_eq, entered, ← rested]
    rfl
  · intro c u xs locked below length
    obtain ⟨fires, kept⟩ := elgRun_locked xs locked below
    exact ⟨fires (by omega), kept⟩

end Sys2Proof.Machine
end

section
/-! PROOFS. The tables and decision regions of the constellation unit, and differential coding: ConstellationTables, DiffCoding. -/

namespace Sys2Proof.Machine

/-! ## Fields of a word -/

theorem field_eq (v : Word) (lo width : Nat) : field v lo width = v.toNat / 2 ^ lo % 2 ^ width := by
  unfold field
  rw [Nat.shiftRight_eq_div_pow, Nat.one_shiftLeft]

/-- A field of one bit is that bit (R10). -/
theorem field_bit (v : Word) (k : Nat) : field v k 1 = (v.getLsbD k).toNat := by
  rw [field_eq, BitVec.getLsbD, Nat.toNat_testBit, Nat.pow_one]

/-! ## Modes -/

theorem modMode_of_zero {c : MapConfig} (h : c.modMode = 0) : modMode c = .bpsk := by
  unfold modMode
  rw [h]
  rfl

theorem modMode_of_one {c : MapConfig} (h : c.modMode = 1) : modMode c = .qpsk := by
  unfold modMode
  rw [h]
  rfl

theorem modMode_of_two {c : MapConfig} (h : c.modMode = 2) : modMode c = .qam16 := by
  unfold modMode
  rw [h]
  rfl

theorem modMode_of_three {c : MapConfig} (h : c.modMode = 3) : modMode c = .dpsk := by
  unfold modMode
  rw [h]
  rfl

theorem diffModulus_bpsk {c : MapConfig} (h : modMode c = .bpsk) : diffModulus c = 0 := by
  unfold diffModulus
  rw [h]

theorem diffModulus_qpsk {c : MapConfig} (h : modMode c = .qpsk) : diffModulus c = if c.diffEn = 1 then 4 else 0 := by
  unfold diffModulus
  rw [h]

theorem diffModulus_qam16 {c : MapConfig} (h : modMode c = .qam16) : diffModulus c = if c.diffEn = 1 then 4 else 0 := by
  unfold diffModulus
  rw [h]

theorem diffModulus_dpsk {c : MapConfig} (h : modMode c = .dpsk) : diffModulus c = 2 := by
  unfold diffModulus
  rw [h]

/-! ## Quadrants and the Gray map -/

/-- The quadrant by the signs of the coordinates (R231). -/
theorem quadrant_eq (i q : F64) :
    quadrant i q =
      if Fp.lt i Fp.zero = true then (if Fp.lt q Fp.zero = true then 2 else 1)
      else (if Fp.lt q Fp.zero = true then 3 else 0) := by
  unfold quadrant
  cases Fp.lt i Fp.zero <;> cases Fp.lt q Fp.zero <;> rfl

theorem gray_lt (b : Nat) : gray b < 4 := by
  unfold gray
  split <;> decide

theorem grayInv_gray {b : Nat} (h : b < 4) : grayInv (gray b) = b := by
  have table : ∀ b < 4, grayInv (gray b) = b := by decide
  exact table b h

theorem gray_grayInv {p : Nat} (h : p < 4) : gray (grayInv p) = p := by
  have table : ∀ p < 4, gray (grayInv p) = p := by decide
  exact table p h

/-! ## Quarter turns -/

/-- A turned point, quarter turn by quarter turn (R233). -/
theorem turn_eq (p : Nat) (a c : F64) :
    turn p a c =
      if p = 0 then ⟨a, c⟩ else if p = 1 then ⟨Fp.neg c, a⟩ else if p = 2 then ⟨Fp.neg a, Fp.neg c⟩ else ⟨c, Fp.neg a⟩ := by
  match p with
  | 0 | 1 | 2 | _ + 3 => rfl

/-- The coordinates of a point turned back, quarter turn by quarter turn (R234). -/
theorem derotate_eq (p : Nat) (i q : F64) :
    derotate p i q =
      ⟨if p = 0 then i else if p = 1 then q else if p = 2 then Fp.neg i else Fp.neg q,
        if p = 0 then q else if p = 1 then Fp.neg i else if p = 2 then Fp.neg q else i⟩ := by
  match p with
  | 0 | 1 | 2 | _ + 3 => rfl

/-- DECIDE turns back what POINT has turned: a sign flipped twice is the sign it was (R17, R233, R234). -/
theorem derotate_turn (p : Nat) (a c : F64) : derotate p (turn p a c).i (turn p a c).q = ⟨a, c⟩ := by
  match p with
  | 0 => rfl
  | 1 | 2 | _ + 3 => simp only [turn, derotate, Fp.neg_neg]

/-! ## Points and decisions -/

theorem ring_toNat (b : Bool) : ring b.toNat = if b = true then Fp.three else Fp.one := by cases b <;> rfl

/-- A QAM16 point: its ring coordinates turned to the quadrant of its phase index (R233). -/
theorem pointOf_qam16 (p : Nat) (w : Word) :
    pointOf .qam16 p w =
      turn p (if w.getLsbD 1 = true then Fp.three else Fp.one) (if w.getLsbD 0 = true then Fp.three else Fp.one) := by
  rw [← ring_toNat, ← ring_toNat, ← field_bit, ← field_bit]
  rfl

theorem two_mul_toNat_add_toNat (x y : Bool) :
    2 * x.toNat + y.toNat = (if x = true then 2 else 0) + (if y = true then 1 else 0) := by
  cases x <;> cases y <;> rfl

/-- The QAM16 decision: the quadrant, and a ring bit for each coordinate turned back beyond the threshold (R234). -/
theorem decideSymbol_qam16 (th i q : F64) :
    decideSymbol .qam16 th i q =
      ⟨quadrant i q,
        (if Fp.lt th (derotate (quadrant i q) i q).i = true then 2 else 0)
          + (if Fp.lt th (derotate (quadrant i q) i q).q = true then 1 else 0)⟩ :=
  congrArg (Decision.mk _) (two_mul_toNat_add_toNat _ _)

/-- The half-plane modes decide on the sign of I (R234). -/
theorem decideSymbol_halfPlane {mode : ModMode} (h : mode ∈ [ModMode.bpsk, .dpsk]) (th i q : F64) :
    decideSymbol mode th i q = ⟨if Fp.lt i Fp.zero = true then 1 else 0, 0⟩ := by
  have sign : (Fp.lt i Fp.zero).toNat = if Fp.lt i Fp.zero = true then 1 else 0 := by cases Fp.lt i Fp.zero <;> rfl
  rcases List.mem_pair.mp h with rfl | rfl <;> exact congrArg (Decision.mk · 0) sign

/-! ## Symbol bits -/

theorem symbolPhase_halfPlane {mode : ModMode} (h : mode ∈ [ModMode.bpsk, .dpsk]) (w : Word) :
    symbolPhase mode w = w.toNat % 2 := by
  have bit : field w 0 1 = w.toNat % 2 := by simp [field_eq]
  rcases List.mem_pair.mp h with rfl | rfl <;> exact bit

theorem symbolPhase_qpsk (w : Word) : symbolPhase .qpsk w = gray (w.toNat % 4) :=
  congrArg gray (by simp [field_eq])

theorem symbolPhase_qam16 (w : Word) : symbolPhase .qam16 w = gray (w.toNat / 4 % 4) := congrArg gray (field_eq w 2 2)

theorem symbolBits_halfPlane {mode : ModMode} (h : mode ∈ [ModMode.bpsk, .dpsk]) (pd low : Nat) :
    symbolBits mode pd low = pd := by
  rcases List.mem_pair.mp h with rfl | rfl <;> rfl

/-- Settles O32: each table by the equation of its function; the listed points by evaluation. -/
theorem constellationTables : Obligations.ConstellationTables := by
  refine ⟨fun c => ⟨fun h => ?bpsk, fun h => ?qpsk, fun h => ?qam16, fun h => ?dpsk⟩, ?decisions, fun p w _ => ?point,
    fun w => ⟨fun mode h => symbolPhase_halfPlane h w, symbolPhase_qpsk w, symbolPhase_qam16 w⟩,
    fun pd low => ⟨fun mode h => symbolBits_halfPlane h pd low, rfl, rfl⟩, rfl,
    fun b h => ⟨grayInv_gray h, gray_grayInv h⟩, by decide, fun mode h w => ?halfPlanePoints, fun w => ?qpskPoints, by decide⟩
  case bpsk => exact ⟨modMode_of_zero h, diffModulus_bpsk (modMode_of_zero h)⟩
  case qpsk => exact ⟨modMode_of_one h, diffModulus_qpsk (modMode_of_one h)⟩
  case qam16 => exact ⟨modMode_of_two h, diffModulus_qam16 (modMode_of_two h)⟩
  case dpsk => exact ⟨modMode_of_three h, diffModulus_dpsk (modMode_of_three h)⟩
  case decisions =>
    intro th i q nI nQ p a c
    have quad : quadrant i q = p := quadrant_eq i q
    refine ⟨quad, fun mode h => decideSymbol_halfPlane h th i q, congrArg (Decision.mk · 0) quad, ?_⟩
    rw [decideSymbol_qam16, quad, derotate_eq]
  case point => rw [pointOf_qam16, turn_eq]
  case halfPlanePoints =>
    rcases List.mem_pair.mp h with rfl | rfl <;> rfl
  case qpskPoints =>
    have negOne : Fp.neg Fp.one = Fp.negOne := by decide
    simp only [List.map_cons, List.map_nil, pointOf, turn, negOne]

/-! ## Differential coding -/

theorem diffEnc_of_ne_zero {dm : Nat} (h : dm ≠ 0) (prev pd : Nat) : diffEnc dm prev pd = (pd + prev) % dm := if_neg h

theorem diffDec_of_ne_zero {dm : Nat} (h : dm ≠ 0) (prev p : Nat) :
    diffDec dm prev p = (((p : Int) - (prev : Int)) % (dm : Int)).toNat := if_neg h

theorem diffNext_zero (prev p : Nat) : diffNext 0 prev p = prev := rfl

theorem diffNext_of_ne_zero {dm : Nat} (h : dm ≠ 0) (prev p : Nat) : diffNext dm prev p = p := if_neg h

/-- Decoding undoes encoding over one retained index, whatever it is; with DM = 0 no index is read (R236). -/
theorem diffDec_diffEnc {dm prev prev' pd : Nat} (same : dm ≠ 0 → prev' = prev) (below : dm ≠ 0 → pd < dm) :
    diffDec dm prev' (diffEnc dm prev pd) = pd := by
  by_cases h0 : dm = 0
  · subst h0
    rfl
  · have small : (pd : Int) % dm = pd := Int.emod_eq_of_lt (Int.natCast_nonneg pd) (Int.ofNat_lt.mpr (below h0))
    have difference : (((pd + prev) % dm : Nat) - prev : Int) % dm = pd := by
      rw [Int.natCast_mod, Int.emod_sub_emod, Int.natCast_add, Int.add_sub_cancel, small]
    rw [same h0, diffEnc_of_ne_zero h0, diffDec_of_ne_zero h0, difference, Int.toNat_natCast]

/-- Settles O36. -/
theorem diffCoding : Obligations.DiffCoding := by
  refine ⟨fun dm prev p h => ⟨diffEnc_of_ne_zero h _ _, ?difference, diffNext_of_ne_zero h _ _⟩,
    fun prev p => ⟨rfl, rfl, rfl⟩, fun dm s pd below _ => diffDec_diffEnc (fun _ => rfl) fun _ => below, ?xor⟩
  case difference =>
    rw [diffDec_of_ne_zero h]
    exact Int.toNat_of_nonneg (Int.emod_nonneg _ (Int.natCast_ne_zero.mpr h))
  case xor =>
    have table : ∀ a < 2, ∀ b < 2, diffEnc 2 a b = a ^^^ b := by decide
    exact fun a b ha hb => table a ha b hb

end Sys2Proof.Machine
end

section
/-! PROOFS. MAP_INIT, MAP_ENC and MAP_DEC, and the round trip of a symbol through the last two: MapInit, MapEncDec, MapRoundTrip. -/

namespace Sys2Proof.Machine

open Safety

/-! ## MAP_INIT -/

/-- The checks of MAP_INIT in their order (R237, R347), each written out. -/
theorem mapCheck_eq (p : Params) (c : MapConfig) :
    mapCheck p c =
      if ¬ TableOk p c.modTsize then some .cfgTable
      else if ¬ MapLengthsOk p c then some .cfgLength
      else if ¬ MapModesOk c then some .cfgMode
      else if ¬ MapValuesOk c then some .cfgValue
      else none := by
  unfold mapCheck
  refine if_congr (by omega) rfl (if_congr ?lengths rfl (if_congr (by omega) rfl (if_congr ?values rfl rfl)))
  case lengths =>
    simp only [Bool.or_eq_true, Bool.and_eq_true, Bool.not_eq_true', Bool.and_eq_false_iff, decide_eq_false_iff_not, beq_iff_eq]
    tauto
  case values => simp only [Bool.not_eq_true', ← Bool.not_eq_true, Bool.and_eq_true]

theorem exec_mapInit_of_fail {s : State} {e : ErrCode} (h : mapCheck s.par s.mapReg = some e) :
    exec .mapInit s = .next (({ s with mapReady := false } : State).raise e).complete := by
  refine exec_of_rule (congrArg Except.ok ?_)
  unfold mapInitRule
  rw [h]

theorem exec_mapInit_of_pass {s : State} (h : mapCheck s.par s.mapReg = none) :
    exec .mapInit s = .next (mapInitDone s).complete := by
  refine exec_of_rule (congrArg Except.ok ?_)
  unfold mapInitRule
  rw [h]

theorem mapInitMemory_holds (p : Params) (t : Nat) (m : Memory) : Holds (mapInitMemory p t m) (.ram .mtab) (qsin t) := by
  intro i hi
  rw [mapInitMemory_mtab, if_pos (by rwa [qsin_length] at hi)]

/-- MAP_INIT clears its delay lines over their whole capacity (R237). -/
theorem mapInitMemory_line_holds {p : Params} {l : Line} (hl : l ∈ mapLines) (t : Nat) (m : Memory) :
    Holds (mapInitMemory p t m) (.line l) (List.replicate (l.capacity p) Fp.zero) := by
  intro i hi
  rw [List.length_replicate] at hi
  rw [mapInitMemory_line hl, if_pos hi, List.getElem?_replicate, if_pos hi]

/-- MAP_INIT writes the words of MTAB below 5·T/4 and its delay lines, and no other (R237). -/
theorem mapInitMemory_frame (p : Params) (t : Nat) (m : Memory) :
    SameExcept (fun b i => (b = .ram .mtab ∧ i < 5 * t / 4) ∨ ∃ l ∈ mapLines, b = .line l) m (mapInitMemory p t m) := by
  intro b i outside
  rw [not_or] at outside
  obtain ⟨table, lines⟩ := outside
  by_cases hb : b = .ram .mtab
  · subst hb
    rw [mapInitMemory_mtab, if_neg fun hi => table ⟨rfl, hi⟩]
  · have apart : ∀ l ∈ mapLines, b ≠ .line l := fun l hl e => lines ⟨l, hl, e⟩
    simp only [List.forall_mem_cons] at apart
    obtain ⟨txi, txq, rxi, rxq, -⟩ := apart
    simp [mapInitMemory, hb, txi, txq, rxi, rxq]

/-- Settles O33: the checks in their order, and what passing them all writes. -/
theorem mapInit : Obligations.MapInit := by
  intro s
  have check := mapCheck_eq s.par s.mapReg
  refine ⟨fun table => ?table, fun table lengths => ?lengths, fun table lengths modes => ?modes,
    fun table lengths modes values => ?values, fun table lengths modes values => ?pass⟩
  case table =>
    rw [if_pos table] at check
    exact exec_mapInit_of_fail check
  case lengths =>
    rw [if_neg (not_not.mpr table), if_pos lengths] at check
    exact exec_mapInit_of_fail check
  case modes =>
    rw [if_neg (not_not.mpr table), if_neg (not_not.mpr lengths), if_pos modes] at check
    exact exec_mapInit_of_fail check
  case values =>
    rw [if_neg (not_not.mpr table), if_neg (not_not.mpr lengths), if_neg (not_not.mpr modes), if_pos values] at check
    exact exec_mapInit_of_fail check
  case pass =>
    refine ⟨_, exec_mapInit_of_pass (mapCheck_eq_none.mpr ⟨table, lengths, modes, values⟩), rfl, rfl, rfl, rfl, rfl, rfl,
      mapInitMemory_holds _ _ _, ?lines, mapInitMemory_frame _ _ _⟩
    have cleared := fun {l : Line} (hl : l ∈ mapLines) =>
      mapInitMemory_line_holds (p := s.par) hl s.mapReg.modTsize.toNat s.mem
    simp only [List.forall_mem_cons]
    exact ⟨cleared (l := .txi) (by simp), cleared (l := .txq) (by simp), cleared (l := .rxi) (by simp),
      cleared (l := .rxq) (by simp), by simp⟩

/-! ## MAP_ENC and MAP_DEC -/

/-- MAP_ENC of a ready unit is ENCODE of DIN0 (R238). -/
theorem exec_mapEnc_of_ready {s : State} (ready : s.mapReady = true) :
    exec .mapEnc s =
      .next ((encodeSymbol s.din0 s).state.pointResults (encodeSymbol s.din0 s).pt (encodeSymbol s.din0 s).p).complete :=
  exec_of_rule (congrArg Except.ok (if_pos ready))

/-- MAP_DEC of a ready unit is DECODE of the pair in DIN0 and DIN1 (R239). -/
theorem exec_mapDec_of_ready {s : State} (ready : s.mapReady = true) :
    exec .mapDec s =
      .next
        ({ (decodeSymbol s.din0 s.din1 s).state with
            dout0 := u64 (decodeSymbol s.din0 s.din1 s).bits
            dout1 := u64 (decodeSymbol s.din0 s.din1 s).p } : State).complete :=
  exec_of_rule (congrArg Except.ok (if_pos ready))

/-- Settles O34. -/
theorem mapEncDec : Obligations.MapEncDec :=
  ⟨fun _ ready => exec_mapEnc_of_ready ready, fun _ ready => exec_mapDec_of_ready ready⟩

/-! ## A point decides to the index and the bits it was made of -/

/-- The bits per symbol, BPS (R230). -/
def ModMode.bitsPerSymbol : ModMode → Nat
  | .bpsk => 1
  | .qpsk => 2
  | .qam16 => 4
  | .dpsk => 1

/-- How many phase indices a mode has: two half-planes, or four quadrants (R231). -/
def ModMode.phaseCount : ModMode → Nat
  | .bpsk => 2
  | .qpsk => 4
  | .qam16 => 4
  | .dpsk => 2

/-- The ring bits of a symbol word, which only QAM16 has (R233). -/
def ModMode.ringBits (mode : ModMode) (w : Word) : Nat :=
  match mode with
  | .bpsk => 0
  | .qpsk => 0
  | .qam16 => 2 * field w 1 1 + field w 0 1
  | .dpsk => 0

theorem symbolPhase_lt (mode : ModMode) (w : Word) : symbolPhase mode w < mode.phaseCount := by
  cases mode with
  | bpsk => exact (symbolPhase_halfPlane (mode := .bpsk) (by simp) w).trans_lt (Nat.mod_lt _ (by decide))
  | dpsk => exact (symbolPhase_halfPlane (mode := .dpsk) (by simp) w).trans_lt (Nat.mod_lt _ (by decide))
  | qpsk => exact gray_lt _
  | qam16 => exact gray_lt _

/-- A differential modulus is the number of phase indices (R230). -/
theorem diffModulus_eq_phaseCount {c : MapConfig} (h : diffModulus c ≠ 0) : diffModulus c = (modMode c).phaseCount := by
  cases hm : modMode c with
  | bpsk => exact absurd (diffModulus_bpsk hm) h
  | dpsk => exact diffModulus_dpsk hm
  | qpsk =>
    rw [diffModulus_qpsk hm] at h ⊢
    exact if_pos (ite_ne_right_iff.mp h).1
  | qam16 =>
    rw [diffModulus_qam16 hm] at h ⊢
    exact if_pos (ite_ne_right_iff.mp h).1

/-- The transmitted phase index is one of the mode's, with differential coding or without (R235). -/
theorem diffEnc_symbolPhase_lt (c : MapConfig) (prev : Nat) (w : Word) :
    diffEnc (diffModulus c) prev (symbolPhase (modMode c) w) < (modMode c).phaseCount := by
  by_cases h0 : diffModulus c = 0
  · rw [h0]
    exact symbolPhase_lt _ w
  · rw [← diffModulus_eq_phaseCount h0]
    exact diffEnc_lt h0 _ _

theorem field_bit_lt (w : Word) (k : Nat) : field w k 1 < 2 := by
  rw [field_bit]
  exact Bool.toNat_lt _

/-- A ring point turned by `p` quarter turns lies in quadrant `p`: the sixteen points (R233). -/
theorem quadrant_turn_ring {p b b' : Nat} (hp : p < 4) (hb : b < 2) (hb' : b' < 2) :
    quadrant (turn p (ring b) (ring b')).i (turn p (ring b) (ring b')).q = p := by
  have table : ∀ p < 4, ∀ b < 2, ∀ b' < 2,
      quadrant (turn p (ring b) (ring b')).i (turn p (ring b) (ring b')).q = p := by decide
  exact table p hp b hb b' hb'

/-- A threshold between the rings reads the bit of a ring coordinate back (R234). -/
theorem lt_ring {th : F64} (low : Fp.lt Fp.one th = true) (high : Fp.lt th Fp.three = true) {b : Nat} (hb : b < 2) :
    (Fp.lt th (ring b)).toNat = b := by
  match b with
  | 0 => exact congrArg Bool.toNat (Fp.lt_asymm low)
  | 1 => exact congrArg Bool.toNat high

/-- Every point of R233 decides to its phase index and its ring bits (R234). -/
theorem decideSymbol_pointOf {mode : ModMode} {th : F64}
    (thresh : mode = .qam16 → Fp.lt Fp.one th = true ∧ Fp.lt th Fp.three = true) {p : Nat} (hp : p < mode.phaseCount)
    (w : Word) :
    decideSymbol mode th (pointOf mode p w).i (pointOf mode p w).q = ⟨p, mode.ringBits w⟩ := by
  have halfPlane : ∀ p < 2, (Fp.lt (bpskPoint p).i Fp.zero).toNat = p := by decide
  cases mode with
  | bpsk => exact congrArg (Decision.mk · 0) (halfPlane p hp)
  | dpsk => exact congrArg (Decision.mk · 0) (halfPlane p hp)
  | qpsk => exact congrArg (Decision.mk · 0) (quadrant_turn_ring (b := 0) (b' := 0) hp (by decide) (by decide))
  | qam16 =>
    obtain ⟨low, high⟩ := thresh rfl
    have quad := quadrant_turn_ring hp (field_bit_lt w 1) (field_bit_lt w 0)
    simp only [decideSymbol, pointOf, ModMode.ringBits, quad, derotate_turn, lt_ring low high (field_bit_lt w _)]

/-- The phase and the ring bits of a symbol word are its symbol bits (R230, R242). -/
theorem symbolBits_symbolPhase (mode : ModMode) (w : Word) :
    symbolBits mode (symbolPhase mode w) (mode.ringBits w) = w.toNat % 2 ^ mode.bitsPerSymbol := by
  cases mode with
  | bpsk => exact symbolPhase_halfPlane (mode := .bpsk) (by simp) w
  | dpsk => exact symbolPhase_halfPlane (mode := .dpsk) (by simp) w
  | qpsk =>
    rw [symbolPhase_qpsk]
    exact grayInv_gray (Nat.mod_lt _ (by decide))
  | qam16 =>
    have quad := grayInv_gray (Nat.mod_lt (w.toNat / 4) (by decide : 4 > 0))
    simp only [symbolPhase_qam16, symbolBits, quad, ModMode.ringBits, ModMode.bitsPerSymbol, field_eq]
    omega

/-! ## The round trip -/

/-- DECODE of the point of ENCODE(w) over one retained index: the symbol bits of `w`, and the phase index sent (R242). -/
theorem decodeSymbol_encodeSymbol {s r : State} {w : Word} (cfg : r.mapCfg = s.mapCfg)
    (prev : diffModulus s.mapCfg ≠ 0 → r.map.rxPrev = s.map.txPrev)
    (thresh : modMode s.mapCfg = .qam16 →
      Fp.lt Fp.one s.mapCfg.qamThresh = true ∧ Fp.lt s.mapCfg.qamThresh Fp.three = true) :
    let e := encodeSymbol w s
    let d := decodeSymbol e.pt.i e.pt.q r
    d.bits = w.toNat % 2 ^ (modMode s.mapCfg).bitsPerSymbol ∧ d.p = e.p := by
  intro e d
  have decided : decideSymbol (modMode r.mapCfg) r.mapCfg.qamThresh e.pt.i e.pt.q = ⟨e.p, (modMode s.mapCfg).ringBits w⟩ := by
    rw [cfg]
    exact decideSymbol_pointOf thresh (diffEnc_symbolPhase_lt _ _ _) w
  have phase : diffDec (diffModulus s.mapCfg) r.map.rxPrev e.p = symbolPhase (modMode s.mapCfg) w :=
    diffDec_diffEnc prev fun h0 => diffModulus_eq_phaseCount h0 ▸ symbolPhase_lt _ w
  refine ⟨?_, congrArg Decision.p decided⟩
  calc d.bits
    _ = symbolBits (modMode r.mapCfg) (diffDec (diffModulus r.mapCfg) r.map.rxPrev e.p) ((modMode s.mapCfg).ringBits w) := by
        simp only [d, decodeSymbol, decided]
    _ = w.toNat % 2 ^ (modMode s.mapCfg).bitsPerSymbol := by rw [cfg, phase, symbolBits_symbolPhase]

/-- The low bits of a word as a mask takes them. -/
theorem u64_mod_two_pow (w : Word) {k : Nat} (hk : k < 64) : u64 (w.toNat % 2 ^ k) = w &&& BitVec.ofNat 64 (2 ^ k - 1) := by
  have mask : 2 ^ k - 1 < 2 ^ 64 := (Nat.sub_le _ 1).trans_lt (Nat.pow_lt_pow_right (by decide) hk)
  refine BitVec.eq_of_toNat_eq ?_
  rw [BitVec.toNat_and, BitVec.toNat_ofNat, Nat.mod_eq_of_lt mask, Nat.and_two_pow_sub_one_eq_mod]
  exact Nat.mod_eq_of_lt (Nat.lt_of_le_of_lt (Nat.mod_le _ _) w.isLt)

/-- Settles O35: DECODE of what ENCODE sent, and the two retained indices, which are both the phase index sent. -/
theorem mapRoundTrip : Obligations.MapRoundTrip := by
  intro s ready prev thresh
  let e := encodeSymbol s.din0 s
  let t := (e.state.pointResults e.pt e.p).complete
  let r : State := { t with din0 := t.dout0, din1 := t.dout1 }
  let d := decodeSymbol e.pt.i e.pt.q r
  obtain ⟨bits, index⟩ : d.bits = s.din0.toNat % 2 ^ (modMode s.mapCfg).bitsPerSymbol ∧ d.p = e.p :=
    decodeSymbol_encodeSymbol (s := s) rfl (fun h0 => (prev h0).2) thresh
  have retained : d.state.map =
      { s.map with
        txPrev := diffNext (diffModulus s.mapCfg) s.map.txPrev e.p
        rxPrev := diffNext (diffModulus s.mapCfg) s.map.rxPrev d.p } := rfl
  refine ⟨t, _, exec_mapEnc_of_ready ready, exec_mapDec_of_ready (s := r) ready, ?symbol, fun h0 => retained.trans ?unmoved,
    fun h0 => ?moved⟩
  case symbol =>
    refine (congrArg u64 bits).trans ?_
    cases modMode s.mapCfg with
    | bpsk => exact u64_mod_two_pow s.din0 (k := 1) (by decide)
    | qpsk => exact u64_mod_two_pow s.din0 (k := 2) (by decide)
    | qam16 => exact u64_mod_two_pow s.din0 (k := 4) (by decide)
    | dpsk => exact u64_mod_two_pow s.din0 (k := 1) (by decide)
  case unmoved => rw [h0, diffNext_zero, diffNext_zero]
  case moved =>
    rw [diffNext_of_ne_zero h0, diffNext_of_ne_zero h0, index] at retained
    change d.state.map.txPrev < diffModulus s.mapCfg ∧ d.state.map.rxPrev = d.state.map.txPrev
    rw [retained]
    exact ⟨diffEnc_lt h0 _ _, rfl⟩

end Sys2Proof.Machine
end

section
/-! PROOFS. Blocks of words stored and held, and OA_INIT: OaInit. -/

namespace Sys2Proof.Machine

open Safety

/-! ## Blocks of words -/

/-- A block read from the first word on answers the words that are held (R62). -/
theorem Memory.load_zero_eq_ok {m : Memory} {b : Bank} {n : Nat} {vs : List Word} :
    m.load b 0 n = .ok vs ↔ vs.length = n ∧ Holds m b vs := by
  simp only [Memory.load_eq_ok, Nat.zero_add]
  constructor <;> rintro ⟨rfl, held⟩ <;> exact ⟨rfl, held⟩

/-- A block stored inside `p` leaves what stands outside `p`. -/
theorem SameExcept.store {p : Bank → Nat → Prop} {m m' : Memory} (h : SameExcept p m m') {b : Bank} {i : Nat} {vs : List Word}
    (inside : ∀ j, i ≤ j → j < i + vs.length → p b j) : SameExcept p m (m'.storeAt b i vs) := by
  refine SameExcept.trans h fun b' j outside => ?_
  rw [Memory.word_storeAt, if_neg]
  rintro ⟨rfl, low, high⟩
  exact outside (inside j low high)

/-- A block stored in another bank leaves the words that are held. -/
theorem Holds.store {m : Memory} {b : Bank} {us : List Word} (h : Holds m b us) {c : Bank} (apart : b ≠ c) (i : Nat)
    (vs : List Word) : Holds (m.storeAt c i vs) b us :=
  SameExcept.holds (SameExcept.store (p := fun b' _ => b' = c) (SameExcept.refl _ _) fun _ _ _ => rfl) (fun _ => apart) h

/-- Two blocks stored in banks of their own are both held. -/
theorem storeAt_storeAt_holds (m : Memory) {b c : Bank} (apart : b ≠ c) (us vs : List Word) :
    Holds ((m.storeAt b 0 us).storeAt c 0 vs) b us ∧ Holds ((m.storeAt b 0 us).storeAt c 0 vs) c vs :=
  ⟨Holds.store (storeAt_holds _ _ _) apart 0 vs, storeAt_holds _ _ _⟩

/-! ## OA_INIT -/

/-- The checks of OA_INIT in their order (R270, R347), each written out. -/
theorem oaCheck_eq (p : Params) (c : OaConfig) :
    oaCheck p c =
      if ¬ OaFftOk p c then some .cfgFftLen
      else if ¬ OaLengthsOk p c then some .cfgLength
      else if ¬ OaModesOk c then some .cfgMode
      else if ¬ OaValuesOk c then some .cfgValue
      else none := by
  unfold oaCheck
  refine if_congr ?fft rfl (if_congr ?lengths rfl (if_congr (by omega) rfl (if_congr ?values rfl rfl)))
  case fft =>
    simp only [OaFftOk, ← isPow2_word_iff, Bool.or_eq_true, Bool.not_eq_true', decide_eq_true_eq, not_and_or, Nat.not_le,
      Bool.not_eq_true, or_assoc]
  case lengths => simp only [Bool.not_eq_true', ← Bool.not_eq_true, Bool.and_eq_true, decide_eq_true_eq, and_assoc]
  case values =>
    simp only [OaValuesOk, Positive, Bool.not_eq_true', ← Bool.not_eq_true, Bool.and_eq_true, decide_eq_true_eq, and_assoc]

theorem exec_oaInit_of_check {s : State} {e : ErrCode} (h : oaCheck s.par s.oaReg = some e) :
    exec .oaInit s = .next (oaInitFail e s).complete := by
  refine exec_of_rule (congrArg Except.ok ?_)
  unfold oaInitRule
  rw [h]

/-- The gain of the window is the last check (R272, R274). -/
theorem exec_oaInit_of_no_gain {s : State} (h : oaCheck s.par s.oaReg = none)
    (gain : icg s.oaReg.fftLen.toNat (oaInitWindow s.oaReg) = none) :
    exec .oaInit s = .next (oaInitFail .cfgWinGain s).complete := by
  refine exec_of_rule (congrArg Except.ok ?_)
  unfold oaInitRule
  rw [h, gain]

theorem exec_oaInit_of_gain {s : State} {g : F64} (h : oaCheck s.par s.oaReg = none)
    (gain : icg s.oaReg.fftLen.toNat (oaInitWindow s.oaReg) = some g) :
    exec .oaInit s = .next (oaInitDone (oaInitWindow s.oaReg) g s).complete := by
  refine exec_of_rule (congrArg Except.ok ?_)
  unfold oaInitRule
  rw [h, gain]

/-- FFT_TW is the first N words of the sine table, which has 5·N/4 (R160, R273). -/
theorem qsin_take (n : Nat) : (qsin n).take n = fftTwiddles n := by
  rw [qsin, ← List.map_take, List.take_range, Nat.min_eq_left (by omega)]
  rfl

/-- OA_INIT clears the accumulators and the frame buffers (R274). -/
theorem oaInitMemory_zeros (c : OaConfig) (w : List F64) (m : Memory) :
    (∀ r ∈ [RamId.avgRe, .avgIm], Holds (oaInitMemory c w m) (.ram r) (List.replicate (c.fftLen.toNat / 2) Fp.zero))
      ∧ ∀ r ∈ [RamId.frameBuf, .speedBuf], Holds (oaInitMemory c w m) (.ram r) (List.replicate c.sampleLen.toNat Fp.zero) := by
  simp only [List.forall_mem_cons, List.not_mem_nil, false_implies, implies_true, and_true]
  exact ⟨⟨Holds.store (Holds.store (storeAt_storeAt_holds _ (by decide) _ _).1 (by decide) 0 _) (by decide) 0 _,
      Holds.store (Holds.store (storeAt_holds _ _ _) (by decide) 0 _) (by decide) 0 _⟩,
    storeAt_storeAt_holds _ (by decide) _ _⟩

/-- OA_INIT writes its tables, its window and its buffers over the lengths of R274, and no other word. -/
theorem oaInitMemory_frame (c : OaConfig) {w : List F64} (hw : w.length = c.fftLen.toNat) (m : Memory) :
    SameExcept
      (fun b i =>
        (b = .ram .sincLut ∧ i < c.sincLutlen.toNat)
          ∨ ((b = .ram .fftTw ∨ b = .ram .bitrev ∨ b = .ram .win) ∧ i < c.fftLen.toNat)
          ∨ ((b = .ram .avgRe ∨ b = .ram .avgIm) ∧ i < c.fftLen.toNat / 2)
          ∨ ((b = .ram .frameBuf ∨ b = .ram .speedBuf) ∧ i < c.sampleLen.toNat))
      m (oaInitMemory c w m) := by
  unfold oaInitMemory
  iterate 8 refine SameExcept.store ?_ (by simp [hw])
  exact SameExcept.refl _ _

/-- Settles O39: the checks in their order, the window gain last, and what passing them all writes. -/
theorem oaInit : Obligations.OaInit := by
  intro s
  have check := oaCheck_eq s.par s.oaReg
  refine ⟨fun fft => ?fft, fun fft lengths => ?lengths, fun fft lengths modes => ?modes,
    fun fft lengths modes values => ?values, fun fft lengths modes values gain => ?gain,
    fun fft lengths modes values g gain => ?pass⟩
  case fft =>
    rw [if_pos fft] at check
    exact exec_oaInit_of_check check
  case lengths =>
    rw [if_neg (not_not.mpr fft), if_pos lengths] at check
    exact exec_oaInit_of_check check
  case modes =>
    rw [if_neg (not_not.mpr fft), if_neg (not_not.mpr lengths), if_pos modes] at check
    exact exec_oaInit_of_check check
  case values =>
    rw [if_neg (not_not.mpr fft), if_neg (not_not.mpr lengths), if_neg (not_not.mpr modes), if_pos values] at check
    exact exec_oaInit_of_check check
  case gain => exact exec_oaInit_of_no_gain (oaCheck_eq_none.mpr ⟨fft, lengths, modes, values⟩) gain
  case pass =>
    have words := oaInitMemory_words s.oaReg s.mem
    obtain ⟨averages, buffers⟩ := oaInitMemory_zeros s.oaReg (oaInitWindow s.oaReg) s.mem
    exact ⟨_, exec_oaInit_of_gain (oaCheck_eq_none.mpr ⟨fft, lengths, modes, values⟩) gain, rfl, rfl, rfl, rfl, rfl, rfl,
      words.sincLut, by rw [qsin_take]; exact words.fftTw, words.bitrev, words.win, averages, buffers,
      oaInitMemory_frame _ (window_length _ _ _ _) _⟩

end Sys2Proof.Machine
end

section
/-! PROOFS. The frame-overlap buffer: OaPushFlush, Advance. -/

namespace Sys2Proof.Machine

open Safety

/-! ## OA_PUSH and OA_FLUSH -/

/-- The append of OA_PUSH (R275), all of it. -/
theorem oaAppend_eq {s : State} (filling : s.oa.frameReady = false) :
    oaAppend s =
      { s with
        mem := (s.mem.write (.ram .frameBuf) s.oa.wp s.din0).write (.ram .speedBuf) s.oa.wp s.din1
        oa := { s.oa with wp := s.oa.wp + 1, frameReady := decide (s.oa.wp + 1 = s.oaCfg.sampleLen.toNat) }
        irqStatus := s.irqStatus ||| (if s.oa.wp + 1 = s.oaCfg.sampleLen.toNat then 0x10#8 else 0#8) } := by
  unfold oaAppend
  dsimp only
  split
  case isTrue full =>
    rw [decide_eq_true full]
    rfl
  case isFalse room =>
    rw [decide_eq_false room, ← filling, BitVec.or_zero]
    rfl

theorem exec_oaPush_of_frame {s : State} (ready : s.oaReady = true) (full : s.oa.frameReady = true) :
    exec .oaPush s = .next (s.raise .overrun).complete :=
  exec_of_rule (congrArg Except.ok ((if_pos ready).trans (if_pos full)))

theorem exec_oaPush_of_room {s : State} (ready : s.oaReady = true) (filling : s.oa.frameReady = false) :
    exec .oaPush s = .next (oaAppend s).complete :=
  exec_of_rule (congrArg Except.ok ((if_pos ready).trans (if_neg (by simp [filling]))))

theorem exec_oaFlush_of_nothing {s : State} (ready : s.oaReady = true) (h : s.oa.frameReady = true ∨ s.oa.wp ≤ s.oa.start) :
    exec .oaFlush s = .next s.complete := by
  refine exec_of_rule (congrArg Except.ok ((if_pos ready).trans (if_neg ?_)))
  rintro ⟨filling, pending⟩
  rcases h with full | old
  · exact absurd (filling.symm.trans full) (by decide)
  · exact absurd pending (Nat.not_lt.mpr old)

theorem exec_oaFlush_of_pending {s : State} (ready : s.oaReady = true) (filling : s.oa.frameReady = false)
    (pending : s.oa.start < s.oa.wp) : exec .oaFlush s = .next (oaZeroFill s).complete :=
  exec_of_rule (congrArg Except.ok ((if_pos ready).trans (if_pos ⟨filling, pending⟩)))

theorem oaZeroFill_words (s : State) {j : Nat} (low : s.oa.wp ≤ j) (high : j < s.oaCfg.sampleLen.toNat) :
    (oaZeroFill s).mem.word (.ram .frameBuf) j = some Fp.zero
      ∧ (oaZeroFill s).mem.word (.ram .speedBuf) j = some Fp.zero := by
  have inside : j < s.oa.wp + (s.oaCfg.sampleLen.toNat - s.oa.wp) := by omega
  have filled : j - s.oa.wp < s.oaCfg.sampleLen.toNat - s.oa.wp := by omega
  simp [oaZeroFill, low, inside, filled]

theorem oaZeroFill_frame (s : State) :
    SameExcept (fun b i => (b = .ram .frameBuf ∨ b = .ram .speedBuf) ∧ s.oa.wp ≤ i ∧ i < s.oaCfg.sampleLen.toNat) s.mem
      (oaZeroFill s).mem := by
  have inside : ∀ j, s.oa.wp ≤ j →
      j < s.oa.wp + (List.replicate (s.oaCfg.sampleLen.toNat - s.oa.wp) Fp.zero).length → j < s.oaCfg.sampleLen.toNat := by
    intro j low high
    rw [List.length_replicate] at high
    omega
  exact SameExcept.store
    (SameExcept.store (SameExcept.refl _ _) fun j low high => ⟨.inl rfl, low, inside j low high⟩)
    fun j low high => ⟨.inr rfl, low, inside j low high⟩

/-- Settles O42. -/
theorem oaPushFlush : Obligations.OaPushFlush := by
  refine ⟨fun s ready => ⟨exec_oaPush_of_frame ready, fun filling => ?push⟩,
    fun s ready => ⟨exec_oaFlush_of_nothing ready, fun filling pending => ?flush⟩⟩
  case push =>
    have answer := exec_oaPush_of_room ready filling
    rw [oaAppend_eq filling] at answer
    exact ⟨_, answer, rfl, rfl, rfl, by simp, by simp,
      SameExcept.mono (Memory.write_write_frame _ _ _ _ _ _ _) fun b i => by tauto, rfl⟩
  case flush =>
    exact ⟨_, exec_oaFlush_of_pending ready filling pending, rfl, rfl, BitVec.or_assoc _ _ _,
      fun j low high => oaZeroFill_words s low high, oaZeroFill_frame s, rfl⟩

/-! ## The overlap copy -/

/-- ADVANCE answers on a frame whose words have been written (R277). -/
theorem oaAdvance_of_written {s : State} (overlap : s.oaCfg.overlap.toNat < s.oaCfg.sampleLen.toNat)
    (frame : Written s.mem (.ram .frameBuf) s.oaCfg.sampleLen.toNat)
    (speed : Written s.mem (.ram .speedBuf) s.oaCfg.sampleLen.toNat) :
    ∃ m, oaAdvance s =
      .ok
        { s with
          mem := m
          oa := { s.oa with wp := s.oaCfg.overlap.toNat, start := s.oaCfg.overlap.toNat, frameReady := false } } := by
  obtain ⟨xs, hx⟩ := Memory.load_isOk.mpr fun k (hk : k < s.oaCfg.overlap.toNat) =>
    frame (s.oaCfg.sampleLen.toNat - s.oaCfg.overlap.toNat + k) (by omega)
  obtain ⟨vs, hv⟩ := Memory.load_isOk.mpr fun k (hk : k < s.oaCfg.overlap.toNat) =>
    speed (s.oaCfg.sampleLen.toNat - s.oaCfg.overlap.toNat + k) (by omega)
  exact ⟨_, oaAdvance_eq_ok.mpr ⟨xs, vs, hx, hv, rfl⟩⟩

/-- The last words of both buffers become the first (R277). -/
theorem oaAdvance_words {s t : State} (h : oaAdvance s = .ok t) {j : Nat} (hj : j < s.oaCfg.overlap.toNat) :
    t.mem.word (.ram .frameBuf) j
        = s.mem.word (.ram .frameBuf) (j + (s.oaCfg.sampleLen.toNat - s.oaCfg.overlap.toNat))
      ∧ t.mem.word (.ram .speedBuf) j
        = s.mem.word (.ram .speedBuf) (j + (s.oaCfg.sampleLen.toNat - s.oaCfg.overlap.toNat)) := by
  obtain ⟨xs, vs, hx, hv, rfl⟩ := oaAdvance_eq_ok.mp h
  obtain ⟨lx, wx⟩ := Memory.load_eq_ok.mp hx
  obtain ⟨lv, wv⟩ := Memory.load_eq_ok.mp hv
  rw [Nat.add_comm j, wx j hj, wv j hj]
  simp [lx, lv, hj]

/-- ADVANCE leaves the words from the overlap on (R277). -/
theorem oaAdvance_sameExcept {s t : State} (h : oaAdvance s = .ok t) :
    SameExcept (fun b i => (b = .ram .frameBuf ∨ b = .ram .speedBuf) ∧ i < s.oaCfg.overlap.toNat) s.mem t.mem := by
  obtain ⟨xs, vs, hx, hv, rfl⟩ := oaAdvance_eq_ok.mp h
  have lx := Memory.load_length hx
  have lv := Memory.load_length hv
  exact SameExcept.store (SameExcept.store (SameExcept.refl _ _) (by simp [lx])) (by simp [lv])

/-- Settles O43. -/
theorem advance : Obligations.Advance := by
  intro s overlap frame speed
  obtain ⟨m, answer⟩ := oaAdvance_of_written overlap frame speed
  exact ⟨_, answer, fun j hj => oaAdvance_words answer hj, oaAdvance_sameExcept answer, rfl, rfl⟩

end Sys2Proof.Machine
end

section
/-! PROOFS. OA_FRAME, stage by stage on the words it reads: OaFrameErrors, OaFrame. -/

namespace Sys2Proof.Machine

open Safety

/-- A bank of which no word was touched keeps its words written. -/
theorem SameExcept.written {p : Bank → Nat → Prop} {m m' : Memory} (h : SameExcept p m m') {b : Bank} {n : Nat}
    (hb : ∀ i, ¬ p b i) (hw : Written m b n) : Written m' b n :=
  fun i hi => (congrArg Option.isSome (h b i (hb i))).trans (hw i hi)

/-! ## The resampling ratio -/

/-- The ratio is invalid exactly where the speed or the quotient is not finite or not positive (R278). -/
theorem ratio_eq (fof speed : F64) :
    ratio fof speed =
      if Fp.isFinite speed = false ∨ Fp.le speed Fp.zero = true ∨ Fp.isFinite (Fp.div fof (Fp.div speed Fp.sixty)) = false
          ∨ Fp.le (Fp.div fof (Fp.div speed Fp.sixty)) Fp.zero = true then none
      else some (Fp.div fof (Fp.div speed Fp.sixty)) := by
  unfold ratio
  simp only [Bool.or_eq_true, Bool.not_eq_true', ← or_assoc]
  split
  case isTrue bad => rw [if_pos (.inl (.inl bad))]
  case isFalse good => simp only [good, false_or]

/-! ## A frame not ready, or with a bad speed -/

theorem exec_oaFrame_of_no_frame {s : State} (ready : s.oaReady = true) (filling : s.oa.frameReady = false) :
    exec .oaFrame s = .next (s.raise .noFrame).complete :=
  exec_of_rule ((if_pos ready).trans (if_neg (by simp [filling])))

/-- A ready frame with an invalid ratio is discarded (R286). -/
theorem exec_oaFrame_of_bad_speed {s u : State} {speed : F64} (ready : s.oaReady = true) (full : s.oa.frameReady = true)
    (read : s.mem.word (.ram .speedBuf) 0 = some speed) (bad : ratio s.oaCfg.fof speed = none) (answer : oaAdvance s = .ok u) :
    exec .oaFrame s = .next (u.raise .badSpeed).complete := by
  refine exec_of_rule ((if_pos ready).trans ((if_pos full).trans ?_))
  unfold oaFrameBody
  refine Run.bind_eq_ok.mpr ⟨speed, Memory.read_eq_ok.mpr read, ?_⟩
  rw [bad]
  exact Run.bind_eq_ok.mpr ⟨u, answer, rfl⟩

/-- A ready frame with a valid ratio is processed and consumed (R286). -/
theorem exec_oaFrame_of_ratio {s t u : State} {speed rho : F64} (ready : s.oaReady = true) (full : s.oa.frameReady = true)
    (read : s.mem.word (.ram .speedBuf) 0 = some speed) (good : ratio s.oaCfg.fof speed = some rho)
    (processed : frameProcess rho s = .ok t) (consumed : oaAdvance t = .ok u) :
    exec .oaFrame s = .next (u.fire .frameDone).complete := by
  refine exec_of_rule ((if_pos ready).trans ((if_pos full).trans ?_))
  unfold oaFrameBody
  refine Run.bind_eq_ok.mpr ⟨speed, Memory.read_eq_ok.mpr read, ?_⟩
  rw [good]
  exact Run.bind_eq_ok.mpr ⟨t, processed, Run.bind_eq_ok.mpr ⟨u, consumed, rfl⟩⟩

/-- Settles O45. -/
theorem oaFrameErrors : Obligations.OaFrameErrors := by
  intro s ready
  refine ⟨exec_oaFrame_of_no_frame ready, fun speed u full read bad answer => ?_⟩
  have invalid : ratio s.oaCfg.fof speed = none := (ratio_eq _ _).trans (if_pos bad)
  obtain ⟨state, -⟩ := oaAdvance_frame answer
  refine ⟨exec_oaFrame_of_bad_speed ready full read invalid answer, ?_, ?_, ?_, oaAdvance_sameExcept answer⟩ <;> rw [state]

/-! ## The stages on the words they read -/

/-- The words OA_FRAME reads besides the speed: the frame, the tables, the window and the accumulators. -/
structure FrameWords where
  frame : List F64
  lut : List F64
  w : List F64
  tw : List F64
  br : List Word
  ar : List F64
  ai : List F64

/-- The state has those words, over the lengths of its configuration. AVG_IM is read with AVG_MODE = 0 only (R282). -/
structure FrameWords.In (f : FrameWords) (s : State) : Prop where
  frameLen : f.frame.length = s.oaCfg.sampleLen.toNat
  frame : Holds s.mem (.ram .frameBuf) f.frame
  lutLen : f.lut.length = s.oaCfg.sincLutlen.toNat
  lut : Holds s.mem (.ram .sincLut) f.lut
  wLen : f.w.length = s.oaCfg.fftLen.toNat
  w : Holds s.mem (.ram .win) f.w
  twLen : f.tw.length = s.oaCfg.fftLen.toNat
  tw : Holds s.mem (.ram .fftTw) f.tw
  brLen : f.br.length = s.oaCfg.fftLen.toNat
  br : Holds s.mem (.ram .bitrev) f.br
  arLen : f.ar.length = s.oaCfg.fftLen.toNat / 2
  ar : Holds s.mem (.ram .avgRe) f.ar
  ai : s.oaCfg.avgMode = 0 → f.ai.length = s.oaCfg.fftLen.toNat / 2 ∧ Holds s.mem (.ram .avgIm) f.ai

namespace FrameWords

/-- RS_RE after RESAMPLE (R280). -/
def resampled (f : FrameWords) (rho : F64) (s : State) : List F64 :=
  resample f.frame f.lut s.oa.phaseGain s.oaCfg.sincNa.toNat s.oaCfg.fftLen.toNat rho s.freeNext

/-- RS_RE after APPLY_WINDOW (R280). -/
def windowed (f : FrameWords) (rho : F64) (s : State) : List F64 := applyWindow (f.resampled rho s) f.w s.oa.icg

/-- RS_RE and RS_IM after the FFT (R310). -/
def transform (f : FrameWords) (rho : F64) (s : State) : Spectrum :=
  fftCore f.tw f.br s.oaCfg.fftLen.toNat ⟨f.windowed rho s, List.replicate s.oaCfg.fftLen.toNat Fp.zero⟩

/-- The scaled half spectrum (R281). -/
def spectrum (f : FrameWords) (rho : F64) (s : State) : Spectrum :=
  ⟨scaled s.oaCfg.fftLen.toNat (f.transform rho s).re, scaled s.oaCfg.fftLen.toNat (f.transform rho s).im⟩

/-- The magnitudes (R281). -/
def lin (f : FrameWords) (rho : F64) (s : State) : List F64 := linOf (f.spectrum rho s)

/-- The orders (R284). -/
def orders (f : FrameWords) (rho : F64) (s : State) : List F64 :=
  orderList s.oaCfg s.oaCfg.fftLen.toNat (f.lin rho s)

/-- The memory after RESAMPLE (R280). -/
def resampledMemory (f : FrameWords) (rho : F64) (s : State) : Memory :=
  (s.mem.storeAt (.ram .rsRe) 0 (f.resampled rho s)).storeAt (.ram .rsIm) 0 (List.replicate s.oaCfg.fftLen.toNat Fp.zero)

/-- The memory after APPLY_WINDOW (R280). -/
def windowedMemory (f : FrameWords) (rho : F64) (s : State) : Memory :=
  (f.resampledMemory rho s).storeAt (.ram .rsRe) 0 (f.windowed rho s)

/-- The memory after the FFT (R310). -/
def transformedMemory (f : FrameWords) (rho : F64) (s : State) : Memory :=
  ((f.windowedMemory rho s).storeAt (.ram .rsRe) 0 (f.transform rho s).re).storeAt (.ram .rsIm) 0 (f.transform rho s).im

/-- The memory after ACCUMULATE (R282). -/
def accumulatedMemory (f : FrameWords) (rho : F64) (s : State) : Memory :=
  if s.oaCfg.avgMode = 0 then
    ((f.transformedMemory rho s).storeAt (.ram .avgRe) 0 (List.zipWith Fp.add f.ar (f.spectrum rho s).re)).storeAt (.ram .avgIm) 0
      (List.zipWith Fp.add f.ai (f.spectrum rho s).im)
  else (f.transformedMemory rho s).storeAt (.ram .avgRe) 0 (List.zipWith Fp.add f.ar (f.lin rho s))

/-- The memory after the steps (a) to (f) (R281, R283, R284). -/
def memory (f : FrameWords) (rho : F64) (s : State) : Memory :=
  (((f.accumulatedMemory rho s).storeAt (.line .lin) 0 (f.lin rho s)).storeAt (.ram .mag) 0
    ((f.lin rho s).map (outLevel s.oaCfg))).storeAt (.ram .orders) 0 (f.orders rho s)

/-- The state after the steps (a) to (f) (R286). -/
def after (f : FrameWords) (rho : F64) (s : State) : State :=
  { s with
    mem := f.memory rho s
    freeNext := s.freeNext + s.oaCfg.fftLen.toNat
    dout0 := sumLevel s.oaCfg (f.orders rho s)
    dout1 := rho
    oa := { s.oa with frameCount := satInc s.oa.frameCount } }

/-! ## Lengths -/

theorem resampled_length (f : FrameWords) (rho : F64) (s : State) : (f.resampled rho s).length = s.oaCfg.fftLen.toNat :=
  resample_length _ _ _ _ _ _ _

section
variable {f : FrameWords} {s : State} (h : f.In s) (rho : F64)
include h

theorem windowed_length : (f.windowed rho s).length = s.oaCfg.fftLen.toNat := by
  rw [windowed, applyWindow, List.length_zipWith, resampled_length, h.wLen, Nat.min_self]

theorem transform_lengths :
    (f.transform rho s).re.length = s.oaCfg.fftLen.toNat ∧ (f.transform rho s).im.length = s.oaCfg.fftLen.toNat := by
  obtain ⟨re, im⟩ := fftCore_lengths f.tw f.br s.oaCfg.fftLen.toNat
    ⟨f.windowed rho s, List.replicate s.oaCfg.fftLen.toNat Fp.zero⟩
  exact ⟨re.trans (windowed_length h rho), im.trans (List.length_replicate ..)⟩

theorem spectrum_lengths :
    (f.spectrum rho s).re.length = s.oaCfg.fftLen.toNat / 2 ∧ (f.spectrum rho s).im.length = s.oaCfg.fftLen.toNat / 2 :=
  ⟨scaled_length (transform_lengths h rho).1, scaled_length (transform_lengths h rho).2⟩

theorem lin_length : (f.lin rho s).length = s.oaCfg.fftLen.toNat / 2 := by
  obtain ⟨re, im⟩ := spectrum_lengths h rho
  rw [lin, linOf, List.length_zipWith, re, im, Nat.min_self]

end

theorem orders_length (f : FrameWords) (rho : F64) (s : State) : (f.orders rho s).length = s.oaCfg.numOrders.toNat :=
  orderList_length _ _ _

/-! ## What the stages hold and leave -/

theorem resampledMemory_holds (f : FrameWords) (rho : F64) (s : State) :
    Holds (f.resampledMemory rho s) (.ram .rsRe) (f.resampled rho s)
      ∧ Holds (f.resampledMemory rho s) (.ram .rsIm) (List.replicate s.oaCfg.fftLen.toNat Fp.zero) :=
  storeAt_storeAt_holds _ (by decide) _ _

theorem windowedMemory_holds (f : FrameWords) (rho : F64) (s : State) :
    Holds (f.windowedMemory rho s) (.ram .rsRe) (f.windowed rho s)
      ∧ Holds (f.windowedMemory rho s) (.ram .rsIm) (List.replicate s.oaCfg.fftLen.toNat Fp.zero) :=
  ⟨storeAt_holds _ _ _, Holds.store (f.resampledMemory_holds rho s).2 (by decide) 0 _⟩

theorem transformedMemory_holds (f : FrameWords) (rho : F64) (s : State) :
    Holds (f.transformedMemory rho s) (.ram .rsRe) (f.transform rho s).re
      ∧ Holds (f.transformedMemory rho s) (.ram .rsIm) (f.transform rho s).im :=
  storeAt_storeAt_holds _ (by decide) _ _

/-- The words RESAMPLE, APPLY_WINDOW and the FFT write. -/
abbrev WorkTouched (s : State) (b : Bank) (i : Nat) : Prop := (b = .ram .rsRe ∨ b = .ram .rsIm) ∧ i < s.oaCfg.fftLen.toNat

theorem resampledMemory_frame (f : FrameWords) (rho : F64) (s : State) :
    SameExcept (WorkTouched s) s.mem (f.resampledMemory rho s) :=
  SameExcept.store (SameExcept.store (SameExcept.refl _ _) (by simp [WorkTouched, resampled_length])) (by simp [WorkTouched])

section
variable {f : FrameWords} {s : State} (h : f.In s) (rho : F64)
include h

theorem windowedMemory_frame : SameExcept (WorkTouched s) s.mem (f.windowedMemory rho s) :=
  SameExcept.store (resampledMemory_frame f rho s) (by simp [WorkTouched, windowed_length h])

theorem transformedMemory_frame : SameExcept (WorkTouched s) s.mem (f.transformedMemory rho s) :=
  SameExcept.store (SameExcept.store (windowedMemory_frame h rho) (by simp [WorkTouched, transform_lengths h]))
    (by simp [WorkTouched, transform_lengths h])

/-- ACCUMULATE writes AVG_RE, and AVG_IM with AVG_MODE = 0 (R282). -/
theorem accumulatedMemory_frame :
    SameExcept
      (fun b i =>
        (b = .ram .avgRe ∧ i < s.oaCfg.fftLen.toNat / 2)
          ∨ (s.oaCfg.avgMode = 0 ∧ b = .ram .avgIm ∧ i < s.oaCfg.fftLen.toNat / 2))
      (f.transformedMemory rho s) (f.accumulatedMemory rho s) := by
  unfold accumulatedMemory
  split
  case isTrue coherent =>
    exact SameExcept.store (SameExcept.store (SameExcept.refl _ _) (by simp [h.arLen, spectrum_lengths h]))
      (by simp [coherent, (h.ai coherent).1, spectrum_lengths h])
  case isFalse => exact SameExcept.store (SameExcept.refl _ _) (by simp [h.arLen, lin_length h])

theorem levels_frame :
    SameExcept
      (fun b i =>
        ((b = .line .lin ∨ b = .ram .mag) ∧ i < s.oaCfg.fftLen.toNat / 2) ∨ (b = .ram .orders ∧ i < s.oaCfg.numOrders.toNat))
      (f.accumulatedMemory rho s) (f.memory rho s) :=
  SameExcept.store
    (SameExcept.store (SameExcept.store (SameExcept.refl _ _) (by simp [lin_length h])) (by simp [lin_length h]))
    (by simp [orders_length])

end

/-- ACCUMULATE leaves the sums of the accumulators and the spectrum (R282). -/
theorem accumulatedMemory_holds (f : FrameWords) (rho : F64) (s : State) :
    Holds (f.accumulatedMemory rho s) (.ram .avgRe)
        (List.zipWith Fp.add f.ar (if s.oaCfg.avgMode = 0 then (f.spectrum rho s).re else f.lin rho s))
      ∧ (s.oaCfg.avgMode = 0 →
        Holds (f.accumulatedMemory rho s) (.ram .avgIm) (List.zipWith Fp.add f.ai (f.spectrum rho s).im)) := by
  unfold accumulatedMemory
  by_cases coherent : s.oaCfg.avgMode = 0
  · rw [if_pos coherent, if_pos coherent]
    obtain ⟨re, im⟩ := storeAt_storeAt_holds (f.transformedMemory rho s) (b := .ram .avgRe) (c := .ram .avgIm) (by decide)
      (List.zipWith Fp.add f.ar (f.spectrum rho s).re) (List.zipWith Fp.add f.ai (f.spectrum rho s).im)
    exact ⟨re, fun _ => im⟩
  · rw [if_neg coherent, if_neg coherent]
    exact ⟨storeAt_holds _ _ _, fun zero => absurd zero coherent⟩

theorem levels_hold (f : FrameWords) (rho : F64) (s : State) :
    Holds (f.memory rho s) (.line .lin) (f.lin rho s)
      ∧ Holds (f.memory rho s) (.ram .mag) ((f.lin rho s).map (outLevel s.oaCfg))
      ∧ Holds (f.memory rho s) (.ram .orders) (f.orders rho s) :=
  ⟨Holds.store (Holds.store (storeAt_holds _ _ _) (by decide) 0 _) (by decide) 0 _,
    storeAt_storeAt_holds _ (by decide) _ _⟩

/-- The steps (a) to (f) on readable words: every stage reads what the state or an earlier stage left (R286). -/
theorem frameProcess_eq {f : FrameWords} {s : State} (h : f.In s) (rho : F64) : frameProcess rho s = .ok (f.after rho s) := by
  obtain ⟨resampledRe, -⟩ := f.resampledMemory_holds rho s
  obtain ⟨windowedRe, windowedIm⟩ := f.windowedMemory_holds rho s
  obtain ⟨transformRe, transformIm⟩ := f.transformedMemory_holds rho s
  obtain ⟨lengthRe, lengthIm⟩ := transform_lengths h rho
  have afterResample := resampledMemory_frame f rho s
  have afterWindow := windowedMemory_frame h rho
  have afterTransform := transformedMemory_frame h rho
  let t : State := { s with mem := f.transformedMemory rho s, freeNext := s.freeNext + s.oaCfg.fftLen.toNat }
  have accumulated : accumulate (f.spectrum rho s) t = .ok { t with mem := f.accumulatedMemory rho s } := by
    refine accumulate_eq_ok.mpr ⟨f.ar, Memory.load_zero_eq_ok.mpr ⟨h.arLen, SameExcept.holds afterTransform (by simp) h.ar⟩, ?_⟩
    unfold accumulatedMemory
    by_cases coherent : s.oaCfg.avgMode = 0
    · obtain ⟨aiLen, ai⟩ := h.ai coherent
      rw [if_pos coherent]
      exact .inl ⟨coherent, f.ai, Memory.load_zero_eq_ok.mpr ⟨aiLen, SameExcept.holds afterTransform (by simp) ai⟩, rfl⟩
    · rw [if_neg coherent]
      exact .inr ⟨coherent, rfl⟩
  exact frameProcess_eq_ok.mpr ⟨_, _, t, f.spectrum rho s, _,
    oaResample_eq_ok.mpr ⟨f.frame, f.lut, Memory.load_zero_eq_ok.mpr ⟨h.frameLen, h.frame⟩,
      Memory.load_zero_eq_ok.mpr ⟨h.lutLen, h.lut⟩, rfl⟩,
    oaWindow_eq_ok.mpr ⟨f.resampled rho s, f.w, Memory.load_zero_eq_ok.mpr ⟨f.resampled_length rho s, resampledRe⟩,
      Memory.load_zero_eq_ok.mpr ⟨h.wLen, SameExcept.holds afterResample (by simp) h.w⟩, rfl⟩,
    fftRun_eq_ok.mpr ⟨f.windowed rho s, List.replicate s.oaCfg.fftLen.toNat Fp.zero, f.tw, f.br,
      Memory.load_zero_eq_ok.mpr ⟨windowed_length h rho, windowedRe⟩,
      Memory.load_zero_eq_ok.mpr ⟨List.length_replicate .., windowedIm⟩,
      Memory.load_zero_eq_ok.mpr ⟨h.twLen, SameExcept.holds afterWindow (by simp) h.tw⟩,
      Memory.load_zero_eq_ok.mpr ⟨h.brLen, SameExcept.holds afterWindow (by simp) h.br⟩, rfl⟩,
    halfSpectrum_eq_ok.mpr ⟨(f.transform rho s).re, (f.transform rho s).im, Memory.load_zero_eq_ok.mpr ⟨lengthRe, transformRe⟩,
      Memory.load_zero_eq_ok.mpr ⟨lengthIm, transformIm⟩, rfl⟩,
    accumulated, rfl⟩

/-- What the steps (a) to (f) leave in memory (R280 to R284). -/
theorem memory_holds {f : FrameWords} {s : State} (h : f.In s) (rho : F64) :
    Holds (f.memory rho s) (.ram .rsRe) (f.transform rho s).re ∧ Holds (f.memory rho s) (.ram .rsIm) (f.transform rho s).im
      ∧ Holds (f.memory rho s) (.line .lin) (f.lin rho s)
      ∧ Holds (f.memory rho s) (.ram .mag) ((f.lin rho s).map (outLevel s.oaCfg))
      ∧ Holds (f.memory rho s) (.ram .orders) (f.orders rho s)
      ∧ Holds (f.memory rho s) (.ram .avgRe)
        (List.zipWith Fp.add f.ar (if s.oaCfg.avgMode = 0 then (f.spectrum rho s).re else f.lin rho s))
      ∧ (s.oaCfg.avgMode = 0 → Holds (f.memory rho s) (.ram .avgIm) (List.zipWith Fp.add f.ai (f.spectrum rho s).im)) := by
  have levels := levels_frame h rho
  have averages := accumulatedMemory_frame h rho
  obtain ⟨re, im⟩ := f.transformedMemory_holds rho s
  obtain ⟨lin, mag, orders⟩ := f.levels_hold rho s
  obtain ⟨avgRe, avgIm⟩ := f.accumulatedMemory_holds rho s
  exact ⟨SameExcept.holds levels (by simp) (SameExcept.holds averages (by simp) re),
    SameExcept.holds levels (by simp) (SameExcept.holds averages (by simp) im), lin, mag, orders,
    SameExcept.holds levels (by simp) avgRe, fun coherent => SameExcept.holds levels (by simp) (avgIm coherent)⟩

/-- The words the steps (a) to (f) write. -/
abbrev Touched (s : State) (b : Bank) (i : Nat) : Prop :=
  ((b = .ram .rsRe ∨ b = .ram .rsIm) ∧ i < s.oaCfg.fftLen.toNat)
    ∨ ((b = .line .lin ∨ b = .ram .mag ∨ b = .ram .avgRe) ∧ i < s.oaCfg.fftLen.toNat / 2)
    ∨ (s.oaCfg.avgMode = 0 ∧ b = .ram .avgIm ∧ i < s.oaCfg.fftLen.toNat / 2)
    ∨ (b = .ram .orders ∧ i < s.oaCfg.numOrders.toNat)

theorem memory_frame {f : FrameWords} {s : State} (h : f.In s) (rho : F64) :
    SameExcept (Touched s) s.mem (f.memory rho s) :=
  SameExcept.trans (SameExcept.mono (transformedMemory_frame h rho) fun _ _ => .inl)
    (SameExcept.trans (SameExcept.mono (accumulatedMemory_frame h rho) fun b i => by tauto)
      (SameExcept.mono (levels_frame h rho) fun b i => by tauto))

end FrameWords

/-- Settles O44: the stages on the words they read, and then the overlap copy, which none of them disturbs. -/
theorem oaFrame : Obligations.OaFrame := by
  intro s speed frame lut w tw ar ai br ready full read finite positive c n rho ratioFinite ratioPositive overlap
    frameLen hframe hspeed lutLen hlut wLen hw twLen htw brLen hbr arLen har hai
  let f : FrameWords := ⟨frame, lut, w, tw, br, ar, ai⟩
  have readable : f.In s := ⟨frameLen, hframe, lutLen, hlut, wLen, hw, twLen, htw, brLen, hbr, arLen, har, hai⟩
  have good : ratio s.oaCfg.fof speed = some rho :=
    (ratio_eq _ _).trans (if_neg (by simp [finite, positive, ratioFinite, ratioPositive, rho, c]))
  have lengths := FrameWords.transform_lengths readable rho
  have process := FrameWords.memory_frame readable rho
  obtain ⟨rsRe, rsIm, lin, mag, orders, avgRe, avgIm⟩ := FrameWords.memory_holds readable rho
  obtain ⟨m, consumed⟩ := oaAdvance_of_written (s := f.after rho s) overlap
    (SameExcept.written process (by simp [FrameWords.Touched]) (frameLen ▸ Written.of_holds hframe))
    (SameExcept.written process (by simp [FrameWords.Touched]) hspeed)
  have copy := oaAdvance_sameExcept consumed
  refine ⟨_, exec_oaFrame_of_ratio ready full read good (FrameWords.frameProcess_eq readable rho) consumed, rfl, rfl, rfl, rfl,
    BitVec.or_assoc _ _ _, rfl, SameExcept.holds copy (by simp) rsRe, SameExcept.holds copy (by simp) rsIm,
    SameExcept.holds copy (by simp) lin, SameExcept.holds copy (by simp) mag, SameExcept.holds copy (by simp) orders,
    SameExcept.holds copy (by simp) avgRe, fun coherent => SameExcept.holds copy (by simp) (avgIm coherent),
    fun j hj => ?overlapped, lengths.1, lengths.2, FrameWords.lin_length readable rho, FrameWords.orders_length f rho s,
    SameExcept.trans (SameExcept.mono process fun b i => ?processed) (SameExcept.mono copy fun b i => ?copied), rfl⟩
  case overlapped =>
    obtain ⟨frameCopy, speedCopy⟩ := oaAdvance_words consumed hj
    exact ⟨frameCopy.trans (process _ _ (by simp [FrameWords.Touched])),
      speedCopy.trans (process _ _ (by simp [FrameWords.Touched]))⟩
  case processed =>
    intro touched
    rcases touched with work | levels | imaginary | orders
    · exact .inl work
    · exact .inr (.inl levels)
    · exact .inr (.inr (.inl imaginary))
    · exact .inr (.inr (.inr (.inl orders)))
  case copied => exact fun touched => .inr (.inr (.inr (.inr touched)))

end Sys2Proof.Machine
end

section
/-! PROOFS. OA_FINAL, WINGEN, SINC_AT and SINC_RS: OaFinal, Wingen, SincRs. -/

namespace Sys2Proof.Machine

open Safety

/-! ## OA_FINAL -/

/-- AVG_SPEC after OA_FINAL on the frame count `fc` and the accumulators `ar`, `ai` (R287). -/
def averageLevels (c : OaConfig) (fc : F64) (ar ai : List F64) : List F64 :=
  List.zipWith (fun x y => outLevel c (magnitude x y)) (ar.map fun x => Fp.div x fc) (ai.map fun x => Fp.div x fc)

/-- AVG_PHASE after OA_FINAL (R287). -/
def averagePhases (fc : F64) (ar ai : List F64) : List F64 :=
  List.zipWith (fun x y => Config.numAtan2 y x) (ar.map fun x => Fp.div x fc) (ai.map fun x => Fp.div x fc)

/-- The memory after OA_FINAL (R287). -/
def averagesMemory (c : OaConfig) (fc : F64) (ar ai : List F64) (m : Memory) : Memory :=
  (m.storeAt (.ram .avgSpec) 0 (averageLevels c fc ar ai)).storeAt (.ram .avgPhase) 0 (averagePhases fc ar ai)

theorem averageLevels_getElem? (c : OaConfig) (fc : F64) {ar ai : List F64} {k : Nat} (hr : k < ar.length) (hi : k < ai.length) :
    (averageLevels c fc ar ai)[k]? = some (outLevel c (magnitude (Fp.div (nth ar k) fc) (Fp.div (nth ai k) fc))) := by
  simp [averageLevels, nth, hr, hi]

theorem averagePhases_getElem? (fc : F64) {ar ai : List F64} {k : Nat} (hr : k < ar.length) (hi : k < ai.length) :
    (averagePhases fc ar ai)[k]? = some (Config.numAtan2 (Fp.div (nth ai k) fc) (Fp.div (nth ar k) fc)) := by
  simp [averagePhases, nth, hr, hi]

theorem averageLevels_length (c : OaConfig) (fc : F64) (ar ai : List F64) :
    (averageLevels c fc ar ai).length = min ar.length ai.length := by
  simp [averageLevels]

theorem averagePhases_length (fc : F64) (ar ai : List F64) : (averagePhases fc ar ai).length = min ar.length ai.length := by
  simp [averagePhases]

theorem averagesMemory_holds (c : OaConfig) (fc : F64) (ar ai : List F64) (m : Memory) :
    Holds (averagesMemory c fc ar ai m) (.ram .avgSpec) (averageLevels c fc ar ai)
      ∧ Holds (averagesMemory c fc ar ai m) (.ram .avgPhase) (averagePhases fc ar ai) :=
  storeAt_storeAt_holds _ (by decide) _ _

theorem oaFinalBody_eq_ok {s t : State} :
    oaFinalBody s = .ok t ↔
      ∃ ar ai, (ar.length = s.oaCfg.fftLen.toNat / 2 ∧ Holds s.mem (.ram .avgRe) ar)
        ∧ (ai.length = s.oaCfg.fftLen.toNat / 2 ∧ Holds s.mem (.ram .avgIm) ai)
        ∧ t =
          { s with
            mem := averagesMemory s.oaCfg (Fp.ofNat s.oa.frameCount) ar ai s.mem
            dout0 := Fp.ofNat s.oa.frameCount } := by
  simp only [oaFinalBody, Run.bind_eq_ok, Memory.load_zero_eq_ok, Except.ok.injEq, eq_comm (b := t), exists_and_left,
    averagesMemory, averageLevels, averagePhases]

theorem exec_oaFinal_of_none {s : State} (ready : s.oaReady = true) (unframed : s.oa.frameCount = 0) :
    exec .oaFinal s = .next (s.raise .zeroFrames).complete :=
  exec_of_rule ((if_pos ready).trans (if_pos unframed))

theorem exec_oaFinal_of_frames {s t : State} (ready : s.oaReady = true) (framed : s.oa.frameCount ≠ 0)
    (answer : oaFinalBody s = .ok t) : exec .oaFinal s = .next t.complete :=
  exec_of_rule ((if_pos ready).trans ((if_neg framed).trans answer))

/-- What OA_FINAL of a ready unit answers (R287). -/
theorem exec_oaFinal_cases {s t : State} (ready : s.oaReady = true) (answer : exec .oaFinal s = .next t) :
    (s.oa.frameCount = 0 ∧ t = (s.raise .zeroFrames).complete)
      ∨ (s.oa.frameCount ≠ 0 ∧ ∃ u, oaFinalBody s = .ok u ∧ t = u.complete) := by
  by_cases count : s.oa.frameCount = 0
  · rw [exec_oaFinal_of_none ready count] at answer
    exact .inl ⟨count, (Host.Outcome.next.inj answer).symm⟩
  · obtain ⟨u, body, rfl⟩ := exec_eq_next.mp answer
    exact .inr ⟨count, u, ((if_pos ready).trans (if_neg count)).symm.trans body, rfl⟩

theorem averagesMemory_frame (c : OaConfig) (fc : F64) {ar ai : List F64} {n : Nat} (har : ar.length = n) (hai : ai.length = n)
    (m : Memory) :
    SameExcept (fun b i => (b = .ram .avgSpec ∨ b = .ram .avgPhase) ∧ i < n) m (averagesMemory c fc ar ai m) :=
  SameExcept.store (SameExcept.store (SameExcept.refl _ _) (by simp [averageLevels_length, har, hai]))
    (by simp [averagePhases_length, har, hai])

/-- A block stored over the words it has changes no word. -/
theorem storeAt_of_holds {m : Memory} {b : Bank} {vs : List Word} (h : Holds m b vs) :
    SameExcept (fun _ _ => False) m (m.storeAt b 0 vs) := by
  intro b' i _
  rw [Memory.word_storeAt]
  split
  case isTrue inside =>
    obtain ⟨rfl, -, below⟩ := inside
    exact (h i (by omega)).symm
  case isFalse => rfl

/-- The averages written again change no word (R287). -/
theorem averagesMemory_again (c : OaConfig) (fc : F64) (ar ai : List F64) (m : Memory) :
    SameExcept (fun _ _ => False) (averagesMemory c fc ar ai m) (averagesMemory c fc ar ai (averagesMemory c fc ar ai m)) := by
  obtain ⟨spec, phase⟩ := averagesMemory_holds c fc ar ai m
  exact SameExcept.trans (storeAt_of_holds spec) (storeAt_of_holds (Holds.store phase (by decide) 0 _))

/-- Settles O46: the averages word by word; and since no accumulator is written, a second OA_FINAL computes them again. -/
theorem oaFinal : Obligations.OaFinal := by
  refine ⟨fun s ready => ⟨exec_oaFinal_of_none ready, fun ar ai count arLen har aiLen hai => ?averages⟩,
    fun s t ready answer => ?again⟩
  case averages =>
    have body := oaFinalBody_eq_ok.mpr ⟨ar, ai, ⟨arLen, har⟩, ⟨aiLen, hai⟩, rfl⟩
    obtain ⟨levels, phases⟩ := averagesMemory_holds s.oaCfg (Fp.ofNat s.oa.frameCount) ar ai s.mem
    refine ⟨_, exec_oaFinal_of_frames ready count body, rfl, rfl, rfl, fun k hk => ?words, averagesMemory_frame _ _ arLen aiLen _,
      rfl⟩
    have hr : k < ar.length := arLen.symm ▸ hk
    have hi : k < ai.length := aiLen.symm ▸ hk
    exact ⟨(levels k (by simp [averageLevels_length, hr, hi])).trans (averageLevels_getElem? _ _ hr hi),
      (phases k (by simp [averagePhases_length, hr, hi])).trans (averagePhases_getElem? _ hr hi)⟩
  case again =>
    rcases exec_oaFinal_cases ready answer with ⟨count, rfl⟩ | ⟨count, u, body, rfl⟩
    · exact ⟨_, exec_oaFinal_of_none (by simpa using ready) (by simpa using count), by simp, by simp [SameExcept]⟩
    · obtain ⟨ar, ai, ⟨arLen, har⟩, ⟨aiLen, hai⟩, rfl⟩ := oaFinalBody_eq_ok.mp body
      let r : State :=
        { s with
          mem := averagesMemory s.oaCfg (Fp.ofNat s.oa.frameCount) ar ai s.mem
          dout0 := Fp.ofNat s.oa.frameCount }
      have frame := averagesMemory_frame s.oaCfg (Fp.ofNat s.oa.frameCount) arLen aiLen s.mem
      have second := (oaFinalBody_eq_ok (s := r.complete)).mpr
        ⟨ar, ai, ⟨arLen, SameExcept.holds frame (by simp) har⟩, ⟨aiLen, SameExcept.holds frame (by simp) hai⟩, rfl⟩
      exact ⟨_, exec_oaFinal_of_frames (s := r.complete) ready count second, rfl, averagesMemory_again _ _ _ _ _⟩

/-! ## WINGEN -/

theorem exec_wingen_of_bad_type {s : State} (ready : s.oaReady = true) (bad : 5 < s.oaReg.winType.toNat) :
    exec .wingen s = .next (s.raise .cfgMode).complete :=
  exec_of_rule ((if_pos ready).trans (if_pos bad))

theorem exec_wingen_of_bad_coef {s : State} (ready : s.oaReady = true) (type : s.oaReg.winType.toNat ≤ 5)
    (bad : Fp.isFinite s.oaReg.winCoef = false) : exec .wingen s = .next (s.raise .cfgValue).complete :=
  exec_of_rule ((if_pos ready).trans ((if_neg (Nat.not_lt.mpr type)).trans (if_neg (by simp [bad]))))

/-- The window WINGEN builds from the registers and the FFT table `tw` (R312). -/
def wingenWindow (tw : List F64) (s : State) : List F64 :=
  window tw s.oaCfg.fftLen.toNat s.oaReg.winType s.oaReg.winCoef

section
variable {s : State} {tw : List F64} (len : tw.length = s.oaCfg.fftLen.toNat) (table : Holds s.mem (.ram .fftTw) tw)
include len table

theorem wingenBody_of_no_gain (gain : icg s.oaCfg.fftLen.toNat (wingenWindow tw s) = none) :
    wingenBody s = .ok (s.raise .cfgWinGain) := by
  refine Run.bind_eq_ok.mpr ⟨tw, Memory.load_zero_eq_ok.mpr ⟨len, table⟩, ?_⟩
  rw [wingenWindow] at gain
  dsimp only
  rw [gain]

theorem wingenBody_of_gain {g : F64} (gain : icg s.oaCfg.fftLen.toNat (wingenWindow tw s) = some g) :
    wingenBody s = .ok (wingenDone (wingenWindow tw s) g s) := by
  refine Run.bind_eq_ok.mpr ⟨tw, Memory.load_zero_eq_ok.mpr ⟨len, table⟩, ?_⟩
  rw [wingenWindow] at gain ⊢
  dsimp only
  rw [gain]

end

/-- WINGEN with a good type and coefficient is decided by the gain of its window (R312). -/
theorem exec_wingen_of_body {s t : State} (ready : s.oaReady = true) (type : s.oaReg.winType.toNat ≤ 5)
    (coef : Fp.isFinite s.oaReg.winCoef = true) (body : wingenBody s = .ok t) : exec .wingen s = .next t.complete :=
  exec_of_rule ((if_pos ready).trans ((if_neg (Nat.not_lt.mpr type)).trans ((if_pos coef).trans body)))

/-- Settles O50. -/
theorem wingen : Obligations.Wingen := by
  intro s tw ready
  have gain := icg_eq s.oaCfg.fftLen.toNat (wingenWindow tw s)
  refine ⟨exec_wingen_of_bad_type ready, exec_wingen_of_bad_coef ready, fun type coef len table => ⟨fun bad => ?fail,
    fun sum finite => ?pass⟩⟩
  case fail => exact exec_wingen_of_body ready type coef (wingenBody_of_no_gain len table (gain.trans (if_pos bad)))
  case pass =>
    have nonzero : ¬ (Fp.eq (sumList (wingenWindow tw s)) Fp.zero = true
        ∨ Fp.isFinite (Fp.div (Fp.ofNat s.oaCfg.fftLen.toNat) (sumList (wingenWindow tw s))) = false) := by
      rintro (zero | infinite)
      · exact absurd (sum.symm.trans zero) (by decide)
      · exact absurd (infinite.symm.trans finite) (by decide)
    exact ⟨_, exec_wingen_of_body ready type coef (wingenBody_of_gain len table (gain.trans (if_neg nonzero))), rfl, rfl, rfl, rfl,
      window_length _ _ _ _, storeAt_holds _ _ _, SameExcept.store (SameExcept.refl _ _) (by simp [wingenWindow]), rfl⟩

/-! ## SINC_AT and SINC_RS -/

theorem resample_getElem? (frame lut : List F64) (gain : F64) (a : Nat) (rho : F64) (free : Nat) {n k : Nat} (hk : k < n) :
    (resample frame lut gain a n rho free)[k]? = some (resampleAt frame lut gain a rho free k) := by
  simp [resample, hk]

theorem resampleAt_of_finite {rho : F64} {k : Nat} (h : Fp.isFinite (Fp.mul (Fp.ofNat k) rho) = true) (frame lut : List F64)
    (gain : F64) (a free : Nat) :
    resampleAt frame lut gain a rho free k = sincAt frame lut gain a (Fp.mul (Fp.ofNat k) rho) := if_pos h

/-- A position that overflowed reads zeros through a finite table (R286, assumption 7). -/
theorem resampleAt_of_overflow {rho : F64} {k : Nat} (h : Fp.isFinite (Fp.mul (Fp.ofNat k) rho) = false) {lut : List F64}
    (finite : ∀ v ∈ lut, Fp.isFinite v = true) (frame : List F64) (gain : F64) (a free : Nat) :
    resampleAt frame lut gain a rho free k = Fp.zero :=
  (if_neg (by simp [h])).trans (sincPast_eq_zero finite a (free + k))

theorem exec_sincRs_of_bad_ratio {s : State} (ready : s.oaReady = true)
    (bad : Fp.isFinite s.din0 = false ∨ Fp.le s.din0 Fp.zero = true) : exec .sincRs s = .next (s.raise .badRatio).complete :=
  exec_of_rule ((if_pos ready).trans (if_pos (by simpa [State.in0] using bad)))

theorem exec_sincRs_of_ratio {s t : State} (ready : s.oaReady = true) (finite : Fp.isFinite s.din0 = true)
    (positive : Fp.le s.din0 Fp.zero = false) (answer : oaResample s.din0 s = .ok t) : exec .sincRs s = .next t.complete :=
  exec_of_rule ((if_pos ready).trans ((if_neg (by simp [State.in0, finite, positive])).trans answer))

/-- Settles O51: SINC_AT and each sample of RESAMPLE by their equations, and SINC_RS as RESAMPLE of the ratio in DIN0. -/
theorem sincRs : Obligations.SincRs := by
  refine ⟨fun _ _ _ _ _ _ => rfl, fun frame lut gain rho na n free k hk => ⟨fun finite => ?finite, fun past table => ?past⟩,
    fun s frame lut ready => ⟨exec_sincRs_of_bad_ratio ready, fun finite positive frameLen hframe lutLen hlut => ?command⟩⟩
  case finite => rw [resample_getElem? _ _ _ _ _ _ hk, resampleAt_of_finite finite]
  case past => rw [resample_getElem? _ _ _ _ _ _ hk, resampleAt_of_overflow past table]
  case command =>
    have answer := (oaResample_eq_ok (rho := s.din0)).mpr
      ⟨frame, lut, Memory.load_zero_eq_ok.mpr ⟨frameLen, hframe⟩, Memory.load_zero_eq_ok.mpr ⟨lutLen, hlut⟩, rfl⟩
    obtain ⟨re, im⟩ := storeAt_storeAt_holds s.mem (b := .ram .rsRe) (c := .ram .rsIm) (by decide)
      (resample frame lut s.oa.phaseGain s.oaCfg.sincNa.toNat s.oaCfg.fftLen.toNat s.din0 s.freeNext)
      (List.replicate s.oaCfg.fftLen.toNat Fp.zero)
    refine ⟨_, exec_sincRs_of_ratio ready finite positive answer, rfl, rfl, rfl, fun k hk => ?words,
      SameExcept.store (SameExcept.store (SameExcept.refl _ _) (by simp)) (by simp), rfl⟩
    have sample := (re k (by simpa using hk)).trans (resample_getElem? _ _ _ _ _ _ hk)
    exact ⟨fun inside => sample.trans (congrArg some (resampleAt_of_finite inside _ _ _ _ _)),
      fun past table => sample.trans (congrArg some (resampleAt_of_overflow past table _ _ _ _)),
      (congrArg Option.isSome sample).trans rfl, (im k (by simpa using hk)).trans (by simp [hk])⟩

end Sys2Proof.Machine
end

section
/-! PROOFS. The pure parts of the order analysis: FftCore, OrderExtraction, LevelFormulas. -/

namespace Sys2Proof.Fp

/-- A value not above another, and that other below a third (R12). -/
theorem lt_of_not_lt_of_lt {a b c : F64} (ha : isNaN a = false) (h : lt b a = false) (h' : lt b c = true) : lt a c = true := by
  unfold lt at *
  simp only [Bool.and_eq_true, Bool.not_eq_true', decide_eq_true_eq] at h' ⊢
  obtain ⟨⟨hb, hc⟩, below⟩ := h'
  simp only [ha, hb, Bool.not_false, Bool.true_and, decide_eq_false_iff_not] at h
  exact ⟨⟨ha, hc⟩, by omega⟩

theorem lt_self (a : F64) : lt a a = false := by
  simp [lt]

/-- Every comparison with a NaN is false (R12). -/
theorem lt_of_isNaN {a : F64} (h : isNaN a = true) (b : F64) : lt a b = false := by
  simp [lt, h]

end Sys2Proof.Fp

namespace Sys2Proof.Machine

/-! ## Bit reversal and the FFT -/

theorem bitReverse_succ (k i : Nat) : bitReverse (k + 1) i = 2 ^ k * (i % 2) + bitReverse k (i / 2) := by
  rw [bitReverse, Nat.one_shiftLeft, Nat.mul_comm]

theorem bitReverse_lt (k i : Nat) : bitReverse k i < 2 ^ k := by
  induction k generalizing i with
  | zero => exact Nat.one_pos
  | succ k ih =>
    have low := ih (i / 2)
    have bit : 2 ^ k * (i % 2) ≤ 2 ^ k * 1 := Nat.mul_le_mul_left _ (by omega)
    rw [bitReverse_succ, Nat.pow_succ]
    omega

theorem bitReverse_testBit {k j : Nat} (hj : j < k) (i : Nat) : (bitReverse k i).testBit j = i.testBit (k - 1 - j) := by
  induction k generalizing i with
  | zero => cases hj
  | succ k ih =>
    rw [bitReverse_succ, Nat.testBit_two_pow_mul_add _ (bitReverse_lt k _)]
    split
    case isTrue below => rw [ih below, Nat.testBit_div_two, show k - 1 - j + 1 = k + 1 - 1 - j by omega]
    case isFalse top =>
      obtain rfl : j = k := by omega
      simp [Nat.testBit_zero]

theorem bitReverse_bitReverse {k i : Nat} (hi : i < 2 ^ k) : bitReverse k (bitReverse k i) = i := by
  refine Nat.eq_of_testBit_eq fun j => ?_
  by_cases hj : j < k
  · rw [bitReverse_testBit hj, bitReverse_testBit (by omega), show k - 1 - (k - 1 - j) = j by omega]
  · have wide : 2 ^ k ≤ 2 ^ j := Nat.pow_le_pow_right (by decide) (Nat.not_lt.mp hj)
    rw [Nat.testBit_lt_two_pow (Nat.lt_of_lt_of_le (bitReverse_lt k _) wide),
      Nat.testBit_lt_two_pow (Nat.lt_of_lt_of_le hi wide)]

/-- The stages of an FFT over 2 ^ k words are those of the block lengths 2, 4, ..., 2 ^ k (R310). -/
theorem fftCore_two_pow (tw : List F64) (br : List Word) (k : Nat) (v : Spectrum) :
    fftCore tw br (2 ^ k) v =
      (List.range k).foldl (fun v q => fftStage tw (2 ^ k) (2 ^ (q + 1)) v) ((List.range (2 ^ k)).foldl (permuteAt br) v) := by
  have length : ∀ q, 2 <<< q = 2 ^ (q + 1) := fun q => by rw [Nat.shiftLeft_eq, Nat.pow_succ, Nat.mul_comm]
  simp only [fftCore, Nat.log2_two_pow, length]

/-! ## The first maximum -/

/-- `p` is the first maximum of `lin` over lo..hi, as the search of R284 finds it. -/
structure IsFirstMax (lin : List F64) (lo hi p : Nat) : Prop where
  low : lo ≤ p
  high : p ≤ hi
  top : ∀ k, lo ≤ k → k ≤ hi → Fp.lt (nth lin p) (nth lin k) = false
  first : ∀ k, lo ≤ k → k < p → Fp.lt (nth lin k) (nth lin p) = true ∨ Fp.isNaN (nth lin k) = true
  start : Fp.isNaN (nth lin lo) = true → p = lo

theorem IsFirstMax.single (lin : List F64) (lo : Nat) : IsFirstMax lin lo lo lo where
  low := Nat.le_refl _
  high := Nat.le_refl _
  top k low high := by rw [Nat.le_antisymm high low]; exact Fp.lt_self _
  first k low high := absurd low (Nat.not_le.mpr high)
  start _ := rfl

/-- A bin not above the maximum so far leaves it (R284). -/
theorem IsFirstMax.keep {lin : List F64} {lo hi p : Nat} (h : IsFirstMax lin lo hi p)
    (below : Fp.lt (nth lin p) (nth lin (hi + 1)) = false) : IsFirstMax lin lo (hi + 1) p :=
  { h with
    high := Nat.le_succ_of_le h.high
    top := fun k low high => by
      rcases Nat.le_succ_iff.mp high with old | rfl
      · exact h.top k low old
      · exact below }

/-- A bin above the maximum so far is above every earlier bin that is no NaN (R284). -/
theorem IsFirstMax.move {lin : List F64} {lo hi p : Nat} (h : IsFirstMax lin lo hi p)
    (above : Fp.lt (nth lin p) (nth lin (hi + 1)) = true) : IsFirstMax lin lo (hi + 1) (hi + 1) where
  low := Nat.le_trans h.low (Nat.le_succ_of_le h.high)
  high := Nat.le_refl _
  top k low high := by
    rcases Nat.le_succ_iff.mp high with old | rfl
    · refine Bool.eq_false_iff.mpr fun higher => ?_
      exact absurd ((h.top k low old).symm.trans (Fp.lt_trans above higher)) (by decide)
    · exact Fp.lt_self _
  first k low high := by
    cases nan : Fp.isNaN (nth lin k) with
    | true => exact .inr rfl
    | false => exact .inl (Fp.lt_of_not_lt_of_lt nan (h.top k low (Nat.lt_succ_iff.mp high)) above)
  start nan := by
    rw [h.start nan, Fp.lt_of_isNaN nan] at above
    cases above

theorem firstMax_isFirstMax (lin : List F64) (lo d : Nat) : IsFirstMax lin lo (lo + d) (firstMax lin lo (lo + d)) := by
  unfold firstMax
  rw [Nat.add_sub_cancel_left]
  induction d with
  | zero => exact .single lin lo
  | succ d ih =>
    rw [List.range'_1_concat, List.foldl_append, List.foldl_cons, List.foldl_nil, Nat.add_right_comm lo 1 d]
    split
    case isTrue above => exact ih.move above
    case isFalse below => exact ih.keep (Bool.eq_false_iff.mpr below)

/-! ## ORDERS -/

theorem orderList_getElem? (c : OaConfig) (n : Nat) (lin : List F64) {i : Nat} (hi : i < c.numOrders.toNat) :
    (orderList c n lin)[i]? = some (outLevel c (orderPeak c n lin i)) := by
  simp [orderList, hi]

/-- The first bin of the search for order number `i + 1` (R284). -/
def orderLow (c : OaConfig) (n i : Nat) : Int := max 0 (Fp.floor (Fp.add (orderBin c n i) Fp.half) - (c.orderAdj.toNat : Int))

/-- The last bin of the search (R284). -/
def orderHigh (c : OaConfig) (n i : Nat) : Int :=
  min (((n / 2 : Nat) : Int) - 1) (Fp.floor (Fp.add (orderBin c n i) Fp.half) + (c.orderAdj.toNat : Int))

theorem orderPeak_of_not_finite {c : OaConfig} {n i : Nat} (h : Fp.isFinite (orderBin c n i) = false) (lin : List F64) :
    orderPeak c n lin i = Fp.zero := if_neg (by simp [h])

/-- An order beyond the spectrum (R284). -/
theorem orderPeak_of_empty {c : OaConfig} {n i : Nat} (h : Fp.isFinite (orderBin c n i) = true)
    (empty : orderHigh c n i < orderLow c n i) (lin : List F64) : orderPeak c n lin i = Fp.zero :=
  (if_pos h).trans (if_pos empty)

theorem orderPeak_of_range {c : OaConfig} {n i : Nat} (h : Fp.isFinite (orderBin c n i) = true)
    (range : orderLow c n i ≤ orderHigh c n i) (lin : List F64) :
    orderPeak c n lin i = vertex lin (firstMax lin (orderLow c n i).toNat (orderHigh c n i).toNat) :=
  (if_pos h).trans (if_neg (Int.not_lt.mpr range))

/-- The vertex of the parabola, with the tests of R284 in one condition. -/
theorem vertex_eq (lin : List F64) (p : Nat) :
    let y0 := nth lin p
    let ym := nth lin (p - 1)
    let yp := nth lin (p + 1)
    let den := Fp.add (Fp.sub ym (Fp.mul Fp.two y0)) yp
    vertex lin p =
      if 1 ≤ p ∧ p + 1 ≤ lin.length - 1 ∧ Fp.le ym y0 = true ∧ Fp.le yp y0 = true ∧ ¬ Fp.eq den Fp.zero = true then
        Fp.sub y0 (Fp.mul (Fp.mul Fp.quarter (Fp.sub ym yp)) (Fp.div (Fp.mul Fp.half (Fp.sub ym yp)) den))
      else y0 := by
  intro y0 ym yp den
  have interior : 1 ≤ p ∧ p + 1 ≤ lin.length - 1 ↔ 1 ≤ p ∧ p + 2 ≤ lin.length := by omega
  have peak : (Fp.le ym y0 && Fp.le yp y0 && Fp.ne den Fp.zero) = true
      ↔ Fp.le ym y0 = true ∧ Fp.le yp y0 = true ∧ ¬ Fp.eq den Fp.zero = true := by
    simp only [Fp.ne, Bool.and_eq_true, Bool.not_eq_true', Bool.not_eq_true, and_assoc]
  have tests := and_congr interior peak.symm
  rw [and_assoc] at tests
  rw [if_congr tests rfl rfl, ite_and]
  rfl

/-- Settles O47. -/
theorem orderExtraction : Obligations.OrderExtraction := by
  intro c n i lin length hi bf mid lo high
  have order := orderList_getElem? c n lin hi
  refine ⟨fun infinite => ?infinite, fun finite empty => ?empty, fun finite range => ?range⟩
  case infinite => rw [order, orderPeak_of_not_finite infinite]
  case empty => rw [order, orderPeak_of_empty finite empty]
  case range =>
    have nonneg : 0 ≤ lo := Int.le_max_left _ _
    have width : lo.toNat + (high.toNat - lo.toNat) = high.toNat := by omega
    have found := firstMax_isFirstMax lin lo.toNat (high.toNat - lo.toNat)
    rw [width] at found
    refine ⟨firstMax lin lo.toNat high.toNat, ?_, ?_, fun k low below => found.top k (by omega) (by omega),
      fun k low below => found.first k (by omega) below, fun nan => ?_, ?peak⟩
    · have := found.low
      omega
    · have := found.high
      omega
    · rw [found.start nan, Int.toNat_of_nonneg nonneg]
    case peak =>
      have parabola := vertex_eq lin (firstMax lin lo.toNat high.toNat)
      rw [length] at parabola
      rw [order, orderPeak_of_range finite range]
      exact congrArg (fun v => some (outLevel c v)) parabola

/-! ## Levels -/

theorem nth_of_lt {xs : List F64} {k : Nat} (hk : k < xs.length) : xs[k]? = some (nth xs k) := by
  simp [nth, hk]

theorem scaled_getElem? {n k : Nat} {xs : List F64} (len : xs.length = n) (hk : k < n / 2) :
    (scaled n xs)[k]? = some (Fp.mul (nth xs k) (Fp.div Fp.two (Fp.ofNat n))) := by
  have inside : k < xs.length := by omega
  simp [scaled, hk, nth, inside]

/-- OUT with the maximum of R13 written out (R283). -/
theorem outLevel_eq (c : OaConfig) (v : F64) :
    outLevel c v =
      if c.logMode = 1 then Fp.mul c.dbScale (Config.numLog10 (if Fp.lt c.logFloor v = true then v else c.logFloor)) else v :=
  rfl

/-- One order added to the sum: its amplitude, or its power (R285). -/
theorem add_sumTerm (c : OaConfig) (acc v : F64) :
    Fp.add acc (sumTerm c v) =
      let a := if c.logMode = 1 then Config.numPow10 (Fp.div v c.dbScale) else v
      if c.cohType = 0 then Fp.add acc a else Fp.add acc (Fp.mul a a) :=
  apply_ite (Fp.add acc) _ _ _

/-- Settles O48. -/
theorem levelFormulas : Obligations.LevelFormulas := by
  refine ⟨fun xs w g k len hk => ?window, fun n z k re im hk => ?spectrum, outLevel_eq, fun c orders => ?sum⟩
  case window =>
    have hw : k < w.length := len ▸ hk
    simp [applyWindow, List.getElem?_zipWith, nth_of_lt hk, nth_of_lt hw]
  case spectrum =>
    have hre := scaled_getElem? re hk
    have him := scaled_getElem? im hk
    exact ⟨hre, him, by simp [linOf, List.getElem?_zipWith, hre, him, magnitude]⟩
  case sum =>
    unfold sumLevel sumList
    rw [List.foldl_map, funext₂ (add_sumTerm c)]

end Sys2Proof.Machine

namespace Sys2Proof.Laws

open Machine

/-- Settles O41: after `fftCore_two_pow`, the loops of the rule are the model's by definition. -/
theorem fftCore : Obligations.FftCore :=
  ⟨fun k _ hi => ⟨bitReverse_lt k _, fun _ hj => bitReverse_testBit hj _, bitReverse_bitReverse hi⟩, fftCore_two_pow⟩

end Sys2Proof.Laws
end

section
/-! PROOFS. FFT in place, NOP and CLR_ERR: FftInPlace, NopAndClrErr. -/

namespace Sys2Proof.Machine

open Safety

/-! ## FFT -/

/-- A block that was read has no unwritten word (R62). -/
theorem Memory.load_zero_word_ne_none {m : Memory} {b : Bank} {n k : Nat} {vs : List Word} (read : m.load b 0 n = .ok vs)
    (hk : k < n) : m.word b k ≠ none := by
  have written := Memory.load_isOk.mp ⟨vs, read⟩ k hk
  rw [Nat.zero_add] at written
  exact Option.isSome_iff_ne_none.mp written

/-- FFT of a ready unit is its run (R311). -/
theorem ruleOf_fft_of_ready {s : State} (ready : s.oaReady = true) : ruleOf .fft s = fftRun s := if_pos ready

/-- The memory after FFT on the work words `re`, `im` and the tables `tw`, `br` (R311). -/
def fftMemory (tw : List F64) (br : List Word) (n : Nat) (re im : List F64) (m : Memory) : Memory :=
  (m.storeAt (.ram .rsRe) 0 (fftCore tw br n ⟨re, im⟩).re).storeAt (.ram .rsIm) 0 (fftCore tw br n ⟨re, im⟩).im

theorem fftMemory_holds (tw : List F64) (br : List Word) (n : Nat) (re im : List F64) (m : Memory) :
    Holds (fftMemory tw br n re im m) (.ram .rsRe) (fftCore tw br n ⟨re, im⟩).re
      ∧ Holds (fftMemory tw br n re im m) (.ram .rsIm) (fftCore tw br n ⟨re, im⟩).im :=
  storeAt_storeAt_holds _ (by decide) _ _

/-- FFT writes no word beyond the arrays it transforms, since they keep their lengths (R310). -/
theorem fftMemory_frame (tw : List F64) (br : List Word) {n : Nat} {re im : List F64} (reLen : re.length = n)
    (imLen : im.length = n) (m : Memory) :
    SameExcept (fun b i => (b = .ram .rsRe ∨ b = .ram .rsIm) ∧ i < n) m (fftMemory tw br n re im m) := by
  obtain ⟨keepsRe, keepsIm⟩ := fftCore_lengths tw br n ⟨re, im⟩
  exact SameExcept.store (SameExcept.store (SameExcept.refl _ _) (by simp [keepsRe, reLen])) (by simp [keepsIm, imLen])

/-- An FFT that answers has read every word of RS_RE and RS_IM below N (R62, R311). -/
theorem fftRun_written {s t : State} (answer : fftRun s = .ok t) {k : Nat} (hk : k < s.oaCfg.fftLen.toNat) :
    s.mem.word (.ram .rsRe) k ≠ none ∧ s.mem.word (.ram .rsIm) k ≠ none := by
  obtain ⟨_, _, _, _, readRe, readIm, -⟩ := fftRun_eq_ok.mp answer
  exact ⟨Memory.load_zero_word_ne_none readRe hk, Memory.load_zero_word_ne_none readIm hk⟩

/-- Settles O49: the run reads the held words and stores arrays of the same lengths; a run that answers has read no unwritten one. -/
theorem fftInPlace : Obligations.FftInPlace := by
  refine ⟨fun s re im tw br ready reLen hre imLen him twLen htw brLen hbr => ?transform,
    fun s k ready hk unwritten => ?fault⟩
  case transform =>
    have run : fftRun s = .ok { s with mem := fftMemory tw br s.oaCfg.fftLen.toNat re im s.mem } :=
      fftRun_eq_ok.mpr
        ⟨re, im, tw, br, Memory.load_zero_eq_ok.mpr ⟨reLen, hre⟩, Memory.load_zero_eq_ok.mpr ⟨imLen, him⟩,
          Memory.load_zero_eq_ok.mpr ⟨twLen, htw⟩, Memory.load_zero_eq_ok.mpr ⟨brLen, hbr⟩, rfl⟩
    obtain ⟨keepsRe, keepsIm⟩ := fftCore_lengths tw br s.oaCfg.fftLen.toNat ⟨re, im⟩
    obtain ⟨holdsRe, holdsIm⟩ := fftMemory_holds tw br s.oaCfg.fftLen.toNat re im s.mem
    exact ⟨_, exec_of_rule ((ruleOf_fft_of_ready ready).trans run), rfl, rfl, keepsRe.trans reLen, keepsIm.trans imLen, holdsRe,
      holdsIm, fftMemory_frame tw br reLen imLen s.mem, rfl⟩
  case fault =>
    refine exec_unwritten fun u answer => ?_
    obtain ⟨writtenRe, writtenIm⟩ := fftRun_written ((ruleOf_fft_of_ready ready).symm.trans answer) hk
    exact unwritten.elim writtenRe writtenIm

/-! ## NOP and CLR_ERR -/

/-- The completion ends the BUSY pulse and sets CMD_DONE_EV, bit 7 of IRQ_STATUS (R131), and nothing else. -/
theorem State.complete_eq (s : State) : s.complete = { s with cmd := none, irqStatus := s.irqStatus ||| 0x80#8 } := rfl

/-- Settles O22: both rules always answer, NOP with the state itself and CLR_ERR with the error record cleared. -/
theorem nopAndClrErr : Obligations.NopAndClrErr := by
  refine ⟨⟨rfl, rfl⟩, fun s => ⟨?nop, ?clrErr⟩⟩
  case nop =>
    have rule : ruleOf .nop s = .ok s := rfl
    rw [exec_of_rule rule, State.complete_eq]
  case clrErr =>
    have rule : ruleOf .clrErr s = .ok s.clearError := rfl
    rw [exec_of_rule rule, State.complete_eq, State.clearError]

end Sys2Proof.Machine
end

section
/-! PROOFS. Recording an error: RaiseRecords. -/

namespace Sys2Proof.Machine

/-- ERR_EV is bit 0 of IRQ_STATUS (R34). -/
theorem Irq.mask_err : Irq.mask .err = 0x01#8 := rfl

/-- The fifteen error codes, in the order of the table of R342. -/
theorem ErrCode.map_code :
    [ErrCode.illegalCmd, .busyWrite, .notInit, .cfgTable, .cfgFftLen, .cfgLength, .cfgMode, .cfgValue, .cfgWinGain, .overrun,
        .noFrame, .badSpeed, .zeroFrames, .ramAccess, .badRatio].map ErrCode.code
      = [0x01#8, 0x02#8, 0x03#8, 0x04#8, 0x05#8, 0x06#8, 0x07#8, 0x08#8, 0x09#8, 0x0A#8, 0x0B#8, 0x0C#8, 0x0D#8, 0x0E#8, 0x0F#8] :=
  rfl

/-- Settles O18: the recording by `State.raise_eq`, with ERR_EV at its bit, and the codes by the table. -/
theorem raiseRecords : Obligations.RaiseRecords := by
  refine ⟨fun c s => ?records, ErrCode.map_code⟩
  case records => rw [State.raise_eq, Irq.mask_err]

end Sys2Proof.Machine
end

section
/-! PROOFS. Accesses and time while a command is in progress, and the power-on reset: BusyAccess, EventuallyPerformed,
PowerOnReset. -/

namespace Sys2Proof.Machine

open Safety

/-! ## Accesses while BUSY = 1 -/

theorem hostRead_ramData_busy {s : State} (hb : s.busy = true) :
    hostRead 0x068#12 s = .ok ((s.raise .busyWrite).record 0) := by
  unfold hostRead
  rw [show Reg.ofOffset 0x068#12 = some .ramData from Reg.ofOffset_offset .ramData, hb]
  rfl

/-- A legal read anywhere but at RAM_DATA returns the value of the register there, or 0 where there is none (R104). -/
theorem hostRead_of_ne_ramData {o : BitVec 12} (ho : o ≠ 0x068#12) (s : State) :
    hostRead o s = .ok (s.record (((Reg.ofOffset o).map s.readReg).getD 0)) := by
  cases hr : Reg.ofOffset o with
  | none =>
    unfold hostRead
    rw [hr]
    rfl
  | some r =>
    obtain rfl := Reg.offset_of_ofOffset hr
    have notData : r ≠ .ramData := by
      rintro rfl
      exact ho rfl
    exact hostRead_offset notData s

/-- No error is seen in the internal elements (R39, R341). -/
theorem State.observe_raise (c : ErrCode) (s : State) (r : ObsReg) : (s.raise c).observe r = s.observe r := by
  rw [State.raise_eq]
  cases r <;> rfl

/-- The error record is seen in STATUS and IRQ_STATUS alone (R33, R34, R341). -/
theorem State.readReg_raise (c : ErrCode) (s : State) {r : Reg} (hs : r ≠ .status) (hi : r ≠ .irqStatus) :
    (s.raise c).readReg r = s.readReg r := by
  cases r with
  | status => exact absurd rfl hs
  | irqStatus => exact absurd rfl hi
  | obs x => exact State.observe_raise c s x
  | _ => simp [State.readReg]

/-- Settles O13: a write by `hostWrite_busy`, a read by whether RAM_DATA is at its offset. -/
theorem busyAccess : Obligations.BusyAccess := by
  intro a s hb legal
  refine ⟨fun hd => ?write, fun hd ho => ?ramData, fun hd ho => ?read, fun r hs hi => State.readReg_raise _ s hs hi⟩
  case write => rw [busAccess_write legal hd, hostWrite_busy hb]
  case ramData => rw [busAccess_read legal hd, ho, hostRead_ramData_busy hb]
  case read => rw [busAccess_read legal hd, hostRead_of_ne_ramData ho]

/-! ## The host's moves before a perform -/

/-- A read adds its value to the host's record and leaves the rest of the host's side (R391). -/
theorem hostRead_host {o : BitVec 12} {s t : State} (h : hostRead o s = .ok t) :
    ∃ v, t.host = { s.host with reads := v :: s.host.reads } := by
  obtain ⟨v, u, rfl, hu⟩ := hostRead_cases h
  have host : u.host = s.host := by
    rcases hu with rfl | ⟨-, rfl⟩ | ⟨-, rfl | rfl⟩
    · rfl
    · exact State.raise_host _ s
    · exact State.raise_host _ s
    · rfl
  refine ⟨v, ?_⟩
  rw [← host]
  rfl

/-- What the host's operation `op` leaves, made in `s` while a command is in progress: the command and its schedule, and a program
that holds nothing new but `op` itself, where it is a WAIT. -/
structure StaysPending (op : HostOp) (s t : State) : Prop where
  cmd : t.cmd = s.cmd
  lag : t.host.lag = s.host.lag
  queue : ∀ x ∈ t.host.queue, x = op ∨ x ∈ s.host.queue

/-- While BUSY = 1 every operation that is neither a forbidden access nor a power-on reset answers, and the command stays in
progress (R138, R384). -/
theorem hostOp_staysPending {op : HostOp} {s : State} (hb : s.busy = true) (plain : plainOp op = true) :
    ∃ t, hostOp op s = .ok t ∧ StaysPending op s t := by
  cases op with
  | bus a =>
    cases hd : a.dir with
    | write =>
      refine ⟨s.raise .busyWrite, (busAccess_write plain hd s).trans (congrArg _ (hostWrite_busy hb _ _)), ?_⟩
      exact ⟨State.raise_cmd _ s, by rw [State.raise_host], fun x hx => .inr (by rwa [State.raise_host] at hx)⟩
    | read =>
      obtain ⟨t, ht, cmd⟩ := hostRead_busy hb a.offset
      obtain ⟨v, host⟩ := hostRead_host ht
      exact ⟨t, (busAccess_read plain hd s).trans ht, cmd, by rw [host], fun x hx => .inr (by rwa [host] at hx)⟩
  | wait =>
    refine ⟨waitTurn s, rfl, ?_⟩
    rw [waitTurn_eq, hb]
    exact ⟨rfl, rfl, fun x hx => List.mem_cons.mp hx⟩
  | chkerr => exact ⟨chkerrTurn s, rfl, rfl, rfl, fun x hx => .inr hx⟩
  | powerOn => cases plain

/-- A move of the host before the perform (R385): one fewer is left, and the host's program stays plain. -/
theorem step_staysPending {s : State} {w : Word} (hc : s.cmd = some w) (hf : hostFirst s = true)
    (plain : ∀ op ∈ s.host.queue, plainOp op = true) :
    ∃ t, step s = .next t ∧ t.cmd = some w ∧ t.host.lag = s.host.lag - 1 ∧ ∀ op ∈ t.host.queue, plainOp op = true := by
  obtain ⟨lag, nonempty⟩ := (hostFirst_iff s).mp hf
  obtain ⟨op, rest, hq⟩ := List.exists_cons_of_ne_nil nonempty
  rw [hq, List.forall_mem_cons] at plain
  obtain ⟨plainHead, plainRest⟩ := plain
  obtain ⟨t, ht, stays⟩ :=
    hostOp_staysPending (s := { s with host := { s.host with queue := rest, lag := s.host.lag - 1 } })
      (busy_eq_true hc) plainHead
  refine ⟨t, ?_, stays.cmd.trans hc, stays.lag, fun x hx => ?_⟩
  · rw [step_busy_cons hc lag hq, ht]
    rfl
  · rcases stays.queue x hx with rfl | hx
    · exact plainHead
    · exact plainRest x hx

/-! ## Every command is performed -/

theorem run_succ_of_step {M : Host.Core} {s t : M.State} (h : M.step s = .next t) (k : Nat) : M.run (k + 1) s = M.run k t := by
  simp only [Host.Core.run, h]

/-- Settles O8, by induction on the moves the schedule leaves the host: the next step is the perform, or it is one of these moves. -/
theorem eventuallyPerformed : Obligations.EventuallyPerformed := by
  intro s w i hc hd plain
  induction hl : s.host.lag generalizing s with
  | zero =>
    have performed : hostFirst s = false := by rw [Bool.eq_false_iff, ne_eq, hostFirst_iff]; omega
    exact ⟨0, s, Nat.zero_le _, rfl, hc, step_perform hc hd performed⟩
  | succ n ih =>
    cases hf : hostFirst s with
    | false => exact ⟨0, s, Nat.zero_le _, rfl, hc, step_perform hc hd hf⟩
    | true =>
      obtain ⟨u, hu, cmd, lag, plain'⟩ := step_staysPending hc hf plain
      obtain ⟨k, t, hk, hrun, performed⟩ := ih u cmd plain' (by omega)
      exact ⟨k + 1, t, by omega, (run_succ_of_step (M := Sys2Proof.core) hu k).trans hrun, performed⟩

/-! ## The power-on reset -/

/-- A platform reset forgets the schedule of the command it abandons (R381), so it does not matter how much of it was left. -/
theorem platformReset_eq (s : State) :
    platformReset s = { State.reset with par := s.par, host := { s.host with lag := 0 }, freeNext := s.freeNext } := rfl

/-- Settles O21: with and without a command in progress the step is the reset at the head of the host's program. -/
theorem powerOnReset : Obligations.PowerOnReset := by
  intro s rest hq turn
  have reset : ∀ t : State, settle (hostOp .powerOn t) = .next (platformReset t) := fun _ => rfl
  cases hc : s.cmd with
  | none => rw [step_idle_cons hc hq, reset, platformReset_eq]
  | some w =>
    have lag : 0 < s.host.lag := by simpa [hc] using turn
    rw [step_busy_cons hc lag hq, reset, platformReset_eq]

end Sys2Proof.Machine
end
